-- ==== Sys2Proof/Word.lean ====
section
/-! DEFINITION. The word types of the model and the sparse table: a list of key and value pairs with rising keys, in
which an unlisted key stands for a default that each use names. -/
namespace Sys2Proof

abbrev Byte := BitVec 8
abbrev Word := BitVec 32
abbrev DWord := BitVec 64

/-- A sparse table from natural keys. Its readers and writers are in Machine/Table.lean. -/
abbrev Tab (α : Type) := List (Nat × α)

end Sys2Proof
end

