-- ==== Sys2Proof/Syntax.lean ====
section
/-! DEFINITION. Abstract syntax: the operand classes (Table 3.3), the fields of an instruction word (Table 3.1), the
operands of the machine's other steps, and one constructor per row of spec/opcode_table.json. -/
namespace Sys2Proof

/-- TYPE codes of Table 2.2 and R39. Code 0xF is reserved in every instruction (Table 3.2). -/
inductive Ty where
  | n32 | s32 | n64 | s64 | f32 | bf16x2 | f16x2 | e4m3x4 | e5m2x4 | e2m1x8 | s8x4 | n8x4 | s4x8 | n4x8 | b32 | reserved
  deriving DecidableEq, Repr

/-- One 11-bit operand field (Tables 3.3 and 3.4). A field that names no listed class and index is `reserved`. -/
inductive Opnd where
  /-- v0-v255 (class 000); the field 0x000 of an unused position is `v 0`. -/
  | v (n : BitVec 8)
  /-- k0-k63 (class 001). -/
  | k (n : BitVec 6)
  /-- t0-t15 (class 010). -/
  | t (n : BitVec 4)
  /-- g0-g31 (class 011). -/
  | g (n : BitVec 5)
  /-- p0-p7 (class 100, 0x00-0x07). -/
  | p (n : BitVec 3)
  /-- a0-a15 (class 100, 0x40-0x4F). -/
  | a (n : BitVec 4)
  /-- m0-m15 (class 100, 0x80-0x8F). -/
  | m (n : BitVec 4)
  /-- special sources, 0xC0 plus n, n from 0 to 9 (class 100). -/
  | special (n : Fin 10)
  /-- a literal from -128 to 127 (class 101). -/
  | lit (n : BitVec 8)
  /-- ls0-ls2 (class 110). -/
  | latch (n : Fin 3)
  /-- the zero class, 0x700. -/
  | zero
  /-- any other field value. -/
  | reserved (raw : BitVec 11)
  deriving DecidableEq, Repr

/-- The fields of one instruction word other than OP (Table 3.1). `flags` is MOD[79:76] and `var` MOD[83:80]. -/
structure Fields where
  ty : Ty
  var : BitVec 4
  flags : BitVec 4
  d : Opnd
  a : Opnd
  b : Opnd
  gn : Bool
  gp : BitVec 3
  stall : BitVec 4
  hold : BitVec 2
  ls : BitVec 2
  await : BitVec 8
  imm : BitVec 23
  deriving DecidableEq, Repr

/-- An issuer of instructions: a core (die * 145 + core index, 144 being the headstock core), a group slot (64 and above
name the core's matrix stream) and a split slot. -/
structure Agent where
  core : Nat
  slot : Nat
  split : Nat
  deriving DecidableEq, Repr

/-- Where one group of a placement goes: core, quadrant, group slot, allocation banks and grain granules (R133, R135),
and the first 16 KiB scratchpad block of its team. -/
structure GroupSite where
  core : Nat
  quad : Nat
  slot : Nat
  banks : List Nat
  grains : List Nat
  spBase : Nat
  deriving DecidableEq, Repr

/-- Who writes a queue descriptor: the physical function, or a virtual function (R278). -/
inductive Writer where
  | physical
  | virtualFn (n : Nat)
  deriving DecidableEq, Repr

/-- A fault ring (R331): the retryable or terminal ring of a die, or the ring of a virtual function. -/
inductive RingId where
  | retry (die : Nat)
  | term (die : Nat)
  | vf (n : Nat)
  deriving DecidableEq, Repr

/-- A pair REPLAY_PC, REPLAY_CTL (Table 15.6). -/
inductive ReplayPair where
  | die (d : Nat)
  | vf (n : Nat)
  deriving DecidableEq, Repr

/-- The storage in which STORAGE_ECC_UNCORR finds an error (R347). -/
inductive StorageKind where
  | registers | scratchpad | accumulators | checkpoint
  deriving DecidableEq, Repr

/-- The unit of a failure warning (R348). -/
inductive WarnUnit where
  | stack (n : Nat)
  | slice (die n : Nat)
  | core (n : Nat)
  deriving DecidableEq, Repr

/-- Fields of a queue descriptor that a register write reaches while STATE is 00 (R279). -/
inductive QField where
  | ring | ctab | gstat | log2n | cls | part | weight | etime | niss | res | iss | reservedBits
  deriving DecidableEq, Repr

/-- A register without a row of its own (REGISTER_WRITE). -/
inductive HostReg where
  | sliceCfg (die slice : Nat)
  | regCfg (channel : Nat)
  | allowCfg (n : Nat)
  | rfBudget (die core quad : Nat)
  | accessEntry (target master : Nat)
  | queueField (queue : Nat) (f : QField)
  | rloc (ring : RingId)
  | rcfg (ring : RingId)
  | farb (die : Nat)
  | replayPc (who : ReplayPair)
  | fmtwin (die n : Nat)
  | capTable (fn idx : Nat)
  | pte (frame : Nat)
  | anchor (die idx : Nat)
  | powerCap
  | wdLimit (part : Nat)
  | suspectClear (core : Nat)
  /-- Records of the service controller and of firmware that the manual names without an address: the partition that holds a
  core (R302), a partition's life, tenant, context, virtual function and reach list (R369, R374, R376), a context's virtual
  device (R375), tested storage (R347), the limits of R348, a peer's new incarnation (R373), and the fault that a peer's tables
  answer for a page, an input from outside (R369). -/
  | coreOwner (core : Nat)
  | partitionLife (part : Nat)
  | partitionTenant (part : Nat)
  | partitionContext (part : Nat)
  | partitionFunction (part : Nat)
  | reachList (part : Nat)
  | contextDevice (context : BitVec 12)
  | storageTested (core : Nat) (kind : StorageKind)
  | warnThreshold (unit : WarnUnit)
  | warnWindow (unit : WarnUnit)
  | peer (device : BitVec 20)
  | peerAnswer (device : BitVec 20) (page : Nat)
  deriving DecidableEq, Repr

/-- Where a register is written: by headstock firmware directly, or in a function's host register window, at an offset from
the entry of a feature (R387). -/
inductive RegPlace where
  | firmware (reg : HostReg)
  | window (fn : Writer) (fid off : Nat)
  deriving DecidableEq, Repr

/-- A host mailbox slot (Table 18.6) as the engine reads it. -/
structure MailSlot where
  seq : BitVec 16
  cut : Bool
  rd : Bool
  len : BitVec 7
  off : BitVec 64
  cidx : BitVec 16
  data : List Byte
  deriving DecidableEq, Repr

/-- What a remote agent's access does. -/
inductive RemoteKind where
  | load (len : Nat)
  | store (data : List Byte)
  /-- An atomic of Table 11.2 by its code, on the word of a type. -/
  | atomic (op : BitVec 4) (ty : Ty) (c : DWord)
  | cas (ty : Ty) (c new : DWord)
  /-- A cut-word operation: 0 REL, 1 CUTINIT, 2 PUBCUT, 3 FINCUT. -/
  | cut (kind : BitVec 2)
  deriving DecidableEq, Repr

/-- A request that arrives over Torwen (R369, R371, R372). -/
structure RemoteReq where
  device : BitVec 20
  incarnation : BitVec 32
  tenant : BitVec 12
  addr : Nat
  kind : RemoteKind
  deriving DecidableEq, Repr

/-- What bring-up meets (Tables 18.1 and 18.3): inputs of POWER_ON_RESET and RECOVERY_END. -/
structure BringUp where
  inputOk : Bool
  flashOk : Bool
  imageLen : Nat
  signatureOk : Bool
  versionOk : Bool
  leushOk : Bool
  stacksOk : BitVec 16
  pcieOk : Bool
  cxlOk : Bool
  deriving DecidableEq, Repr

/-- What CHECKPOINT_RESTORE reads (R382, R383): the job, the two manifest slots' address, the shards' addresses, the job's devices,
where the data of each shard goes on its device, the context that asked, and the job's partition. Addresses of this module are
physical. -/
structure RestoreReq where
  job : BitVec 64
  manifest : Nat
  shards : List Nat
  devices : List (BitVec 20)
  dest : List Nat
  context : BitVec 12
  part : Nat
  deriving DecidableEq, Repr

/-- The phases of R380. -/
inductive MigrationPhase where
  | copyPages (context : BitVec 12) (dest : BitVec 20)
  | stop (context : BitVec 12) (dest : BitVec 20) (snapshotAt : Nat) (stubs : List Nat)
  | confirmed (context : BitVec 12)
  | arrive (context : BitVec 12) (part : Nat) (meters : List DWord) (prev : BitVec 384) (life seq : BitVec 64) (snapshotAt : Nat)
  deriving DecidableEq, Repr

/-- One constructor per row of spec/opcode_table.json. Instructions carry their word's fields; the machine's other steps
carry what the environment or an engine decides. -/
inductive Instr where
  /-- NOP (R84). Does nothing beyond taking its place in the run and applying its STALL and AWAIT hints. -/
  | nop (w : Fields)
  /-- RUNEND (R20). Ends the run and assigns the run's long-latency results to the named tag. -/
  | runend (w : Fields)
  /-- MOV (R85). Copies 32 or 64 bits of a register, predicate or special source to the destination. -/
  | mov (w : Fields)
  /-- MOVI (R86). Writes the sign-extended 23-bit immediate to the destination. -/
  | movi (w : Fields)
  /-- MOVH (R86). Replaces one 16-bit field of A with the immediate and writes the result. -/
  | movh (w : Fields)
  /-- SEL (R87). Writes A in lanes where predicate C is 1 and B where it is 0. -/
  | sel (w : Fields)
  /-- IADD (R88). Adds integers per element, wrapping or saturating. -/
  | iadd (w : Fields)
  /-- ISUB (R88). Subtracts integers per element, wrapping or saturating. -/
  | isub (w : Fields)
  /-- IMUL (R88). Multiplies integers per element and keeps the low part, wrapped or saturated. -/
  | imul (w : Fields)
  /-- IMULH (R88). Writes the upper w bits of the 2w-bit product. -/
  | imulh (w : Fields)
  /-- IMAD (R88). Computes a × b + c per element, wrapped or saturated. -/
  | imad (w : Fields)
  /-- IDIV (R89). Divides with truncation toward zero as a long-latency result, giving all ones on division by zero. -/
  | idiv (w : Fields)
  /-- IREM (R89). Computes the remainder of truncating division as a long-latency result, giving a on division by zero. -/
  | irem (w : Fields)
  /-- IMIN (R88). Writes the smaller integer per element. -/
  | imin (w : Fields)
  /-- IMAX (R88). Writes the larger integer per element. -/
  | imax (w : Fields)
  /-- IABS (R88). Writes the absolute value per signed element. -/
  | iabs (w : Fields)
  /-- INEG (R88). Writes the negation per signed element. -/
  | ineg (w : Fields)
  /-- AND (R90). Writes the bitwise AND of registers or predicates. -/
  | andb (w : Fields)
  /-- OR (R90). Writes the bitwise OR of registers or predicates. -/
  | orb (w : Fields)
  /-- XOR (R90). Writes the bitwise XOR of registers or predicates. -/
  | xorb (w : Fields)
  /-- ANDN (R90). Writes a AND NOT b for registers or predicates. -/
  | andn (w : Fields)
  /-- SHL (R91). Shifts left by a 32-bit amount, giving zero for amounts of w or more. -/
  | shl (w : Fields)
  /-- SHR (R91). Shifts right logically by a 32-bit amount. -/
  | shr (w : Fields)
  /-- SAR (R91). Shifts right arithmetically by a 32-bit amount. -/
  | sar (w : Fields)
  /-- ROT (R91). Rotates left by the amount modulo w. -/
  | rot (w : Fields)
  /-- BFX (R92). Extracts a bit field selected by a field control word, sign-extending for signed types. -/
  | bfx (w : Fields)
  /-- BFI (R92). Inserts the low bits of B into a field of A selected by C. -/
  | bfi (w : Fields)
  /-- POPC (R90). Counts the one bits of A. -/
  | popc (w : Fields)
  /-- CLZ (R90). Counts the leading zero bits of A. -/
  | clz (w : Fields)
  /-- BREV (R90). Reverses the bit order of A. -/
  | brev (w : Fields)
  /-- ICMP (R94). Compares integers under a condition code and writes a predicate, optionally ANDed with pC. -/
  | icmp (w : Fields)
  /-- ISAT (R95). Clamps a to an n-bit signed or unsigned range. -/
  | isat (w : Fields)
  /-- LEA (R96). Computes a + b × 2^scale + immediate as an address offset. -/
  | lea (w : Fields)
  /-- CAPSET (R102). Derives a narrower capability from a parent with an offset, optional length and permission mask. -/
  | capset (w : Fields)
  /-- CAPCHK (R103). Tests permissions and bounds of a capability per lane and writes a predicate without faulting. -/
  | capchk (w : Fields)
  /-- CAPLD (R104). Loads a tagged 16-byte capability into a capability register as a long-latency result. -/
  | capld (w : Fields)
  /-- CAPST (R104). Stores a 16-byte capability and sets the granule's validity tag. -/
  | capst (w : Fields)
  /-- LD (R99). Checks every active lane and loads s bytes per lane as a long-latency result. -/
  | ld (w : Fields)
  /-- LD_SIDE (R100). Loads 16 bytes of the side data that a format window attaches to the addressed line. -/
  | ldSide (w : Fields)
  /-- ST (R99). Checks every active lane and stores s bytes per lane in ascending lane order. -/
  | st (w : Fields)
  /-- BRA (R107). Branches unconditionally to a code offset. -/
  | bra (w : Fields)
  /-- BRA_COND (R107). Compares two uniform operands and branches when the condition holds. -/
  | braCond (w : Fields)
  /-- BRC (R154). Branches per lane on a predicate, dividing or deferring the split and pushing a deferral entry. -/
  | brc (w : Fields)
  /-- BRC_PK (R155). Branches per lane like BRC and holds the taken path for repacking. -/
  | brcPk (w : Fields)
  /-- BRX (R108). Branches to a0.base plus a uniform value. -/
  | brx (w : Fields)
  /-- CALL (R109). Writes the link offset and branches to a code offset. -/
  | call (w : Fields)
  /-- CALL_IND (R109). Writes the link offset and branches to a0.base plus a uniform value. -/
  | callInd (w : Fields)
  /-- RET (R108). Branches to a0.base plus a uniform value, marked as a return. -/
  | ret (w : Fields)
  /-- JOIN (R138). Waits under the innermost deferral entry and merges splits, starting a deferred path or popping the entry. -/
  | join (w : Fields)
  /-- JOIN_TEAM (R141). Dissolves a repacked group, returning moved threads home, or acts as JOIN. -/
  | joinTeam (w : Fields)
  /-- EXIT (R110). Ends the lanes whose guard is true and ends the split when no lane remains. -/
  | exit (w : Fields)
  /-- CLK (R111). Waits for all earlier results and writes the cycle counter. -/
  | clk (w : Fields)
  /-- FADD (R115). Adds floating-point values with one rounding in the given mode. -/
  | fadd (w : Fields)
  /-- FSUB (R115). Subtracts floating-point values with one rounding. -/
  | fsub (w : Fields)
  /-- FMUL (R115). Multiplies floating-point values with one rounding. -/
  | fmul (w : Fields)
  /-- FFMA (R115). Computes a × b + c with a single rounding. -/
  | ffma (w : Fields)
  /-- FMIN (R116). Writes the smaller operand with IEEE NaN and signed-zero rules. -/
  | fmin (w : Fields)
  /-- FMAX (R116). Writes the larger operand with IEEE NaN and signed-zero rules. -/
  | fmax (w : Fields)
  /-- FCMP (R118). Compares f32 values quietly under a condition and writes a predicate. -/
  | fcmp (w : Fields)
  /-- FCLASS (R119). Writes the one-hot class mask of an f32 value. -/
  | fclass (w : Fields)
  /-- FCLASS_TEST (R119). Writes a predicate that is 1 when the class of a lies in the immediate mask. -/
  | fclassTest (w : Fields)
  /-- FRCP (R121). Computes a faithfully rounded reciprocal as a long-latency result. -/
  | frcp (w : Fields)
  /-- FRSQ (R121). Computes a faithfully rounded reciprocal square root. -/
  | frsq (w : Fields)
  /-- FSQRT (R121). Computes a correctly rounded square root. -/
  | fsqrt (w : Fields)
  /-- FDIV (R121). Computes a correctly rounded quotient. -/
  | fdiv (w : Fields)
  /-- EXP2S (R123). Computes 2^((a − b) × c), faithfully rounded, with −∞ giving +0. -/
  | exp2s (w : Fields)
  /-- LOG2 (R121). Computes a faithfully rounded base-2 logarithm. -/
  | log2 (w : Fields)
  /-- SIN (R121). Computes a faithfully rounded sine. -/
  | sin (w : Fields)
  /-- COS (R121). Computes a faithfully rounded cosine. -/
  | cos (w : Fields)
  /-- FCVT (R126). Converts elements between formats with a rounding mode or stochastic rounding. -/
  | fcvt (w : Fields)
  /-- QCVT (R127). Quantises scaled elements to an 8-bit or 4-bit format and updates a peak register. -/
  | qcvt (w : Fields)
  /-- DQCVT (R128). Dequantises elements times a scale with one rounding. -/
  | dqcvt (w : Fields)
  /-- PKRD (R130). Waits for earlier QCVTs and reads a peak register. -/
  | pkrd (w : Fields)
  /-- PKRD_CLR (R130). Reads a peak register and clears it to +0 in the same cycle. -/
  | pkrdClr (w : Fields)
  /-- FDOT (R117). Sums packed element products and an f32 accumulator exactly with one rounding. -/
  | fdot (w : Fields)
  /-- FRND (R120). Rounds each element to an integral value in the given mode. -/
  | frnd (w : Fields)
  /-- LREAD (R158). Reads A from a source lane selected directly, by offset or by xor, with fill and flag. -/
  | lread (w : Fields)
  /-- LPUSH (R159). Sends each participant's A to a named lane, highest sender winning. -/
  | lpush (w : Fields)
  /-- LBCAST (R158). Broadcasts A from one lane to every participant. -/
  | lbcast (w : Fields)
  /-- RED (R163). Reduces A over participants in a fixed tree, optionally writing the count. -/
  | red (w : Fields)
  /-- SCAN (R165). Delivers inclusive or exclusive prefix reductions in the fixed tree. -/
  | scan (w : Fields)
  /-- VOTE (R166). Writes all, any or uniform of a predicate over participants. -/
  | vote (w : Fields)
  /-- BALLOT (R166). Writes the mask of participants whose predicate is 1. -/
  | ballot (w : Fields)
  /-- VLANE (R161). Reads the remap table entry of a virtual lane. -/
  | vlane (w : Fields)
  /-- BAR (R168). Arrives at a barrier and waits for the instance of the arrival to complete. -/
  | bar (w : Fields)
  /-- ARRIVE (R168). Arrives at a barrier, writes the instance number and does not wait. -/
  | arrive (w : Fields)
  /-- BWAIT (R168). Waits until a named barrier instance has completed. -/
  | bwait (w : Fields)
  /-- MATCH (R160). Writes the mask of participants holding the same value. -/
  | matchLanes (w : Fields)
  /-- GCVT (R180). Converts an ordinary vector into grain form through GRNORM. -/
  | gcvt (w : Fields)
  /-- GEXP_DIR (R181). Writes the direction components of a grain register to a component group. -/
  | gexpDir (w : Fields)
  /-- GEXP_VAL (R181). Writes the represented values of a grain register to a component group. -/
  | gexpVal (w : Fields)
  /-- GDOT_COS (R188). Forms the exact dot product of two directions and writes the cosine. -/
  | gdotCos (w : Fields)
  /-- GDOT_FULL (R188). Forms the dot product including both norms. -/
  | gdotFull (w : Fields)
  /-- GSCL (R184). Adds a value to the norm code and copies the direction. -/
  | gscl (w : Fields)
  /-- GADD (R182). Adds two grain vectors and renormalises. -/
  | gadd (w : Fields)
  /-- GADD_SUB (R182). Subtracts two grain vectors and renormalises. -/
  | gaddSub (w : Fields)
  /-- GNEG (R183). Negates every component and copies the norm. -/
  | gneg (w : Fields)
  /-- GNRM (R189). Writes the span's norm as a code, an f32 value or a logarithm. -/
  | gnrm (w : Fields)
  /-- GSETN (R185). Copies a direction and sets a new norm code. -/
  | gsetn (w : Fields)
  /-- GMOV (R183). Copies a grain register unchanged. -/
  | gmov (w : Fields)
  /-- GPROJ (R186). Writes the rejection of a from b and renormalises. -/
  | gproj (w : Fields)
  /-- GLERP (R187). Interpolates directions and log norms by a weight and renormalises. -/
  | glerp (w : Fields)
  /-- GLD (R191). Loads components with a given norm code, renormalising when off unit length. -/
  | gld (w : Fields)
  /-- GST (R191). Stores the direction components of a grain register. -/
  | gst (w : Fields)
  /-- LDS (R242). Loads from the scratchpad per lane as a long-latency result. -/
  | lds (w : Fields)
  /-- STS (R242). Stores to the scratchpad per lane. -/
  | sts (w : Fields)
  /-- ATOM (R245). Performs an atomic read-modify-write per lane at the home slice. -/
  | atom (w : Fields)
  /-- ATOMS (R245). Performs an atomic read-modify-write per lane at a scratchpad bank. -/
  | atoms (w : Fields)
  /-- CAS (R247). Compares and swaps per lane at the home slice. -/
  | cas (w : Fields)
  /-- CASS (R247). Compares and swaps per lane at a scratchpad bank. -/
  | cass (w : Fields)
  /-- BANKOP (R248). Applies min, max or a logic operation to scratchpad words at the bank ALU. -/
  | bankop (w : Fields)
  /-- BANKOP_SADD (R248). Adds a × c to scratchpad words at the bank ALU. -/
  | bankopSadd (w : Fields)
  /-- PREF (R249). Requests lines into L1 or L2 without faulting. -/
  | pref (w : Fields)
  /-- AXL (R250). Translates a capability's base and fills its translation part. -/
  | axl (w : Fields)
  /-- BIND (R251). Binds a capability's range to a cut word for the context. -/
  | bind (w : Fields)
  /-- UNBIND (R252). Removes the binding with exactly the capability's range. -/
  | unbind (w : Fields)
  /-- UNBIND_WORD (R252). Removes every binding of the context to a cut word. -/
  | unbindWord (w : Fields)
  /-- ACQ (R253). Acquires a cut word and invalidates the core's L1 copies of its bound ranges. -/
  | acq (w : Fields)
  /-- REL (R253). Releases a cut word at device scope after earlier writes are performed. -/
  | rel (w : Fields)
  /-- FENCE (R254). Orders the split's accesses as a release, acquire or full fence at a scope. -/
  | fence (w : Fields)
  /-- XFENCE (R255). Orders completed accesses on one path before later accesses on another. -/
  | xfence (w : Fields)
  /-- CUTINIT (R256). Sets a cut word to VERSION 0 and OPEN. -/
  | cutinit (w : Fields)
  /-- PUBCUT (R256). Publishes a new version of a cut word as a release, with re-fire accounting. -/
  | pubcut (w : Fields)
  /-- FINCUT (R256). Publishes a final version and marks the cut word FINISHED. -/
  | fincut (w : Fields)
  /-- WAITCUT (R257). Waits until a cut word's VERSION exceeds n or it is not OPEN, then acquires it. -/
  | waitcut (w : Fields)
  /-- CUTCHK (R258). Reads and acquires a cut word without waiting. -/
  | cutchk (w : Fields)
  /-- STALE (R259). Writes 1 when any input of the running task has moved past its launch version or was cancelled. -/
  | stale (w : Fields)
  /-- CPY (R307). Starts a linear copy in the group's open batch. -/
  | cpy (w : Fields)
  /-- CPYS (R307). Starts a strided copy of up to three dimensions. -/
  | cpys (w : Fields)
  /-- CPYG (R307). Starts a gather copy through an index list. -/
  | cpyg (w : Fields)
  /-- CBATCH (R309). Closes the group's open batch and returns its sequence number. -/
  | cbatch (w : Fields)
  /-- CWAIT (R310). Waits until batch n has completed and raises the fault of a failed batch. -/
  | cwait (w : Fields)
  /-- MPUT (R311). Puts a value into a mailbox, waiting while it is FULL. -/
  | mput (w : Fields)
  /-- MGET (R311). Takes a value from a mailbox, waiting while it is EMPTY. -/
  | mget (w : Fields)
  /-- MGET_Z (R311). Takes a value from a mailbox, returning 0 with a flag on an orphan. -/
  | mgetZ (w : Fields)
  /-- MTRY (R311). Takes a value from a mailbox if FULL, otherwise returns 0 with a flag. -/
  | mtry (w : Fields)
  /-- MBIND (R312). Registers the agent as a writer of a mailbox. -/
  | mbind (w : Fields)
  /-- MBIND_RST (R312). Resets a mailbox to EMPTY with no writers. -/
  | mbindRst (w : Fields)
  /-- MMA (R314). Enters a matrix multiply-accumulate into the matrix queue. -/
  | mma (w : Fields)
  /-- MMAS (R315). Enters a matrix multiply-accumulate that puts a value to a mailbox when it completes. -/
  | mmas (w : Fields)
  /-- MZERO (R316). Enters an operation that clears accumulator blocks. -/
  | mzero (w : Fields)
  /-- MDRAIN (R317). Enters an operation that writes an accumulator block to the scratchpad. -/
  | mdrain (w : Fields)
  /-- MDRAIN_Z (R317). Drains an accumulator block and then clears it. -/
  | mdrainZ (w : Fields)
  /-- MSCL (R318). Supplies the scales of a ring operand for later matrix operations. -/
  | mscl (w : Fields)
  /-- MWAIT (R320). Waits until every earlier matrix operation of the stream has completed. -/
  | mwait (w : Fields)
  /-- MWIT (R320). Writes MXSTATUS without waiting. -/
  | mwit (w : Fields)
  /-- MRING (R319). Binds or unbinds a scratchpad ring to an MMA operand. -/
  | mring (w : Fields)
  /-- ENQ (R321). Appends a packet to a queue, waiting for a slot. -/
  | enq (w : Fields)
  /-- ENQ_NB (R321). Appends a packet to a queue or returns a status without waiting. -/
  | enqNb (w : Fields)
  /-- FETCHW (R323). Requests the next unplaced group of a FETCH launch. -/
  | fetchw (w : Fields)
  /-- REC (R324). Sends one record per lane to a program node. -/
  | recSend (w : Fields)
  /-- RGNB (R353). Opens a restartable region and takes a snapshot of the live-in set. -/
  | rgnb (w : Fields)
  /-- RGNE (R354). Commits the region's held entries, with a snapshot in a harvest group. -/
  | rgne (w : Fields)
  /-- RGNX (R355). Discards the region's held entries and continues. -/
  | rgnx (w : Fields)
  /-- TRAP (R356). Raises TRAP_SW with an immediate value. -/
  | trap (w : Fields)
  /-- TRET (R357). Ends the handler and resumes at TRAP_PC for the lanes of TRAP_MASK. -/
  | tret (w : Fields)
  /-- CSRR (R359). Reads a control and status register. -/
  | csrr (w : Fields)
  /-- CSRW (R359). Writes a control and status register. -/
  | csrw (w : Fields)
  /-- CSRW_CODE (R359). Writes TVEC with the offset of a code label. -/
  | csrwCode (w : Fields)
  /-- WFE (R362). Clears the event bit or waits for an event or a time limit. -/
  | wfe (w : Fields)
  /-- SEV_CORE (R362). Sets the event bit of every split and stream of the context on the core. -/
  | sevCore (w : Fields)
  /-- SEV_CLUSTER (R362). Sets the event bit on every core of the cluster. -/
  | sevCluster (w : Fields)
  /-- PERFR (R363). Reads a performance counter. -/
  | perfr (w : Fields)
  /-- METR (R364). Reads a partition meter as a long-latency result. -/
  | metr (w : Fields)
  /-- CKPT (R365). Writes a checkpoint shard with data, header and SHA-256 digest. -/
  | ckpt (w : Fields)
  /-- HALT (R358). Ends the launch from a handler, or stops a headstock core until its next interrupt. -/
  | halt (w : Fields)
  /-- TLBI_PAGE (R366). Shoots down one page of one tenant and waits. -/
  | tlbiPage (w : Fields)
  /-- TLBI_TENANT (R366). Shoots down every entry of a tenant and waits. -/
  | tlbiTenant (w : Fields)
  /-- TLBI_ALL (R366). Shoots down every translation on the device and waits. -/
  | tlbiAll (w : Fields)
  /-- LONG_LATENCY_WRITEBACK (R20). A long-latency result is written and clears its tag when it is the last outstanding one. -/
  | longLatencyWriteback (ag : Agent) (idx : Nat)
  /-- RUN_CUT (R146). A run has occupied its quadrant for 384 cc and is cut for a ready split of its class. -/
  | runCut (ag : Agent)
  /-- REPACK (R139). After holding a BRC.pk target for up to 32 cc, the hardware moves lanes into fresh groups or leaves them. -/
  | repack (core fresh : Nat) (splits : List (Nat × Nat))
  /-- WAITCUT_WAKE (R232). A write performed at a cut word's home slice makes a waiting WAITCUT's condition true. -/
  | waitcutWake (ag : Agent)
  /-- MATRIX_OP_START (R262). A queued matrix operation starts once its sub-arrays, blocks and rings are free. -/
  | matrixOpStart (core : Nat)
  /-- STEADY_REST_STEP (R272). At each 4-cc step boundary, activity rises and falls are granted per die within the budgets. -/
  | steadyRestStep (die : Nat)
  /-- MATRIX_OP_COMPLETE (R269). A sub-array reaches K, writes its block and checks its witness sums. -/
  | matrixOpComplete (core sub : Nat) (upsets : Nat)
  /-- MMAS_PUT (R315). A completed MMAS puts its value into its mailbox once it is EMPTY. -/
  | mmasPut (core : Nat)
  /-- RING_SLOT_CONSUME (R266). The chuck consumes a ring slot once FILLED passes it and then increments FREED. -/
  | ringSlotConsume (core : Nat) (opB : Bool)
  /-- COPY_COMPLETE (R274). A copy finishes and its batch completes when all earlier batches have completed. -/
  | copyComplete (core slot pos : Nat)
  /-- PACKET_FETCH (R285). The command processor fetches a packet ahead of execution into the fetch window. -/
  | packetFetch (queue : Nat)
  /-- LAUNCH (R284). A LAUNCH packet executes and places its groups and matrix streams. -/
  | launchPacket (queue : Nat)
  /-- NODE (R291). A NODE packet declares a program node and its record buffer. -/
  | nodePacket (queue : Nat)
  /-- TASK (R295). A TASK packet enters the dependence window and is matched against earlier tasks. -/
  | taskPacket (queue : Nat)
  /-- WAIT (R289). A WAIT packet executes when its masked word test holds, as an acquire. -/
  | waitPacket (queue : Nat)
  /-- SIGNAL (R289). A SIGNAL packet writes or adds to a word once every earlier packet has completed. -/
  | signalPacket (queue : Nat)
  /-- IB (R288). An IB packet makes fetch enter an indirect buffer. -/
  | ibPacket (queue : Nat)
  /-- PRED (R288). A PRED packet reads its word and skips packets when the test holds. -/
  | predPacket (queue : Nat)
  /-- LOOP (R288). A LOOP packet runs its body the given number of passes. -/
  | loopPacket (queue : Nat)
  /-- FFENCE (R287). An FFENCE packet discards every packet fetched after it and restarts fetch. -/
  | ffencePacket (queue : Nat)
  /-- BURNWAIT (R299). A BURNWAIT packet executes when its graph's submission has ended, as an acquire. -/
  | burnwaitPacket (queue : Nat)
  /-- GROUP_PLACE (R135). The command processor places a team on a core when space allows, resetting mailboxes of an empty core. -/
  | groupPlace (launch : Nat) (places : List GroupSite)
  /-- LAUNCH_COMPLETE (R282). Every group and stream of a launch has exited and the packet completes. -/
  | launchComplete (launch : Nat)
  /-- NODE_TIMER_EXPIRY (R291). A partial node batch launches TIMER + 1 µs after its first record. -/
  | nodeTimerExpiry (queue node : Nat)
  /-- FETCHW_ANSWER (R292). The front end writes the withdrawn group's coordinates and then READY. -/
  | fetchwAnswer (core slot : Nat)
  /-- TASK_DISPATCH (R295). A task whose dependences are all satisfied is dispatched with its launch versions. -/
  | taskDispatch (task : Nat)
  /-- TASK_RELAUNCH (R296). A stale task instance that has stopped or completed is relaunched with new launch versions. -/
  | taskRelaunch (task : Nat)
  /-- TASK_COMPLETE (R296). A task instance completes with no relaunch due, cancelling an unpublished cut word. -/
  | taskComplete (task : Nat)
  /-- TASK_CANCEL (R296). A task whose input was cancelled is stopped or discarded and its cut word cancelled. -/
  | taskCancel (task : Nat)
  /-- QFULL_TIMEOUT (R300). A blocking ENQ has waited ETIME µs without a slot and parks on QFULL_TIMEOUT. -/
  | qfullTimeout (ag : Agent)
  /-- QUEUE_WPTR_WRITE (R279). A write of WPTR accepts packets, or halts the queue on an overrun. -/
  | queueWptrWrite (queue : Nat) (value : BitVec 32)
  /-- QUEUE_ENABLE (R280). Writing 01 to a disabled queue's STATE checks the descriptor and enables or halts it. -/
  | queueEnable (queue : Nat) (writer : Writer)
  /-- QUEUE_RESET (R279). Writing 11 to STATE discards fetched packets, waits for running work and disables the queue. -/
  | queueReset (queue : Nat)
  /-- FAULT_RECORD_WRITE (R332). The die's reporting port writes one pending fault record or notice to its ring. -/
  | faultRecordWrite (die : Nat)
  /-- REPLAY (R335). A REPLAY_CTL write with END 0 replays parked PAGE_ABSENT or QFULL_TIMEOUT lanes. -/
  | replay (who : ReplayPair) (context : BitVec 12)
  /-- REPLAY_TERMINATE (R335). A REPLAY_CTL write with END 1 turns the parked fault into a terminal fault. -/
  | replayTerminate (who : ReplayPair) (context : BitVec 12)
  /-- RING_ENABLE (R333). Writing EN = 1 in RCFG enables a fault ring when its capability qualifies. -/
  | ringEnable (ring : RingId)
  /-- RING_RIDX_WRITE (R333). Writing RIDX consumes records, clamped at WIDX, freeing room for held records. -/
  | ringRidxWrite (ring : RingId) (value : BitVec 32)
  /-- SNAPSHOT_DRAIN (R339). The parting engine finishes draining a snapshot to the group's save slot. -/
  | snapshotDrain (core slot : Nat)
  /-- COMMIT_DRAIN_COMPLETE (R354). The last committed region entry is performed, RGN_STATE.DRAIN clears, and a waiting RGNB or harvest restart may proceed. -/
  | commitDrainComplete (core slot : Nat)
  /-- HARVEST_RESTART (R343). An evicted group is placed again and resumes at its latest marker. -/
  | harvestRestart (core slot : Nat) (site : GroupSite)
  /-- PROTECTED_WINDOW_END (R149). A harvest group's 4,096-cc protected window expires. -/
  | protectedWindowEnd (core slot : Nat)
  /-- QUANTUM_END (R375). A virtual device's quantum expires and the service controller switches contexts. -/
  | quantumEnd (outgoing : BitVec 12)
  /-- QUIESCENCE_TIMEOUT (R345). Operations not performed within 15 µs of the stop become replay entries. -/
  | quiescenceTimeout (context : BitVec 12)
  /-- CONTEXT_RESTORE (R344). A saved context is restored and its replay entries run before issue resumes. -/
  | contextRestore (context : BitVec 12)
  /-- PAGE_MIGRATION (R238). The migration engine moves a page, parking new accesses and replaying them at the new frame. -/
  | pageMigration (tenant : BitVec 12) (page dest : Nat)
  /-- MIGRATION_COMPLETE (R238). A page copy completes, the new entries become valid and parked accesses replay. -/
  | migrationComplete (tenant : BitVec 12) (page : Nat)
  /-- SECOND_TIER_RESUME (R213). A second-tier controller serves again and parked SECOND_TIER accesses replay. -/
  | secondTierResume (controller : Nat)
  /-- L2_ECC_UNCORR (R346). An uncorrectable error in an L2 line ends the owner of a dirty line, retires its frame and quarantines the way. -/
  | l2EccUncorr (die slice : Nat) (line : Nat)
  /-- MEMORY_ECC_UNCORR (R347). An uncorrectable error read from HBM4E or the second tier faults the lane and retires the frame. -/
  | memoryEccUncorr (ag : Agent) (lane : Nat) (addr : Nat)
  /-- STORAGE_ECC_UNCORR (R347). An uncorrectable error in core storage ends the owning launch and removes the storage. -/
  | storageEccUncorr (core slot : Nat) (kind : StorageKind)
  /-- FAILURE_WARNING (R348). A unit's corrected-error count reaches its threshold and a notice goes to each context concerned. -/
  | failureWarning (unit : WarnUnit)
  /-- WATCHDOG (R349). A group waiting at a barrier or JOIN without issue for WDLIMIT µs raises WATCHDOG. -/
  | watchdog (core slot : Nat)
  /-- WFE_TIMEOUT (R362). A WFE wait reaches its limit of n × 16 cc and the split resumes. -/
  | wfeTimeout (ag : Agent)
  /-- L2_MODE_CHANGE (R207). An accepted L2MODE write flushes the die's L2 under BUSY and applies the new mode. -/
  | l2ModeChange (die : Nat) (mode : Bool)
  /-- FMTWIN_ENABLE (R209). Setting EN in a format window enables it or refuses with OVL. -/
  | fmtwinEnable (die n : Nat)
  /-- FMTWIN_DISABLE (R209). Clearing EN writes back and invalidates the window's lines after pins are released. -/
  | fmtwinDisable (die n : Nat)
  /-- VDCFG_WRITE (R375). A VDCFG write is rejected, raised to 42 µs or applied. -/
  | vdcfgWrite (vdev : Nat) (value : BitVec 64)
  /-- REGISTER_WRITE (R7). A write to a register without a row of its own stores the value under its access codes. -/
  | registerWrite (place : RegPlace) (value : Nat)
  /-- HOST_MAILBOX_WRITE (R388). The mailbox engine takes a host write slot and performs it on path HX. -/
  | hostMailboxWrite (fn : Nat) (slot : MailSlot)
  /-- HOST_MAILBOX_READ (R388). The mailbox engine serves a host read slot at the home slice and returns DATA. -/
  | hostMailboxRead (fn : Nat) (slot : MailSlot)
  /-- HOST_PUBLICATION (R227). A host cut write of VERSION raises an OPEN word's VERSION as a release with re-fire accounting. -/
  | hostPublication (fn : Nat) (slot : MailSlot)
  /-- HOST_FINISH (R227). A host cut write of byte 3 marks an OPEN word FINISHED as a release. -/
  | hostFinish (fn : Nat) (slot : MailSlot)
  /-- REMOTE_REQUEST (R371). A request arriving over Torwen is translated and performed at the target's home slice. -/
  | remoteRequest (req : RemoteReq)
  /-- PEER_LOST (R373). A peer is declared lost and accesses through its old incarnation fail, with lost writes reported. -/
  | peerLost (device : BitVec 20)
  /-- TORWEN_RETRAIN (R386). Firmware retries a down Torwen port once each second. -/
  | torwenRetrain (port : Nat) (ok : Bool)
  /-- DEVICE_ID_WRITE (R386). The host writes the device id, which lets the Torwen ports train. -/
  | deviceIdWrite (value : BitVec 20)
  /-- POWER_ON_RESET (R385). The module runs the bring-up sequence from rail sequencing to the service controller. -/
  | powerOnReset (run : BringUp)
  /-- RECOVERY_CHUNK (R385). In recovery, an RCVLEN write records a firmware image chunk. -/
  | recoveryChunk (data : List Byte)
  /-- RECOVERY_END (R385). In recovery, an RCVLEN write of 0xFFFF_FFFF ends the image and returns to verification. -/
  | recoveryEnd (run : BringUp)
  /-- CLOCK_THROTTLE (R390). Firmware lowers the core clock in 25 MHz steps when a power or junction limit is about to be passed. -/
  | clockThrottle (mhz : Nat)
  /-- METER_SNAPSHOT (R377). The physical function requests a signed, chained meter snapshot of a partition. -/
  | meterSnapshot (part : Nat) (dest : Nat)
  /-- GET_VERSION (R378). The SPDM responder answers GET_VERSION. -/
  | getVersion
  /-- GET_CAPABILITIES (R378). The SPDM responder answers GET_CAPABILITIES. -/
  | getCapabilities
  /-- NEGOTIATE_ALGORITHMS (R378). The SPDM responder answers NEGOTIATE_ALGORITHMS with P-384 and SHA-384. -/
  | negotiateAlgorithms
  /-- GET_DIGESTS (R378). The SPDM responder answers GET_DIGESTS. -/
  | getDigests
  /-- GET_CERTIFICATE (R378). The SPDM responder answers GET_CERTIFICATE. -/
  | getCertificate
  /-- CHALLENGE (R378). The SPDM responder answers CHALLENGE. -/
  | challenge
  /-- GET_MEASUREMENTS (R378). The SPDM responder returns firmware, configuration and snapshot measurements. -/
  | getMeasurements (index : Nat)
  /-- CHECKPOINT_RESTORE (R382). Firmware restores the newest committed step whose shards all verify, or reports RESTORE_INCONSISTENT. -/
  | checkpointRestore (req : RestoreReq)
  /-- LIVE_MIGRATION (R380). A context migrates between modules in three phases with a forward stub. -/
  | liveMigration (phase : MigrationPhase)
  /-- TORWEN_PORT_DOWN (R386). A trained Torwen port loses training during operation, carries no traffic, and its requests take other routes. -/
  | torwenPortDown (port : Nat)
  /-- SECOND_TIER_POWER_DOWN (R213). A second-tier controller is powered down or starts retraining, after which accesses to its frames raise SECOND_TIER. -/
  | secondTierPowerDown (controller : Nat)
  /-- THERMAL_SHUTDOWN (R390). The junction reaches 115 °C and the module shuts down, writing a terminal notice first where time allows. -/
  | thermalShutdown (notice : Bool)
  /-- FIRMWARE_INTERRUPT (R358). The die's next firmware interrupt resumes issue on a headstock core stopped by HALT. -/
  | firmwareInterrupt (die : Nat)
  deriving DecidableEq, Repr

end Sys2Proof
end

