-- ==== Sys2Proof/Machine/Fields.lean ====
section
/-! DEFINITION. The helpers BITS, SEXT, WRAP and SAT of Table 2.1, byte order (R6), and the readers of an instruction
word's fields: operand codes (Tables 3.3, 3.4), TYPE codes, and the parts of MOD and IMM. -/
namespace Sys2Proof.Machine
open Sys2Proof

/-- BITS(v, hi, lo) of Table 2.1 on naturals. -/
def bits (v hi lo : Nat) : Nat := v / 2 ^ lo % 2 ^ (hi + 1 - lo)

/-- SEXT(v, n) of Table 2.1: the low n bits of v as two's complement. -/
def sext (v n : Nat) : Int :=
  let u := v % 2 ^ n
  if 2 * u < 2 ^ n then (u : Int) else (u : Int) - (2 ^ n : Nat)

/-- WRAP(x, n) of Table 2.1. -/
def wrap (x : Int) (n : Nat) : Nat := (x % (2 ^ n : Nat)).toNat

/-- SAT(x, lo, hi) of Table 2.1. -/
def sat (x lo hi : Int) : Int := if x < lo then lo else if hi < x then hi else x

/-- The n bytes of v, least significant first (R6). -/
def leBytes (v : Nat) : Nat → List Byte
  | 0 => []
  | n + 1 => BitVec.ofNat 8 v :: leBytes (v / 256) n

/-- The number whose bytes, least significant first, are l (R6). -/
def ofLeBytes : List Byte → Nat
  | [] => 0
  | b :: r => b.toNat + 256 * ofLeBytes r

/-- The operand an 11-bit field names (Tables 3.3 and 3.4). -/
def opndOfBits (r : BitVec 11) : Opnd :=
  let i := r.toNat % 256
  match r.toNat / 256 with
  | 0 => .v (BitVec.ofNat 8 i)
  | 1 => if i < 64 then .k (BitVec.ofNat 6 i) else .reserved r
  | 2 => if i < 16 then .t (BitVec.ofNat 4 i) else .reserved r
  | 3 => if i < 32 then .g (BitVec.ofNat 5 i) else .reserved r
  | 4 =>
    if i < 8 then .p (BitVec.ofNat 3 i)
    else if 0x40 ≤ i ∧ i < 0x50 then .a (BitVec.ofNat 4 (i - 0x40))
    else if 0x80 ≤ i ∧ i < 0x90 then .m (BitVec.ofNat 4 (i - 0x80))
    else if h : 0xC0 ≤ i ∧ i < 0xCA then .special ⟨i - 0xC0, by omega⟩
    else .reserved r
  | 5 => .lit (BitVec.ofNat 8 i)
  | 6 => if h : i < 3 then .latch ⟨i, h⟩ else .reserved r
  | _ => if i = 0 then .zero else .reserved r

/-- The 11-bit field of an operand (Tables 3.3 and 3.4). -/
def opndBits : Opnd → BitVec 11
  | .v n => BitVec.ofNat 11 n.toNat
  | .k n => BitVec.ofNat 11 (0x100 + n.toNat)
  | .t n => BitVec.ofNat 11 (0x200 + n.toNat)
  | .g n => BitVec.ofNat 11 (0x300 + n.toNat)
  | .p n => BitVec.ofNat 11 (0x400 + n.toNat)
  | .a n => BitVec.ofNat 11 (0x440 + n.toNat)
  | .m n => BitVec.ofNat 11 (0x480 + n.toNat)
  | .special n => BitVec.ofNat 11 (0x4C0 + n.val)
  | .lit n => BitVec.ofNat 11 (0x500 + n.toNat)
  | .latch n => BitVec.ofNat 11 (0x600 + n.val)
  | .zero => 0x700#11
  | .reserved r => r

/-- The TYPE code of a type (Table 2.2, R39, Table 3.2). -/
def tyCode : Ty → Nat
  | .n32 => 0 | .s32 => 1 | .n64 => 2 | .s64 => 3 | .f32 => 4 | .bf16x2 => 5 | .f16x2 => 6 | .e4m3x4 => 7
  | .e5m2x4 => 8 | .e2m1x8 => 9 | .s8x4 => 10 | .n8x4 => 11 | .s4x8 => 12 | .n4x8 => 13 | .b32 => 14 | .reserved => 15

/-- The type of a TYPE code. -/
def tyOfCode (n : Nat) : Ty :=
  match n with
  | 0 => .n32 | 1 => .s32 | 2 => .n64 | 3 => .s64 | 4 => .f32 | 5 => .bf16x2 | 6 => .f16x2 | 7 => .e4m3x4
  | 8 => .e5m2x4 | 9 => .e2m1x8 | 10 => .s8x4 | 11 => .n8x4 | 12 => .s4x8 | 13 => .n4x8 | 14 => .b32 | _ => .reserved

/-- VARIANT as a number. -/
def vr (w : Fields) : Nat := w.var.toNat
/-- MOD[79], CIMM. -/
def cimm (w : Fields) : Bool := w.flags.getLsbD 3
/-- MOD[78]: SAT, IX64 or STOCH as the entry says. -/
def bit78 (w : Fields) : Bool := w.flags.getLsbD 2
/-- MOD[77:76]: RM or KIND. -/
def rmCode (w : Fields) : Nat := w.flags.toNat % 4
/-- MOD[78:76]: the flag predicate field FP of R152, and X of Table 8.3. -/
def fpCode (w : Fields) : Nat := w.flags.toNat % 8
/-- The operand C of IMM[10:0] (R59). -/
def opC (w : Fields) : Opnd := opndOfBits (BitVec.ofNat 11 w.imm.toNat)
/-- IMM as a signed value (R61). -/
def simm (w : Fields) : Int := sext w.imm.toNat 23
/-- The span of a grain instruction: the code of MOD[83:81] (Table 8.3). -/
def spanCode (w : Fields) : Nat := w.var.toNat / 2
/-- The span L in lanes. -/
def spanLanes (w : Fields) : Nat := 2 ^ spanCode w
/-- The sub-form bit MOD[80] of a grain instruction (Table 8.3). -/
def subBit (w : Fields) : Bool := w.var.getLsbD 0

end Sys2Proof.Machine
end

