-- ==== Sys2Proof/Machine/Forms.lean ====
section
/-! DEFINITION. The encoding of every instruction row: opcode, the MOD values the entry lists, what each operand position
accepts and what IMM holds (Tables 3.7, 4.1 to 4.10, 5.2, 5.5, 7.1 to 7.6, 8.2, 11.1, 14.1 and 16.1). These are the facts
that steps 4 and 5 of R69 check. -/
namespace Sys2Proof.Machine
open Sys2Proof

/-- The classes of Tables 3.3 and 3.4. -/
inductive Cls where
  | v | k | t | g | p | a | m | special | lit | latch | zero | bad
  deriving DecidableEq, Repr

def opndCls : Opnd → Cls
  | .v _ => .v | .k _ => .k | .t _ => .t | .g _ => .g | .p _ => .p | .a _ => .a | .m _ => .m | .special _ => .special
  | .lit _ => .lit | .latch _ => .latch | .zero => .zero | .reserved _ => .bad

/-- What one operand position takes: nothing (the field must be 0x000), a class set with a number of 32-bit registers, or a
k group (R303). -/
inductive Pos where
  | unused
  | cls (s : List Cls) (regs : Nat)
  | kgroup (n : Nat)
  /-- The pair group of CAS (R247): `regs` v registers, or `ks` k registers, or zero. -/
  | pair (regs ks : Nat)
  deriving DecidableEq, Repr

/-- The sets of Table 4.1. -/
def setVAL : List Cls := [.v, .k, .t, .lit, .latch, .zero]
def setDST : List Cls := [.v, .k, .t, .zero]
def setIDX : List Cls := [.v, .k, .t, .latch, .zero]
def setUNI : List Cls := [.k, .lit, .zero]
def setKZ : List Cls := [.k, .zero]
def setVT : List Cls := [.v, .t, .zero]
def setG : List Cls := [.g, .zero]

/-- How R18 binds an entry: fully, in its guard only (R153), or not at all (its D field is a source). -/
inductive UniRule where
  | full | guardOnly | never
  deriving DecidableEq, Repr

/-- One row of the encoding tables. -/
structure Form where
  op : Nat
  /-- The TYPE, VARIANT and MOD[79:76] combinations the entry lists. -/
  mod : Fields → Bool
  d : Fields → Pos := fun _ => .unused
  a : Fields → Pos := fun _ => .unused
  b : Fields → Pos := fun _ => .unused
  /-- The third source, held in IMM[10:0] when CIMM is 1. -/
  c : Fields → Pos := fun _ => .unused
  /-- What IMM may hold when CIMM is 0. -/
  immOk : Fields → Bool := fun w => w.imm == 0
  /-- Takes effect once for the split, with the guard rule of R83. -/
  splitWide : Bool := false
  uni : UniRule := .full

/-- The registers of an operand under TYPE: two for the 64-bit types. -/
def tyRegs : Ty → Nat
  | .n64 | .s64 => 2
  | _ => 1

/-- A MOD combination with TYPE in tys, VARIANT in vars and MOD[79:76] in fl. -/
def mods (tys : List Ty) (vars : List Nat) (fl : List Nat) (w : Fields) : Bool :=
  tys.contains w.ty && vars.contains w.var.toNat && fl.contains w.flags.toNat

def upTo (n : Nat) : List Nat := List.range (n + 1)

def pUnused : Fields → Pos := fun _ => .unused
/-- A set read under TYPE. -/
def pTy (s : List Cls) : Fields → Pos := fun w => .cls s (tyRegs w.ty)
/-- A set read as 32 bits. -/
def p32 (s : List Cls) : Fields → Pos := fun _ => .cls s 1
/-- A set read as 64 bits. -/
def p64 (s : List Cls) : Fields → Pos := fun _ => .cls s 2
def pPRD : Fields → Pos := p32 [.p]
def pCAP : Fields → Pos := p32 [.a]
def pMBX : Fields → Pos := p32 [.m]
def pG : Fields → Pos := p32 setG
def pK (n : Nat) : Fields → Pos := fun _ => .kgroup n
def immAny : Fields → Bool := fun _ => true
/-- IMM below 2^n, its upper bits zero. -/
def immBits (n : Nat) : Fields → Bool := fun w => w.imm.toNat < 2 ^ n

def tArith : List Ty := [.n32, .s32, .n64, .s64, .s8x4, .n8x4, .s4x8, .n4x8]
def tScalar : List Ty := [.n32, .s32, .n64, .s64]
def tLogic : List Ty := [.b32, .n64]
def tFloat : List Ty := [.f32, .bf16x2, .f16x2]
def tSmall : List Ty := [.e4m3x4, .e5m2x4, .e2m1x8]
def tFormats : List Ty := [.f32, .bf16x2, .f16x2, .e4m3x4, .e5m2x4, .e2m1x8]

/-- Table 4.3: D, A and B under TYPE. -/
def fArith (op : Nat) (tys : List Ty) (fl : List Nat) : Form :=
  { op := op, mod := mods tys [0] fl, d := pTy setDST, a := pTy setVAL, b := pTy setVAL }

/-- IABS and INEG of Table 4.3. -/
def fArith1 (op : Nat) : Form :=
  { op := op, mod := mods [.s32, .s64, .s8x4, .s4x8] [0] [0, 4], d := pTy setDST, a := pTy setVAL }

/-- AND, OR, XOR and ANDN of Table 4.4: register or predicate operands, the latter under b32 only. -/
def fLogic (op : Nat) : Form :=
  let pos (s : List Cls) : Fields → Pos := fun w =>
    if w.ty = .b32 ∧ opndCls w.d = .p then .cls [.p] 1 else .cls s (tyRegs w.ty)
  { op := op, mod := mods tLogic [0] [0], d := pos setDST, a := pos setVAL, b := pos setVAL }

/-- SHL, SHR, SAR and ROT (R91): B is a 32-bit operand. -/
def fShift (op : Nat) (tys : List Ty) : Form :=
  { op := op, mod := mods tys [0] [0], d := pTy setDST, a := pTy setVAL, b := p32 setVAL }

/-- POPC, CLZ and BREV of Table 4.4. -/
def fBits1 (op : Nat) : Form :=
  { op := op, mod := mods tLogic [0] [0], d := pTy setDST, a := pTy setVAL }

/-- The D classes and size of a load or store by TYPE and VARIANT (Table 4.7): 16-byte forms use a quad. -/
def memD (w : Fields) : Pos :=
  if w.var.toNat = 3 then .cls [.v, .k, .zero] 2
  else if 4 ≤ w.var.toNat then .cls [.v, .zero] 4
  else .cls [.v, .k, .t, .zero] 1

/-- IX64 of Table 4.6: the width of the index. -/
def memX (s : List Cls) : Fields → Pos := fun w => .cls s (if bit78 w then 2 else 1)

/-- R97: a memory instruction with a k destination takes its index from k or zero. -/
def memXD (w : Fields) : Pos :=
  if opndCls w.d = .k then .cls setKZ 1 else memX setIDX w

/-- The size combinations of Table 4.7: TYPE n32 with VARIANT up to hi, TYPE s32 with VARIANT 0 and 1. -/
def sizeMod (signed : Bool) (vars : List Nat) (fl : List Nat) (w : Fields) : Bool :=
  mods [.n32] vars fl w || (signed && mods [.s32] [0, 1] fl w)

/-- A cut-word operand (R239): CAP with an index that is k or zero. -/
def fCut (op : Nat) : Form :=
  { op := op, mod := mods [.n32] [0] [0, 4], a := pCAP, b := memX setKZ, immOk := immAny, splitWide := true }

/-- A split-wide form with no operand. -/
def fBare (op : Nat) (var : Nat) : Form :=
  { op := op, mod := mods [.n32] [var] [0], splitWide := true }

/-- FADD, FSUB and FMUL of Table 5.2. -/
def fFloat2 (op : Nat) (fl : List Nat) : Form :=
  { op := op, mod := mods tFloat [0] fl, d := pTy setDST, a := pTy setVAL, b := pTy setVAL }

/-- One-source special functions of Table 5.5. -/
def fSpecial1 (op : Nat) (fl : List Nat) : Form :=
  { op := op, mod := mods [.f32] [0] fl, d := p32 setDST, a := p32 setVAL }

/-- Elements per 32-bit register of a format or integer type (R124). -/
def elemsPerReg : Ty → Nat
  | .bf16x2 | .f16x2 => 2
  | .e4m3x4 | .e5m2x4 => 4
  | .e2m1x8 => 8
  | _ => 1

/-- The number of elements a conversion from S to T converts in each lane (R124). -/
def cvtCount (s t : Ty) : Nat := Nat.max (elemsPerReg s) (elemsPerReg t)

/-- The registers of the group of type x in a conversion of n elements (R124). -/
def cvtRegs (n : Nat) (x : Ty) : Nat := n / elemsPerReg x * tyRegs x

/-- The operand of a conversion (R124): a group of one register takes the set, a larger group is v or zero. -/
def cvtPos (s : List Cls) (n : Nat) (x : Ty) : Pos :=
  if cvtRegs n x = 1 then .cls s 1 else .cls [.v, .zero] (cvtRegs n x)

/-- The source type of a conversion, held in VARIANT (R125, R127, R128). -/
def srcTy (w : Fields) : Ty := tyOfCode w.var.toNat

def fCvt (op : Nat) (md : Fields → Bool) (b : Fields → Pos) (im : Fields → Bool) : Form :=
  { op := op, mod := md, b := b, immOk := im,
    d := fun w => cvtPos setDST (cvtCount (srcTy w) w.ty) w.ty,
    a := fun w => cvtPos setVAL (cvtCount (srcTy w) w.ty) (srcTy w) }

/-- The pairs of R125, with STOCH only toward the small formats and with RM 0b00. -/
def fcvtMod (w : Fields) : Bool :=
  let t := w.ty
  let s := srcTy w
  let formats := tFormats.contains t && tFormats.contains s && t != s
  let ints := (t == .f32 && tScalar.contains s) || (s == .f32 && tScalar.contains t)
  !cimm w && (formats || ints) && (!bit78 w || (tSmall.contains t && tFormats.contains s && rmCode w == 0))

def qcvtMod (w : Fields) : Bool :=
  !cimm w && tSmall.contains w.ty && tFloat.contains (srcTy w) && (!bit78 w || rmCode w == 0)

def dqcvtMod (w : Fields) : Bool :=
  !cimm w && !bit78 w && tFloat.contains w.ty && tSmall.contains (srcTy w)

/-- The lane-movement forms of Table 7.1. -/
def fLane (op : Nat) (vars fl : List Nat) (b c : Fields → Pos) : Form :=
  { op := op, mod := mods tLogic vars fl, d := pTy setVT, a := pTy setVAL, b := b, c := c }

/-- The operation and type pairs of Table 7.3, with SAT for integer add and RM for f32 add only (R162). -/
def redMod (w : Fields) : Bool :=
  let o := w.var.toNat % 8
  let arith := [Ty.n32, .s32, .n64, .s64].contains w.ty
  let tyOk := if o ≤ 2 then arith || w.ty == .f32 else decide (o ≤ 5) && tLogic.contains w.ty
  let flOk :=
    if o = 0 ∧ arith then [0, 4].contains w.flags.toNat
    else if o = 0 then decide (w.flags.toNat < 4)
    else w.flags.toNat == 0
  tyOk && flOk

/-- A barrier form of Table 7.6. -/
def fBarrier (op : Nat) (d a : Fields → Pos) : Form :=
  { op := op, mod := mods [.n32] [0, 1] [0], d := d, a := a, immOk := immBits 4, splitWide := true }

/-- A grain form (Tables 8.2 and 8.3): TYPE, SUB, CIMM and X as listed, SPAN codes 0 to 5. -/
def grainMod (tys : List Ty) (sub : Bool) (fl : List Nat) (w : Fields) : Bool :=
  tys.contains w.ty && decide (w.var.toNat / 2 ≤ 5) && (w.var.getLsbD 0 == sub) && fl.contains w.flags.toNat

/-- The component group of GCVT and GEXP (R179). -/
def grainVec (w : Fields) : Pos := .cls [.v, .zero] (if w.ty = .f32 then 16 else 8)

def fGrain (op : Nat) (tys : List Ty) (sub : Bool) (fl : List Nat) (d a b c : Fields → Pos) : Form :=
  { op := op, mod := grainMod tys sub fl, d := d, a := a, b := b, c := c }

/-- The operation and type pairs of Table 11.2. -/
def atomOpOk (v : Nat) (t : Ty) : Bool :=
  match v with
  | 0 => [Ty.n32, .s32, .n64, .s64, .f32, .bf16x2].contains t
  | 1 | 2 => [Ty.n32, .s32, .n64, .s64, .f32].contains t
  | 3 | 4 | 5 | 6 | 8 => tLogic.contains t
  | 7 => t == .n32
  | _ => false

/-- ATOM and ATOMS: for .ld the operand C must be the zero class (R244). -/
def fAtom (op : Nat) (a x : Fields → Pos) (fl : List Nat) : Form :=
  { op := op, mod := fun w => atomOpOk w.var.toNat w.ty && fl.contains w.flags.toNat,
    d := pTy setDST, a := a, b := x,
    c := fun w => if w.var.toNat = 8 then .cls [.zero] 1 else .cls setVAL (tyRegs w.ty) }

def fCas (op : Nat) (a x : Fields → Pos) (fl : List Nat) : Form :=
  { op := op, mod := mods tLogic [0] fl, d := pTy setDST, a := a, b := x,
    c := fun w => if w.ty = .n64 then .pair 4 2 else .pair 2 1 }

/-- The operation and type pairs of Table 11.3 other than .sadd. -/
def bankOpOk (w : Fields) : Bool :=
  w.flags.toNat == 0 &&
  (if w.var.toNat = 1 ∨ w.var.toNat = 2 then [Ty.f32, .bf16x2, .n32, .s32].contains w.ty
   else [3, 4, 5].contains w.var.toNat && w.ty == .b32)

/-- The index of a scratchpad atomic, whose uniform form takes k or zero (R241). -/
def spX (w : Fields) : Pos := if opndCls w.d = .k then .cls setKZ 1 else .cls setIDX 1

/-- The MMA forms (Table 14.1): a ring operand is the zero class. -/
def fMma (op : Nat) (n : Nat) (fl : List Nat) (c : Fields → Pos) : Form :=
  { op := op, mod := mods [.n32] (upTo 15) fl, d := pK n,
    a := fun w => if w.var.getLsbD 3 then .cls [.zero] 1 else .cls [.a] 1,
    b := fun w => if w.var.getLsbD 2 then .cls [.zero] 1 else .cls [.a] 1,
    c := c, splitWide := true, uni := .never }

def fMdrain (var : Nat) : Form :=
  { op := 0xB4, mod := mods [.f32, .s32, .bf16x2] [var] [0], a := pK 1, splitWide := true }

def fCopy (op n : Nat) (vars fl : List Nat) (c : Fields → Pos) : Form :=
  { op := op, mod := mods [.n32] vars fl, d := pCAP, a := pCAP, b := pK n, c := c, splitWide := true, uni := .never }

/-- The form of each instruction row; none for the machine's other steps. -/
def formOf : Instr → Option Form
  | .nop _ => some { op := 0x00, mod := mods [.n32] [0] [0] }
  | .runend _ => some { op := 0x01, mod := mods [.n32] [0] [0], immOk := immBits 3 }
  | .mov _ => some
      { op := 0x02, mod := mods [.b32, .n64] [0] [0],
        d := fun w => if w.ty = .b32 then .cls (.p :: setDST) 1 else .cls setDST 2,
        a := fun w => if w.ty = .b32 then .cls (.p :: .special :: setVAL) 1 else .cls (.special :: setVAL) 2 }
  | .movi _ => some { op := 0x03, mod := mods tLogic [0] [0], d := pTy setDST, immOk := immAny }
  | .movh _ => some
      { op := 0x04, mod := fun w => mods [.b32] [0, 1] [0] w || mods [.n64] [0, 1, 2, 3] [0] w,
        d := pTy setDST, a := pTy setVAL, immOk := immBits 16 }
  | .sel _ => some { op := 0x05, mod := mods tLogic [0] [8], d := pTy setDST, a := pTy setVAL, b := pTy setVAL, c := pPRD }
  | .iadd _ => some (fArith 0x06 tArith [0, 4])
  | .isub _ => some (fArith 0x07 tArith [0, 4])
  | .imul _ => some (fArith 0x08 tArith [0, 4])
  | .imulh _ => some (fArith 0x09 tScalar [0])
  | .imad _ => some { fArith 0x0A tArith [8, 12] with c := pTy setVAL }
  | .idiv _ => some (fArith 0x0B tScalar [0])
  | .irem _ => some (fArith 0x0C tScalar [0])
  | .imin _ => some (fArith 0x0D tArith [0])
  | .imax _ => some (fArith 0x0E tArith [0])
  | .iabs _ => some (fArith1 0x0F)
  | .ineg _ => some (fArith1 0x10)
  | .andb _ => some (fLogic 0x11)
  | .orb _ => some (fLogic 0x12)
  | .xorb _ => some (fLogic 0x13)
  | .andn _ => some (fLogic 0x14)
  | .shl _ => some (fShift 0x15 tLogic)
  | .shr _ => some (fShift 0x16 tLogic)
  | .sar _ => some (fShift 0x17 [.s32, .s64])
  | .rot _ => some (fShift 0x18 tLogic)
  | .bfx _ => some (fShift 0x19 tScalar)
  | .bfi _ => some
      { op := 0x1A, mod := mods tLogic [0] [8], d := pTy setDST, a := pTy setVAL, b := pTy setVAL,
        c := p32 setVAL }
  | .popc _ => some (fBits1 0x1B)
  | .clz _ => some (fBits1 0x1C)
  | .brev _ => some (fBits1 0x1D)
  | .icmp _ => some
      { op := 0x1E,
        mod := fun w => mods tScalar [1, 2, 3, 4, 5, 6] [0, 8] w || mods [.b32] [1, 2] [0, 8] w,
        d := pPRD, a := pTy setVAL, b := pTy setVAL, c := pPRD }
  | .isat _ => some { op := 0x1F, mod := mods tScalar [0] [0], d := pTy setDST, a := pTy setVAL, b := pTy setVAL }
  | .lea _ => some
      { op := 0x20, mod := mods [.n32, .n64] [0, 1, 2, 3, 4] [0], d := pTy setDST, a := pTy setVAL,
        b := pTy setVAL, immOk := immAny }
  | .capset _ => some { op := 0x21, mod := mods [.n32] (upTo 15) [0, 8], d := pCAP, a := pCAP, b := p64 setUNI, c := p64 setUNI }
  | .capchk _ => some { op := 0x22, mod := mods [.n32, .n64] (upTo 15) [8], d := pPRD, a := pCAP, b := pTy setVAL, c := pTy setVAL }
  | .capld _ => some { op := 0x23, mod := mods [.n32] [0] [0, 4], d := pCAP, a := pCAP, b := memX setKZ, immOk := immAny }
  | .capst _ => some
      { op := 0x24, mod := mods [.n32] [0] [0, 4], d := pCAP, a := pCAP, b := memX setKZ, immOk := immAny,
        splitWide := true, uni := .never }
  | .ld _ => some { op := 0x25, mod := sizeMod true [0, 1, 2, 3, 4] [0, 4], d := memD, a := pCAP, b := memXD, immOk := immAny }
  | .ldSide _ => some { op := 0x25, mod := mods [.n32] [5] [0, 4], d := memD, a := pCAP, b := memXD, immOk := immAny }
  | .st _ => some
      { op := 0x26, mod := sizeMod false [0, 1, 2, 3, 4] [0, 4], d := memD, a := pCAP, b := memX setIDX,
        immOk := immAny, uni := .never }
  | .bra _ => some { fBare 0x27 0 with immOk := immAny }
  | .braCond _ => some
      { op := 0x27, mod := mods tScalar [1, 2, 3, 4, 5, 6] [0], a := pTy setUNI, b := pTy setUNI,
        immOk := immAny, splitWide := true }
  | .brc _ => some { op := 0x28, mod := mods [.n32] [0] [0], a := pPRD, immOk := immAny }
  | .brcPk _ => some { op := 0x28, mod := mods [.n32] [1] [0], a := pPRD, immOk := immAny }
  | .brx _ => some { fBare 0x29 0 with a := p64 setKZ }
  | .call _ => some { fBare 0x2A 0 with d := p64 setKZ, immOk := immAny }
  | .callInd _ => some { fBare 0x2A 1 with d := p64 setKZ, a := p64 setKZ }
  | .ret _ => some { fBare 0x2B 0 with a := p64 setKZ }
  | .join _ => some { op := 0x2C, mod := mods [.n32] [0] [0] }
  | .joinTeam _ => some { op := 0x2C, mod := mods [.n32] [1] [0] }
  | .exit _ => some { op := 0x2D, mod := mods [.n32] [0] [0] }
  | .clk _ => some { op := 0x2E, mod := mods [.n32, .n64] [0] [0], d := pTy setDST }
  | .fadd _ => some (fFloat2 0x40 [0, 1, 2, 3])
  | .fsub _ => some (fFloat2 0x41 [0, 1, 2, 3])
  | .fmul _ => some (fFloat2 0x42 [0, 1, 2, 3])
  | .ffma _ => some { fFloat2 0x43 [8, 9, 10, 11] with c := pTy setVAL }
  | .fmin _ => some (fFloat2 0x44 [0])
  | .fmax _ => some (fFloat2 0x45 [0])
  | .fcmp _ => some
      { op := 0x46, mod := mods [.f32] [1, 2, 3, 4, 5, 6, 7, 8] [0, 8], d := pPRD, a := p32 setVAL,
        b := p32 setVAL, c := pPRD }
  | .fclass _ => some { op := 0x47, mod := mods [.f32] [0] [0], d := p32 setDST, a := p32 setVAL }
  | .fclassTest _ => some { op := 0x47, mod := mods [.f32] [1] [0], d := pPRD, a := p32 setVAL, immOk := immBits 10 }
  | .frcp _ => some (fSpecial1 0x48 [0])
  | .frsq _ => some (fSpecial1 0x49 [0])
  | .fsqrt _ => some (fSpecial1 0x4A [0, 1, 2, 3])
  | .fdiv _ => some { fSpecial1 0x4B [0, 1, 2, 3] with b := p32 setVAL }
  | .exp2s _ => some { fSpecial1 0x4C [0, 8] with b := p32 setVAL, c := p32 setVAL }
  | .log2 _ => some (fSpecial1 0x4D [0])
  | .sin _ => some (fSpecial1 0x4E [0])
  | .cos _ => some (fSpecial1 0x4F [0])
  | .fcvt _ => some (fCvt 0x50 fcvtMod pUnused (fun w => w.imm == 0))
  | .qcvt _ => some (fCvt 0x51 qcvtMod (p32 setVAL) (immBits 2))
  | .dqcvt _ => some (fCvt 0x52 dqcvtMod (p32 setVAL) (fun w => w.imm == 0))
  | .pkrd _ => some { op := 0x53, mod := mods [.f32] [0] [0], d := p32 setDST, immOk := immBits 2, splitWide := true }
  | .pkrdClr _ => some { op := 0x53, mod := mods [.f32] [1] [0], d := p32 setDST, immOk := immBits 2, splitWide := true }
  | .fdot _ => some
      { op := 0x54, mod := mods [.bf16x2, .f16x2, .e4m3x4, .e5m2x4, .e2m1x8] [0] [8, 9, 10, 11],
        d := p32 setDST, a := p32 setVAL, b := p32 setVAL, c := p32 setVAL }
  | .frnd _ => some { op := 0x55, mod := mods tFloat [0] [0, 1, 2, 3], d := p32 setDST, a := p32 setVAL }
  | .lread _ => some (fLane 0x60 [0, 1, 2, 3] (upTo 15) (p32 setVAL) (pTy setVAL))
  | .lpush _ => some (fLane 0x61 [0] (upTo 7) (p32 setVAL) pUnused)
  | .lbcast _ => some (fLane 0x62 [0] (upTo 15) (p32 setUNI) (pTy setVAL))
  | .red _ => some { op := 0x63, mod := redMod, d := pTy [.k, .v, .zero], a := pTy setVAL, uni := .guardOnly }
  | .scan _ => some { op := 0x64, mod := redMod, d := pTy setVT, a := pTy setVAL }
  | .vote _ => some { op := 0x65, mod := mods [.b32] [0, 1, 2] [0], d := pPRD, a := pPRD }
  | .ballot _ => some { op := 0x66, mod := mods [.b32] [0] [0], d := p32 setDST, a := pPRD, uni := .guardOnly }
  | .vlane _ => some { op := 0x67, mod := mods [.n32] [0] [0], d := p32 setVT, a := p32 setIDX }
  | .bar _ => some (fBarrier 0x68 pUnused pUnused)
  | .arrive _ => some (fBarrier 0x69 (p64 setKZ) pUnused)
  | .bwait _ => some (fBarrier 0x6A pUnused (p32 setUNI))
  | .matchLanes _ => some (fLane 0x6B [0] (upTo 7) pUnused pUnused)
  | .gcvt _ => some (fGrain 0x70 tFloat false [0] pG grainVec pUnused pUnused)
  | .gexpDir _ => some (fGrain 0x71 tFloat false [0] grainVec pG pUnused pUnused)
  | .gexpVal _ => some (fGrain 0x71 tFloat true [0] grainVec pG pUnused pUnused)
  | .gdotCos _ => some (fGrain 0x72 [.f32] false (upTo 7) (p32 setVT) pG pG pUnused)
  | .gdotFull _ => some (fGrain 0x72 [.f32] true (upTo 7) (p32 setVT) pG pG pUnused)
  | .gscl _ => some (fGrain 0x73 [.s32] false [0] pG pG (p32 setVAL) pUnused)
  | .gadd _ => some (fGrain 0x74 [.n32] false [0] pG pG pG pUnused)
  | .gaddSub _ => some (fGrain 0x74 [.n32] true [0] pG pG pG pUnused)
  | .gneg _ => some (fGrain 0x75 [.n32] false [0] pG pG pUnused pUnused)
  | .gnrm _ => some (fGrain 0x76 [.n32] false [0, 1, 2] (p32 setVT) pG pUnused pUnused)
  | .gsetn _ => some (fGrain 0x77 [.n32] false [0] pG pG (p32 setVAL) pUnused)
  | .gmov _ => some (fGrain 0x78 [.n32] false [0] pG pG pUnused pUnused)
  | .gproj _ => some (fGrain 0x79 [.n32] false [0] pG pG pG pUnused)
  | .glerp _ => some (fGrain 0x7A [.f32] false [8] pG pG pG (p32 setVAL))
  | .gld _ => some (fGrain 0x7B [.n32] false [8, 12] pG pCAP (memX setIDX) (p32 setVAL))
  | .gst _ => some { fGrain 0x7C [.n32] false [0, 4] pG pCAP (memX setIDX) pUnused with immOk := immAny, uni := .never }
  | .lds _ => some { op := 0x80, mod := sizeMod true [0, 1, 2, 3, 4] [0], d := memD, b := spX, immOk := immAny }
  | .sts _ => some
      { op := 0x81, mod := sizeMod false [0, 1, 2, 3, 4] [0], d := memD, b := p32 setIDX, immOk := immAny,
        uni := .never }
  | .atom _ => some (fAtom 0x82 pCAP memXD [8, 12])
  | .atoms _ => some (fAtom 0x83 pUnused spX [8])
  | .cas _ => some (fCas 0x84 pCAP memXD [8, 12])
  | .cass _ => some (fCas 0x85 pUnused spX [8])
  | .bankop _ => some { op := 0x86, mod := bankOpOk, a := p32 setVAL, b := p32 setIDX, immOk := immAny }
  | .bankopSadd _ => some
      { op := 0x86, mod := mods [.f32, .bf16x2, .n32, .s32] [0] [8], a := p32 setVAL, b := p32 setIDX,
        c := p32 setVAL }
  | .pref _ => some { op := 0x87, mod := mods [.n32] [0, 1] [0, 4], a := pCAP, b := memX setIDX, immOk := immAny }
  | .axl _ => some { fBare 0x88 0 with d := pCAP }
  | .bind _ => some { fCut 0x89 with d := pCAP, uni := .never }
  | .unbind _ => some { fBare 0x8A 0 with d := pCAP, uni := .never }
  | .unbindWord _ => some { fCut 0x8A with mod := mods [.n32] [1] [0, 4] }
  | .acq _ => some (fCut 0x8B)
  | .rel _ => some (fCut 0x8C)
  | .fence _ => some { op := 0x8D, mod := mods [.n32] [0, 1, 2, 3, 4, 5, 6] [1, 2, 3], splitWide := true }
  | .xfence _ => some { op := 0x8E, mod := mods [.n32] (upTo 15) [0], splitWide := true }
  | .cutinit _ => some (fCut 0x8F)
  | .pubcut _ => some (fCut 0x90)
  | .fincut _ => some (fCut 0x91)
  | .waitcut _ => some
      { op := 0x92, mod := mods [.n32] [0] [8, 12], d := p64 setKZ, a := pCAP, b := memX setKZ,
        c := p32 setUNI, splitWide := true }
  | .cutchk _ => some { fCut 0x93 with d := p64 setKZ }
  | .stale _ => some { fBare 0x94 0 with d := pPRD }
  | .cpy _ => some (fCopy 0xA8 3 [0] [0] pUnused)
  | .cpys _ => some (fCopy 0xA9 9 [0] [0] pUnused)
  | .cpyg _ => some (fCopy 0xAA 4 [0, 1] [8] pCAP)
  | .cbatch _ => some { fBare 0xAB 0 with d := p64 setKZ }
  | .cwait _ => some { fBare 0xAC 0 with a := p32 setUNI }
  | .mput _ => some { fBare 0xAD 0 with d := pMBX, a := p64 setUNI }
  | .mget _ => some { fBare 0xAE 0 with d := p64 setKZ, a := pMBX }
  | .mgetZ _ => some { op := 0xAE, mod := mods [.n32] [1] (upTo 7), d := p64 setKZ, a := pMBX, splitWide := true }
  | .mtry _ => some { op := 0xAF, mod := mods [.n32] [0] (upTo 7), d := p64 setKZ, a := pMBX, splitWide := true }
  | .mbind _ => some { fBare 0xB0 0 with a := pMBX }
  | .mbindRst _ => some { fBare 0xB0 1 with a := pMBX }
  | .mma _ => some (fMma 0xB1 4 [0, 4] pUnused)
  | .mmas _ => some (fMma 0xB2 5 [8, 12] pMBX)
  | .mzero _ => some { fBare 0xB3 0 with a := p64 setUNI }
  | .mdrain _ => some (fMdrain 0)
  | .mdrainZ _ => some (fMdrain 1)
  | .mscl _ => some
      { op := 0xB5, mod := mods [.n32] [0, 1, 2, 3] [0], splitWide := true,
        a := fun w => if 2 ≤ w.var.toNat then .cls [.zero] 1 else .cls setUNI 1 }
  | .mwait _ => some (fBare 0xB6 0)
  | .mwit _ => some { fBare 0xB7 0 with d := p64 setKZ }
  | .mring _ => some
      { op := 0xB8, mod := mods [.n32] [0, 1, 2, 3] [0], splitWide := true, uni := .never,
        a := fun w => if 2 ≤ w.var.toNat then .cls [.zero] 1 else .kgroup 2 }
  | .enq _ => some { fBare 0xB9 0 with d := p64 setKZ, a := p64 setUNI, b := pK 4 }
  | .enqNb _ => some { fBare 0xB9 1 with d := p64 setKZ, a := p64 setUNI, b := pK 4 }
  | .fetchw _ => some { fBare 0xBA 0 with b := p32 setKZ, immOk := immAny }
  | .recSend _ => some { op := 0xBB, mod := mods [.n32] [0] [0], a := p64 setUNI, b := p32 setIDX, immOk := immAny }
  | .rgnb _ => some { fBare 0xC8 0 with a := pK 4 }
  | .rgne _ => some (fBare 0xC9 0)
  | .rgnx _ => some (fBare 0xCA 0)
  | .trap _ => some { fBare 0xCB 0 with immOk := immBits 16 }
  | .tret _ => some (fBare 0xCC 0)
  | .csrr _ => some { op := 0xCD, mod := mods [.n32, .n64] [0] [0], d := pTy setDST, immOk := immBits 12, splitWide := true }
  | .csrw _ => some { op := 0xCE, mod := mods [.n64] [0] [0], a := p64 setUNI, immOk := immBits 12, splitWide := true }
  | .csrwCode _ => some { op := 0xCE, mod := mods [.n64] [1] [0], immOk := immAny, splitWide := true }
  | .wfe _ => some { fBare 0xCF 0 with immOk := immBits 16 }
  | .sevCore _ => some (fBare 0xD0 0)
  | .sevCluster _ => some (fBare 0xD0 1)
  | .perfr _ => some { op := 0xD1, mod := mods [.n64] [0] [0], d := p64 [.k, .v, .zero], a := p64 setUNI, splitWide := true }
  | .metr _ => some { op := 0xD2, mod := mods [.n64] [0] [0], d := p64 setKZ, a := p64 setUNI, splitWide := true }
  | .ckpt _ => some (fCopy 0xD3 4 [0] [0] pUnused)
  | .halt _ => some (fBare 0xD4 0)
  | .tlbiPage _ => some { fBare 0xD5 0 with a := p64 setUNI, b := p64 setUNI }
  | .tlbiTenant _ => some { fBare 0xD5 1 with a := p64 setUNI }
  | .tlbiAll _ => some (fBare 0xD5 2)
  | _ => none

/-- The fields of an instruction; none for the machine's other steps. -/
def fieldsOf : Instr → Option Fields
  | .nop w | .runend w | .mov w | .movi w | .movh w | .sel w | .iadd w | .isub w | .imul w | .imulh w | .imad w
  | .idiv w | .irem w | .imin w | .imax w | .iabs w | .ineg w | .andb w | .orb w | .xorb w | .andn w | .shl w
  | .shr w | .sar w | .rot w | .bfx w | .bfi w | .popc w | .clz w | .brev w | .icmp w | .isat w | .lea w | .capset w
  | .capchk w | .capld w | .capst w | .ld w | .ldSide w | .st w | .bra w | .braCond w | .brc w | .brcPk w | .brx w
  | .call w | .callInd w | .ret w | .join w | .joinTeam w | .exit w | .clk w | .fadd w | .fsub w | .fmul w | .ffma w
  | .fmin w | .fmax w | .fcmp w | .fclass w | .fclassTest w | .frcp w | .frsq w | .fsqrt w | .fdiv w | .exp2s w
  | .log2 w | .sin w | .cos w | .fcvt w | .qcvt w | .dqcvt w | .pkrd w | .pkrdClr w | .fdot w | .frnd w | .lread w
  | .lpush w | .lbcast w | .red w | .scan w | .vote w | .ballot w | .vlane w | .bar w | .arrive w | .bwait w
  | .matchLanes w | .gcvt w | .gexpDir w | .gexpVal w | .gdotCos w | .gdotFull w | .gscl w | .gadd w | .gaddSub w
  | .gneg w | .gnrm w | .gsetn w | .gmov w | .gproj w | .glerp w | .gld w | .gst w | .lds w | .sts w | .atom w
  | .atoms w | .cas w | .cass w | .bankop w | .bankopSadd w | .pref w | .axl w | .bind w | .unbind w | .unbindWord w
  | .acq w | .rel w | .fence w | .xfence w | .cutinit w | .pubcut w | .fincut w | .waitcut w | .cutchk w | .stale w
  | .cpy w | .cpys w | .cpyg w | .cbatch w | .cwait w | .mput w | .mget w | .mgetZ w | .mtry w | .mbind w
  | .mbindRst w | .mma w | .mmas w | .mzero w | .mdrain w | .mdrainZ w | .mscl w | .mwait w | .mwit w | .mring w
  | .enq w | .enqNb w | .fetchw w | .recSend w | .rgnb w | .rgne w | .rgnx w | .trap w | .tret w | .csrr w | .csrw w
  | .csrwCode w | .wfe w | .sevCore w | .sevCluster w | .perfr w | .metr w | .ckpt w | .halt w | .tlbiPage w
  | .tlbiTenant w | .tlbiAll w => some w
  | _ => none

/-- The rows that share one opcode (Table 3.6); an opcode with no row is unassigned (R66). -/
def rowsOfOp (op : Nat) : List (Fields → Instr) :=
  match op with
  | 0x00 => [.nop]
  | 0x01 => [.runend]
  | 0x02 => [.mov]
  | 0x03 => [.movi]
  | 0x04 => [.movh]
  | 0x05 => [.sel]
  | 0x06 => [.iadd]
  | 0x07 => [.isub]
  | 0x08 => [.imul]
  | 0x09 => [.imulh]
  | 0x0A => [.imad]
  | 0x0B => [.idiv]
  | 0x0C => [.irem]
  | 0x0D => [.imin]
  | 0x0E => [.imax]
  | 0x0F => [.iabs]
  | 0x10 => [.ineg]
  | 0x11 => [.andb]
  | 0x12 => [.orb]
  | 0x13 => [.xorb]
  | 0x14 => [.andn]
  | 0x15 => [.shl]
  | 0x16 => [.shr]
  | 0x17 => [.sar]
  | 0x18 => [.rot]
  | 0x19 => [.bfx]
  | 0x1A => [.bfi]
  | 0x1B => [.popc]
  | 0x1C => [.clz]
  | 0x1D => [.brev]
  | 0x1E => [.icmp]
  | 0x1F => [.isat]
  | 0x20 => [.lea]
  | 0x21 => [.capset]
  | 0x22 => [.capchk]
  | 0x23 => [.capld]
  | 0x24 => [.capst]
  | 0x25 => [.ld, .ldSide]
  | 0x26 => [.st]
  | 0x27 => [.bra, .braCond]
  | 0x28 => [.brc, .brcPk]
  | 0x29 => [.brx]
  | 0x2A => [.call, .callInd]
  | 0x2B => [.ret]
  | 0x2C => [.join, .joinTeam]
  | 0x2D => [.exit]
  | 0x2E => [.clk]
  | 0x40 => [.fadd]
  | 0x41 => [.fsub]
  | 0x42 => [.fmul]
  | 0x43 => [.ffma]
  | 0x44 => [.fmin]
  | 0x45 => [.fmax]
  | 0x46 => [.fcmp]
  | 0x47 => [.fclass, .fclassTest]
  | 0x48 => [.frcp]
  | 0x49 => [.frsq]
  | 0x4A => [.fsqrt]
  | 0x4B => [.fdiv]
  | 0x4C => [.exp2s]
  | 0x4D => [.log2]
  | 0x4E => [.sin]
  | 0x4F => [.cos]
  | 0x50 => [.fcvt]
  | 0x51 => [.qcvt]
  | 0x52 => [.dqcvt]
  | 0x53 => [.pkrd, .pkrdClr]
  | 0x54 => [.fdot]
  | 0x55 => [.frnd]
  | 0x60 => [.lread]
  | 0x61 => [.lpush]
  | 0x62 => [.lbcast]
  | 0x63 => [.red]
  | 0x64 => [.scan]
  | 0x65 => [.vote]
  | 0x66 => [.ballot]
  | 0x67 => [.vlane]
  | 0x68 => [.bar]
  | 0x69 => [.arrive]
  | 0x6A => [.bwait]
  | 0x6B => [.matchLanes]
  | 0x70 => [.gcvt]
  | 0x71 => [.gexpDir, .gexpVal]
  | 0x72 => [.gdotCos, .gdotFull]
  | 0x73 => [.gscl]
  | 0x74 => [.gadd, .gaddSub]
  | 0x75 => [.gneg]
  | 0x76 => [.gnrm]
  | 0x77 => [.gsetn]
  | 0x78 => [.gmov]
  | 0x79 => [.gproj]
  | 0x7A => [.glerp]
  | 0x7B => [.gld]
  | 0x7C => [.gst]
  | 0x80 => [.lds]
  | 0x81 => [.sts]
  | 0x82 => [.atom]
  | 0x83 => [.atoms]
  | 0x84 => [.cas]
  | 0x85 => [.cass]
  | 0x86 => [.bankop, .bankopSadd]
  | 0x87 => [.pref]
  | 0x88 => [.axl]
  | 0x89 => [.bind]
  | 0x8A => [.unbind, .unbindWord]
  | 0x8B => [.acq]
  | 0x8C => [.rel]
  | 0x8D => [.fence]
  | 0x8E => [.xfence]
  | 0x8F => [.cutinit]
  | 0x90 => [.pubcut]
  | 0x91 => [.fincut]
  | 0x92 => [.waitcut]
  | 0x93 => [.cutchk]
  | 0x94 => [.stale]
  | 0xA8 => [.cpy]
  | 0xA9 => [.cpys]
  | 0xAA => [.cpyg]
  | 0xAB => [.cbatch]
  | 0xAC => [.cwait]
  | 0xAD => [.mput]
  | 0xAE => [.mget, .mgetZ]
  | 0xAF => [.mtry]
  | 0xB0 => [.mbind, .mbindRst]
  | 0xB1 => [.mma]
  | 0xB2 => [.mmas]
  | 0xB3 => [.mzero]
  | 0xB4 => [.mdrain, .mdrainZ]
  | 0xB5 => [.mscl]
  | 0xB6 => [.mwait]
  | 0xB7 => [.mwit]
  | 0xB8 => [.mring]
  | 0xB9 => [.enq, .enqNb]
  | 0xBA => [.fetchw]
  | 0xBB => [.recSend]
  | 0xC8 => [.rgnb]
  | 0xC9 => [.rgne]
  | 0xCA => [.rgnx]
  | 0xCB => [.trap]
  | 0xCC => [.tret]
  | 0xCD => [.csrr]
  | 0xCE => [.csrw, .csrwCode]
  | 0xCF => [.wfe]
  | 0xD0 => [.sevCore, .sevCluster]
  | 0xD1 => [.perfr]
  | 0xD2 => [.metr]
  | 0xD3 => [.ckpt]
  | 0xD4 => [.halt]
  | 0xD5 => [.tlbiPage, .tlbiTenant, .tlbiAll]
  | _ => []

/-- R177, R69 step 5: what a position accepts, but for the group's allocation. -/
def posAccepts : Pos → Opnd → Bool
  | .unused, o => o == .v 0
  | .cls s r, o =>
    s.contains (opndCls o) &&
    (match o with
     | .v n => n.toNat % r == 0 && decide (n.toNat + r ≤ 256)
     | .t _ => r == 1
     | _ => true)
  | .kgroup n, .k i => decide (i.toNat + n ≤ 64)
  | .kgroup _, _ => false
  | .pair r _, .v n => n.toNat % r == 0 && decide (n.toNat + r ≤ 256)
  | .pair _ ks, .k i => i.toNat % ks == 0 && decide (i.toNat + ks ≤ 64)
  | .pair _ _, .zero => true
  | .pair _ _, _ => false

/-- R69 step 5 on the allocation: v and g indices below the group's allocation (R12, R178). -/
def posAllocated (vregs grains : Nat) : Pos → Opnd → Bool
  | .unused, _ => true
  | .cls _ r, .v n => decide (n.toNat + r ≤ vregs)
  | .pair r _, .v n => decide (n.toNat + r ≤ vregs)
  | _, .g n => decide (n.toNat < grains)
  | _, _ => true

/-- R63: an unused operand field is 0x000. -/
def unusedZero (p : Pos) (o : Opnd) : Bool := p != .unused || o == .v 0

/-- R69 step 4, the field check. Guard of RUNEND: R83. HOLD of a grain operand: R178. -/
def fieldsOk (i : Instr) (w : Fields) : Bool :=
  match formOf i with
  | none => false
  | some f =>
    f.mod w && w.ty != .reserved && w.ls != 3#2 &&
    unusedZero (f.d w) w.d && unusedZero (f.a w) w.a && unusedZero (f.b w) w.b &&
    (if cimm w then decide (w.imm.toNat < 2 ^ 11) else f.immOk w) &&
    !(w.hold.getLsbD 0 && opndCls w.a == .g) && !(w.hold.getLsbD 1 && opndCls w.b == .g) &&
    (f.op != 1 || (w.gp == 7#3 && !w.gn))

/-- R18's sources: k, immediates, zero, uniform specials and per-split registers. -/
def uniformSource (p : Pos) (o : Opnd) : Bool :=
  match p, o with
  | .unused, _ => true
  | _, .k _ | _, .lit _ | _, .zero | _, .a _ | _, .m _ => true
  | _, .special n => n.val != 0
  | _, _ => false

/-- R18: an entry whose destination is a k or capability register. -/
def uniformForm (f : Form) (w : Fields) : Bool :=
  f.uni != .never && (opndCls w.d == .k || opndCls w.d == .a) && f.d w != .unused

/-- R18 and R83: the guard and source rules of uniform and split-wide entries. -/
def uniformOk (f : Form) (w : Fields) : Bool :=
  (!f.splitWide || w.gp == 7#3) &&
  (!uniformForm f w ||
    (w.gp == 7#3 &&
      (f.uni == .guardOnly ||
        (uniformSource (f.a w) w.a && uniformSource (f.b w) w.b && (!cimm w || uniformSource (f.c w) (opC w))))))

/-- RED with .cnt also writes the register after its result (R164). -/
def cntFits (w : Fields) : Bool :=
  match w.d with
  | .k n => decide (n.toNat < 63)
  | .v n => decide (n.toNat + tyRegs w.ty < 256)
  | _ => true

/-- R69 step 5, but for the allocation and R18: the classes and indices of every operand. -/
def operandsOk (i : Instr) (w : Fields) : Bool :=
  match formOf i with
  | none => false
  | some f =>
    posAccepts (f.d w) w.d && posAccepts (f.a w) w.a && posAccepts (f.b w) w.b &&
    (!cimm w || posAccepts (f.c w) (opC w)) &&
    (f.op != 0x63 || !w.var.getLsbD 3 || cntFits w)

end Sys2Proof.Machine
end

