-- ==== Sys2Proof/WellFormed.lean ====
section
/-! DEFINITION. Which terms of Instr are instructions of the manual: the fields pass step 4 of R69, the operands name what
the entry accepts (step 5, but for the running group's allocation), and R18 and R83 hold. The machine's other steps carry
no word; their operands must name units that exist. -/
namespace Sys2Proof
open Sys2Proof.Machine

/-- A core index: two dies of 145 cores, the last of each the headstock core (R1). -/
def coreOk (c : Nat) : Bool := decide (c < 290)

def agentOk (a : Agent) : Bool := coreOk a.core && decide (a.slot ≤ 64) && decide (a.split < 4)

/-- The ranges of the operands of the machine's other steps. -/
def stepOperandsOk : Instr → Bool
  | .longLatencyWriteback a _ | .runCut a | .waitcutWake a | .qfullTimeout a | .wfeTimeout a => agentOk a
  | .memoryEccUncorr a l p => agentOk a && decide (l < 32) && decide (p < 2 ^ 48)
  | .repack c f _ => coreOk c && decide (f < 64)
  | .matrixOpStart c | .mmasPut c | .ringSlotConsume c _ => coreOk c
  | .matrixOpComplete c s _ => coreOk c && decide (s < 16)
  | .steadyRestStep d | .faultRecordWrite d | .firmwareInterrupt d | .l2ModeChange d _ => decide (d < 2)
  | .copyComplete c s _ | .fetchwAnswer c s | .snapshotDrain c s | .protectedWindowEnd c s | .watchdog c s
  | .commitDrainComplete c s | .storageEccUncorr c s _ | .harvestRestart c s _ => coreOk c && decide (s ≤ 64)
  | .packetFetch q | .launchPacket q | .nodePacket q | .taskPacket q | .waitPacket q | .signalPacket q | .ibPacket q
  | .predPacket q | .loopPacket q | .ffencePacket q | .burnwaitPacket q | .queueWptrWrite q _ | .queueEnable q _
  | .queueReset q | .nodeTimerExpiry q _ => decide (q < 4096)
  | .pageMigration _ v d => decide (v < 2 ^ 41) && decide (d < 2 ^ 32)
  | .migrationComplete _ v => decide (v < 2 ^ 41)
  | .secondTierResume n | .secondTierPowerDown n => decide (n < 8)
  | .l2EccUncorr d s p => decide (d < 2) && decide (s < 256) && decide (p < 2 ^ 48)
  | .fmtwinEnable d n | .fmtwinDisable d n => decide (d < 2) && decide (n < 64)
  | .hostMailboxWrite f _ | .hostMailboxRead f _ | .hostPublication f _ | .hostFinish f _ => decide (f ≤ 16)
  | .torwenRetrain p _ | .torwenPortDown p => decide (p < 32)
  | .meterSnapshot p _ => decide (p < 16)
  | .recoveryChunk d => decide (d.length ≤ 2 ^ 20)
  | .deviceIdWrite v => decide (v.toNat < 0x80000)
  | _ => true

/-- A well-formed instruction or step. -/
def WellFormed (i : Instr) : Bool :=
  match formOf i, fieldsOf i with
  | some f, some w => fieldsOk i w && operandsOk i w && uniformOk f w
  | _, _ => stepOperandsOk i

end Sys2Proof
end

