-- ==== Sys2Proof/Decode.lean ====
section
/-! DEFINITION. The decoder: twelve bytes, or the 96-bit word they form (R59), to an instruction or a named rejection. The
encoder stands after it. The position of A follows the words of R59, A[0] at bit 64 and A[10:1] at bits [63:54], which the
worked encodings confirm; Table 3.1 alone shows one range. -/
namespace Sys2Proof
open Sys2Proof.Machine

/-- Why a word is not an instruction (R69). -/
inductive DecodeError where
  /-- OP is unassigned (step 3). -/
  | unassignedOp (op : Nat)
  /-- The fields match no listed form (step 4). -/
  | badFields (op : Nat)
  /-- Fewer than twelve bytes. -/
  | tooShort
  deriving DecidableEq, Repr

/-- Bits [hi:lo] of a word. -/
def wordField (w : BitVec 96) (hi lo : Nat) : Nat := bits w.toNat hi lo

def opOfWord (w : BitVec 96) : Nat := wordField w 95 88

/-- The fields of Table 3.1. -/
def fieldsOfWord (w : BitVec 96) : Fields where
  ty := tyOfCode (wordField w 87 84)
  var := BitVec.ofNat 4 (wordField w 83 80)
  flags := BitVec.ofNat 4 (wordField w 79 76)
  d := opndOfBits (BitVec.ofNat 11 (wordField w 75 65))
  a := opndOfBits (BitVec.ofNat 11 (2 * wordField w 63 54 + wordField w 64 64))
  b := opndOfBits (BitVec.ofNat 11 (wordField w 53 43))
  gn := wordField w 42 42 == 1
  gp := BitVec.ofNat 3 (wordField w 41 39)
  stall := BitVec.ofNat 4 (wordField w 38 35)
  hold := BitVec.ofNat 2 (wordField w 34 33)
  ls := BitVec.ofNat 2 (wordField w 32 31)
  await := BitVec.ofNat 8 (wordField w 30 23)
  imm := BitVec.ofNat 23 (wordField w 22 0)

/-- The row of the opcode whose form lists these fields. -/
def pickRow : List (Fields → Instr) → Fields → Option Instr
  | [], _ => none
  | r :: rest, w => if fieldsOk (r w) w then some (r w) else pickRow rest w

/-- The decoder. -/
def decodeWord (w : BitVec 96) : Except DecodeError Instr :=
  let op := opOfWord w
  match rowsOfOp op with
  | [] => .error (.unassignedOp op)
  | rows =>
    match pickRow rows (fieldsOfWord w) with
    | some i => .ok i
    | none => .error (.badFields op)

/-- The word of the first twelve bytes, lowest address first. -/
def wordOfBytes (l : List Byte) : BitVec 96 := BitVec.ofNat 96 (ofLeBytes (l.take 12))

/-- Decode an instruction and leave the rest of the bytes. -/
def decodeBytes (l : List Byte) : Except DecodeError (Instr × List Byte) :=
  if l.length < 12 then .error .tooShort
  else
    match decodeWord (wordOfBytes l) with
    | .ok i => .ok (i, l.drop 12)
    | .error e => .error e

/-- The word of an opcode and its fields (Table 3.1, R59). -/
def wordOfFields (op : Nat) (w : Fields) : BitVec 96 :=
  let a := (opndBits w.a).toNat
  BitVec.ofNat 96
    (op * 2 ^ 88 + tyCode w.ty * 2 ^ 84 + w.var.toNat * 2 ^ 80 + w.flags.toNat * 2 ^ 76
      + (opndBits w.d).toNat * 2 ^ 65 + a % 2 * 2 ^ 64 + a / 2 * 2 ^ 54 + (opndBits w.b).toNat * 2 ^ 43
      + (if w.gn then 2 ^ 42 else 0) + w.gp.toNat * 2 ^ 39 + w.stall.toNat * 2 ^ 35 + w.hold.toNat * 2 ^ 33
      + w.ls.toNat * 2 ^ 31 + w.await.toNat * 2 ^ 23 + w.imm.toNat)

/-- The encoder; none for the machine's other steps, which have no word. -/
def encode (i : Instr) : Option (BitVec 96) :=
  match formOf i, fieldsOf i with
  | some f, some w => some (wordOfFields f.op w)
  | _, _ => none

/-- The instruction the decoder reads from the low nbits of w, the bits above them zero. -/
def decodeTableWord (nbits w : Nat) : Option Instr :=
  match decodeBytes (leBytes (w % 2 ^ nbits) 12) with
  | .ok (i, _) => some i
  | .error _ => none

end Sys2Proof
end

