-- ==== Sys2Proof/Config.lean ====
section
/-! DEFINITION. What the manual leaves open, as constants without a body, and the capacities it fixes. A free value is one
of these constants applied to State.free, a plain counter, and to a salt that tells two choices of one step apart. Nothing
can evaluate them, so a statement about them holds for every value. -/
namespace Sys2Proof

/-- A choice between two permitted outcomes (R9): early reads (R22, R31), L1 evictions (R202), copy orders (R275, R307). -/
opaque Config.freeBit : Nat → Nat → Bool
/-- A choice among many permitted outcomes, such as a TLB victim (R198). -/
opaque Config.freeNat : Nat → Nat → Nat
/-- A byte of memory of another device or of the host, whose contents are outside the module. -/
opaque Config.freeByte : Nat → Nat → Byte
/-- R121, R123, R176: whether a faithfully rounded function takes the upper neighbour of its exact value, by operation,
operand bits and FLUSH. -/
opaque Config.faithfulUp : Nat → Nat → Bool → Bool
/-- R377: the signature by the module's key over a digest. The key is held in fuses and is not given. -/
opaque Config.signature : Nat → BitVec 768
/-- R378: what an SPDM response holds beyond what the manual gives; the content is the SPDM 1.3 standard's. -/
opaque Config.spdmBody : Nat → Nat → List Byte

/-- R387: the part number that the identity feature shows; it is not given. -/
opaque Config.partNumber : Nat

/-- R1: logical cores of one die that programs see. -/
def Config.meshCores : Nat := 144
/-- The core key of a core: 145 keys a die, the last for the headstock core. -/
def Config.coreKeys : Nat := 145
/-- R131, R133: group slots of a core; the model's slot 64 holds the tailstock's matrix stream. -/
def Config.streamSlot : Nat := 64
/-- R19. -/
def Config.runLimit : Nat := 24
/-- R145 and Table 6.3. -/
def Config.occupancyLimit : Nat := 384
/-- R379: the age and the grain of shared counters. -/
def Config.sharedDelay : Nat := 175000
/-- R219. -/
def Config.bindingLimit : Nat := 1024

end Sys2Proof
end

