-- ==== Sys2Proof/Machine/State.lean ====
section
/-! DEFINITION. The state of the module: everything the manual names, as plain data. Sparse tables list only entries that
differ from the default their readers name. Fields marked MODEL are the model's own. -/
namespace Sys2Proof.Machine
open Sys2Proof

/-- A capability (Table 9.2). -/
structure Cap where
  device : BitVec 20
  tenant : BitVec 12
  pr : Bool
  pw : Bool
  px : Bool
  pa : Bool
  lenM : BitVec 18
  lenE : BitVec 6
  base : BitVec 57
  deriving DecidableEq, Repr

/-- The null capability (R14). -/
def Cap.null : Cap := ⟨0, 0, false, false, false, false, 0, 0, 0⟩

/-- A capability register with its translation part (Table 9.3). -/
structure CapReg where
  cap : Cap
  tv : Bool
  tpa : BitVec 48
  tlim : BitVec 40
  deriving DecidableEq, Repr

def CapReg.null : CapReg := ⟨Cap.null, false, 0, 0⟩

/-- A grain register of one lane (Table 8.1): sixteen 16-bit components, NORM and SPAN. -/
structure Grain where
  dir : BitVec 256
  norm : BitVec 24
  span : BitVec 3
  deriving DecidableEq, Repr

/-- The zero code (R171), a grain register's value at launch. -/
def Grain.zero : Grain := ⟨0, 0x800000#24, 0⟩

/-- A register of the executing agent. -/
inductive Loc where
  | v (n : Nat) | k (n : Nat) | t (n : Nat) | p (n : Nat) | a (n : Nat)
  /-- The direction, SPAN and zero mark of a grain register, and its norm (R176). -/
  | g (n : Nat) | gn (n : Nat)
  deriving DecidableEq, Repr

/-- One register of one lane and a value for it. Per-split registers use lane 0. Capability and grain registers are held as
the numbers of Fields and Operands. -/
structure RegCell where
  loc : Loc
  lane : Nat
  val : Nat
  deriving DecidableEq, Repr

/-- Fixed-latency results not yet readable (R26): the cycle from which they are, and the values they replaced. -/
structure Flight where
  ready : Nat
  old : List RegCell
  deriving DecidableEq, Repr

/-- Long-latency results not yet written (R20), with their tag once a RUNEND has named one. MODEL: `id` names the issue, which
the copies of a split's children share (R137). -/
structure Pending where
  tag : Option Nat
  id : Nat
  cells : List RegCell
  deriving DecidableEq, Repr

/-- One slot of the operand latch (R28): the run's instruction that filled it and its value in each lane. -/
structure Latched where
  slot : Nat
  held : Nat
  vals : List Nat
  deriving DecidableEq, Repr

/-- Lanes parked under one retryable code (R334), with the INFO and PC of the record (Table 15.2). `also` are lanes that did
not fault and replay with them (R190). -/
structure Park where
  code : Nat
  lanes : BitVec 32
  info : Nat
  also : BitVec 32
  pc : BitVec 57
  /-- It is that of a queued matrix operation, which parks its stream (R263). -/
  op : Bool
  deriving DecidableEq, Repr

/-- What a split waits for (R145, R304). -/
inductive Wait where
  /-- R21: its AWAIT mask. -/
  | await (mask : BitVec 8)
  /-- R111, R130, R359: every earlier result. -/
  | results
  /-- R138: a JOIN at this address under its innermost entry. -/
  | join (addr : Nat)
  /-- R168: this barrier, until this number of completions has passed. -/
  | barrier (cluster : Bool) (b : Nat) (n : Nat)
  /-- R276: a mailbox that must become EMPTY (put), or FULL or ORPHAN. -/
  | mailbox (m : Nat) (put : Bool)
  /-- R312: a put at a mailbox that MBIND.rst emptied, which woke no waiter; a read of the mailbox lets it go on. -/
  | mailboxOff (m : Nat)
  /-- R257: a cut word at this physical address. -/
  | cut (pa : Nat) (n : Nat)
  /-- R362: an event, until this cycle. -/
  | event (until_ : Nat)
  /-- R310: batch n. -/
  | batch (n : Nat)
  /-- R309: the oldest closed batch. -/
  | batchSlot
  /-- R308: a free place in the copy engine. -/
  | copySlot
  /-- R300: a slot of a queue, since this cycle. -/
  | queue (q : Nat) (since : Nat)
  /-- R323: the earlier FETCHW's answer. -/
  | fetchw
  /-- R324: a node's batch slot; records before this lane are accepted. -/
  | record (node : Nat) (lane : Nat)
  /-- R354: the region store buffer's drain. -/
  | drain
  /-- R336: space in the checkpoint banks for this many bytes. -/
  | snapshot (bytes : Nat)
  /-- R257, R371: a change of another device's cut word, of which the core learns in this cycle. -/
  | farCut (until_ : Nat)
  /-- R262: an entry of the matrix queue. -/
  | matrixSlot
  /-- R320: every matrix operation of the stream. -/
  | matrix
  /-- R359: every matrix operation of the stream that can still set a flag. -/
  | flags
  /-- R332: room for a class in the die's reporting port. -/
  | port (cls : Nat)
  deriving DecidableEq, Repr

/-- A fault of a failed batch not yet raised (R275, R310): batch, the copy's number, by which copies stand in issue order, its
address, code and INFO. -/
structure CopyFault where
  batch : Nat
  copy : Nat
  pc : BitVec 57
  code : Nat
  info : Nat
  deriving DecidableEq, Repr

/-- The state one split owns (Tables 1.1, 1.3, 1.4, 10.4, 16.3; R136). A matrix stream holds one. -/
structure Split where
  pc : BitVec 57
  mask : BitVec 32
  k : Tab DWord
  a : Tab CapReg
  ctl : Word
  status : Word
  srseed : Word
  /-- Instructions issued in the current run (R19); 0 before a run's first. -/
  run : Nat
  flight : List Flight
  pending : List Pending
  /-- R22: long-latency destinations whose tag has not been awaited, with the tag once a RUNEND has named one. -/
  unawaited : List (Option Nat × Loc)
  latch : List Latched
  /-- R25, R106, R336: the first cycle in which the next instruction may issue. -/
  readyAt : Nat
  /-- R146: the run is cut and waits to be chosen. -/
  cut : Bool
  tvec : BitVec 57
  inHandler : Bool
  trapCode : Byte
  trapPc : BitVec 57
  trapMask : BitVec 32
  /-- The mask at entry, which TRAP_MASK cannot exceed (R329). -/
  trapEntry : BitVec 32
  trapInfo : DWord
  /-- The faulting instruction's address (R329). -/
  trapFrom : BitVec 57
  ev : Bool
  wait : Option Wait
  /-- R276, R300: the cycle in which the present wait began, with the free counter to order equal cycles. -/
  waitFrom : Nat
  parked : List Park
  /-- R349: since when it has been parked. -/
  parkedSince : Nat
  /-- R335: a write with END = 1 has made its parked fault terminal, but its record has no room yet (R332). -/
  ending : Bool
  /-- R329, R334: the lanes to which the next instruction is confined; none is all. -/
  only : Option (BitVec 32)
  /-- R137: the innermost deferral entry, counted from the bottom of the stack; none. -/
  inner : Option Nat
  /-- R155: held at a BRC.pk target, until this cycle. -/
  pkHold : Option Nat
  /-- R363: the instruction at the PC has been counted, having issued and then waited or parked. -/
  counted : Bool
  /-- R106: control has left the 57-bit address space; the PC holds the low 57 bits of the target. -/
  pcOver : Bool
  /-- R357: the next instruction is the one that a TRET resumed, which ends a run. -/
  resumed : Bool
  deriving DecidableEq, Repr

/-- An entry of the deferral stack (R137). -/
structure Deferral where
  brc : Nat
  parent : BitVec 32
  path : Option (Nat × BitVec 32)
  waiting : Option (Nat × BitVec 32)
  deriving DecidableEq, Repr

/-- Where held accesses go: physical memory (with virtual address and tenant, for a page that moves) or the scratchpad of
a core. -/
inductive Place where
  | mem (va : Nat) (tenant : BitVec 12) (pa : Nat)
  | sp (core : Nat) (off : Nat) (addr : Nat)
  /-- An address of another device or of the host. -/
  | far (device va : Nat)
  deriving DecidableEq, Repr

/-- Geometry of a copy (Table 14.2). -/
inductive CopyShape where
  | linear (doff soff len : Nat)
  | strided (doff soff e n0 n1 n2 : Nat) (ss0 ss1 ss2 ds0 ds1 ds2 : Int)
  | gather (doff soff e nel ioff w : Nat)
  | shard (job step shard nshard len : Nat)
  deriving DecidableEq, Repr

/-- A binding of a context (R219): the device, base and length of the range, and the device and virtual address of the cut
word. -/
structure Binding where
  dev : Nat
  base : Nat
  len : Nat
  wdev : Nat
  word : Nat
  deriving DecidableEq, Repr

/-- One entry of the region store buffer in program order (R337, R228). -/
inductive Held where
  | store (place : Place) (bytes : List Byte)
  | capStore (place : Place) (c : Cap)
  /-- An atomic, a compare and swap or a bank operation: code and type, then per lane its place, c and second value. -/
  | atomic (kind op : Nat) (ty : Ty) (lanes : List (Place × Nat × Nat))
  | copy (pc : BitVec 57) (dst src idx : Cap) (shape : CopyShape)
  /-- A cut-word operation: 0 REL, 1 CUTINIT, 2 PUBCUT, 3 FINCUT. -/
  | cut (kind : Nat) (place : Place)
  | bind (b : Binding)
  /-- The device, base and length of a range; the device and address of a word. -/
  | unbind (dev base len : Nat)
  | unbindWord (wdev word : Nat)
  deriving DecidableEq, Repr

/-- An open region (R336): the live-in set, the depth of the deferral stack, and the held entries. -/
structure Region where
  live : List Nat
  depth : Nat
  held : List Held
  deriving DecidableEq, Repr

/-- A snapshot (R336, R342). `phase`: 1 IN_BANKS, 2 DRAINING, 3 SAVED (Table 16.3). -/
structure Snapshot where
  /-- R393: its marker is that of an RGNB, so a restart finds the region open. -/
  opens : Bool
  live : List Nat
  bytes : Nat
  phase : Nat
  /-- R392: the cycle in which its drain starts, and once it drains that in which it is saved. -/
  due : Nat
  v : Tab Word
  p : Tab Bool
  sr : Tab Word
  pk : Tab Word
  split : Split
  slot : Nat
  stack : List Deferral
  exited : BitVec 32
  arrivals : Tab Nat
  deriving DecidableEq, Repr

/-- A ring bound to an MMA operand (R319). -/
structure RingBind where
  spa : Nat
  slots : Nat
  bytes : Nat
  fmt : Nat
  rows : Nat
  deriving DecidableEq, Repr

/-- A group (R11, R133), or a matrix stream, which has one lane and one split (R260). -/
structure Group where
  launch : Nat
  context : BitVec 12
  groupId : Nat
  cluster : Nat
  team : Nat
  member : Nat
  stream : Bool
  quad : Nat
  vregs : Nat
  grains : Nat
  banks : List Nat
  granules : List Nat
  v : Tab Word
  p : Tab Bool
  t : Tab Word
  g : Tab Grain
  /-- The stochastic-rounding states (R50). -/
  sr : Tab Word
  pk : Tab Word
  exited : BitVec 32
  /-- Lanes that a repacking moved away (R139). -/
  absent : BitVec 32
  /-- Virtual thread of each lane, home slot * 32 + virtual lane; unlisted lanes are the group's own (R140). -/
  threads : Tab Nat
  repacked : Bool
  /-- MODEL: the JOIN.team at which lanes of a repacked group wait under its first entry (R141). -/
  teamJoin : Option Nat
  stack : List Deferral
  splits : Tab Split
  /-- Arrivals of each thread at each barrier (R168), key (scope * 16 + b) * 32 + virtual lane. -/
  arrivals : Tab Nat
  /-- Arrivals already counted before a restart (R342), same key. -/
  counted : Tab Nat
  openCopies : List Nat
  /-- Batches closed (R274), and completed. -/
  closed : Nat
  completed : Nat
  /-- Copies of each closed batch not yet completed, oldest batch first. -/
  batches : List (Nat × List Nat)
  failed : List CopyFault
  /-- R323: a FETCHW without its answer, with its scratchpad address; the withdrawn group (R292). -/
  fetching : Option Nat
  withdrawn : Option (Nat × Nat)
  region : Option Region
  committed : List Held
  snapshot : Option Snapshot
  evictions : Nat
  protectedUntil : Nat
  rgnSel : BitVec 10
  placedAt : Nat
  lastIssue : Nat
  evicted : Bool
  /-- The stream's status (Table 12.2) but for PEND and SUSPECT. -/
  mxstatus : Word
  ringA : Option RingBind
  ringB : Option RingBind
  /-- Scale addresses of A and B (R318); none is one. -/
  sclA : Option Nat
  sclB : Option Nat
  /-- R271: an operation of the stream set WFAIL and its fault is not yet raised. -/
  witnessFault : Bool
  deriving DecidableEq, Repr

/-- A TLB entry (R198): one extent of a tenant. -/
structure TlbEntry where
  tenant : BitVec 12
  vpn : Nat
  extent : Nat
  frame : Nat
  perm : BitVec 4
  home : Nat
  deriving DecidableEq, Repr

/-- An L1 line (R202): physical line number, owner tag, its bytes and the tags of its eight granules. -/
structure L1Line where
  line : Nat
  owner : BitVec 12
  data : List Byte
  tags : BitVec 8
  deriving DecidableEq, Repr

/-- The state of a mailbox (R276). -/
inductive MbxState where
  | empty | full | orphan
  deriving DecidableEq, Repr

structure Mailbox where
  state : MbxState
  value : DWord
  /-- LIVE counts the agents of this list (R276); an agent is named by its group slot. -/
  writers : List Nat
  live : Nat
  /-- R277: it has held a registered writer since it was last reset. -/
  bound : Bool
  deriving DecidableEq, Repr

/-- One sub-array's part of a matrix operation: sub-array 0 to 15, block, position in the block list, progress in K, attempt,
whether its block is written, and then the block's words before the operation (R344). -/
structure SubOp where
  sub : Nat
  block : Nat
  pos : Nat
  progress : Nat
  /-- Cycle in which the block is written (R269), once progress has reached K. -/
  writeAt : Option Nat
  attempt : Nat
  done : Bool
  before : List Nat
  deriving DecidableEq, Repr

/-- Operand of an MMA: L2 rows through a capability, or the bound ring. -/
inductive MatSource where
  | l2 (c : Cap) (off stride : Nat)
  | ring (r : RingBind) (scale : Option Nat)
  deriving DecidableEq, Repr

inductive MatKind where
  | mma (m n k : Nat) (a b : MatSource) (sat : Bool)
  | zero (block count : Nat)
  | drain (ty : Ty) (spa pitch block : Nat) (clear : Bool)
  | scale
  deriving DecidableEq, Repr

/-- One L2 line of an operand as the chuck unit found it at the start: its address, its bytes and its side array. `read`: a
shootdown has found it in flight, and it has been read (R201). -/
structure OpLine where
  pa : Nat
  data : List Byte
  side : List Byte
  read : Bool
  deriving DecidableEq, Repr

/-- An entry of the matrix queue (R262). -/
structure MatOp where
  /-- The stream's launch and %groupid. -/
  owner : Nat × Nat
  /-- The stream's cluster and team, by which scratchpad addresses resolve (R203). -/
  home : Nat × Nat
  /-- The instruction's address. -/
  pc : BitVec 57
  kind : MatKind
  started : Option Nat
  /-- R269: the step at which it starts computing. Of an operation without sub-arrays, the cycle in which it completes. -/
  computeAt : Nat
  rate : Nat
  subs : List SubOp
  /-- Formats decided at the start (R264), and the rows of operands in L2. -/
  fmtA : Nat
  fmtB : Nat
  rowsA : List (List OpLine)
  rowsB : List (List OpLine)
  /-- Ring slots consumed so far (R266), and the scales of the chunks that have begun (R318). -/
  slotsA : List (List Byte)
  slotsB : List (List Byte)
  scaleA : List Byte
  scaleB : List Byte
  /-- R265: lines pinned for it, newest first, and the K up to which its lines have been read. -/
  pinned : List Nat
  readK : Nat
  /-- R315: the mailbox and value of an MMAS. -/
  put : Option (Nat × DWord)
  /-- R312: the put waits at a mailbox that MBIND.rst emptied. -/
  asleep : Bool
  /-- R271: a sub-array failed its witness twice. -/
  failed : Bool
  completed : Bool
  deriving DecidableEq, Repr

/-- A copy in the copy engine (R274, R308). Numbers rise in issue order. -/
structure Copy where
  id : Nat
  launch : Nat
  group : Nat
  slot : Nat
  batch : Nat
  dst : Cap
  src : Cap
  idx : Cap
  shape : CopyShape
  /-- The instruction's address. -/
  pc : BitVec 57
  parked : Option (Nat × Nat)
  /-- R335: its parked fault was made terminal while its context was switched out. -/
  ending : Bool
  /-- R275: bytes written by copies of its batch that completed before it: address, value before and after. -/
  rivals : List (Nat × Byte × Byte)
  deriving DecidableEq, Repr

/-- The runs a split has issued in a row of its class (R147). -/
structure RunRow where
  slot : Nat
  split : Nat
  count : Nat
  deriving DecidableEq, Repr

/-- A quadrant's issue slot (R145): the slot and split whose run occupies it, since when, from which cycle the next
instruction may issue, and the last runs of the guaranteed and the harvest class. -/
structure Quad where
  owner : Option (Nat × Nat)
  since : Nat
  freeAt : Nat
  rowG : RunRow
  rowH : RunRow
  /-- MODEL: the cycle in which the last choice cut the run that occupied it (R146). -/
  cutAt : Nat
  deriving DecidableEq, Repr

def Quad.init : Quad := ⟨none, 0, 0, ⟨0, 0, 0⟩, ⟨0, 0, 0⟩, 0⟩

/-- A core (R2): its storage, mailboxes and engines. -/
structure Core where
  /-- Remap table entries that differ from the own thread (Table 6.2), key slot * 32 + virtual lane. -/
  remap : Tab (BitVec 12)
  tlb : List TlbEntry
  l1 : List L1Line
  /-- The scratchpad's bytes (R203). -/
  sp : Tab Byte
  /-- Accumulator words (R268), key block * 4096 + word. -/
  acc : Tab Word
  mq : List MatOp
  /-- Activity in AU of each sub-array, quadrant * 4 + index (R272). -/
  activity : Tab Nat
  suspect : Bool
  removed : List StorageKind
  mbx : Tab Mailbox
  copies : List Copy
  nextCopy : Nat
  /-- Snapshot bytes held in the checkpoint banks by an evicted or resident group (R336), key slot. -/
  banks : Tab Nat
  quads : Tab Quad
  /-- R358: a headstock core stopped by HALT. -/
  halted : Bool
  /-- Sub-arrays whose last operation was of the harvest class (R272). -/
  filler : List Nat
  deriving DecidableEq, Repr

def Mailbox.init : Mailbox := ⟨.empty, 0, [], 0, false⟩
def Core.init : Core := ⟨[], [], [], [], [], [], [], false, [], [], [], 0, [], [], false, []⟩

/-- A line of L2 (Table 9.5) by its physical line number. VTAG is the memory's tags. `used` orders lines by recency. -/
structure L2Line where
  lst : Nat
  owner : BitVec 12
  ftag : Nat
  cls : Bool
  slice : Nat
  way : Nat
  used : Nat
  pins : Nat
  side : List Byte
  deriving DecidableEq, Repr

/-- A launch (R283, R284). -/
structure Launch where
  queue : Nat
  /-- The packet it came from; none for a node batch or a task. -/
  packet : Option Nat
  /-- The ring packet of its LAUNCH, NODE or TASK (R292). -/
  ring : Nat
  task : Option Nat
  node : Option Nat
  /-- The node's batch slot that it uses, and the number of records (R291). -/
  nodeGen : Nat
  nodeSlot : Nat
  records : Nat
  graph : Nat
  cls : Bool
  tenant : BitVec 12
  part : Nat
  context : BitVec 12
  entry : Nat
  mentry : Option Nat
  argLen : Nat
  code : Cap
  arg : Cap
  argReg : Cap
  caps : List Cap
  save : Cap
  hasSave : Bool
  vregs : Nat
  grain : Nat
  team : Nat
  cw : Nat
  ch : Nat
  spblk : Nat
  region : Bool
  fetch : Bool
  gx : Nat
  gy : Nat
  passK : Option (Nat × Nat)
  /-- Groups placed or withdrawn so far, in ascending order, and groups that have ended. -/
  placed : Nat
  ended : Nat
  streams : Nat
  withdrawnIds : List Nat
  /-- Teams placed: cluster, team, core, first scratchpad byte. -/
  teams : List (Nat × Nat × Nat × Nat)
  /-- Completion counts G (R168), key ((cluster * 16 + team) * 2 + scope) * 16 + b. -/
  bars : Tab Nat
  /-- The lowest live groups' exits count as arrivals; groups ended, by %groupid. -/
  endedIds : List Nat
  stopping : Bool
  failed : Option Nat
  done : Bool
  deriving DecidableEq, Repr

/-- A level of the fetch position (R285, R288): the ring, an indirect buffer, or a LOOP body within one of them. -/
structure Frame where
  /-- The virtual address of the buffer; none is the ring. `far`: it is another device's. -/
  base : Option Nat
  far : Option Nat
  count : Nat
  /-- The next packet's index in the ring, modulo 2^32, or in the buffer. -/
  index : Nat
  /-- Packets of this level passed so far; an IB, or a LOOP with its body, is one (R288). -/
  ordinal : Nat
  /-- Packets of a LOOP body, where it starts, passes left after this one, and this pass; none for a ring or a buffer. -/
  body : Option Nat
  start : Nat
  passes : Nat
  pass : Nat
  /-- A body that never executes: of a LOOP with COUNT 0, or skipped. -/
  dead : Bool
  path : List Nat
  /-- The packet that opened it, and the ring packet through which fetch reached it. -/
  opener : Nat
  ring : Nat
  ibDepth : Nat
  loops : Nat
  deriving DecidableEq, Repr

/-- A fetched packet (R285): its bytes, the ring packet and place of R281, the path of ordinals by which PRED skips
(R288), and the innermost LOOP pass. -/
structure Packet where
  id : Nat
  bytes : Nat
  ring : Nat
  ibIndex : Nat
  ibDepth : Nat
  path : List Nat
  pass : Nat
  /-- R287: where fetch restarts after an FFENCE. -/
  resume : List Frame
  /-- R344: where fetch stood when it read this packet. -/
  fetchedAt : List Frame
  /-- It stays listed from execution until it completes (R282). -/
  executed : Bool
  completed : Bool
  /-- An IB or LOOP that fetch has gone through, ahead of its execution: the buffer's address; 0 of a LOOP (R285). -/
  entered : Option Nat
  deriving DecidableEq, Repr

/-- A program node (R291): its batch slots, buffer, launch, and the batch being filled. -/
structure Node where
  /-- The NODE packet that declared it. -/
  gen : Nat
  bslots : Nat
  boff : Nat
  buf : Cap
  template : Launch
  timer : Nat
  rsize : Nat
  graph : Nat
  /-- Records of the current batch, its slot and the cycle of its first record. -/
  filling : Nat
  slot : Nat
  since : Nat
  busy : List Nat
  deriving DecidableEq, Repr

/-- A queue (Table 13.1) and its front end. -/
structure Queue where
  ring : Cap
  ctab : Cap
  gstat : Cap
  wptr : BitVec 32
  rptr : BitVec 32
  log2n : Nat
  cls : Bool
  part : Nat
  weight : Nat
  etime : Nat
  niss : Nat
  res : Nat
  qstate : Nat
  iss : Nat
  reserved : Nat
  context : BitVec 12
  /-- The fetch position, innermost level first; empty before the queue is enabled. -/
  frames : List Frame
  /-- R286: the fetch in progress: the packet's device and address and its 32 bytes as they were when it began. -/
  peek : Option ((Option Nat × Nat) × Nat)
  packets : List Packet
  nextPacket : Nat
  /-- PRED skips in force: the path above, first and last ordinal skipped (R288). -/
  skips : List (List Nat × Nat × Nat)
  /-- R281, R326: the ring packet that RPTR does not pass. -/
  hold : Option Nat
  resetting : Bool
  nodes : Tab Node
  /-- Groups placed in the present round of each die (R290). -/
  round : Tab Nat
  /-- Slots in use per issuer index (R300): ring packet and issuer. -/
  issuers : List (Nat × Nat)
  /-- Open submissions of graphs 1 to 255 (R298) and their registered words, physical addresses of status and words. -/
  opened : List Nat
  words : List (Nat × Nat)
  /-- R298: open submissions whose CANCELLED bit has been set. -/
  cancelled : List Nat
  /-- R238: bits of status words, with their graphs, whose writes wait for the word's page. -/
  owed : List (Nat × Nat)
  deriving DecidableEq, Repr

/-- A WAIT at the head of its queue, whose test is made again at each write to its word (R289): the queue and packet, the
word's address, the packet's bytes, and whether a write since has met the test. -/
structure Watch where
  queue : Nat
  packet : Nat
  pa : Nat
  bytes : Nat
  hit : Bool
  deriving DecidableEq, Repr

/-- State of a task (R295, R296). -/
inductive TaskPhase where
  | held | dispatched | stopping | done | cancelled
  deriving DecidableEq, Repr

/-- A region a task declares (Table 13.6), with its capability's base. -/
structure TaskRegion where
  write : Bool
  base : Nat
  stride : Nat
  row0 : Nat
  rows : Nat
  col0 : Nat
  cols : Nat
  deriving DecidableEq, Repr

structure TaskRec where
  queue : Nat
  packet : Nat
  graph : Nat
  tenant : BitVec 12
  context : BitVec 12
  /-- What an instance is launched with. -/
  template : Launch
  /-- The cut word's physical address. -/
  wordPa : Nat
  refire : Nat
  regions : List TaskRegion
  /-- Inputs: producer task, its word's physical address, launch version (R234). -/
  inputs : List (Nat × Nat × Nat)
  /-- WAR and WAW dependences on task numbers. -/
  after_ : List Nat
  phase : TaskPhase
  /-- The die in whose window it is (R295). -/
  die : Nat
  launch : Option Nat
  stale : Bool
  /-- The word that counted it in REFIRE_PENDING (R236). -/
  countedOn : Option Nat
  /-- R296: an input was cancelled under policy follow, so it is cancelled at its completion. -/
  dropped : Bool
  deriving DecidableEq, Repr

/-- What a switched-out context keeps (R344). -/
structure Saved where
  groups : Tab Group
  cores : Tab Core
  deriving DecidableEq, Repr, Inhabited

/-- Where a context stands in a switch (R344). -/
inductive CtxPhase where
  /-- Issue goes on. -/
  | running
  /-- Issue has stopped, since this cycle; outstanding operations are still being performed. -/
  | quiescing (since : Nat)
  | out
  /-- Its state is back, and its replay entries run before issue resumes. -/
  | restoring
  deriving DecidableEq, Repr, Inhabited

/-- A context (R344, R375). `enabled`: a queue has been enabled for it. -/
structure Context where
  tenant : BitVec 12
  part : Nat
  /-- Its virtual device, the cycle in which its quantum began, and its quanta in the present round (R375). -/
  vdev : Nat
  enabled : Bool
  since : Nat
  used : Nat
  phase : CtxPhase
  saved : Option Saved
  bindings : List Binding
  /-- Private counters (Table 16.4), key core * 8 + number, and events of shared counters: number, cycle, amount. -/
  counters : Tab DWord
  shared : List (Nat × Nat × Nat)
  /-- Base of the shared counters carried by a migration (R379). -/
  sharedBase : Tab Nat
  /-- Copies recorded as replay entries: core and number. -/
  replay : List (Nat × Nat)
  /-- R371: writes to other devices that have not been acknowledged: the core of the agent, device and address. -/
  unacked : List (Nat × Nat × Nat)
  deriving DecidableEq, Repr, Inhabited

/-- What leaves for another module with a context (R380): the context with its saved state, whose shared counters are the values
that it could read when it stopped (R379), its queues, launches and tasks. -/
structure Departure where
  dest : BitVec 20
  context : Context
  queues : Tab Queue
  launches : Tab Launch
  tasks : Tab TaskRec
  deriving DecidableEq, Repr, Inhabited

/-- R380: what arrives with a context from another module. It is that module's, so it is open. -/
opaque Config.arriving : Nat → Departure

def Context.init : Context := ⟨0, 0, 0, false, 0, 0, .running, none, [], [], [], [], [], []⟩

/-- No instruction of the context issues. -/
def Context.stopped (c : Context) : Bool := c.phase != .running

/-- A fault record or notice waiting in a reporting port (Table 15.2). -/
structure Record where
  info : Nat
  lmask : BitVec 32
  pc : BitVec 57
  context : BitVec 12
  tenant : BitVec 12
  part : Nat
  queue : Nat
  srck : Nat
  core : Nat
  die : Nat
  gslot : Nat
  split : Nat
  code : Nat
  kind : Nat
  deriving DecidableEq, Repr

/-- A fault ring's counters (Table 15.7). -/
structure RingCount where
  widx : BitVec 32
  ridx : BitVec 32
  deriving DecidableEq, Repr

/-- A migrating extent (R238): tenant, its first page and frame, the n of its 2^n frames, and the first destination frame, if
one is chosen. -/
structure Migration where
  tenant : BitVec 12
  page : Nat
  src : Nat
  extent : Nat
  dst : Option Nat
  deriving DecidableEq, Repr

/-- MODEL: the read that meets an uncorrectable error (R347): its lane and physical address, and whether it has been made. -/
structure EccRead where
  lane : Nat
  pa : Nat
  hit : Bool
  deriving DecidableEq, Repr

/-- A forward stub (R380): the page of a context that has left, and the device it went to. -/
structure Stub where
  context : BitVec 12
  tenant : BitVec 12
  page : Nat
  dest : BitVec 20
  deriving DecidableEq, Repr

/-- The answer to a request of another device: its address, 0 or a fault code, and data. -/
structure Reply where
  device : BitVec 20
  addr : Nat
  code : Nat
  data : List Byte
  /-- R380: the device to which a stub redirects the writer. -/
  redirect : Option (BitVec 20)
  deriving DecidableEq, Repr

/-- A partition (R302, R349, R369, R374, R376, R377). -/
structure Partition where
  tenant : BitVec 12
  context : BitVec 12
  function : Option Nat
  reach : List Nat
  wdlimit : Nat
  present : Bool
  deriving DecidableEq, Repr

/-- R378: the measurements of the firmware image, and of the partitions, their cores, the access tables and VDCFG. -/
opaque Config.imageMeasure : List Byte → List Byte
opaque Config.configMeasure : Tab Partition → Tab Nat → Tab Word → Tab DWord → List Byte

def Partition.init : Partition := ⟨0, 0, none, [], 10000, true⟩

/-- A peer module (R372). MODEL: the faults that its tables now answer to accesses, by page (R369). -/
structure Peer where
  incarnation : BitVec 32
  lost : Bool
  answers : Tab Nat
  deriving DecidableEq, Repr

def Peer.init : Peer := ⟨0, false, []⟩

/-- What a link and its partner agreed on (Table 18.3): lanes, speed and FEC mode. -/
structure Link where
  lanes : Nat
  speed : Nat
  fec : Nat
  deriving DecidableEq, Repr

/-- A request that has left the module: the device, the address, what it does there, and the incarnation of the target that it
carries (R372). -/
structure Sent where
  device : Nat
  addr : Nat
  kind : RemoteKind
  incarnation : BitVec 32
  deriving DecidableEq, Repr

/-- The registers and tables that only the host, firmware and the module's own engines write; no instruction of a program
does (R134, R207, R278, R333, R374, R375). -/
structure Regs where
  rfbudget : Tab DWord
  l2mode : Tab DWord
  slicecfg : Tab Word
  regcfg : Tab Nat
  allowcfg : Tab Nat
  access : Tab Word
  vdcfg : Tab DWord
  farb : Tab DWord
  rloc : Tab DWord
  rcfg : Tab DWord
  replayPc : Tab DWord
  capTables : Tab Cap
  parts : Tab Partition
  ipt : Tab (BitVec 128)
  anchors : Tab Word
  peers : Tab Peer
  deviceId : BitVec 20
  deviceIdWritten : Bool
  incarnation : BitVec 32
  stage : Nat
  err : Nat
  image : List Byte
  die1 : Bool
  stackUp : BitVec 16
  torwen : BitVec 32
  /-- R372: since when no Torwen port that had served is up. -/
  downSince : Option Nat
  /-- R386: the terms of the Torwen ports that are up, and of the host's link. -/
  ports : Tab Link
  pcieLink : Option Link
  pcie : Bool
  cxl : Bool
  clockMhz : Nat
  /-- MODEL: earlier clocks, oldest first: the cycle in which each ended, and its MHz (R3). -/
  clockLog : List (Nat × Nat)
  powerCap : Nat
  shutDown : Bool
  tierDown : BitVec 8
  /-- R348: thresholds and windows, in ms, of a stack and of a slice or core. -/
  warnStack : Nat
  warnUnit : Nat
  warnStackMs : Nat
  warnUnitMs : Nat
  stubs : List Stub
  deriving DecidableEq, Repr

/-- The state of the module. -/
structure State where
  /-- MODEL: the steps that occur next, taken before any instruction issues. -/
  agenda : List Instr
  /-- MODEL: the agent whose instruction is being executed, or issues next; none leaves the choice to R147. -/
  turn : Option Agent
  /-- MODEL: the counter that Config's free values are applied to. -/
  free : Nat
  /-- The cycle counter (R13). -/
  cycle : Nat
  regs : Regs
  mem : List Host.Cell
  /-- Granules whose validity tag is set (R195), rising. -/
  tags : List Nat
  /-- MODEL: bytes of code that a store replaced while a launch runs over them (R34), as each had been when the launch first
  lost it: key launch * 2^48 + physical address. -/
  codeShadow : Tab Byte
  groups : Tab Group
  cores : Tab Core
  /-- R302, R374: the partition that holds a core, and the one to which the service controller moves it once it holds no work. -/
  coreOwner : Tab Nat
  moves : Tab Nat
  /-- L2 lines, by physical line number; ways quarantined, key (slice * 512 + set) * 16 + way of slice die * 256 + slice. -/
  l2 : Tab L2Line
  /-- Format windows (Table 9.8), key die * 64 + n, and those whose EN was cleared while a line of their range was pinned (R209). -/
  fmtwin : Tab (BitVec 128)
  closing : List Nat
  quarantined : List Nat
  /-- Corrected errors (R348), by the key of a unit: errors counted, the cycle in which their window began, and the cycle after
  that of its last notice, 0 before the first. -/
  corrected : Tab (Nat × Nat × Nat)
  /-- Steady-rest rotations (R272): key die * 4 + class * 2 + (0 rise, 1 fall); the core after the last granted. -/
  rotation : Tab Nat
  /-- The next step boundary of each die (R272). -/
  restNext : Tab Nat
  queues : Tab Queue
  launches : Tab Launch
  nextLaunch : Nat
  watches : List Watch
  tasks : Tab TaskRec
  nextTask : Nat
  contexts : Tab Context
  /-- Records held in the reporting ports (R332), in order: ring index and record. -/
  port : List (Nat × Record)
  rings : Tab RingCount
  /-- Turns left in the present arbitration round (R332): key die * 3 + class. -/
  turns : Tab Nat
  migrations : List Migration
  meters : Tab DWord
  /-- Snapshot chain per partition (R377): life, next SEQ, digest of the last snapshot. -/
  chain : Tab (Nat × Nat × Nat)
  /-- The latest snapshot of each partition (R378), and the next life id. -/
  snapshots : Tab (List Byte)
  nextLife : Nat
  /-- Next slot of each host function's window; the slots of the windows, and their STATUS (R388), key function * 8192 + slot. -/
  hostNext : Tab Nat
  hostSlots : Tab MailSlot
  hostStatus : Tab Nat
  /-- Writes to other devices and the host that have left the module. -/
  outbox : List Sent
  /-- Contexts that have left for other modules, in order (R380). -/
  departed : List Departure
  /-- Answers to requests that arrived over Torwen (R371). -/
  replies : List Reply
  /-- SPDM responses given (R378), newest last. -/
  spdm : List (List Byte)
  /-- Host interrupts raised (SIGNAL IRQ), Table 13.4. -/
  irqs : Nat
  /-- Blocked ENQs (R300), in the order they began to wait. -/
  enqWait : List Agent
  /-- MODEL: set by MEMORY_ECC_UNCORR for the next instruction. -/
  ecc : Option EccRead
  deriving DecidableEq, Repr

/-- Why a step stops. None of these is a fault of the manual: those are taken (R326) and give a next state. -/
inductive Fault where
  /-- No split or stream stands at the agent named by State.turn, so no instruction can issue there. Raised by exec. It
  rules out runs, so it is safe. -/
  | noAgent
  deriving DecidableEq, Repr

/-- Why an instruction has no meaning. -/
inductive Refusal where
  /-- The instruction is not modelled. Raised by the arms of exec alone. Safe. -/
  | notModelled (mnemonic : String)
  deriving DecidableEq, Repr

/-- The registers right after power-on reset: the Reset columns of their tables, with zero entries not listed. -/
def Regs.reset : Regs where
  rfbudget := []
  l2mode := []
  slicecfg := []
  regcfg := []
  allowcfg := []
  access := []
  vdcfg := []
  farb := []
  rloc := []
  rcfg := []
  replayPc := []
  capTables := []
  parts := []
  ipt := []
  anchors := []
  peers := []
  deviceId := 0
  deviceIdWritten := false
  incarnation := 0
  stage := 0
  err := 0
  image := []
  die1 := true
  stackUp := 0xFFFF#16
  torwen := 0
  downSince := none
  ports := []
  pcieLink := none
  pcie := false
  cxl := false
  clockMhz := 1750
  clockLog := []
  powerCap := 7800
  shutDown := false
  tierDown := 0
  warnStack := 32
  warnUnit := 8
  warnStackMs := 1000
  warnUnitMs := 1000
  stubs := []

/-- The machine right after reset: no work, memory with nothing listed, every register at its Reset value. -/
def State.reset : State where
  agenda := []
  turn := none
  free := 0
  cycle := 0
  regs := Regs.reset
  mem := []
  tags := []
  codeShadow := []
  groups := []
  cores := []
  coreOwner := []
  moves := []
  l2 := []
  fmtwin := []
  closing := []
  quarantined := []
  corrected := []
  rotation := []
  restNext := []
  queues := []
  launches := []
  nextLaunch := 0
  watches := []
  tasks := []
  nextTask := 0
  contexts := []
  port := []
  rings := []
  turns := []
  migrations := []
  meters := []
  chain := []
  snapshots := []
  nextLife := 16
  hostNext := []
  hostSlots := []
  hostStatus := []
  outbox := []
  departed := []
  replies := []
  spdm := []
  irqs := 0
  enqWait := []
  ecc := none

end Sys2Proof.Machine
end

