-- ==== Sys2Proof/Machine/Table.lean ====
section
/-! DEFINITION. Readers and writers of sparse tables in canonical form: keys strictly rising and no entry equal to the
default, so that equal tables are equal data. Also small list helpers used throughout the machine. -/
namespace Sys2Proof.Machine

/-- The value at key i, `d` where none is listed. -/
def tabGet {α : Type} (d : α) : Tab α → Nat → α
  | [], _ => d
  | (k, v) :: r, i => if k = i then v else tabGet d r i

/-- The entry at key i. -/
def tabFind {α : Type} : Tab α → Nat → Option α
  | [], _ => none
  | (k, v) :: r, i => if k = i then some v else tabFind r i

/-- The table with key i removed. -/
def tabErase {α : Type} : Tab α → Nat → Tab α
  | [], _ => []
  | (k, v) :: r, i => if k = i then tabErase r i else (k, v) :: tabErase r i

/-- The table with value v put at key i, whatever v is. -/
def tabPut {α : Type} : Tab α → Nat → α → Tab α
  | [], i, v => [(i, v)]
  | (k, u) :: r, i, v => if i < k then (i, v) :: (k, u) :: r else if k = i then (i, v) :: r else (k, u) :: tabPut r i v

/-- Write v at key i. Writing the default removes the entry. -/
def tabSet {α : Type} [DecidableEq α] (d : α) (t : Tab α) (i : Nat) (v : α) : Tab α :=
  if v = d then tabErase t i else tabPut t i v

/-- Apply f to the entry at key i. -/
def tabUpd {α : Type} [DecidableEq α] (d : α) (t : Tab α) (i : Nat) (f : α → α) : Tab α :=
  tabSet d t i (f (tabGet d t i))

/-- Apply f to the entry at key i, if there is one. -/
def tabMod {α : Type} (t : Tab α) (i : Nat) (f : α → α) : Tab α :=
  match t with
  | [] => []
  | (k, v) :: r => if k = i then (k, f v) :: r else (k, v) :: tabMod r i f

/-- The canonical form: keys above `lo` and strictly rising, no entry equal to the default. -/
def tabWfFrom {α : Type} [DecidableEq α] (d : α) : Nat → Tab α → Bool
  | _, [] => true
  | lo, (k, v) :: r => decide (lo ≤ k) && decide (v ≠ d) && tabWfFrom d (k + 1) r

def tabWf {α : Type} [DecidableEq α] (d : α) (t : Tab α) : Bool := tabWfFrom d 0 t

/-- Replace the first element that satisfies p. -/
def listUpd {α : Type} (p : α → Bool) (f : α → α) : List α → List α
  | [] => []
  | x :: r => if p x then f x :: r else x :: listUpd p f r

/-- Replace the element at position n. -/
def listSetAt {α : Type} : List α → Nat → α → List α
  | [], _, _ => []
  | _ :: r, 0, v => v :: r
  | x :: r, n + 1, v => x :: listSetAt r n v

/-- Insert n into a strictly rising list of naturals. -/
def natInsert (n : Nat) : List Nat → List Nat
  | [] => [n]
  | k :: r => if n < k then n :: k :: r else if n = k then k :: r else k :: natInsert n r

/-- The least element by a key, the first of equals. -/
def leastBy {α : Type} (key : α → Nat) : List α → Option α
  | [] => none
  | x :: r =>
    match leastBy key r with
    | none => some x
    | some y => if key y < key x then some y else some x

/-- Remove n from a list of naturals. -/
def natRemove (n : Nat) (l : List Nat) : List Nat := l.filter (· != n)

def sumNat (l : List Nat) : Nat := l.foldl (· + ·) 0
def sumInt (l : List Int) : Int := l.foldl (· + ·) 0
def maxNat (l : List Nat) : Nat := l.foldl Nat.max 0

end Sys2Proof.Machine
end

