-- ==== Sys2Proof/Machine/Access.lean ====
section
/-! DEFINITION. Accessors of the state, capability patterns (Table 9.2) and fault codes (Table 15.1). -/
namespace Sys2Proof.Machine
open Sys2Proof

/-- The die of a core key, and its headstock core (R1). -/
def dieOf (core : Nat) : Nat := core / Config.coreKeys
def isHeadstock (core : Nat) : Bool := core % Config.coreKeys == Config.meshCores
def groupKey (core slot : Nat) : Nat := core * 65 + slot

def State.group? (s : State) (core slot : Nat) : Option Group := tabFind s.groups (groupKey core slot)
def State.putGroup (s : State) (core slot : Nat) (g : Group) : State :=
  { s with groups := tabPut s.groups (groupKey core slot) g }
def State.dropGroup (s : State) (core slot : Nat) : State :=
  { s with groups := tabErase s.groups (groupKey core slot) }
def State.modGroup (s : State) (core slot : Nat) (f : Group → Group) : State :=
  { s with groups := tabMod s.groups (groupKey core slot) f }
def State.modSplit (s : State) (ag : Agent) (f : Split → Split) : State :=
  s.modGroup ag.core ag.slot fun g => { g with splits := tabMod g.splits ag.split f }
def State.split? (s : State) (ag : Agent) : Option Split :=
  match s.group? ag.core ag.slot with
  | none => none
  | some g => tabFind g.splits ag.split
def State.core (s : State) (c : Nat) : Core := tabGet Core.init s.cores c
def State.modCore (s : State) (c : Nat) (f : Core → Core) : State :=
  { s with cores := tabUpd Core.init s.cores c f }
def State.context (s : State) (c : BitVec 12) : Context := tabGet Context.init s.contexts c.toNat
def State.modContext (s : State) (c : BitVec 12) (f : Context → Context) : State :=
  { s with contexts := tabUpd Context.init s.contexts c.toNat f }
def State.launch? (s : State) (l : Nat) : Option Launch := tabFind s.launches l
def State.modLaunch (s : State) (l : Nat) (f : Launch → Launch) : State := { s with launches := tabMod s.launches l f }
def State.queue? (s : State) (q : Nat) : Option Queue := tabFind s.queues q
def State.modQueue (s : State) (q : Nat) (f : Queue → Queue) : State := { s with queues := tabMod s.queues q f }
def State.task? (s : State) (t : Nat) : Option TaskRec := tabFind s.tasks t
def State.modTask (s : State) (t : Nat) (f : TaskRec → TaskRec) : State := { s with tasks := tabMod s.tasks t f }
def State.part (s : State) (p : Nat) : Partition := tabGet Partition.init s.regs.parts p
def State.modRegs (s : State) (f : Regs → Regs) : State := { s with regs := f s.regs }

/-! ### Microseconds (R3, R390) -/

/-- Units of time in a microsecond. A cycle of each clock of 25 to 1,750 MHz in steps of 25 is a whole number of them. -/
def microUnits : Nat := 1980297030872227298081530680000
/-- Units in a cycle of a clock. -/
def cycleUnits (mhz : Nat) : Nat := microUnits / mhz

/-- The first cycle by which t units have passed since a cycle, through earlier clocks and then one of m MHz. -/
def afterGo (m : Nat) : List (Nat × Nat) → Nat → Nat → Nat
  | [], a, t => a + (t + cycleUnits m - 1) / cycleUnits m
  | (c, k) :: r, a, t =>
    if c ≤ a then afterGo m r a t
    else if t ≤ (c - a) * cycleUnits k then a + (t + cycleUnits k - 1) / cycleUnits k
    else afterGo m r c (t - (c - a) * cycleUnits k)

/-- The cycle in which n microseconds have passed since a cycle. -/
def State.after (s : State) (start n : Nat) : Nat := afterGo s.regs.clockMhz s.regs.clockLog start (n * microUnits)

def spanGo (m : Nat) : List (Nat × Nat) → Nat → Nat → Nat
  | [], a, b => (b - a) * cycleUnits m
  | (c, k) :: r, a, b =>
    if c ≤ a then spanGo m r a b
    else if b ≤ c then (b - a) * cycleUnits k
    else (c - a) * cycleUnits k + spanGo m r c b

/-- Units of time between two cycles. -/
def State.span (s : State) (a b : Nat) : Nat := spanGo s.regs.clockMhz s.regs.clockLog a b

def beforeGo : Nat → List (Nat × Nat) → Nat → Nat → Nat
  | m, [], b, t => b - t / cycleUnits m
  | m, (c, k) :: r, b, t =>
    if t ≤ (b - c) * cycleUnits m then b - t / cycleUnits m else beforeGo k r c (t - (b - c) * cycleUnits m)

/-- The cycle that lies t units before another. -/
def State.before (s : State) (b t : Nat) : Nat := beforeGo s.regs.clockMhz s.regs.clockLog.reverse b t

/-- Take a fresh value of the free counter. -/
def State.tick (s : State) : State := { s with free := s.free + 1 }

/-- Fault codes of Table 15.1. -/
def fIllegalOp : Nat := 0x01
def fIllegalOperand : Nat := 0x02
def fStallShort : Nat := 0x03
def fCapBounds : Nat := 0x04
def fCapPerm : Nat := 0x05
def fCapTag : Nat := 0x06
def fCapTenant : Nat := 0x07
def fMisaligned : Nat := 0x08
def fPageAbsent : Nat := 0x10
def fPageMigrating : Nat := 0x11
def fPageRetired : Nat := 0x12
def fPeerLost : Nat := 0x13
def fSecondTier : Nat := 0x14
def fFormatMismatch : Nat := 0x18
def fMmaWitness : Nat := 0x19
def fEccUncorr : Nat := 0x1A
def fMbxOrphan : Nat := 0x20
def fQfullTimeout : Nat := 0x21
def fBindOverlap : Nat := 0x22
def fDivergeDepth : Nat := 0x24
def fRegionOverflow : Nat := 0x25
def fRegionNest : Nat := 0x26
def fTrapSw : Nat := 0x28
def fGrainSpan : Nat := 0x2A
def fWatchdog : Nat := 0x30

/-- The retryable codes of Table 15.1. -/
def isRetryable (code : Nat) : Bool :=
  code == fPageAbsent || code == fPageMigrating || code == fSecondTier || code == fQfullTimeout

/-- Length of a capability (R193). -/
def Cap.len (c : Cap) : Nat := c.lenM.toNat * 2 ^ c.lenE.toNat
/-- Permissions as the mask of VARIANT in Table 4.8: 8 read, 4 write, 2 execute, 1 atomic. -/
def Cap.perms (c : Cap) : Nat :=
  (if c.pr then 8 else 0) + (if c.pw then 4 else 0) + (if c.px then 2 else 0) + (if c.pa then 1 else 0)
def permR : Nat := 8
def permW : Nat := 4
def permX : Nat := 2
def permA : Nat := 1
def Cap.has (c : Cap) (mask : Nat) : Bool := Nat.land c.perms mask == mask

/-- The 128-bit pattern of Table 9.2. -/
def capBits (c : Cap) : Nat :=
  c.base.toNat + c.lenE.toNat * 2 ^ 57 + c.lenM.toNat * 2 ^ 63 + (if c.pa then 2 ^ 81 else 0) + (if c.px then 2 ^ 82 else 0)
    + (if c.pw then 2 ^ 83 else 0) + (if c.pr then 2 ^ 84 else 0) + c.tenant.toNat * 2 ^ 96 + c.device.toNat * 2 ^ 108

/-- The capability of a pattern; reserved bits read as zero (R7). -/
def capOfBits (v : Nat) : Cap where
  device := BitVec.ofNat 20 (bits v 127 108)
  tenant := BitVec.ofNat 12 (bits v 107 96)
  pr := bits v 84 84 == 1
  pw := bits v 83 83 == 1
  px := bits v 82 82 == 1
  pa := bits v 81 81 == 1
  lenM := BitVec.ofNat 18 (bits v 80 63)
  lenE := BitVec.ofNat 6 (bits v 62 57)
  base := BitVec.ofNat 57 v

/-- A capability register as one number: Table 9.2 below the translation part of Table 9.3. -/
def capRegBits (r : CapReg) : Nat :=
  capBits r.cap + 2 ^ 128 * (r.tlim.toNat + 2 ^ 40 * r.tpa.toNat + (if r.tv then 2 ^ 95 else 0))
def capRegOfBits (v : Nat) : CapReg where
  cap := capOfBits v
  tv := bits v (128 + 95) (128 + 95) == 1
  tpa := BitVec.ofNat 48 (bits v (128 + 87) (128 + 40))
  tlim := BitVec.ofNat 40 (bits v (128 + 39) 128)

/-- Mantissa and exponent of the greatest representable length at most n (R101). -/
def lenFloor (n : Nat) : Nat × Nat :=
  let e := if n < 2 ^ 18 then 0 else n.log2 - 17
  (n / 2 ^ e, e)
/-- Mantissa and exponent of the least representable length at least n. -/
def lenCeil (n : Nat) : Nat × Nat :=
  let (m, e) := lenFloor n
  if m * 2 ^ e = n then (m, e) else if m + 1 < 2 ^ 18 then (m + 1, e) else ((m + 1) / 2, e + 1)

/-- Lanes of a mask, ascending. -/
def lanesOf (m : BitVec 32) : List Nat := (List.range 32).filter fun l => m.getLsbD l
def maskOf (l : List Nat) : BitVec 32 := l.foldl (fun m i => m ||| BitVec.ofNat 32 (2 ^ i)) 0#32

/-- What a request carries to every target (R374): the core it comes from, its context, tenant, partition and class. -/
structure Who where
  core : Nat
  context : BitVec 12
  tenant : BitVec 12
  part : Nat
  cls : Bool
  deriving DecidableEq, Repr

def Launch.who (l : Launch) (core : Nat) : Who := ⟨core, l.context, l.tenant, l.part, l.cls⟩

/-- The requester behind a group. -/
def State.whoOf (s : State) (core : Nat) (g : Group) : Who :=
  match s.launch? g.launch with
  | some l => l.who core
  | none => ⟨core, g.context, 0, 0, false⟩

/-- Count events of Table 16.4. -/
def countPrivate (s : State) (w : Who) (no : Nat) : State :=
  s.modContext w.context fun c => { c with counters := tabUpd 0 c.counters (w.core * 8 + no) (· + 1) }
def countShared (s : State) (ctx : BitVec 12) (no amount : Nat) : State :=
  s.modContext ctx fun c => { c with shared := (no, s.cycle, amount) :: c.shared }
/-- Add to a meter of Table 16.5. -/
def meterAdd (s : State) (part no amount : Nat) : State :=
  { s with meters := tabUpd 0 s.meters (part * 16 + no) (· + BitVec.ofNat 64 amount) }

end Sys2Proof.Machine
end

