-- ==== Sys2Proof/Machine/Float.lean ====
section
/-! DEFINITION. Floating-point formats, exact values, rounding and exceptions (R39 to R49, Tables 2.3 and 2.4), and the
arithmetic of R115 to R120. Exception sets are numbers with the bits of Table 1.4. -/
namespace Sys2Proof.Machine
open Sys2Proof

/-- The formats of Table 2.3. -/
inductive Fmt where
  | f32 | f16 | bf16 | e4m3 | e5m2 | e2m1
  deriving DecidableEq, Repr

/-- Mantissa bits m of Table 2.3. -/
def Fmt.mb : Fmt → Nat
  | .f32 => 23 | .f16 => 10 | .bf16 => 7 | .e4m3 => 3 | .e5m2 => 2 | .e2m1 => 1
def Fmt.eb : Fmt → Nat
  | .f32 => 8 | .f16 => 5 | .bf16 => 8 | .e4m3 => 4 | .e5m2 => 5 | .e2m1 => 2
def Fmt.bias : Fmt → Nat
  | .f32 => 127 | .f16 => 15 | .bf16 => 127 | .e4m3 => 7 | .e5m2 => 15 | .e2m1 => 1
/-- Width of one element. -/
def Fmt.width (f : Fmt) : Nat := 1 + f.eb + f.mb
/-- QNAN of Table 2.3; E2M1 has none and takes +0 (R49). -/
def Fmt.qnan : Fmt → Nat
  | .f32 => 0x7FC00000 | .f16 => 0x7E00 | .bf16 => 0x7FC0 | .e4m3 => 0x7F | .e5m2 => 0x7E | .e2m1 => 0
/-- Whether E all ones is special with infinities. -/
def Fmt.ieee : Fmt → Bool
  | .e4m3 | .e2m1 => false
  | _ => true
/-- Formats whose overflow gives the largest finite value in every mode (R43). -/
def Fmt.saturates : Fmt → Bool
  | .e4m3 | .e5m2 | .e2m1 => true
  | _ => false
/-- The largest finite value as a pattern without sign (Table 2.3). -/
def Fmt.largest : Fmt → Nat
  | .f32 => 0x7F7FFFFF | .f16 => 0x7BFF | .bf16 => 0x7F7F | .e4m3 => 0x7E | .e5m2 => 0x7B | .e2m1 => 0x7
/-- Exponent of the smallest normal. -/
def Fmt.emin (f : Fmt) : Int := 1 - (f.bias : Int)

def Fmt.signBit (f : Fmt) : Nat := 2 ^ (f.eb + f.mb)
def Fmt.infBits (f : Fmt) : Nat := (2 ^ f.eb - 1) * 2 ^ f.mb
def Fmt.withSign (f : Fmt) (neg : Bool) (b : Nat) : Nat := if neg then f.signBit + b else b

/-- Exception bits of SPLIT_STATUS (Table 1.4). -/
def exNX : Nat := 1
def exUF : Nat := 2
def exOF : Nat := 4
def exDZ : Nat := 8
def exNV : Nat := 16

/-- The value of a pattern: a NaN, an infinity, or a finite number of magnitude m * 2^e with a sign, which a zero keeps. -/
inductive FVal where
  | nan (signalling : Bool)
  | inf (neg : Bool)
  | fin (neg : Bool) (m : Nat) (e : Int)
  deriving DecidableEq, Repr

/-- VAL(b, f) of Table 2.1. -/
def fval (f : Fmt) (b : Nat) : FVal :=
  let neg := b / f.signBit % 2 == 1
  let ex := b / 2 ^ f.mb % 2 ^ f.eb
  let m := b % 2 ^ f.mb
  let top := 2 ^ f.eb - 1
  if f.ieee && ex == top then
    if m = 0 then .inf neg else .nan (m / 2 ^ (f.mb - 1) == 0)
  else if f = .e4m3 ∧ ex = top ∧ m = 7 then .nan false
  else if ex = 0 then .fin neg m (f.emin - f.mb)
  else .fin neg (2 ^ f.mb + m) ((ex : Int) - f.bias - f.mb)

def FVal.isNan : FVal → Bool
  | .nan _ => true
  | _ => false
def FVal.isSig : FVal → Bool
  | .nan s => s
  | _ => false
def FVal.isZero : FVal → Bool
  | .fin _ m _ => m == 0
  | _ => false
def FVal.neg? : FVal → Bool
  | .nan _ => false
  | .inf n => n
  | .fin n _ _ => n
def FVal.negate : FVal → FVal
  | .nan s => .nan s
  | .inf n => .inf !n
  | .fin n m e => .fin (!n) m e

/-- NV when an operand is a signalling NaN (R40). -/
def sigNV (l : List FVal) : Nat := if l.any FVal.isSig then exNV else 0

/-- A rounded result: its pattern and the exceptions raised. -/
structure Rounded where
  bits : Nat
  ex : Nat
  deriving DecidableEq, Repr

/-- Whether a positive number q + r/2^d, more when sticky, rounds up in mode rm (Table 2.4). -/
def roundsUp (rm : Nat) (neg : Bool) (q r d : Nat) (sticky : Bool) : Bool :=
  let inexact := r != 0 || sticky
  match rm with
  | 0 => decide (2 ^ d < 2 * r) || (2 * r == 2 ^ d && (sticky || q % 2 == 1) && d != 0)
  | 1 => false
  | 2 => inexact && !neg
  | _ => inexact && neg

/-- The magnitude m * 2^e, more by less than 2^e when sticky, as a multiple of 2^g in mode rm, and whether it was exact. -/
def roundGrid (rm : Nat) (neg : Bool) (m : Nat) (e g : Int) (sticky : Bool) : Nat × Bool :=
  if g ≤ e then (m * 2 ^ (e - g).toNat + (if sticky && roundsUp rm neg 0 1 2 false then 1 else 0), !sticky)
  else
    let d := (g - e).toNat
    let q := m / 2 ^ d
    let r := m % 2 ^ d
    (q + (if roundsUp rm neg q r d sticky then 1 else 0), r == 0 && !sticky)

/-- R45: tiny, judged with the precision of the format and no bound on the exponent. -/
def isTiny (f : Fmt) (rm : Nat) (neg : Bool) (m : Nat) (e : Int) (sticky : Bool) : Bool :=
  let g := (m.log2 : Int) + e - f.mb
  let (q, _) := roundGrid rm neg m e g sticky
  -- q * 2^g < 2^emin
  if f.emin ≤ g then q == 0 else decide (q < 2 ^ (f.emin - g).toNat)

/-- The pattern of an overflow (R43). -/
def overflowBits (f : Fmt) (rm : Nat) (neg : Bool) : Nat :=
  let big := f.withSign neg f.largest
  let inf := f.withSign neg f.infBits
  if f.saturates then big
  else match rm with
    | 0 => inf
    | 1 => big
    | 2 => if neg then big else inf
    | _ => if neg then inf else big

/-- The pattern of q * 2^g without sign, q below 2^(mb+1) or equal to it; g is at least the subnormal grid. -/
def packMag (f : Fmt) (q : Nat) (g : Int) : Nat :=
  if q < 2 ^ f.mb then q
  else
    let (q, g) := if q = 2 ^ (f.mb + 1) then (2 ^ f.mb, g + 1) else (q, g)
    (g + f.mb + f.bias).toNat * 2 ^ f.mb + (q - 2 ^ f.mb)

/-- ROUND of Table 2.1 for a nonzero or zero magnitude (R42, R43, R45), with FLUSH as R46 states it. -/
def roundMag (f : Fmt) (rm : Nat) (flush : Bool) (neg : Bool) (m : Nat) (e : Int) (sticky : Bool := false) : Rounded :=
  if m = 0 && !sticky then ⟨f.withSign neg 0, 0⟩
  else
    let tiny := isTiny f rm neg m e sticky
    if flush && tiny then ⟨f.withSign neg 0, exUF + exNX⟩
    else
      let g := max ((m.log2 : Int) + e - f.mb) (f.emin - f.mb)
      let (q, exact) := roundGrid rm neg m e g sticky
      let pat := packMag f q g
      if q != 0 && decide (f.largest < pat) then ⟨overflowBits f rm neg, exOF + exNX⟩
      else ⟨f.withSign neg pat, if exact then 0 else exNX + (if tiny then exUF else 0)⟩

/-- A conversion of any value to a format in mode rm (R42, R43, R49), without flushing. -/
def roundVal (f : Fmt) (rm : Nat) : FVal → Rounded
  | .nan s =>
    if f = .e2m1 then ⟨0, exNV⟩ else ⟨f.qnan, if s then exNV else 0⟩
  | .inf n => if f.saturates then ⟨f.withSign n f.largest, exOF + exNX⟩ else ⟨f.withSign n f.infBits, 0⟩
  | .fin n m e => roundMag f rm false n m e

/-- An f32 input under FLUSH (R46): a subnormal reads as zero of its sign. -/
def flushIn (f : Fmt) (flush : Bool) (b : Nat) : FVal :=
  match fval f b with
  | .fin n m e => if flush && decide (m < 2 ^ f.mb) then .fin n 0 e else .fin n m e
  | x => x

/-- Signed integer coefficient of a finite value at exponent g, g at most its own. -/
def signedAt (neg : Bool) (m : Nat) (e g : Int) : Int :=
  let x : Int := (m * 2 ^ (e - g).toNat : Nat)
  if neg then -x else x

/-- The exact sum of two finite values as sign and magnitude, with the sign of an exact zero as R42 states. -/
def addFin (rm : Nat) (n1 : Bool) (m1 : Nat) (e1 : Int) (n2 : Bool) (m2 : Nat) (e2 : Int) : Bool × Nat × Int :=
  let g := min e1 e2
  let x := signedAt n1 m1 e1 g + signedAt n2 m2 e2 g
  if x = 0 then ((if n1 == n2 then n1 else rm == 3), 0, g) else (decide (x < 0), x.natAbs, g)

/-- a + b rounded once (R115). -/
def faddV (f : Fmt) (rm : Nat) (flush : Bool) (a b : FVal) : Rounded :=
  match a, b with
  | .nan _, _ | _, .nan _ => ⟨f.qnan, sigNV [a, b]⟩
  | .inf n1, .inf n2 => if n1 == n2 then ⟨f.withSign n1 f.infBits, 0⟩ else ⟨f.qnan, exNV⟩
  | .inf n, _ | _, .inf n => ⟨f.withSign n f.infBits, 0⟩
  | .fin n1 m1 e1, .fin n2 m2 e2 =>
    let (n, m, e) := addFin rm n1 m1 e1 n2 m2 e2
    roundMag f rm flush n m e

/-- a * b as an exact value; NaN for a NaN or 0 times an infinity. -/
def mulV (a b : FVal) : FVal :=
  match a, b with
  | .nan s, .nan t => .nan (s || t)
  | .nan s, _ | _, .nan s => .nan s
  | .inf n1, .inf n2 => .inf (n1 != n2)
  | .inf n1, .fin n2 m _ | .fin n2 m _, .inf n1 => if m = 0 then .nan false else .inf (n1 != n2)
  | .fin n1 m1 e1, .fin n2 m2 e2 => .fin (n1 != n2) (m1 * m2) (e1 + e2)

/-- The invalid case 0 times an infinity (R40). -/
def mulInvalid (a b : FVal) : Bool :=
  match a, b with
  | .inf _, .fin _ m _ | .fin _ m _, .inf _ => m == 0
  | _, _ => false

def fmulV (f : Fmt) (rm : Nat) (flush : Bool) (a b : FVal) : Rounded :=
  match mulV a b with
  | .nan _ => ⟨f.qnan, if mulInvalid a b then exNV else sigNV [a, b]⟩
  | .inf n => ⟨f.withSign n f.infBits, 0⟩
  | .fin n m e => roundMag f rm flush n m e

/-- a * b + c with one rounding; NV for 0 times an infinity even beside a quiet NaN (R115). -/
def ffmaV (f : Fmt) (rm : Nat) (flush : Bool) (a b c : FVal) : Rounded :=
  if mulInvalid a b then ⟨f.qnan, exNV⟩
  else
    match mulV a b, c with
    | .nan _, _ | _, .nan _ => ⟨f.qnan, sigNV [a, b, c]⟩
    | p, _ => faddV f rm flush p c

/-- Comparison of two numbers by value; none when unordered. -/
def fcmpV (a b : FVal) : Option Ordering :=
  match a, b with
  | .nan _, _ | _, .nan _ => none
  | .inf n1, .inf n2 => some (if n1 == n2 then .eq else if n1 then .lt else .gt)
  | .inf n, _ => some (if n then .lt else .gt)
  | _, .inf n => some (if n then .gt else .lt)
  | .fin n1 m1 e1, .fin n2 m2 e2 =>
    let g := min e1 e2
    some (compare (signedAt n1 m1 e1 g) (signedAt n2 m2 e2 g))

/-- The pattern of an operand as FMIN and FMAX deliver it (R116). -/
def deliver (f : Fmt) (flush : Bool) (b : Nat) : Nat :=
  match flushIn f flush b with
  | .fin n 0 _ => f.withSign n 0
  | _ => b

/-- FMIN (max = false) and FMAX (R116) on patterns. -/
def fminmax (f : Fmt) (max flush : Bool) (a b : Nat) : Rounded :=
  let x := flushIn f flush a
  let y := flushIn f flush b
  let ex := sigNV [x, y]
  match x.isNan, y.isNan with
  | true, true => ⟨f.qnan, ex⟩
  | true, false => ⟨deliver f flush b, ex⟩
  | false, true => ⟨deliver f flush a, ex⟩
  | false, false =>
    let aLess := match fcmpV x y with
      | some .lt => true
      | some .eq => x.neg? && !y.neg?
      | _ => false
    ⟨deliver f flush (if aLess != max then a else b), ex⟩

/-- The element formats of a floating-point TYPE. -/
def fmtOf : Ty → Fmt
  | .bf16x2 => .bf16
  | .f16x2 => .f16
  | .e4m3x4 => .e4m3
  | .e5m2x4 => .e5m2
  | .e2m1x8 => .e2m1
  | _ => .f32

/-- FRND (R120): a rounded to an integral value in its own format. -/
def frndV (f : Fmt) (rm : Nat) (flush : Bool) (b : Nat) : Rounded :=
  match flushIn f flush b with
  | .nan s => ⟨f.qnan, if s then exNV else 0⟩
  | .inf n => ⟨f.withSign n f.infBits, 0⟩
  | .fin n m e =>
    if 0 ≤ e then ⟨b, 0⟩
    else
      let (q, _) := roundGrid rm n m e 0 false
      ⟨(roundMag f 1 false n q 0).bits, 0⟩

/-- The range of an integer TYPE. -/
def intLo : Ty → Int
  | .s32 => -(2 ^ 31)
  | .s64 => -(2 ^ 63)
  | _ => 0
def intHi : Ty → Int
  | .n32 => 2 ^ 32 - 1
  | .s32 => 2 ^ 31 - 1
  | .n64 => 2 ^ 64 - 1
  | _ => 2 ^ 63 - 1

/-- A conversion to an integer TYPE (R48), as an exact integer. -/
def toIntV (t : Ty) (rm : Nat) (x : FVal) : Int × Nat :=
  match x with
  | .nan _ => (0, exNV)
  | .inf n => ((if n then intLo t else intHi t), exNV)
  | .fin n m e =>
    let (q, exact) := roundGrid rm n m e 0 false
    let v : Int := if n then -(q : Int) else q
    if v < intLo t ∨ intHi t < v then (sat v (intLo t) (intHi t), exNV) else (v, if exact then 0 else exNX)

/-- An integer as a value. -/
def ofInt (x : Int) : FVal := .fin (decide (x < 0)) x.natAbs 0

/-- STOCH(x, f, u) of R47 for a finite nonzero x. -/
def stochMag (f : Fmt) (u : Nat) (neg : Bool) (m : Nat) (e : Int) : Rounded :=
  let ex := max ((m.log2 : Int) + e) f.emin
  let g := ex - f.mb
  -- q + u/65536 with q = m * 2^(e-g), over the common denominator 2^d
  let num := if g ≤ e then m * 2 ^ (e - g).toNat else m
  let d := if g ≤ e then 0 else (g - e).toNat
  let r := (num * 65536 + u * 2 ^ d) / (65536 * 2 ^ d)
  let exact := num % 2 ^ d == 0
  let tiny := isTiny f 0 neg m e false
  let pat := packMag f r g
  if f.largest < pat then ⟨f.withSign neg f.largest, exOF + exNX⟩
  else ⟨f.withSign neg pat, if exact then 0 else exNX + (if tiny then exUF else 0)⟩

/-- One step of the stochastic-rounding state (R50). -/
def srStep (s : Nat) : Nat := if s % 2 = 1 then Nat.xor (s / 2) 0x80200003 else s / 2

/-- The state of a lane after a seed (R50). -/
def srSeed (seed lane : Nat) : Nat :=
  let x := Nat.xor seed (lane * 0x9E3779B9 % 2 ^ 32)
  if x = 0 then 1 else x

/-- A literal under a floating-point format (R64). -/
def litFloat (f : Fmt) (x : Int) : Nat := (roundVal f 0 (ofInt x)).bits

/-- The class mask of FCLASS (Table 5.4). -/
def fclassMask (b : Nat) : Nat :=
  let neg := b / 2 ^ 31 % 2 == 1
  match fval .f32 b with
  | .nan s => if s then 0x100 else 0x200
  | .inf n => if n then 0x001 else 0x080
  | .fin _ m _ =>
    if m = 0 then (if neg then 0x008 else 0x010)
    else if m < 2 ^ 23 then (if neg then 0x004 else 0x020)
    else (if neg then 0x002 else 0x040)

/-- The conditions of Table 5.3. -/
def fcond (v : Nat) (a b : FVal) : Bool :=
  match v, fcmpV a b with
  | 1, some .eq | 3, some .lt | 4, some .lt | 4, some .eq | 5, some .gt | 6, some .gt | 6, some .eq => true
  | 2, o => o != some .eq
  | 7, none => true
  | 8, some _ => true
  | _, _ => false

/-- The exact sum of values, and true when it holds infinities of both signs. A finite sum that is exactly zero takes the
sign that all its zero terms share, else R42's. -/
def exactSum (rm : Nat) (l : List FVal) : FVal × Bool :=
  let pos := l.any (· == .inf false)
  let neg := l.any (· == .inf true)
  if l.any FVal.isNan then (.nan false, pos && neg)
  else
    if pos && neg then (.nan false, true)
    else if pos then (.inf false, false)
    else if neg then (.inf true, false)
    else
      let g : Int := l.foldl (fun g x => match x with | .fin _ _ e => min g e | _ => g) 0
      let x : Int := l.foldl (fun s x => match x with | .fin n m e => s + signedAt n m e g | _ => s) 0
      if x = 0 then
        let allNeg := l.all fun x => x.neg? && x.isZero
        let allPos := l.all fun x => !x.neg? && x.isZero
        (.fin (allNeg || (!allPos && rm == 3)) 0 g, false)
      else (.fin (decide (x < 0)) x.natAbs g, false)

/-- FDOT (R117) on the elements of A and B and the accumulator c. -/
def fdotV (f : Fmt) (rm : Nat) (as bs : List Nat) (c : Nat) : Rounded :=
  let av := as.map (fval f)
  let bv := bs.map (fval f)
  let cv := fval .f32 c
  let prods := List.zipWith mulV av bv
  let invalid := (List.zipWith mulInvalid av bv).any id
  let (s, clash) := exactSum rm (cv :: prods)
  match s with
  | .nan _ => ⟨Fmt.f32.qnan, if invalid || clash then exNV else sigNV (cv :: (av ++ bv))⟩
  | x => roundVal .f32 rm x

end Sys2Proof.Machine
end

