-- ==== Sys2Proof/Machine/Operands.lean ====
section
/-! DEFINITION. Operand forms: reading registers, latch slots, literals and special sources under TYPE (R13, R62 to R65,
R80), reads made too early (R22, R31, R177), and writing results with fixed or long latency. -/
namespace Sys2Proof.Machine
open Sys2Proof

/-- What an instruction sees: the state at its issue, the executing agent's group and split, its fields, its issue cycle,
its bank conflicts, the active lanes, and those of them where the guard is true (T of R99). -/
structure Ctx where
  s : State
  ag : Agent
  g : Group
  sp : Split
  w : Fields
  now : Nat
  /-- The bank-conflict count (R27). -/
  x : Nat
  act : List Nat
  lanes : List Nat

def Ctx.who (c : Ctx) : Who := c.s.whoOf c.ag.core c.g
def Ctx.stream (c : Ctx) : Bool := c.g.stream
/-- SPLIT_CTL (Table 1.3). -/
def Ctx.flush (c : Ctx) : Bool := c.sp.ctl.getLsbD 1
def Ctx.chk (c : Ctx) : Bool := c.sp.ctl.getLsbD 0

/-! ### Register cells -/

/-- The thread of a lane, home slot * 32 + virtual lane (R140). -/
def Group.thread (g : Group) (slot lane : Nat) : Nat := tabGet (slot * 32 + lane) g.threads lane
def Group.vlane (g : Group) (slot lane : Nat) : Nat := g.thread slot lane % 32

/-- A grain register's direction, SPAN and zero mark as one number (Table 8.1, R176). -/
def grainDir (x : Grain) : Nat :=
  x.dir.toNat + x.span.toNat * 2 ^ 256 + (if x.norm == 0x800000#24 then 2 ^ 259 else 0)

/-- The register file's value of one register in one lane. -/
def rawCell (g : Group) (sp : Split) (l : Loc) (lane : Nat) : Nat :=
  match l with
  | .v n => (tabGet 0#32 g.v (n * 32 + lane)).toNat
  | .k n => (tabGet 0#64 sp.k n).toNat
  | .t n => (tabGet 0#32 g.t (n * 32 + lane)).toNat
  | .p n => if n = 7 then 1 else (tabGet false g.p (n * 32 + lane)).toNat
  | .a n => capRegBits (tabGet CapReg.null sp.a n)
  | .g n => grainDir (tabGet Grain.zero g.g (n * 32 + lane))
  | .gn n => (tabGet Grain.zero g.g (n * 32 + lane)).norm.toNat

/-- Write one register cell. p7 keeps reading as 1 (R11). -/
def putCell (x : Group × Split) (c : RegCell) : Group × Split :=
  let (g, sp) := x
  match c.loc with
  | .v n => ({ g with v := tabSet 0#32 g.v (n * 32 + c.lane) (BitVec.ofNat 32 c.val) }, sp)
  | .k n => (g, { sp with k := tabSet 0#64 sp.k n (BitVec.ofNat 64 c.val) })
  | .t n => ({ g with t := tabSet 0#32 g.t (n * 32 + c.lane) (BitVec.ofNat 32 c.val) }, sp)
  | .p n => if n = 7 then (g, sp) else ({ g with p := tabSet false g.p (n * 32 + c.lane) (c.val % 2 == 1) }, sp)
  | .a n => (g, { sp with a := tabSet CapReg.null sp.a n (capRegOfBits c.val) })
  | .g n =>
    let f (x : Grain) : Grain := { x with dir := BitVec.ofNat 256 c.val, span := BitVec.ofNat 3 (c.val / 2 ^ 256) }
    ({ g with g := tabUpd Grain.zero g.g (n * 32 + c.lane) f }, sp)
  | .gn n =>
    ({ g with g := tabUpd Grain.zero g.g (n * 32 + c.lane) fun x => { x with norm := BitVec.ofNat 24 c.val } }, sp)

def Loc.code : Loc → Nat
  | .v n => n * 8 | .k n => n * 8 + 1 | .t n => n * 8 + 2 | .p n => n * 8 + 3 | .a n => n * 8 + 4 | .g n => n * 8 + 5
  | .gn n => n * 8 + 6

/-- A long-latency result writes both parts of a grain register together (R176), so one choice serves both. -/
def Loc.pendCode : Loc → Nat
  | .gn n => Loc.code (.g n)
  | l => l.code

/-- The value a list of cells gives a register in a lane. -/
def cellIn (l : List RegCell) (loc : Loc) (lane : Nat) : Option Nat :=
  ((l.filter fun c => c.loc == loc && c.lane == lane).head?).map (·.val)

/-- A register read at a cycle. A read before a fixed-latency result is readable gives the value before or after its write
(R31); a read of an outstanding long-latency destination gives the value before or after it too (R22). `pick` tells the
choices of one instruction apart. -/
def readAtCycle (s : State) (g : Group) (sp : Split) (now : Nat) (loc : Loc) (lane pick : Nat) : Nat :=
  let salt := (loc.code * 64 + pick) * 4
  let late := (loc.pendCode * 64 + pick) * 4 + 1
  let v := sp.flight.foldl (fun v f =>
    if now < f.ready then
      match cellIn f.old loc lane with
      | some x => if Config.freeBit s.free (salt + f.ready * 2 ^ 20) then x else v
      | none => v
    else v) (rawCell g sp loc lane)
  sp.pending.foldl (fun v p =>
    match cellIn p.cells loc lane with
    | some x => if Config.freeBit s.free late then x else v
    | none => v) v

def Ctx.read (c : Ctx) (loc : Loc) (lane : Nat) : Nat := readAtCycle c.s c.g c.sp c.now loc lane lane
/-- A k or capability register as a lane reads it: the register is one, the choice of an early read is the lane's (R22, R31). -/
def Ctx.readSplit (c : Ctx) (loc : Loc) (lane : Nat) : Nat := readAtCycle c.s c.g c.sp c.now loc 0 lane

/-! ### Packed values (R37) -/

/-- Width of one element of a TYPE. -/
def tyWidth : Ty → Nat
  | .n64 | .s64 => 64
  | .bf16x2 | .f16x2 => 16
  | .e4m3x4 | .e5m2x4 | .s8x4 | .n8x4 => 8
  | .e2m1x8 | .s4x8 | .n4x8 => 4
  | _ => 32

def tyElems (t : Ty) : Nat := if tyWidth t = 64 then 1 else 32 / tyWidth t

def tySigned : Ty → Bool
  | .s32 | .s64 | .s8x4 | .s4x8 => true
  | _ => false

/-- The elements of a pattern, element 0 first. -/
def elemsOf (w n v : Nat) : List Nat := (List.range n).map fun i => v / 2 ^ (w * i) % 2 ^ w
/-- The pattern of elements. -/
def packElems (w : Nat) (l : List Nat) : Nat :=
  match l with
  | [] => 0
  | x :: r => x % 2 ^ w + 2 ^ w * packElems w r

/-- An element read as TYPE says (R80). -/
def elemVal (t : Ty) (x : Nat) : Int := if tySigned t then sext x (tyWidth t) else (x % 2 ^ tyWidth t : Nat)

/-- The widened literal (R64). -/
def litBits (t : Ty) (x : BitVec 8) : Nat :=
  let v := x.toInt
  let n := tyElems t
  match t with
  | .f32 | .bf16x2 | .f16x2 | .e4m3x4 | .e5m2x4 | .e2m1x8 => packElems (tyWidth t) (List.replicate n (litFloat (fmtOf t) v))
  | _ => packElems (tyWidth t) (List.replicate n (wrap v (tyWidth t)))

/-! ### Operands -/

/-- A latch slot's value, if it is valid for the instruction (R28). -/
def latchVal (sp : Split) (i : Nat) : Option (List Nat) :=
  ((sp.latch.filter fun x => x.slot == i && decide (x.held < sp.run) && decide (sp.run ≤ x.held + 2)).head?).map (·.vals)

/-- The special sources (R13, R132, R260). -/
def specialVal (c : Ctx) (i : Nat) (lane : Nat) : Nat :=
  match i with
  | 0 => if c.stream then 0 else c.g.vlane c.ag.slot lane
  | 1 =>
    let home := c.g.thread c.ag.slot lane / 32
    if home = c.ag.slot ∨ c.stream then c.g.groupId
    else match c.s.group? c.ag.core home with
      | some h => h.groupId
      | none => c.g.groupId
  | 2 => if c.stream then 0 else c.ag.split
  | 3 => c.g.team
  | 4 => c.g.cluster
  | 5 => c.ag.core % Config.coreKeys
  | 6 => dieOf c.ag.core
  | 7 => c.s.regs.deviceId.toNat
  | 8 => c.who.cls.toNat
  | _ => c.now % 2 ^ 64

/-- `regs` consecutive v registers, low first. -/
def readV (c : Ctx) (n lane : Nat) : Nat → Nat
  | 0 => 0
  | r + 1 => readV c n lane r + 2 ^ (32 * r) * (c.read (.v (n + r)) lane % 2 ^ 32)

/-- The bits of a source operand of `regs` registers in a lane, a literal widened under t. -/
def opVal (c : Ctx) (t : Ty) (regs : Nat) (o : Opnd) (lane : Nat) : Nat :=
  match o with
  | .v n => readV c n.toNat lane regs
  | .k n => c.readSplit (.k n.toNat) lane % 2 ^ (32 * regs)
  | .t n => c.read (.t n.toNat) lane % 2 ^ 32
  | .p n => c.read (.p n.toNat) lane % 2
  | .lit x => litBits t x
  | .latch i => (match latchVal c.sp i.val with | some l => l.getD lane 0 | none => 0) % 2 ^ (32 * regs)
  | .special i => specialVal c i.val lane % 2 ^ (32 * regs)
  | .a n => c.readSplit (.a n.toNat) lane
  | .zero | .g _ | .m _ | .reserved _ => 0

/-- Sources under TYPE. -/
def Ctx.a (c : Ctx) (lane : Nat) : Nat := opVal c c.w.ty (tyRegs c.w.ty) c.w.a lane
def Ctx.b (c : Ctx) (lane : Nat) : Nat := opVal c c.w.ty (tyRegs c.w.ty) c.w.b lane
def Ctx.c' (c : Ctx) (lane : Nat) : Nat := opVal c c.w.ty (tyRegs c.w.ty) (opC c.w) lane
/-- Sources read as 32-bit and as 64-bit integers. -/
def Ctx.a32 (c : Ctx) (lane : Nat) : Nat := opVal c .b32 1 c.w.a lane
def Ctx.b32 (c : Ctx) (lane : Nat) : Nat := opVal c .b32 1 c.w.b lane
def Ctx.c32 (c : Ctx) (lane : Nat) : Nat := opVal c .b32 1 (opC c.w) lane
def Ctx.a64 (c : Ctx) (lane : Nat) : Nat := opVal c .n64 2 c.w.a lane
def Ctx.b64 (c : Ctx) (lane : Nat) : Nat := opVal c .n64 2 c.w.b lane
def Ctx.c64 (c : Ctx) (lane : Nat) : Nat := opVal c .n64 2 (opC c.w) lane
/-- Sources read as one f32 value (R64). -/
def Ctx.bF (c : Ctx) (lane : Nat) : Nat := opVal c .f32 1 c.w.b lane
def Ctx.cF (c : Ctx) (lane : Nat) : Nat := opVal c .f32 1 (opC c.w) lane
/-- A predicate operand. -/
def Ctx.pred (c : Ctx) (o : Opnd) (lane : Nat) : Bool := opVal c .b32 1 o lane % 2 == 1
/-- A capability register as a lane reads it (R102). -/
def Ctx.capAt (c : Ctx) (o : Opnd) (lane : Nat) : CapReg := capRegOfBits (opVal c .b32 4 o lane)
/-- The lane in which a uniform instruction reads; its operands are alike in every lane. -/
def Ctx.lane0 (c : Ctx) : Nat := c.lanes.headD 0
/-- A capability register as an instruction reads it once. -/
def Ctx.cap (c : Ctx) (o : Opnd) : CapReg := c.capAt o c.lane0
/-- a0 as a transfer reads it (R102, R108, R109, R360). -/
def Ctx.a0 (c : Ctx) : CapReg := capRegOfBits (c.readSplit (.a 0) c.lane0)
/-- A k group (R303): register N + i. -/
def Ctx.kAt (c : Ctx) (o : Opnd) (i : Nat) : Nat :=
  match o with
  | .k n => c.readSplit (.k (n.toNat + i)) c.lane0
  | _ => 0

/-! ### Which registers an instruction touches -/

/-- The registers of an operand at a position. -/
def posLocs (p : Pos) (o : Opnd) : List Loc :=
  let range (f : Nat → Loc) (n r : Nat) : List Loc := (List.range r).map fun i => f (n + i)
  match p, o with
  | .unused, _ => []
  | .cls _ r, .v n => range .v n.toNat r
  | .cls _ _, .k n => [.k n.toNat]
  | .cls _ _, .t n => [.t n.toNat]
  | .cls _ _, .p n => if n == 7#3 then [] else [.p n.toNat]
  | .cls _ _, .a n => [.a n.toNat]
  | .cls _ _, .g n => [.g n.toNat, .gn n.toNat]
  | .kgroup n, .k i => range .k i.toNat n
  | .pair r _, .v n => range .v n.toNat r
  | .pair _ ks, .k i => range .k i.toNat ks
  | _, _ => []

/-- The D field is a source: stores, copies and bindings (Tables 4.8, 8.2, 11.1, 14.1), and AXL reads it too. -/
def dIsSource (f : Form) : Bool := f.uni == .never || f.op == 0x88
/-- Grain readers of the direction alone (Table 8.2). -/
def readsDirOnly (f : Form) (w : Fields) : Bool :=
  (f.op == 0x71 && !subBit w) || (f.op == 0x72 && !subBit w) || f.op == 0x7C

/-- BRX, CALL, CALL.ind, RET and CSRW.code read a0 (R108, R109, R360). -/
def readsCodeBase (f : Form) (w : Fields) : Bool := [0x29, 0x2A, 0x2B].contains f.op || (f.op == 0xCE && vr w == 1)

/-- Register sources other than the guard. -/
def sourceLocs (f : Form) (w : Fields) : List Loc :=
  let l := (if readsCodeBase f w then [Loc.a 0] else []) ++ posLocs (f.a w) w.a ++ posLocs (f.b w) w.b ++ (if cimm w then posLocs (f.c w) (opC w) else [])
    ++ (if dIsSource f then posLocs (f.d w) w.d else [])
  if readsDirOnly f w then l.filter fun x => match x with | .gn _ => false | _ => true else l

/-- Register destinations: D, the flag predicate of R152, and the count of RED (R164). -/
def destLocs (f : Form) (w : Fields) : List Loc :=
  let d := if f.uni == .never then [] else posLocs (f.d w) w.d
  let flag := [0x60, 0x61, 0x62, 0x6B, 0x72, 0xAF].contains f.op || (f.op == 0xAE && vr w == 1)
  let fp := if flag && fpCode w != 7 then [Loc.p (fpCode w)] else []
  let cnt := if f.op == 0x63 && w.var.getLsbD 3 then
      match w.d with
      | .k n => [Loc.k (n.toNat + 1)]
      | .v n => [Loc.v (n.toNat + tyRegs w.ty)]
      | _ => []
    else []
  d ++ fp ++ cnt

/-- The bank-conflict count x (R27): each v register counts once in bank N mod 4. -/
def bankConflicts (f : Form) (w : Fields) : Nat :=
  let regs := (sourceLocs f w).foldl (fun l x => match x with | .v n => natInsert n l | _ => l) []
  maxNat ((List.range 4).map fun b => (regs.filter fun n => n % 4 == b).length) - 1

/-- The TYPE under which A, or B, is read (R28, R64): a conversion's source and scale have their own, and a position of fixed
width takes a literal as an integer of that width. -/
def readTy (f : Form) (w : Fields) (b : Bool) (regs : Nat) : Ty :=
  if [0x50, 0x51, 0x52].contains f.op then (if b then .f32 else srcTy w)
  else if tyRegs w.ty = regs then w.ty else if regs = 2 then .n64 else .b32

/-- The operands' latch slots. -/
def latchReads (f : Form) (w : Fields) : List Nat :=
  let one (p : Pos) (o : Opnd) : List Nat := match p, o with | .cls _ _, .latch i => [i.val] | _, _ => []
  one (f.a w) w.a ++ one (f.b w) w.b ++ (if cimm w then one (f.c w) (opC w) else [])

/-! ### Results -/

/-- A 32-bit result in a k register (R65). -/
def extK (t : Ty) (regs v : Nat) : Nat :=
  if regs = 1 ∧ t = .s32 then wrap (sext v 32) 64 else if regs = 1 then v % 2 ^ 32 else v % 2 ^ 64

/-- The cells of a destination of `regs` registers, given a value in each lane of T. A uniform instruction takes the value of
its lowest acting lane; that matters for %groupid in a repacked group alone, which R132 gives a thread and R13 and R65 call
uniform (log 77). -/
def destCells (c : Ctx) (t : Ty) (regs : Nat) (val : Nat → Nat) : List RegCell :=
  match c.w.d with
  | .v n => c.lanes.flatMap fun l => (List.range regs).map fun i => ⟨.v (n.toNat + i), l, val l / 2 ^ (32 * i) % 2 ^ 32⟩
  | .t n => c.lanes.map fun l => ⟨.t n.toNat, l, val l % 2 ^ 32⟩
  | .k n => if c.lanes.isEmpty then [] else [⟨.k n.toNat, 0, extK t regs (val c.lane0)⟩]
  | .p n => if n == 7#3 then [] else c.lanes.map fun l => ⟨.p n.toNat, l, val l % 2⟩
  | .a n => if c.lanes.isEmpty then [] else [⟨.a n.toNat, 0, val c.lane0⟩]
  | _ => []

/-- Flag predicate cells (R152); a write to p7 is discarded. -/
def flagCells (n : Nat) (l : List (Nat × Bool)) : List RegCell :=
  if n = 7 then [] else l.map fun x => ⟨.p n, x.1, x.2.toNat⟩

/-- R22: a second write to an outstanding long-latency destination stands, or the long-latency result does; each lane is a
free value. -/
def overwritePending (free : Nat) (cells : List RegCell) (ps : List Pending) : List Pending :=
  ps.map fun p =>
    { p with cells := p.cells.filter fun x =>
        !(cells.any (fun c => c.loc == x.loc && c.lane == x.lane) && Config.freeBit free ((x.loc.pendCode * 64 + x.lane) * 4 + 2)) }

/-- Write results that become readable at a cycle (R26); the values they replace stay in flight until then. -/
def writeFixed (s : State) (ag : Agent) (ready : Nat) (cells : List RegCell) : State :=
  if cells.isEmpty then s
  else s.modGroup ag.core ag.slot fun g =>
    match tabFind g.splits ag.split with
    | none => g
    | some sp =>
      let old := cells.map fun c => { c with val := rawCell g sp c.loc c.lane }
      let (g, sp) := cells.foldl putCell (g, sp)
      let sp := { sp with flight := ⟨ready, old⟩ :: sp.flight, pending := overwritePending s.free cells sp.pending }
      { g with splits := tabPut g.splits ag.split sp }

/-- Write registers at once. -/
def writeNow (s : State) (ag : Agent) (cells : List RegCell) : State :=
  s.modGroup ag.core ag.slot fun g =>
    match tabFind g.splits ag.split with
    | none => g
    | some sp =>
      let (g, sp) := cells.foldl putCell (g, sp)
      { g with splits := tabPut g.splits ag.split sp }

/-- Issue a long-latency result (R20): untagged until the run's RUNEND. Without a register to write there is no result. -/
def writeLong (s : State) (ag : Agent) (cells : List RegCell) : State :=
  let locs := cells.foldl (fun l c => if l.contains c.loc then l else l ++ [c.loc]) []
  if cells.isEmpty then s
  else s.modSplit ag fun sp =>
    { sp with pending := sp.pending ++ [⟨none, s.free, cells⟩], unawaited := sp.unawaited ++ locs.map fun x => (none, x) }

end Sys2Proof.Machine
end

