-- ==== Sys2Proof/Machine/Flags.lean ====
section
/-! DEFINITION. The sticky flags of SPLIT_STATUS (Tables 1.4 and 10.4) and of MXSTATUS (Table 12.2), and the union of the
exceptions of several elements and lanes (R45). -/
namespace Sys2Proof.Machine
open Sys2Proof

/-- The union of exception sets. -/
def exUnion (l : List Nat) : Nat := l.foldl Nat.lor 0

/-- CUT_LATE and CUT_WRAP (Table 10.4). -/
def stCutLate : Nat := 0x40
def stCutWrap : Nat := 0x20
/-- WFAIL (Table 12.2). -/
def mxWfail : Nat := 0x400

/-- R16: set flags of the executing split's status. -/
def setFlags (s : State) (ag : Agent) (ex : Nat) : State :=
  if ex = 0 then s else s.modSplit ag fun sp => { sp with status := sp.status ||| BitVec.ofNat 32 ex }

/-- R230, R261: the CUT bits go to SPLIT_STATUS, or to MXSTATUS in a stream. -/
def setCutFlags (s : State) (ag : Agent) (ex : Nat) : State :=
  if ex = 0 then s
  else if ag.slot = Config.streamSlot then
    s.modGroup ag.core ag.slot fun g => { g with mxstatus := g.mxstatus ||| BitVec.ofNat 32 ex }
  else setFlags s ag ex

end Sys2Proof.Machine
end

