-- ==== Sys2Proof/Machine/Mem.lean ====
section
/-! DEFINITION. Storage: bytes and validity tags in canonical form, the physical map (Table 9.1), format windows, L2 line
metadata, the L1, translation and the scratchpad (spec/09). -/
namespace Sys2Proof.Machine
open Sys2Proof

/-- What a byte that no entry lists reads as. The manual gives no contents after power-on. DESIGN CHOICE (log 1). -/
def Memory.unlisted : Byte := 0

/-- The canonical form of memory: addresses strictly rising, no entry equal to the unlisted value. -/
def Memory.wf (m : List Host.Cell) : Bool := tabWf Memory.unlisted m

/-- Tags listed once each, rising. -/
def tagsWf : List Nat → Bool
  | [] => true
  | [_] => true
  | a :: b :: r => decide (a < b) && tagsWf (b :: r)

def State.byte (s : State) (pa : Nat) : Byte := tabGet Memory.unlisted s.mem pa
/-- The key of a launch's remembered byte of code. -/
def shadowKey (launch pa : Nat) : Nat := launch * 2 ^ 48 + pa
def State.setByte (s : State) (pa : Nat) (b : Byte) : State := { s with mem := tabSet Memory.unlisted s.mem pa b }

/-- The n bytes from pa. -/
def State.bytes (s : State) (pa : Nat) : Nat → List Byte
  | 0 => []
  | n + 1 => s.byte pa :: s.bytes (pa + 1) n
/-- Write bytes from pa. -/
def State.setBytes (s : State) (pa : Nat) : List Byte → State
  | [] => s
  | b :: r => (s.setByte pa b).setBytes (pa + 1) r

def State.tagged (s : State) (pa : Nat) : Bool := s.tags.contains (pa / 16)
def State.setTag (s : State) (pa : Nat) (v : Bool) : State :=
  { s with tags := if v then natInsert (pa / 16) s.tags else natRemove (pa / 16) s.tags }
/-- Clear the tags of every granule that n bytes from pa touch (R195). -/
def State.clearTags (s : State) (pa n : Nat) : State :=
  { s with tags := s.tags.filter fun g => !(decide (pa / 16 ≤ g) && decide (g * 16 < pa + n)) }

/-- Table 9.1: the home die of an address that exists; none outside every region. A stack that failed training has no
frames, nor has CXL memory that did not train (Table 18.3). -/
def homeDie (r : Regs) (pa : Nat) : Option Nat :=
  if pa < 2 ^ 40 then
    let stack := pa / 2 ^ 36
    if r.stackUp.getLsbD stack && (decide (stack < 8) || r.die1) then some (stack / 8) else none
  else if pa < 2 ^ 44 then none
  else if pa < 2 ^ 44 + 2 ^ 42 then
    let c := (pa - 2 ^ 44) / 2 ^ 39
    if decide (c < 4) || r.die1 then some (c / 4) else none
  else if pa < 2 ^ 45 then none
  else if pa < 2 ^ 48 && r.cxl then some 0 else none

def isHbm (pa : Nat) : Bool := decide (pa < 2 ^ 40)
def isSecondTier (pa : Nat) : Bool := decide (2 ^ 44 ≤ pa) && decide (pa < 2 ^ 44 + 2 ^ 42)
def isCxl (pa : Nat) : Bool := decide (2 ^ 45 ≤ pa)

/-- The slices of a die that a partition owns (R207). -/
def ownSlices (r : Regs) (die part : Nat) : List Nat :=
  (List.range 256).filter fun i => bits (tabGet 12#32 r.slicecfg (die * 256 + i)).toNat 11 8 == part

/-- The L2 slice of a line, die * 256 + index (R207). -/
def sliceOf (r : Regs) (part pa : Nat) : Nat :=
  let x := pa / 128
  let die := (homeDie r pa).getD 0
  let i := Nat.xor (Nat.xor (Nat.xor (Nat.xor (bits x 7 0) (bits x 15 8)) (bits x 23 16)) (bits x 31 24)) (bits x 39 32)
  if (tabGet 0 r.l2mode die).toNat % 2 = 1 then
    let own := ownSlices r die part
    if own.isEmpty then die * 256 + i else die * 256 + own.getD (i % own.length) 0
  else die * 256 + i

/-- In private mode a line lies in a slice of the requester's partition or in none (R207). -/
def sliceHolds (r : Regs) (part pa : Nat) : Bool :=
  let die := (homeDie r pa).getD 0
  (tabGet 0 r.l2mode die).toNat % 2 == 0 || !(ownSlices r die part).isEmpty

/-- R374: whether a target's access table lets a master's request through. Targets 0 to 511 are the L2 slices, 512 to 536 the
memory controllers, 540 the mailbox engine, 544 and above the fabric ports; masters 0 to 289 the cores' splits and streams, 290
to 579 their copy engines, 1024 and above the host functions, 2048 and above the fabric ports. The numbering is the model's
(log 21). -/
def accessOk (r : Regs) (target master part mask : Nat) : Bool :=
  let e := (tabGet 0#32 r.access (target * 4096 + master)).toNat
  (e / 2 ^ (16 + part) % 2 == 1) && (Nat.land (e % 16) mask == mask)

/-- The memory controller of an address: of a stack, of the second tier, or of the pooled memory. -/
def controllerOf (pa : Nat) : Nat :=
  if isHbm pa then 512 + pa / 2 ^ 36 else if isSecondTier pa then 528 + (pa - 2 ^ 44) / 2 ^ 39 else 536

/-- The fabric ports that are up. -/
def upPorts (r : Regs) : List Nat := (List.range 32).filter fun p => r.torwen.getLsbD p

/-- The tables of the home slice and, where L2 does not hold the line, of the memory controller let a request through. -/
def memAllows (s : State) (master part pa mask : Nat) : Bool :=
  accessOk s.regs (sliceOf s.regs part pa) master part mask
    && ((tabFind s.l2 (pa / 128)).isSome || accessOk s.regs (controllerOf pa) master part mask)

/-- The table of a fabric port that is up lets a request out. -/
def portAllows (s : State) (master part mask : Nat) : Bool :=
  (upPorts s.regs).any fun p => accessOk s.regs (544 + p) master part mask

/-- What another device answers to an access at an address, or the host: a fault of R369, or PEER_LOST where it has been declared
lost or no link leads there (log 85). -/
def farAnswer (s : State) (device va : Nat) : Option Nat :=
  if device = 0xFFFFF then (if s.regs.pcie then none else some fPeerLost)
  else if (tabGet Peer.init s.regs.peers device).lost || s.regs.torwen == 0#32 then some fPeerLost
  else tabFind (tabGet Peer.init s.regs.peers device).answers (va / 2 ^ 16)

/-- Bytes moved for a partition at a memory unit (R376, Table 16.4). -/
def countBytes (s : State) (ctx : BitVec 12) (part pa n : Nat) : State :=
  if isHbm pa then countShared (meterAdd s part 8 n) ctx 18 n
  else if isSecondTier pa then meterAdd s part 9 n
  else s

/-! ### Format windows (R209 to R211) -/

/-- A field of a window register (Table 9.8). -/
def winField (w : BitVec 128) (hi lo : Nat) : Nat := bits w.toNat hi lo
def winEn (w : BitVec 128) : Bool := winField w 127 127 == 1
def winFmt (w : BitVec 128) : Nat := winField w 125 122
def winSlay (w : BitVec 128) : Nat := winField w 121 120
def winBase (w : BitVec 128) : Nat := winField w 111 80
def winLimit (w : BitVec 128) : Nat := winField w 79 48
def winSbase (w : BitVec 128) : Nat := winField w 47 0

/-- The enabled window of a die that holds an address. -/
def windowAt (s : State) (pa : Nat) : Option (BitVec 128) :=
  match homeDie s.regs pa with
  | none => none
  | some d =>
    ((s.fmtwin.filter fun e => e.1 / 64 == d && winEn e.2 && decide (winBase e.2 ≤ pa / 2 ^ 16)
      && decide (pa / 2 ^ 16 ≤ winLimit e.2)).head?).map (·.2)

/-- Where the scale bytes and the metadata bytes of line i of a window lie: address and length of each (R210). -/
def sideScale (w : BitVec 128) (i : Nat) : Option (Nat × Nat) :=
  let f := winFmt w
  if f = 7 then some (winSbase w + 16 * i, 16)
  else if f = 5 ∨ f = 6 ∨ f = 11 ∨ f = 12 then
    if winSlay w = 1 then some (winSbase w + 4 * i, 4)
    else if winSlay w = 2 then some (winSbase w + 4 * (i / 128), 4) else none
  else none
def sideMeta (w : BitVec 128) (i : Nat) : Option (Nat × Nat) :=
  if 9 ≤ winFmt w ∧ winFmt w ≤ 12 then some (winSbase w + 2 ^ 20 + 64 * i, 48) else none

def padTo (n : Nat) (l : List Byte) : List Byte := l ++ List.replicate (n - l.length) 0

/-- The side array that a fill gives a line (R210). -/
def sideFill (s : State) (pa : Nat) : Nat × List Byte :=
  match windowAt s pa with
  | none => (0, [])
  | some w =>
    let i := (pa - winBase w * 2 ^ 16) / 128
    let rd (o : Option (Nat × Nat)) : List Byte := match o with | some (a, n) => s.bytes a n | none => []
    (winFmt w, padTo 16 (rd (sideScale w i)) ++ padTo 48 (rd (sideMeta w i)))

/-- The bytes of side data that a fill reads at the memory units (R376). -/
def countSide (s : State) (ctx : BitVec 12) (part pa : Nat) : State :=
  match windowAt s pa with
  | none => s
  | some w =>
    let i := (pa - winBase w * 2 ^ 16) / 128
    ((sideScale w i).toList ++ (sideMeta w i).toList).foldl (fun s x => countBytes s ctx part x.1 x.2) s

/-- Write back and clear the lines that meet a test, with their tags and pins. -/
def flushLines (s : State) (p : Nat × L2Line → Bool) : State :=
  let s := (s.l2.filter p).foldl (fun s e =>
    if e.2.lst = 2 then countBytes s e.2.owner (s.context e.2.owner).part (e.1 * 128) 128 else s) s
  { s with l2 := s.l2.filter fun e => !p e }

/-- R210: a write to side bytes writes back and invalidates the lines whose side data was read from them. -/
def sideInval (s : State) (pa n : Nat) : State :=
  if s.fmtwin.isEmpty then s
  else
    let hit (o : Option (Nat × Nat)) : Bool :=
      match o with | some (a, k) => decide (a < pa + n) && decide (pa < a + k) | none => false
    flushLines s fun e =>
      match windowAt s (e.1 * 128) with
      | none => false
      | some w =>
        let i := (e.1 * 128 - winBase w * 2 ^ 16) / 128
        e.2.ftag != 0 && (hit (sideScale w i) || hit (sideMeta w i))

def winKey (die n : Nat) : Nat := die * 64 + n
def winOf (s : State) (die n : Nat) : BitVec 128 := tabGet 0#128 s.fmtwin (winKey die n)
/-- A window with other EN and OVL bits. -/
def winWith (w : BitVec 128) (en ovl : Bool) : BitVec 128 :=
  BitVec.ofNat 128 (w.toNat % 2 ^ 126 + (if en then 2 ^ 127 else 0) + (if ovl then 2 ^ 126 else 0))
def setWin (s : State) (k : Nat) (w : BitVec 128) : State := { s with fmtwin := tabSet 0#128 s.fmtwin k w }

/-- Lines of a window's range in the slices of its die. -/
def windowLine (die : Nat) (w : BitVec 128) (e : Nat × L2Line) : Bool :=
  e.2.slice / 256 == die && decide (winBase w ≤ e.1 / 512) && decide (e.1 / 512 ≤ winLimit w)

/-- The clearing of a window's EN, by its key, completes once no line of its range is pinned: what is left of the range is
written back and invalidated, and EN reads 0 (R209). -/
def closeWindow (s : State) (k : Nat) : State :=
  let w := tabGet 0#128 s.fmtwin k
  if s.l2.any fun e => windowLine (k / 64) w e && e.2.lst == 3 then s
  else { setWin (flushLines s (windowLine (k / 64) w)) k (winWith w false false) with closing := natRemove k s.closing }

/-- The windows whose EN was cleared, after pins have been released. -/
def settleWindows (s : State) : State := s.closing.foldl closeWindow s

/-! ### L2 (R206 to R208) -/

/-- The set of a line within its slice. The manual gives the slice alone; the model's choice is in log 11. -/
def l2Set (line : Nat) : Nat := line / 256 % 512

/-- The ways a class may fill (R208). -/
def classWays (r : Regs) (slice : Nat) (cls : Bool) : List Nat :=
  let g := (tabGet 12#32 r.slicecfg slice).toNat % 32
  (List.range 16).filter fun w => if cls then decide (g ≤ w) else decide (w < g)

/-- A request's passage through the home slice: a hit, or a fill under R208 with the least recently used line as victim, or
service from memory. -/
def l2Touch (s : State) (w : Who) (pa : Nat) (write : Bool) : State :=
  let line := pa / 128
  let slice := sliceOf s.regs w.part pa
  let set := l2Set line
  let mates := s.l2.filter fun e => e.2.slice == slice && l2Set e.1 == set
  let stamp := maxNat (mates.map fun e => e.2.used) + 1
  let s := match homeDie s.regs pa with
    | some d => if d = dieOf w.core then s else meterAdd s w.part 10 128
    | none => s
  match tabFind s.l2 line with
  | some l =>
    let l := { l with used := stamp, owner := if write then w.context else l.owner,
                      lst := if write && l.lst != 3 then 2 else l.lst }
    countShared { s with l2 := tabPut s.l2 line l } w.context 16 1
  | none =>
    let s := countSide (countBytes (countShared s w.context 17 1) w.context w.part pa 128) w.context w.part pa
    if !sliceHolds s.regs w.part pa then s else
    let quar (k : Nat) : Bool := s.quarantined.contains ((slice * 512 + set) * 16 + k)
    let ways := (classWays s.regs slice w.cls).filter fun k => !quar k
    let taken := mates.map fun e => e.2.way
    let side := sideFill s pa
    let fresh (k : Nat) : L2Line := ⟨if write then 2 else 1, w.context, side.1, w.cls, slice, k, stamp, 0, side.2⟩
    match ways.filter fun k => !taken.contains k with
    | k :: _ => { s with l2 := tabPut s.l2 line (fresh k) }
    | [] =>
      let cand := mates.filter fun e => ways.contains e.2.way && e.2.lst != 3
      match leastBy (fun e => e.2.used) cand with
      | none => s
      | some v =>
        let s := if v.2.lst = 2 then
            let p := (s.context v.2.owner).part
            countBytes s v.2.owner p (v.1 * 128) 128
          else s
        { s with l2 := tabPut (tabErase s.l2 v.1) line (fresh v.2.way) }

/-- Release one pin of a line; a line without pins is clean. -/
def unpinLine (s : State) (pa : Nat) : State :=
  { s with l2 := tabMod s.l2 (pa / 128) fun l =>
      if 1 < l.pins then { l with pins := l.pins - 1 } else { l with pins := 0, lst := if l.lst = 3 then 1 else l.lst } }

/-- Release the pins; a window whose EN was cleared may have waited for them. -/
def unpinLines (s : State) (pas : List Nat) : State := settleWindows (pas.foldl unpinLine s)

/-! ### L1 (R202) -/

def l1Find (c : Core) (line : Nat) (ctx : BitVec 12) : Option L1Line :=
  (c.l1.filter fun l => l.line == line && l.owner == ctx).head?

/-- Make room in the line's set of eight ways and put the line there. Which line goes is a free value. -/
def l1Put (s : State) (core : Nat) (l : L1Line) : State :=
  s.modCore core fun c =>
    let rest := c.l1.filter fun x => !(x.line == l.line)
    let mates := rest.filter fun x => x.line % 128 == l.line % 128
    let rest := if mates.length < 8 then rest
      else
        let victim := (mates.getD (Config.freeNat s.free 1 % 8) l).line
        rest.filter fun x => x.line != victim
    { c with l1 := l :: rest }

/-- n bytes of one line read through the core's L1 by a load that allocates there, with the line's granule tags. A present
line may serve the read, whatever memory holds by now, or may have been evicted (R202, R217). -/
def l1Load (s : State) (w : Who) (pa n : Nat) : List Byte × BitVec 8 × State :=
  let line := pa / 128
  let cut (d : List Byte) : List Byte := (d.drop (pa % 128)).take n
  let miss : List Byte × BitVec 8 × State :=
    let data := s.bytes (line * 128) 128
    let tags := (List.range 8).foldl (fun t i => if s.tagged (line * 128 + 16 * i) then t ||| BitVec.ofNat 8 (2 ^ i) else t) 0#8
    let s := l2Touch (countPrivate s w 3) w pa false
    (cut data, tags, l1Put s w.core ⟨line, w.context, data, tags⟩)
  match l1Find (s.core w.core) line w.context with
  | some l =>
    if Config.freeBit s.free (2 * pa) then miss else (cut l.data, l.tags, countPrivate s w 2)
  | none => miss

/-- A store's bytes go into the writer's own L1 line if it is present (R202). -/
def l1Patch (s : State) (core : Nat) (pa : Nat) (bs : List Byte) (tag : Bool) : State :=
  let line := pa / 128
  let put (d : List Byte) : List Byte := d.take (pa % 128) ++ bs ++ d.drop (pa % 128 + bs.length)
  let granules := (List.range 8).filter fun i =>
    decide (pa % 128 / 16 ≤ i) && decide (i * 16 < pa % 128 + bs.length)
  let tags (t : BitVec 8) : BitVec 8 :=
    granules.foldl (fun t i => if tag then t ||| BitVec.ofNat 8 (2 ^ i) else t &&& ~~~(BitVec.ofNat 8 (2 ^ i))) t
  if (s.core core).l1.any fun l => l.line == line then
    s.modCore core fun c =>
      { c with l1 := c.l1.map fun l => if l.line == line then { l with data := put l.data, tags := tags l.tags } else l }
  else s

/-- Drop the L1 lines of a core that meet a test. -/
def l1Drop (s : State) (core : Nat) (p : L1Line → Bool) : State :=
  if (s.core core).l1.isEmpty then s
  else s.modCore core fun c => { c with l1 := c.l1.filter fun l => !p l }

/-! ### Writes at the home slice -/

/-- A number of n bytes at pa, little-endian (R6). -/
def State.num (s : State) (pa n : Nat) : Nat := ofLeBytes (s.bytes pa n)

/-- The test of WAIT and PRED (Table 13.4). -/
def packetTest (v w : Nat) : Bool :=
  let m := Nat.land w (bits v 191 128)
  let x := bits v 255 192
  match bits v 47 44 with
  | 0 => m == x
  | 1 => m != x
  | 2 => decide (x ≤ m)
  | _ => decide (m < x)

/-- R289: each WAIT whose word a write of n bytes at pa reaches is tested again. -/
def noteWrite (s : State) (pa n : Nat) : State :=
  { s with watches := s.watches.map fun w =>
      if decide (pa < w.pa + 8) && decide (w.pa < pa + n) && packetTest w.bytes (s.num w.pa 8) then { w with hit := true } else w }

/-- A write of bytes within one line by any path: memory, tags (R195), L2, side data (R210) and the writer's own L1. -/
def physWrite (s : State) (w : Who) (pa : Nat) (bs : List Byte) : State :=
  if bs.isEmpty then s
  else
    let s := noteWrite ((s.setBytes pa bs).clearTags pa bs.length) pa bs.length
    sideInval (l1Patch (l2Touch s w pa true) w.core pa bs false) pa bs.length

/-- A capability store: sixteen bytes and the granule's tag (R104, R195). -/
def physWriteCap (s : State) (w : Who) (pa : Nat) (c : Cap) : State :=
  let bs := leBytes (capBits c) 16
  let s := noteWrite ((s.setBytes pa bs).setTag pa true) pa 16
  sideInval (l1Patch (l2Touch s w pa true) w.core pa bs true) pa 16

/-- The core's L1 after an atomic that left n bytes as they are in memory (R218): its line of them is updated, which changes
nothing where it holds them already, or invalidated. -/
def l1Fresh (s : State) (core pa n : Nat) : State :=
  let mine (l : L1Line) : Bool := l.line == pa / 128
  let same (l : L1Line) : Bool := !mine l || (l.data.drop (pa % 128)).take n == s.bytes pa n
  if (s.core core).l1.any mine then
    if Config.freeBit s.free (2 * pa + 1) && (s.core core).l1.all same then s else l1Drop s core mine
  else s

/-- One atomic update at the home slice (R218, R245): the tag is cleared only when a byte changes, and the core's L1 line is
updated or invalidated. -/
def physAtomic (s : State) (w : Who) (pa n new : Nat) : State :=
  let old := s.bytes pa n
  let bs := leBytes new n
  let s := noteWrite (s.setBytes pa bs) pa n
  let s := if old = bs then s else sideInval (s.clearTags pa n) pa n
  let s := l2Touch s w pa true
  if old = bs then l1Fresh s w.core pa n
  else if (s.core w.core).l1.any fun l => l.line == pa / 128 then
    if Config.freeBit s.free (2 * pa + 1) then l1Patch s w.core pa bs false
    else l1Drop s w.core fun l => l.line == pa / 128
  else s

/-! ### Translation (R196 to R200) -/

/-- Fields of a page table entry (Table 9.4). -/
def pteState (e : BitVec 128) : Nat := bits e.toNat 127 126
def pteTenant (e : BitVec 128) : Nat := bits e.toNat 125 114
def pteVpn (e : BitVec 128) : Nat := bits e.toNat 113 73
def ptePerm (e : BitVec 128) : Nat := bits e.toNat 72 69
def pteExtent (e : BitVec 128) : Nat := bits e.toNat 68 64
def pteHome (e : BitVec 128) : Nat := bits e.toNat 63 63
def pteNext (e : BitVec 128) : Nat := bits e.toNat 31 0
def pteFree : BitVec 128 := 0xFFFFFFFF#128
def noFrame : Nat := 0xFFFFFFFF
/-- The entry of a frame. -/
def pteAt (r : Regs) (f : Nat) : BitVec 128 := tabGet pteFree r.ipt f

/-- The anchor index of a tenant and page (R200). -/
def anchorHash (tenant vpn : Nat) : Nat := bits (wrap ((vpn * 0x9E3779B1 + tenant * 0x85EBCA77 : Nat) : Int) 64) 63 42

/-- The chain of R200, at most 64 links. -/
def walkGo (r : Regs) (tenant : BitVec 12) (vpn : Nat) : Nat → Nat → Except Nat TlbEntry
  | 0, _ => .error fPageAbsent
  | fuel + 1, f =>
    if f = noFrame then .error fPageAbsent
    else
      let e := pteAt r f
      if pteState e != 0 && pteTenant e == tenant.toNat && pteVpn e == vpn then
        if pteState e = 2 then .error fPageMigrating
        else if pteState e = 3 then .error fPageRetired
        else if homeDie r (f * 2 ^ 16) != some (pteHome e) then .error fPageAbsent
        else
          let n := 2 ^ pteExtent e
          .ok ⟨tenant, vpn / n * n, pteExtent e, f - vpn % n, BitVec.ofNat 4 (ptePerm e), pteHome e⟩
      else walkGo r tenant vpn fuel (pteNext e)

/-- The walk from the anchors of the requester's die (log 16). -/
def walk (r : Regs) (die : Nat) (tenant : BitVec 12) (vpn : Nat) : Except Nat TlbEntry :=
  walkGo r tenant vpn 64 (tabGet 0xFFFFFFFF#32 r.anchors (die * 2 ^ 22 + anchorHash tenant.toNat vpn)).toNat

def tlbCovers (e : TlbEntry) (tenant : BitVec 12) (vpn : Nat) : Bool :=
  e.tenant == tenant && e.vpn == vpn / 2 ^ e.extent * 2 ^ e.extent

/-- A physical address of a translated virtual one. -/
def tlbPa (e : TlbEntry) (va : Nat) : Nat := (e.frame + (va / 2 ^ 16 - e.vpn)) * 2 ^ 16 + va % 2 ^ 16

/-- The frame of an address has passed to another tenant, so that a translation of this one is stale (R201). R8 confines what
a missing shootdown does, so a stale translation is not used (log 67). -/
def frameLost (s : State) (tenant : BitVec 12) (pa : Nat) : Bool :=
  let e := pteAt s.regs (pa / 2 ^ 16)
  pteState e != 0 && pteTenant e != tenant.toNat

/-- The entry that serves a lookup: the TLB's, or the walk's (R198). A retired frame of an extent serves nothing (R347). -/
def xlatEntry (s : State) (w : Who) (va : Nat) : Except Nat TlbEntry :=
  match (s.core w.core).tlb.filter fun e => tlbCovers e w.tenant (va / 2 ^ 16) && !frameLost s w.tenant (tlbPa e va) with
  | e :: _ => if pteState (pteAt s.regs (tlbPa e va / 2 ^ 16)) = 3 then .error fPageRetired else .ok e
  | [] => walk s.regs (dieOf w.core) w.tenant (va / 2 ^ 16)

/-- Fill the TLB with an entry unless it is there; a full set of eight gives up one entry, which is a free value. Of the 128
sets the manual does not say which an entry falls in: it is that of the extent's first page modulo 128 (log 86). -/
def tlbFill (s : State) (core : Nat) (e : TlbEntry) : State :=
  if (s.core core).tlb.contains e then s
  else s.modCore core fun c =>
    let mates := c.tlb.filter fun x => x.vpn % 128 == e.vpn % 128
    let rest := if mates.length < 8 then c.tlb
      else
        let victim := mates.getD (Config.freeNat s.free 2 % 8) e
        c.tlb.filter fun x => x != victim
    { c with tlb := e :: rest }

/-- The checks that follow translation: the address exists (R192), its second-tier controller serves (R213), and the access
tables let the request through (R374). `master` is the core's, or its copy engine's. -/
def physCheck (s : State) (w : Who) (master pa mask : Nat) : Option Nat :=
  match homeDie s.regs pa with
  | none => some fPageAbsent
  | some _ =>
    if isSecondTier pa && s.regs.tierDown.getLsbD ((pa - 2 ^ 44) / 2 ^ 39) then some fSecondTier
    else if memAllows s master w.part pa mask then none
    else some fCapTenant

/-- Step 4 of R194 for an access at a virtual address: its physical address, or the fault. -/
def translate (s : State) (w : Who) (master va mask : Nat) : Except Nat Nat :=
  match xlatEntry s w va with
  | .error c => .error c
  | .ok e =>
    if Nat.land e.perm.toNat mask != mask then .error fCapPerm
    else
      match physCheck s w master (tlbPa e va) mask with
      | some c => .error c
      | none => .ok (tlbPa e va)

/-- The TLB after that access. -/
def translated (s : State) (w : Who) (va : Nat) : State :=
  match xlatEntry s w va with
  | .ok e => tlbFill s w.core e
  | .error _ => s

/-- The TLB after accesses at some virtual addresses, one lookup a page. -/
def fillPages (s : State) (w : Who) (vas : List Nat) : State :=
  (vas.foldl (fun l va => natInsert (va / 2 ^ 16) l) []).foldl (fun s p => translated s w (p * 2 ^ 16)) s

/-- A place an access reaches: local memory, or an address of another device (R369) or of the host. -/
inductive Reach where
  | mem (pa : Nat)
  | remote (device va : Nat)
  deriving DecidableEq, Repr

/-- Steps 1 to 3 of R194 and R32 for one access at an exact offset: permission, tenant or reach list, bounds, alignment.
Device 0xFFFFF is accepted for copies only (R370). -/
def capCheck (s : State) (w : Who) (c : Cap) (o : Int) (size align mask : Nat) (copy : Bool := false) : Option Nat :=
  if !c.has mask then some fCapPerm
  else if c.device == 0xFFFFF#20 && !copy then some fCapPerm
  else if c.device == s.regs.deviceId && c.tenant != w.tenant then some fCapTenant
  else if c.device != s.regs.deviceId && c.device != 0xFFFFF#20 && decide (0x80000 ≤ c.device.toNat) then some fPeerLost
  else if c.device != s.regs.deviceId && c.device != 0xFFFFF#20 && !(s.part w.part).reach.contains c.device.toNat then
    some fCapTenant
  else if decide (o < 0) || decide ((c.len : Int) < o + size) || decide ((2 ^ 57 : Int) ≤ c.base.toNat + o) then
    some fCapBounds
  else if (c.base.toNat + o.toNat) % align != 0 then some fMisaligned
  else none

/-- R197: the access uses the register's translation part. -/
def usesTpa (s : State) (w : Who) (r : CapReg) (o size : Nat) : Bool :=
  r.tv && decide (o + size ≤ r.tlim.toNat) && !frameLost s w.tenant (r.tpa.toNat + o)

/-- R198 without the TLB: the permissions of the page that the frame of an address holds. -/
def pageAllows (s : State) (pa mask : Nat) : Bool :=
  let e := pteAt s.regs (pa / 2 ^ 16)
  pteState e == 0 || Nat.land (ptePerm e) mask == mask

/-- Step 4 of R194 through a capability register (R197, R369, R373). -/
def reach (s : State) (w : Who) (master : Nat) (r : CapReg) (o size mask : Nat) : Except Nat Reach :=
  let va := r.cap.base.toNat + o
  if r.cap.device != s.regs.deviceId then
    match farAnswer s r.cap.device.toNat va with
    | some c => .error c
    | none =>
      if r.cap.device = 0xFFFFF#20 ∨ portAllows s master w.part mask = true then .ok (.remote r.cap.device.toNat va)
      else .error fCapTenant
  else if usesTpa s w r o size then
    if !pageAllows s (r.tpa.toNat + o) mask then .error fCapPerm
    else
      match physCheck s w master (r.tpa.toNat + o) mask with
      | some c => .error c
      | none => .ok (.mem (r.tpa.toNat + o))
  else
    match translate s w master va mask with
    | .ok pa => .ok (.mem pa)
    | .error c => .error c

/-- The TLB after that step. -/
def reached (s : State) (w : Who) (r : CapReg) (o size : Nat) : State :=
  if r.cap.device != s.regs.deviceId || usesTpa s w r o size then s
  else translated s w (r.cap.base.toNat + o)

/-- A shootdown (R197, R201): TLB entries and translation parts of a tenant's pages become invalid on every core, in contexts
that are switched out too. -/
def shootdown (s : State) (hitsEntry : TlbEntry → Bool) (hitsCap : Cap → Bool) : State :=
  let capOff (r : CapReg) : CapReg := if r.tv && hitsCap r.cap then { r with tv := false, tpa := 0, tlim := 0 } else r
  { s with
    cores := s.cores.map fun e => (e.1, { e.2 with tlb := e.2.tlb.filter fun x => !hitsEntry x })
    groups := s.groups.map fun e =>
      (e.1, dropCaps capOff e.2)
    contexts := s.contexts.map fun e =>
      (e.1, match e.2.saved with
        | some v => { e.2 with saved := some { v with groups := v.groups.map fun x => (x.1, dropCaps capOff x.2) } }
        | none => e.2) }
where
  /-- Register cells under a function of capability registers. -/
  dropCells (f : CapReg → CapReg) (l : List RegCell) : List RegCell :=
    l.map fun c => match c.loc with | .a _ => { c with val := capRegBits (f (capRegOfBits c.val)) } | _ => c
  /-- Every capability register of a split, with the values that early reads may still give. -/
  dropSplit (f : CapReg → CapReg) (p : Split) : Split :=
    { p with a := p.a.map fun x => (x.1, f x.2)
             flight := p.flight.map fun x => { x with old := dropCells f x.old }
             pending := p.pending.map fun x => { x with cells := dropCells f x.cells } }
  /-- Every capability register of a group, its snapshot's among them. -/
  dropCaps (f : CapReg → CapReg) (g : Group) : Group :=
    { g with splits := g.splits.map fun p => (p.1, dropSplit f p.2)
             snapshot := g.snapshot.map fun n => { n with split := dropSplit f n.split } }

/-- Shootdown of one page. -/
def shootPage (s : State) (tenant : BitVec 12) (vpn : Nat) : State :=
  shootdown s (fun e => tlbCovers e tenant vpn)
    fun c => c.tenant == tenant && decide (c.base.toNat / 2 ^ 16 ≤ vpn) && decide (vpn * 2 ^ 16 < c.base.toNat + c.len)
/-- An entry with another state. -/
def pteWithState (e : BitVec 128) (st : Nat) : BitVec 128 := BitVec.ofNat 128 (e.toNat % 2 ^ 126 + st * 2 ^ 126)
def setPte (s : State) (f : Nat) (e : BitVec 128) : State := s.modRegs fun r => { r with ipt := tabSet pteFree r.ipt f e }

/-- A retired frame leaves the migrations that it takes part in: that of a retired source ends and its destination is free
again; that of a retired destination waits for another (R201). -/
def leaveMigrations (s : State) (f : Nat) : State :=
  let hits (m : Migration) (first : Nat) : Bool := decide (first ≤ f) && decide (f < first + 2 ^ m.extent)
  { s with migrations := (s.migrations.filter fun m => !hits m m.src).map fun m =>
      match m.dst with
      | some d => if hits m d then { m with dst := none } else m
      | none => m }

/-- A frame is retired (R199, R201): its entry, a shootdown of its page, and a migration that it takes part in. -/
def retireFrame (s : State) (f : Nat) : State :=
  let e := pteAt s.regs f
  leaveMigrations (shootPage (setPte s f (pteWithState e 3)) (BitVec.ofNat 12 (pteTenant e)) (pteVpn e)) f

def shootTenant (s : State) (tenant : BitVec 12) : State := shootdown s (fun e => e.tenant == tenant) fun c => c.tenant == tenant
def shootAll (s : State) : State := shootdown s (fun _ => true) fun _ => true

/-! ### Scratchpad (R203) -/

/-- The core and physical scratchpad offset of n bytes at a scratchpad address of a launch's team; none is R203's CAP_BOUNDS. -/
def spResolveAt (s : State) (core launch cluster team : Nat) (p : Int) (n : Nat) : Option (Nat × Nat) :=
  if p < 0 ∨ 2 ^ 24 ≤ p then none
  else
    match s.launch? launch with
    | none => none
    | some l =>
      let t := p.toNat / 2 ^ 20
      let o := p.toNat % 2 ^ 20
      let t := if t = 15 then team else t
      if l.spblk * 16384 < o + n then none
      else
        match l.teams.filter fun x => x.1 == cluster && x.2.1 == t with
        | x :: _ => some (x.2.2.1, x.2.2.2 + o)
        | [] =>
          -- the team itself is on this core
          if t = team then some (core, o) else none

def spResolve (s : State) (core : Nat) (g : Group) (p : Int) (n : Nat) : Option (Nat × Nat) :=
  spResolveAt s core g.launch g.cluster g.team p n

def spByte (s : State) (core off : Nat) : Byte := tabGet 0 (s.core core).sp off
def spBytes (s : State) (core off : Nat) (n : Nat) : List Byte := (List.range n).map fun i => spByte s core (off + i)
def spWrite (s : State) (core off : Nat) (bs : List Byte) : State :=
  s.modCore core fun c =>
    { c with sp := (bs.foldl (fun (a : Tab Byte × Nat) b => (tabSet 0 a.1 a.2 b, a.2 + 1)) (c.sp, off)).1 }
def spNum (s : State) (core off n : Nat) : Nat := ofLeBytes (spBytes s core off n)

end Sys2Proof.Machine
end

