-- ==== Sys2Proof/Machine/Cuts.lean ====
section
/-! DEFINITION. Cut words, bindings, re-fire accounting, graph status and cancellation (R219 to R237, R295 to R298, Tables
10.2, 10.3 and 13.7), as shared by instructions, the host and the front end. -/
namespace Sys2Proof.Machine
open Sys2Proof

/-- Fields of a cut word (Table 10.2). -/
def cutVersion (w : Nat) : Nat := bits w 63 32
def cutState (w : Nat) : Nat := bits w 31 30
def cutRefire (w : Nat) : Nat := bits w 23 0
def cutWord (version st refire : Nat) : Nat := version * 2 ^ 32 + st * 2 ^ 30 + refire
def cutOpen : Nat := 0
def cutFinished : Nat := 1
def cutCancelled : Nat := 2

/-- The address under which a word of another device is known: beyond every physical one. -/
def farKey (device va : Nat) : Nat := 2 ^ 64 + device * 2 ^ 57 + va

/-- The cut word that a task remembers by its address. That of another device is outside the module. -/
def wordNum (s : State) (pa : Nat) : Nat :=
  if pa < 2 ^ 64 then s.num pa 8 else ofLeBytes ((List.range 8).map fun i => Config.freeByte s.free (pa - 2 ^ 64 + i))

/-- The front end's view of a virtual address: it has no TLB, and walks from the anchors of die 0 (log 16). -/
def frontXlat (s : State) (tenant : BitVec 12) (va mask : Nat) : Except Nat Nat :=
  match walk s.regs 0 tenant (va / 2 ^ 16) with
  | .error c => .error c
  | .ok e =>
    if Nat.land e.perm.toNat mask != mask then .error fCapPerm
    else
      let pa := tlbPa e va
      match homeDie s.regs pa with
      | none => .error fPageAbsent
      | some _ =>
        if isSecondTier pa && s.regs.tierDown.getLsbD ((pa - 2 ^ 44) / 2 ^ 39) then .error fSecondTier else .ok pa

/-- The requester that stands for a queue's front end. -/
def State.frontWho (s : State) (q : Nat) : Who :=
  match s.queue? q with
  | some qu => ⟨Config.meshCores, qu.context, (s.part qu.part).tenant, qu.part, qu.cls⟩
  | none => ⟨Config.meshCores, 0, 0, 0, false⟩

/-! ### The quiescence tree (R297, R298, R237) -/

/-- PTYPE and GRAPH of a packet (Table 13.2). -/
def Packet.ptype (p : Packet) : Nat := bits p.bytes 31 28
def Packet.graph (p : Packet) : Nat := bits p.bytes 23 16

/-- Groups and streams on cores and of contexts that are switched out. -/
def allGroups (s : State) : List Group :=
  (s.groups ++ s.contexts.flatMap fun c => match c.2.saved with | some v => v.groups | none => []).map (·.2)

/-- Items of a graph in flight: its fetched packets that are not complete, other than BURNWAITs, its resident groups and
streams, its gathered records and the batches that wait for placement. A TASK whose relaunch is pending is not complete, so it counts. -/
def graphItems (s : State) (q g : Nat) : Nat :=
  match s.queue? q with
  | none => 0
  | some qu =>
    (qu.packets.filter fun p => p.graph == g && p.ptype != 9 && !p.completed).length
      + ((allGroups s).filter fun e =>
          match s.launch? e.launch with
          | some l => l.queue == q && l.graph == g
          | none => false).length
      + sumNat (qu.nodes.map fun n => if n.2.graph = g then n.2.filling else 0)
      + (s.launches.filter fun l => l.2.queue == q && l.2.graph == g && l.2.node.isSome && l.2.placed == 0 && !l.2.done).length

/-- The status word's address (Table 13.7), where GSTAT is given and mapped. -/
def graphStatusPa (s : State) (q g : Nat) : Option Nat :=
  match s.queue? q with
  | none => none
  | some qu =>
    if qu.gstat = Cap.null then none
    else match frontXlat s (s.part qu.part).tenant (qu.gstat.base.toNat + 8 * g) permW with
      | .ok pa => some pa
      | .error _ => none

/-- An access to a graph's status word waits for its page, which migrates, is absent or is powered down (R238). -/
def statusWaits (s : State) (q g : Nat) : Bool :=
  match s.queue? q with
  | none => false
  | some qu => qu.gstat != Cap.null && match frontXlat s (s.part qu.part).tenant (qu.gstat.base.toNat + 8 * g) permW with
      | .ok _ => false
      | .error c => isRetryable c

/-- Set bits of a graph's status word at its home slice, once its page is there. -/
def graphSet (s : State) (q g bit : Nat) : State :=
  match graphStatusPa s q g with
  | none => if statusWaits s q g then s.modQueue q fun qu => { qu with owed := qu.owed ++ [(g, bit)] } else s
  | some pa => physAtomic s (s.frontWho q) pa 8 (Nat.lor (s.num pa 8) (2 ^ bit))

/-- CANCELLED is set (R298). -/
def graphCancel (s : State) (q g : Nat) : State :=
  (graphSet s q g 62).modQueue q fun qu => { qu with cancelled := natInsert g qu.cancelled }

/-- The end of a submission (R298). -/
def endSubmission (s : State) (q g : Nat) : State := s.modQueue q fun qu => { qu with opened := natRemove g qu.opened }

/-- L1 copies of the ranges bound to a cut word in a context (R222); the inverted page table gives a line's virtual address. -/
def lineBound (s : State) (ctx : BitVec 12) (word : Option (Nat × Nat)) (l : L1Line) : Bool :=
  let pte := pteAt s.regs (l.line * 128 / 2 ^ 16)
  let va := pteVpn pte * 2 ^ 16 + l.line * 128 % 2 ^ 16
  l.owner == ctx && (s.context ctx).bindings.any fun b =>
    b.dev == s.regs.deviceId.toNat && (match word with | some w => b.wdev == w.1 && b.word == w.2 | none => true) && decide (b.base < va + 128) && decide (va < b.base + b.len)

/-- The acquire of R222 on one core. -/
def acquireOn (s : State) (core : Nat) (ctx : BitVec 12) (word : Option (Nat × Nat)) : State := l1Drop s core (lineBound s ctx word)

/-- An acquire for a whole context: its L1 lines of bound ranges on every core. -/
def acquireAll (s : State) (ctx : BitVec 12) : State :=
  { s with cores := s.cores.map fun e => (e.1, { e.2 with l1 := e.2.l1.filter fun l => !lineBound s ctx none l }) }

/-- R237: the test of the tree, made when the root returns to zero and at each later event the rule names. It waits for the
status word's page. -/
def burnTest (s : State) (q g : Nat) : State :=
  match s.queue? q with
  | none => s
  | some qu =>
    if g = 0 ∨ !qu.opened.contains g ∨ graphItems s q g ≠ 0 ∨ statusWaits s q g then s
    else
      let words := (qu.words.filter fun w => w.1 == g).map fun w => wordNum s w.2
      if qu.cancelled.contains g then endSubmission s q g
      else if words.all fun w => cutState w == cutFinished && cutRefire w == 0 then
        endSubmission (graphSet (acquireAll s qu.context) q g 63) q g
      else s

/-- The status words whose pages are there again: their bits are written, and the test that waited is made. -/
def settleGraphs (s : State) : State :=
  (s.queues.flatMap fun e => e.2.opened.map fun g => (e.1, g)).foldl (fun s e =>
    if statusWaits s e.1 e.2 then s
    else
      let mine : List (Nat × Nat) := match s.queue? e.1 with | some qu => qu.owed.filter fun o => o.1 == e.2 | none => []
      let s := if mine.isEmpty then s else s.modQueue e.1 fun qu => { qu with owed := qu.owed.filter fun o => o.1 != e.2 }
      burnTest (mine.foldl (fun s o => graphSet s e.1 e.2 o.2) s) e.1 e.2) s

/-- Every graph to which a word is registered. -/
def graphsOfWord (s : State) (pa : Nat) : List (Nat × Nat) :=
  s.queues.flatMap fun e => (e.2.words.filter fun w => w.2 == pa).map fun w => (e.1, w.1)

def burnTestWord (s : State) (pa : Nat) : State := (graphsOfWord s pa).foldl (fun s e => burnTest s e.1 e.2) s

/-- CANCELLED in the status of every graph that registers the word (R298). -/
def graphCancelled (s : State) (pa : Nat) : State := (graphsOfWord s pa).foldl (fun s e => graphCancel s e.1 e.2) s

/-! ### Cut-word operations (R230, Table 10.3) -/

/-- R235, R236: the consumers that a publication of this version makes stale, and the number it adds to REFIRE_PENDING.
Under restart their groups stop at their next boundary. -/
def makeStale (s : State) (pa version : Nat) : State × Nat :=
  s.tasks.foldl (fun (acc : State × Nat) e =>
    let t := e.2
    let hit := t.phase == .dispatched && !t.stale && t.refire != 0
      && t.inputs.any fun i => i.2.1 == pa && decide (i.2.2 < version)
    if !hit then acc
    else
      let s := acc.1.modTask e.1 fun t =>
        { t with stale := true, countedOn := some pa, phase := if t.refire = 1 then .stopping else t.phase }
      let s := match t.refire, t.launch with
        | 1, some l => s.modLaunch l fun l => { l with stopping := true }
        | _, _ => s
      (s, acc.2 + 1)) (s, 0)

/-- Write a cut word as one atomic update at its home slice, with R236's accounting when VERSION rises. -/
def cutWrite (s : State) (w : Who) (pa version st : Nat) : State :=
  let old := s.num pa 8
  let (s, inc) := if cutVersion old < version then makeStale s pa version else (s, 0)
  let s := physAtomic s w pa 8 (cutWord version st ((cutRefire old + inc) % 2 ^ 24))
  if st = cutFinished ∧ cutState old ≠ cutFinished then burnTestWord s pa else s

/-- The operations of Table 10.3: 0 REL, 1 CUTINIT, 2 PUBCUT, 3 FINCUT; and the status bits they set. Each acts as an atomic
of the word (R229), also where it leaves the word as it is. -/
def cutOp (s : State) (w : Who) (kind pa : Nat) : State × Nat :=
  let old := s.num pa 8
  let v := cutVersion old
  match kind with
  | 0 => (l1Fresh s w.core pa 8, 0)
  | 1 => (cutWrite s w pa 0 cutOpen, 0)
  | _ =>
    if cutState old ≠ cutOpen then (l1Fresh s w.core pa 8, stCutLate)
    else if v = 2 ^ 32 - 1 then (cutWrite s w pa v cutFinished, stCutWrap)
    else (cutWrite s w pa (v + 1) (if kind = 3 then cutFinished else cutOpen), 0)

/-- A decrement of REFIRE_PENDING by the task unit (R236). A word whose frame has passed to another tenant is left alone (R8). -/
def refireDone (s : State) (w : Who) (pa : Nat) : State :=
  let old := s.num pa 8
  if frameLost s w.tenant pa then s else burnTestWord (physAtomic s w pa 8 (cutWord (cutVersion old) (cutState old) (cutRefire old - 1))) pa

/-- The RAW dependants of a word that is cancelled are cancelled with it, at once or at their completion (R296): a task that is
not dispatched, and a dispatched one whose policy is not none. Groups under policy restart stop at their next boundary. -/
def dropDependants (s : State) (pa : Nat) : State :=
  s.tasks.foldl (fun s e =>
    let t := e.2
    let runs := t.phase == .dispatched || t.phase == .stopping
    if !(t.inputs.any fun i => i.2.1 == pa) || !(t.phase == .held || runs && t.refire != 0) then s
    else
      let s := s.modTask e.1 fun t => { t with dropped := true }
      match t.launch with
      | some l => if t.refire = 1 then s.modLaunch l fun l => { l with stopping := true } else s
      | none => s) s

/-- The word is cancelled in the state it has. A word of another device is asked to change (log 84). -/
def writeCancelled (s : State) (w : Who) (pa : Nat) : State :=
  let old := wordNum s pa
  let new := cutWord (cutVersion old) cutCancelled (cutRefire old)
  if pa < 2 ^ 64 then physAtomic s w pa 8 new
  else { s with outbox := s.outbox ++ [⟨(pa - 2 ^ 64) / 2 ^ 57, (pa - 2 ^ 64) % 2 ^ 57,
      .cas .n64 (BitVec.ofNat 64 old) (BitVec.ofNat 64 new), (tabGet Peer.init s.regs.peers ((pa - 2 ^ 64) / 2 ^ 57)).incarnation⟩] }

/-- Cancellation by the task unit (R230). -/
def cutCancel (s : State) (w : Who) (pa : Nat) : State :=
  if cutState (wordNum s pa) = cutOpen ∧ frameLost s w.tenant pa = false then
    burnTestWord (graphCancelled (dropDependants (writeCancelled s w pa) pa) pa) pa
  else s

/-- A task's cancellation: its word, and a pending re-fire it was counted for (R236, R296). Its groups stop. -/
def cancelTask (s : State) (t : Nat) : State :=
  match s.task? t with
  | none => s
  | some k =>
    let w := { s.frontWho k.queue with tenant := k.tenant }
    let s := s.modTask t fun k => { k with phase := .cancelled, countedOn := none, stale := false }
    let s := match k.countedOn with | some pa => refireDone s w pa | none => s
    let s := match k.launch with
      | some l => s.modLaunch l fun l => { l with stopping := true }
      | none => s
    cutCancel s w k.wordPa

/-! ### Bindings (R219, R251, R252) -/

/-- A range of a device meets a binding's. -/
def bindOverlaps (b : Binding) (dev base len : Nat) : Bool :=
  b.dev == dev && decide (b.base < base + len) && decide (base < b.base + b.len)

/-- The bindings that a BIND, an UNBIND and an UNBIND.word leave. -/
def withBinding (b : Binding) (l : List Binding) : List Binding := if b.len = 0 then l else l ++ [b]
def withoutRange (dev base len : Nat) (l : List Binding) : List Binding :=
  l.filter fun b => !(b.dev == dev && b.base == base && b.len == len)
def withoutWord (wdev word : Nat) (l : List Binding) : List Binding := l.filter fun b => !(b.wdev == wdev && b.word == word)

def State.modBindings (s : State) (ctx : BitVec 12) (f : List Binding → List Binding) : State :=
  s.modContext ctx fun c => { c with bindings := f c.bindings }

end Sys2Proof.Machine
end

