-- ==== Sys2Proof/Machine/Fetch.lean ====
section
/-! DEFINITION. Instruction fetch (R34): the twelve bytes at the PC through a0, each 32-bit word translated for execution
(log 15), and either value of a word that a store changed under its own running launch (log 20). -/
namespace Sys2Proof.Machine
open Sys2Proof

/-- a0 of a split. -/
def Split.a0 (sp : Split) : CapReg := tabGet CapReg.null sp.a 0

/-- One word of a launch's code. The code shadow gives the earlier bytes where a store replaced them. -/
def fetchWordAt (s : State) (launch pa : Nat) : List Byte :=
  let now := s.bytes pa 4
  let old (i : Nat) : Option Byte := tabFind s.codeShadow (shadowKey launch (pa + i))
  if (List.range 4).any fun i => (old i).isSome then
    if Config.freeBit s.free (4 * pa + 3) then (List.range 4).map fun i => (old i).getD (s.byte (pa + i))
    else now
  else now

/-- One word through a0: its bytes, or the fault and its address. -/
def fetchWord (s : State) (w : Who) (launch : Nat) (a0 : CapReg) (va : Nat) : Except (Nat × Nat) (List Byte) :=
  match reach s w w.core a0 (va - a0.cap.base.toNat) 4 permX with
  | .ok (.mem pa) => .ok (fetchWordAt s launch pa)
  | .ok (.remote d a) => .ok ((List.range 4).map fun i => Config.freeByte s.free (d * 2 ^ 57 + a + i))
  | .error c => .error (c, va)

/-- The twelve bytes at the PC of a split. A PC that is not a multiple of 4, from a code capability with such a base, raises
MISALIGNED (log 64). -/
def fetchBytes (s : State) (ag : Agent) (g : Group) (sp : Split) : Except (Nat × Nat) (List Byte) :=
  let a0 := sp.a0
  let pc := sp.pc.toNat
  let w := s.whoOf ag.core g
  match if sp.pcOver then some fCapBounds else capCheck s w a0.cap ((pc : Int) - a0.cap.base.toNat) 12 4 permX with
  | some c => .error (c, pc)
  | none =>
    match fetchWord s w g.launch a0 pc, fetchWord s w g.launch a0 (pc + 4), fetchWord s w g.launch a0 (pc + 8) with
    | .ok x, .ok y, .ok z => .ok (x ++ y ++ z)
    | .error e, _, _ => .error e
    | _, .error e, _ => .error e
    | _, _, .error e => .error e

/-- The request of a fetch at the home slices of its lines, or at another device (log 84). -/
def fetchTouch (s : State) (w : Who) (a0 : CapReg) (o : Nat) : State :=
  match reach s w w.core a0 o 4 permX, reach s w w.core a0 (o + 8) 4 permX with
  | .ok (.mem x), .ok (.mem y) => if x / 128 = y / 128 then l2Touch s w x false else l2Touch (l2Touch s w x false) w y false
  | .ok (.remote _ _), _ => meterAdd s w.part 11 12
  | _, _ => s

/-- The TLB and L2 after that fetch. -/
def fetched (s : State) (ag : Agent) (g : Group) (sp : Split) : State :=
  let a0 := sp.a0
  let o := sp.pc.toNat - a0.cap.base.toNat
  let w := s.whoOf ag.core g
  fetchTouch (reached (reached s w a0 o 4) w a0 (o + 8) 4) w a0 o

end Sys2Proof.Machine
end

