-- ==== Sys2Proof/Machine/Ops.lean ====
section
/-! DEFINITION. The named operations that meanings share: fault records (R330 to R332), held and committed region entries
(R337, R354), the end of groups and launches (R326), taking an exception and returning from it (R326 to R329), parking and
replay (R334), and the issue of one instruction: the checks of R69, its timing (R19 to R31) and its retirement. -/
namespace Sys2Proof.Machine
open Sys2Proof

/-! ### Fault records -/

/-- INFO of a fault that concerns no address; Table 15.2 gives none, so it is a free value. -/
def noInfo (s : State) : Nat := Config.freeNat s.free 7 % 2 ^ 64

/-- The ring for a record (R331): die rings are 2 * die, retryable, and 2 * die + 1, terminal; functions' rings follow. -/
def ringOf (s : State) (part die kind : Nat) : Nat :=
  match (s.part part).function with
  | some v => 4 + v
  | none => 2 * die + (if kind = 0 then 0 else 1)

/-- The port class of a ring (R332): 0 retryable, 1 terminal, 2 virtual functions. -/
def ringClass (r : Nat) : Nat := if 4 ≤ r then 2 else r % 2

/-- R332: the port of a die holds 64 records of a class. -/
def portRoom (s : State) (die cls n : Nat) : Bool :=
  decide ((s.port.filter fun e => e.2.die == die && ringClass e.1 == cls).length + n ≤ 64)
def portFull (s : State) (die cls : Nat) : Bool := !portRoom s die cls 1

def pushRecord (s : State) (r : Record) : State := { s with port := s.port ++ [(ringOf s r.part r.die r.kind, r)] }

/-- Table 15.2's record of a fault in a split or a stream. GSLOT of a stream is not stated and is a free value. -/
def splitRecord (s : State) (ag : Agent) (g : Group) (sp : Split) (code kind info : Nat) (lanes : BitVec 32) : Record :=
  let w := s.whoOf ag.core g
  let q := match s.launch? g.launch with | some l => l.queue | none => 0
  { info := info, lmask := lanes, pc := sp.pc, context := w.context, tenant := w.tenant, part := w.part, queue := q,
    srck := if g.stream then 1 else 0, core := ag.core % Config.coreKeys, die := dieOf ag.core,
    gslot := if g.stream then Config.freeNat s.free 8 % 64 else ag.slot, split := ag.split, code := code, kind := kind }

/-- The core that a record names: %coreid, or 0xFF for none and for the headstock. -/
def recordCore (core : Nat) : Nat := if core < Config.meshCores then core else 0xFF

/-! ### Atomics and bank operations -/

/-- min and max on integers read under TYPE. -/
def intMinMax (t : Ty) (max : Bool) (x y : Nat) : Nat :=
  if (decide (elemVal t x ≤ elemVal t y)) != max then x else y

/-- Per element of a packed pattern. -/
def zipElems (t : Ty) (f : Nat → Nat → Nat) (x y : Nat) : Nat :=
  packElems (tyWidth t) (List.zipWith f (elemsOf (tyWidth t) (tyElems t) x) (elemsOf (tyWidth t) (tyElems t) y))

def isFloatTy (t : Ty) : Bool := [Ty.f32, .bf16x2, .f16x2].contains t

/-- Integer or floating-point addition without flags or FLUSH (R245). -/
def addBits (t : Ty) (x y : Nat) : Nat :=
  if isFloatTy t then zipElems t (fun a b => (faddV (fmtOf t) 0 false (fval (fmtOf t) a) (fval (fmtOf t) b)).bits) x y
  else wrap (x + y : Nat) (tyWidth t)
def minMaxBits (t : Ty) (max : Bool) (x y : Nat) : Nat :=
  if isFloatTy t then zipElems t (fun a b => (fminmax (fmtOf t) max false a b).bits) x y else intMinMax t max x y
def fmaBits (t : Ty) (m a c : Nat) : Nat :=
  if isFloatTy t then
    let f := fmtOf t
    let w := tyWidth t
    let n := tyElems t
    packElems w ((List.zip (elemsOf w n m) (List.zip (elemsOf w n a) (elemsOf w n c))).map fun e =>
      (ffmaV f 0 false (fval f e.2.1) (fval f e.2.2) (fval f e.1)).bits)
  else wrap (m + a * c : Nat) (tyWidth t)

/-- Tables 11.2 and 11.3: the new value of a word. Kind 0 is an atomic with operand c, kind 1 a compare and swap of c with
`second`, kind 2 a bank operation with operands c and `second`. -/
def atomNew (kind op : Nat) (t : Ty) (old c second : Nat) : Nat :=
  match kind with
  | 0 =>
    match op with
    | 0 => addBits t old c
    | 1 => minMaxBits t false old c
    | 2 => minMaxBits t true old c
    | 3 => Nat.land old c
    | 4 => Nat.lor old c
    | 5 => Nat.xor old c
    | 6 => c
    | 7 => if c ≤ old then 0 else old + 1
    | _ => old
  | 1 => if old = c then second else old
  | _ =>
    match op with
    | 0 => fmaBits t old c second
    | 1 => minMaxBits t false old c
    | 2 => minMaxBits t true old c
    | 3 => Nat.land old c
    | 4 => Nat.lor old c
    | _ => Nat.xor old c

/-- Bytes of an atomic's word. -/
def atomSize (t : Ty) : Nat := if tyRegs t = 2 then 8 else 4

/-! ### Writing at a place -/

/-- Where a held access goes when it is performed. Its frame holds its page, or the page has moved without a migration, which
leads it (R238), and the access is translated again; without a translation it is not performed (log 83). -/
def relocate (s : State) (w : Who) : Place → Option Place
  | .mem va t pa =>
    let e := pteAt s.regs (pa / 2 ^ 16)
    if pteState e != 0 && pteTenant e == t.toNat && pteVpn e == va / 2 ^ 16 then some (.mem va t pa)
    else match xlatEntry s { w with tenant := t } va with
      | .ok e => some (.mem va t (tlbPa e va))
      | .error _ => none
  | p => some p

/-- R34: remember the bytes that a store replaces in the code of the launches that are running over it. Numbers of launches
do not recur, so a later launch over the same addresses sees memory. -/
def shadowCode (s : State) (w : Who) (va pa n : Nat) : State :=
  let hit := s.launches.filter fun e =>
    !e.2.done && e.2.tenant == w.tenant && decide (e.2.code.base.toNat < va + n)
      && decide (va < e.2.code.base.toNat + e.2.code.len)
  let keep (t : Tab Byte) (k : Nat) (b : Byte) : Tab Byte := if (tabFind t k).isSome then t else tabPut t k b
  { s with codeShadow := hit.foldl (fun t e =>
      (List.range n).foldl (fun t i => keep t (shadowKey e.1 (pa + i)) (s.byte (pa + i))) t) s.codeShadow }

/-- Bytes that go to or come from another device over Torwen (R376); the host is no device of the fabric (R370). -/
def countFar (s : State) (part device n : Nat) : State := if device = 0xFFFFF then s else meterAdd s part 11 n

/-- A request of n bytes that changes memory of another device or of the host (R371, R372). -/
def sendReq (s : State) (w : Who) (device va : Nat) (kind : RemoteKind) (n : Nat) : State :=
  let inc := (tabGet Peer.init s.regs.peers device).incarnation
  let s := countFar { s with outbox := s.outbox ++ [⟨device, va, kind, inc⟩] } w.part device n
  s.modContext w.context fun c => { c with unacked := c.unacked ++ [(w.core, device, va)] }

/-- A write of bytes there. -/
def sendOut (s : State) (w : Who) (device va : Nat) (bs : List Byte) : State := sendReq s w device va (.store bs) bs.length

/-- R371: a release at system scope waits until every write of its agents that left the module has been acknowledged: those of one
core, or of every agent of a context. -/
def allAcked (s : State) (ctx : BitVec 12) (core : Option Nat) : State :=
  s.modContext ctx fun c => { c with unacked := c.unacked.filter fun u => match core with | some k => u.1 != k | none => false }

/-- A cut-word operation on another device's word: a release at system scope, and a request (R371). The word is outside the
module, so whether a PUBCUT or FINCUT finds it open is free. -/
def cutFar (s : State) (w : Who) (kind d va : Nat) : State × Nat :=
  let ex := if kind < 2 then 0 else (match Config.freeNat s.free 21 % 3 with | 0 => 0 | 1 => stCutLate | _ => stCutWrap)
  let s := if kind = 1 then s else allAcked s w.context (some w.core)
  (if kind = 0 then s else sendReq s w d va (.cut (BitVec.ofNat 2 kind)) 8, ex)

/-- A cut-word operation at a place, with the status bits that it sets. -/
def cutAt (s : State) (w : Who) (kind : Nat) (p : Place) : State × Nat :=
  match p with
  | .mem _ _ pa => cutOp s w kind pa
  | .far d va => cutFar s w kind d va
  | .sp _ _ _ => (s, 0)

/-- A store of bytes at a place. -/
def storeAt (s : State) (w : Who) (p : Place) (bs : List Byte) : State :=
  match p with
  | .mem va _ pa => physWrite (shadowCode s w va pa bs.length) w pa bs
  | .sp core off _ => spWrite s core off bs
  | .far d va => sendOut s w d va bs

def storeCapAt (s : State) (w : Who) (p : Place) (c : Cap) : State :=
  match p with
  | .mem va _ pa => physWriteCap (shadowCode s w va pa 16) w pa c
  | .sp _ _ _ => s
  | .far d va => sendOut s w d va (leBytes (capBits c) 16)

/-- The word of n bytes at a place; memory of another device is outside the module. -/
def loadAt (s : State) (p : Place) (n : Nat) : Nat :=
  match p with
  | .mem _ _ pa => s.num pa n
  | .sp core off _ => spNum s core off n
  | .far d va => ofLeBytes ((List.range n).map fun i => Config.freeByte s.free (d * 2 ^ 57 + va + i))

/-- One step of R245: the old word and the state after the write. -/
def atomAt (s : State) (w : Who) (kind op : Nat) (t : Ty) (p : Place) (c second : Nat) : Nat × State :=
  let n := atomSize t
  let old := loadAt s p n
  let new := atomNew kind op t old c second
  match p with
  | .mem va _ pa => (old, physAtomic (shadowCode s w va pa n) w pa n new)
  | .sp core off _ => (old, spWrite s core off (leBytes new n))
  | .far d va =>
    -- the target's home slice performs it
    let kind := if kind = 1 then .cas t (BitVec.ofNat 64 c) (BitVec.ofNat 64 second) else .atomic (BitVec.ofNat 4 op) t (BitVec.ofNat 64 c)
    (old, sendReq s w d va kind n)

/-! ### Region entries (R228, R305, R337, R354) -/

/-- A copy enters the group's open batch (R274). -/
def startCopy (s : State) (core slot : Nat) (pc : BitVec 57) (dst src idx : Cap) (shape : CopyShape) : State :=
  match s.group? core slot with
  | none => s
  | some g =>
    let id := (s.core core).nextCopy
    let c : Copy := ⟨id, g.launch, g.groupId, slot, (g.closed + 1) % 2 ^ 32, dst, src, idx, shape, pc, none, false, []⟩
    let s := s.modCore core fun k => { k with copies := k.copies ++ [c], nextCopy := id + 1 }
    s.modGroup core slot fun g => { g with openCopies := g.openCopies ++ [id] }

/-- Perform one held entry. -/
def performHeld (s : State) (core slot : Nat) (w : Who) (h : Held) : State :=
  match h with
  | .store p bs => storeAt s w p bs
  | .capStore p c => storeCapAt s w p c
  | .atomic kind op t lanes => lanes.foldl (fun s x => (atomAt s w kind op t x.1 x.2.1 x.2.2).2) s
  | .copy pc d a i shape => startCopy s core slot pc d a i shape
  | .cut kind p =>
    let (s, ex) := cutAt s w kind p
    -- a group in a region has one split (R336), and its entries are performed before its splits change
    match s.group? core slot with
    | some g =>
      match g.splits with
      | e :: _ => setCutFlags s ⟨core, slot, e.1⟩ ex
      | [] => s
    | none => s
  | .bind b => s.modBindings w.context (withBinding b)
  | .unbind dev base len => s.modBindings w.context (withoutRange dev base len)
  | .unbindWord wdev word => s.modBindings w.context (withoutWord wdev word)

/-- A held entry with its places where they are now. -/
def Held.relocated (s : State) (w : Who) : Held → Option Held
  | .store p bs => (relocate s w p).map (.store · bs)
  | .capStore p c => (relocate s w p).map (.capStore · c)
  | .atomic kind op t lanes => some (.atomic kind op t (lanes.filterMap fun x => (relocate s w x.1).map fun p => (p, x.2)))
  | .cut kind p => (relocate s w p).map (.cut kind ·)
  | h => some h

/-- Perform one entry of a committed region. -/
def performLate (s : State) (core slot : Nat) (w : Who) (h : Held) : State :=
  match h.relocated s w with
  | some h => performHeld s core slot w h
  | none => s

/-- Perform every committed entry of a group, in program order. -/
def drainCommitted (s : State) (core slot : Nat) : State :=
  match s.group? core slot with
  | none => s
  | some g =>
    match g.committed with
    | [] => s
    | hs =>
      let w := s.whoOf core g
      hs.foldl (fun s h => performLate s core slot w h) (s.modGroup core slot fun g => { g with committed := [] })

/-- The committed entries of the groups of some tenants are performed. -/
def drainTenants (s : State) (hit : BitVec 12 → Bool) : State :=
  (s.groups.filter fun e => hit (s.whoOf (e.1 / 65) e.2).tenant).foldl (fun s e => drainCommitted s (e.1 / 65) (e.1 % 65)) s

/-! ### Accesses in flight (R201) -/

/-- A line as the chuck read it at some cycle between the start and now; a frame that another tenant has by now is not read
(R8). -/
def lineData (s : State) (tenant : BitVec 12) (l : OpLine) : List Byte :=
  if l.read || frameLost s tenant l.pa || Config.freeBit s.free (2 * l.pa + 5) then l.data else s.bytes l.pa 128

/-- A matrix operation of a tenant whose reads have all been made. -/
def MatOp.readOut (s : State) (tenant : BitVec 12) (o : MatOp) : MatOp :=
  let rows (l : List (List OpLine)) : List (List OpLine) := l.map fun r => r.map fun x => { x with data := lineData s tenant x, read := true }
  { o with rowsA := rows o.rowsA, rowsB := rows o.rowsB }

/-- No access of some tenants translated so far is left in flight: committed entries and the reads of started matrix
operations are performed, and a WAITCUT translates its word again. -/
def settleFlight (s : State) (hit : BitVec 12 → Bool) : State :=
  let s := drainTenants s hit
  let op (o : MatOp) : MatOp :=
    match s.launch? o.owner.1 with
    | some l => if hit l.tenant then o.readOut s l.tenant else o
    | none => o
  let core (e : Nat × Core) : Nat × Core := (e.1, { e.2 with mq := e.2.mq.map op })
  let wait (p : Split) : Split := match p.wait with | some (.cut _ _) => { p with wait := none } | _ => p
  let group (e : Nat × Group) : Nat × Group :=
    (e.1, if hit (s.whoOf (e.1 / 65) e.2).tenant then { e.2 with splits := e.2.splits.map fun p => (p.1, wait p.2) } else e.2)
  { s with
    cores := s.cores.map core
    groups := s.groups.map group
    contexts := s.contexts.map fun e =>
      (e.1, match e.2.saved with
        | some v => { e.2 with saved := some { groups := v.groups.map group, cores := v.cores.map core } }
        | none => e.2) }

/-! ### The end of groups and launches -/

/-- Splits of a core in some kind of wait are not ready before a cycle (R169, R311, R362). -/
def wakeAt (s : State) (core : Nat) (p : Wait → Bool) (t : Nat) : State :=
  { s with groups := s.groups.map fun e =>
      if e.1 / 65 = core then
        (e.1, { e.2 with splits := e.2.splits.map fun x =>
          match x.2.wait with
          | some w => if p w then (x.1, { x.2 with readyAt := Nat.max x.2.readyAt t }) else x
          | none => x })
      else e }

/-- The end of a writer's registration at one mailbox (R277). -/
def Mailbox.dropWriter (m : Mailbox) (slot : Nat) : Mailbox :=
  if m.writers.contains slot then
    let live := m.live - 1
    { m with writers := natRemove slot m.writers, live := live,
             state := if live = 0 ∧ m.state = .empty then .orphan else m.state }
  else m

/-- R277: a registered writer ends; a mailbox that becomes ORPHAN wakes its readers. -/
def dropWriter (s : State) (core slot : Nat) : State :=
  let turned := (s.core core).mbx.filter fun e => e.2.state == .empty && (e.2.dropWriter slot).state == .orphan
  if ((s.core core).mbx.any fun e => e.2.writers.contains slot) then
    let s := s.modCore core fun c => { c with mbx := c.mbx.map fun e => (e.1, e.2.dropWriter slot) }
    wakeAt s core (fun w => match w with
      | .mailbox m put => !put && turned.any fun e => e.1 == m
      | _ => false) (s.cycle + 8)
  else s

/-- A quadrant that some groups have left: none of their runs occupies it, and their runs in a row are over (R145, R147). -/
def Quad.without (gone : Nat → Bool) (q : Quad) : Quad :=
  { q with owner := q.owner.filter fun o => !gone o.1
           rowG := if gone q.rowG.slot then ⟨0, 0, 0⟩ else q.rowG
           rowH := if gone q.rowH.slot then ⟨0, 0, 0⟩ else q.rowH }
/-- A split is new in its slot, and has no runs in a row yet. -/
def Quad.newSplit (slot split : Nat) (q : Quad) : Quad :=
  { q with rowG := if q.rowG.slot = slot ∧ q.rowG.split = split then ⟨0, 0, 0⟩ else q.rowG
           rowH := if q.rowH.slot = slot ∧ q.rowH.split = split then ⟨0, 0, 0⟩ else q.rowH }
def Core.newSplit (slot split : Nat) (c : Core) : Core := { c with quads := c.quads.map fun e => (e.1, e.2.newSplit slot split) }
def Core.leaveQuads (gone : Nat → Bool) (c : Core) : Core := { c with quads := c.quads.map fun e => (e.1, e.2.without gone) }

/-- A core holds work: a group or stream, also of a context that is switched out, or a team of a cluster that has one. -/
def coreHeld (s : State) (core : Nat) : Bool :=
  s.groups.any (fun e => e.1 / 65 == core)
    || s.contexts.any (fun c => match c.2.saved with | some v => v.groups.any fun e => e.1 / 65 == core | none => false)
    || s.launches.any fun e => e.2.teams.any fun t => t.2.2.1 == core
        && (allGroups s).any fun g => g.launch == e.1 && g.cluster == t.1

/-- Cores that are to move go to their new partitions once they hold no work (R302). -/
def settleMoves (s : State) : State :=
  s.moves.foldl (fun s e =>
    match tabFind s.moves e.1 with
    | some p => if coreHeld s e.1 then s else { s with coreOwner := tabSet 0 s.coreOwner e.1 p, moves := tabErase s.moves e.1 }
    | none => s) s

/-- A group or stream leaves its core: its committed entries are performed, its copies and matrix operations that have not
completed run on without it, its place is free. -/
def removeGroup (s : State) (core slot : Nat) : State :=
  let s := dropWriter (drainCommitted s core slot) core slot
  let s := s.modCore core fun c =>
    { c.leaveQuads (· == slot) with banks := tabErase c.banks slot, remap := c.remap.filter fun e => e.1 / 32 != slot }
  settleMoves { s.dropGroup core slot with enqWait := s.enqWait.filter fun a => !(a.core == core && a.slot == slot) }

/-- Mark a packet of a queue and keep the list. -/
def markPacket (s : State) (q p : Nat) (f : Packet → Packet) : State :=
  s.modQueue q fun qu => { qu with packets := qu.packets.map fun x => if x.id == p then f x else x }

/-- Ring distance from RPTR. -/
def ringDist (q : Queue) (i : Nat) : Nat := (BitVec.ofNat 32 i - q.rptr).toNat

/-- The ring packet at which fetch stands. -/
def fetchRing (q : Queue) : Nat := match q.frames.getLast? with | some f => f.index | none => q.rptr.toNat

/-- An IB or LOOP packet is open while fetch stands in its level or a packet within it is listed. -/
def openLevel (q : Queue) (p : Packet) : Bool :=
  (q.frames.any fun f => f.opener == p.id && f.path.length > 0)
    || q.packets.any fun x => x.id != p.id && p.path.isPrefixOf x.path

/-- Completed packets leave the list; an IB or LOOP completes with its last packet (Table 13.3). -/
def settleLevels : Nat → Queue → Queue
  | 0, q => q
  | fuel + 1, q =>
    let q := { q with packets := q.packets.filter fun p => !p.completed }
    match q.packets.filter fun p => p.executed && (bits p.bytes 31 28 == 5 || bits p.bytes 31 28 == 7) && !openLevel q p with
    | [] => q
    | done => settleLevels fuel { q with packets := q.packets.filter fun p => !done.any fun d => d.id == p.id }

/-- RPTR advances as packets complete at the head (R279), and stays at the packet at which the queue halted. -/
def advanceRptr (s : State) (q : Nat) : State :=
  s.modQueue q fun qu =>
    let qu := settleLevels qu.packets.length qu
    let stops := fetchRing qu :: qu.hold.toList ++ (qu.packets.map fun p => p.ring) ++ (qu.frames.dropLast.map fun f => f.ring)
    match leastBy (ringDist qu) stops with
    | some i => { qu with rptr := BitVec.ofNat 32 i }
    | none => qu

/-- The queue halts: fetched packets that have not executed are discarded and RPTR stays at `ring` (R279, R281, R326). -/
def haltFetch (s : State) (q : Nat) (ring : Option Nat) : State :=
  s.modQueue q fun qu =>
    let gone := (qu.packets.filter fun p => !p.executed).map fun p => p.ring
    let stops := qu.hold.toList ++ ring.toList ++ gone ++ [fetchRing qu] ++ (qu.frames.dropLast.map fun f => f.ring)
    { qu with qstate := 2, hold := leastBy (ringDist qu) stops, packets := qu.packets.filter fun p => p.executed, peek := none,
              frames := qu.frames.drop (qu.frames.length - 1) }

/-- The fetched packets of a queue that have not executed. -/
def waitingPackets (s : State) (q : Nat) : List Packet :=
  match s.queue? q with | some qu => qu.packets.filter fun p => !p.executed | none => []

/-- The halt, and the tests of the graphs whose packets it discards (R237, R298). -/
def haltQueue (s : State) (q : Nat) (ring : Option Nat) : State :=
  (waitingPackets s q).foldl (fun s p => burnTest s q p.graph) (haltFetch s q ring)

/-- A packet completes. -/
def completePacket (s : State) (q p : Nat) : State :=
  advanceRptr (markPacket s q p fun x => { x with executed := true, completed := true }) q

/-- The ring packet of a listed packet. -/
def packetRing (s : State) (q : Nat) (p : Option Nat) : Option Nat :=
  match s.queue? q, p with
  | some qu, some p => ((qu.packets.filter fun x => x.id == p).head?).map fun x => x.ring
  | _, _ => none

/-- Remove every group and stream of a launch (R326, R296). -/
def stopGroups (s : State) (l : Nat) : State :=
  (s.groups.filter fun e => e.2.launch == l).foldl (fun s e =>
    let s := s.modGroup (e.1 / 65) (e.1 % 65) fun g => { g with region := none }
    removeGroup s (e.1 / 65) (e.1 % 65)) s

/-- The matrix operations and copies of a launch end with it (log 25). -/
def dropWork (s : State) (l : Nat) : State :=
  let s := unpinLines s (s.cores.flatMap fun e => (e.2.mq.filter fun o => o.owner.1 == l).flatMap (·.pinned))
  { s with cores := s.cores.map fun e =>
      (e.1, { e.2 with mq := e.2.mq.filter fun o => o.owner.1 != l, copies := e.2.copies.filter fun x => x.launch != l }) }

/-- A batch slot frees when its group completes, or its launch fails (R291). -/
def freeBatch (s : State) (l : Launch) : State :=
  match l.node with
  | none => s
  | some id => s.modQueue l.queue fun q =>
    { q with nodes := tabMod q.nodes id fun n => if n.gen = l.nodeGen then { n with busy := natRemove l.nodeSlot n.busy } else n }

/-- The end of a launch (R326): its groups and streams stop, the packet completes with error, the queue halts there, and a
task's cut word is cancelled. -/
def failLaunch (s : State) (l : Nat) (code : Nat) : State :=
  match s.launch? l with
  | none => s
  | some k =>
    let s := freeBatch (dropWork (stopGroups s l) l) k
    let s := s.modLaunch l fun k => { k with failed := some code, done := true, stopping := true }
    let s := match k.task with | some t => cancelTask s t | none => s
    let p := match k.task with
      | some t => (s.task? t).map (·.packet)
      | none => k.packet
    let s := haltQueue s k.queue (packetRing s k.queue p)
    let s := match p with | some p => completePacket s k.queue p | none => advanceRptr s k.queue
    burnTest s k.queue k.graph

/-- A terminal fault ends its launch, and the record is written. -/
def endLaunch (s : State) (l : Nat) (code : Nat) (r : Record) : State := pushRecord (failLaunch s l code) r

/-! ### Exceptions -/

/-- The split at another address, at which control may have left the address space (R106). -/
def Split.goTo (sp : Split) (pc : Nat) : Split := { sp with pc := BitVec.ofNat 57 pc, pcOver := decide (2 ^ 57 ≤ pc) }
/-- At the next instruction. -/
def Split.next (sp : Split) : Split := { sp with pc := sp.pc + 12, pcOver := decide (2 ^ 57 ≤ sp.pc.toNat + 12) }

/-- Write every outstanding long-latency result of a split (R328). -/
def flushPending (s : State) (ag : Agent) : State :=
  match s.split? ag with
  | none => s
  | some sp =>
    (sp.pending.foldl (fun s p => writeNow s ag p.cells) s).modSplit ag fun sp => { sp with pending := [], unawaited := [] }

/-- Lanes parked, or replaying with parked ones. -/
def Split.parkedLanes (sp : Split) : BitVec 32 := sp.parked.foldl (fun m k => m ||| k.lanes ||| k.also) 0

/-- Taking an exception (R327, R328): earlier accesses are performed and results written, the run ends, the trap CSRs
receive the code, the resume address, the lanes and INFO, and the split continues at a0.base + TVEC in its handler. Lanes of
the instruction that are still parked join TRAP_MASK, so that TRET executes it again in them (log 70). -/
def enterTrap (s : State) (ag : Agent) (code info : Nat) (lanes : BitVec 32) (resume fromPc : BitVec 57) : State :=
  (flushPending (drainCommitted s ag.core ag.slot) ag).modSplit ag fun sp =>
    { sp.goTo (sp.a0.cap.base.toNat + sp.tvec.toNat) with
      run := 0, latch := [], wait := none, parked := [], ending := false, only := none, counted := false, cut := false
      resumed := false, trapCode := BitVec.ofNat 8 code, trapPc := resume, trapMask := lanes ||| sp.parkedLanes
      trapEntry := lanes ||| sp.parkedLanes
      trapInfo := BitVec.ofNat 64 info, trapFrom := fromPc, inHandler := true, readyAt := s.cycle + 1 }

/-- Return from a handler (R329, R357): the split resumes at TRAP_PC. Where that is still the faulting instruction, the
lanes of TRAP_MASK execute it again, and with none it is not executed. -/
def leaveTrap (s : State) (ag : Agent) : State :=
  s.modSplit ag fun sp =>
    let again := sp.trapPc == sp.trapFrom
    { sp with
      inHandler := false, run := 0, latch := [], pcOver := false, resumed := true
      only := if again && sp.trapMask != 0 then some sp.trapMask else none
      pc := if again && sp.trapMask == 0 then sp.trapFrom + 12 else sp.trapPc
      wait := none, counted := false, readyAt := s.cycle + 1 }

/-- No run of this split occupies its quadrant. -/
def freeQuad (s : State) (ag : Agent) : State :=
  match s.group? ag.core ag.slot with
  | none => s
  | some g =>
    if g.stream then s
    else s.modCore ag.core fun c =>
      { c with quads := tabUpd Quad.init c.quads g.quad fun q =>
          if q.owner = some (ag.slot, ag.split) then { q with owner := none } else q }

/-- The split waits at a BAR, BWAIT or WFE that has issued. When the wait is over its next instruction can issue in the cycle
in which the split is ready (R169, R362, Table 20.2), so that going on takes no issue slot. -/
def Split.issuedWait (sp : Split) : Bool :=
  match sp.wait with
  | some (.barrier _ _ _) | some (.event _) => true
  | _ => false

/-- The split waits (R145, R304): its run is cut and its latch slots become invalid. -/
def waitFor (s : State) (ag : Agent) (w : Wait) : State :=
  let s := freeQuad s ag
  let s := match s.split? ag, s.group? ag.core ag.slot with
    | some sp, some g => if sp.wait.isNone && sp.run != 0 then countPrivate s (s.whoOf ag.core g) 1 else s
    | _, _ => s
  s.modSplit ag fun sp =>
    { sp with latch := [], cut := sp.run != 0, wait := some w,
              waitFrom := if sp.wait.isNone then s.cycle else sp.waitFrom }

/-- Of some lanes, those to which the instruction is confined. -/
def Split.confined (sp : Split) (m : BitVec 32) : BitVec 32 := match sp.only with | some k => m &&& k | none => m

/-- Park lanes under retryable codes (R334), one record a code (R330). -/
def parkLanes (s : State) (ag : Agent) (parks : List Park) : State :=
  match s.group? ag.core ag.slot, s.split? ag with
  | some g, some sp =>
    let s := parks.foldl (fun s p => pushRecord s { splitRecord s ag g sp p.code 0 p.info p.lanes with pc := p.pc }) s
    (freeQuad s ag).modSplit ag fun sp =>
      { sp with parked := sp.parked ++ parks, parkedSince := if sp.parked.isEmpty then s.cycle else sp.parkedSince
                only := none, latch := [], cut := sp.run != 0, wait := none }
  | _, _ => s

/-- The ring class that a fault of a split would use. -/
def faultClass (s : State) (ag : Agent) (g : Group) (kind : Nat) : Nat :=
  ringClass (ringOf s (s.whoOf ag.core g).part (dieOf ag.core) kind)

/-- A terminal fault of the split enters its handler (R327). -/
def Split.takes (sp : Split) (g : Group) : Bool := sp.tvec != 0 && !sp.inHandler && !g.stream

/-- It ends the launch instead, and its record has no room in the port (R332). -/
def terminalWaits (s : State) (ag : Agent) (g : Group) (sp : Split) : Bool :=
  !sp.takes g && portFull s (dieOf ag.core) (faultClass s ag g 1)

/-- A terminal fault of a split or stream (R326), recorded at an address: its handler, or the end of the launch. `s0` is the
state without the accesses of passing lanes, in which the instruction waits while the port is full (R332). -/
def raiseTerminalAt (s0 s : State) (ag : Agent) (pc : BitVec 57) (code info : Nat) (lanes : BitVec 32) : State :=
  match s.group? ag.core ag.slot, s.split? ag with
  | some g, some sp =>
    if sp.takes g then enterTrap (freeQuad s ag) ag code info lanes sp.pc sp.pc
    else if portFull s (dieOf ag.core) (faultClass s ag g 1) then waitFor s0 ag (.port (faultClass s ag g 1))
    else endLaunch s g.launch code { splitRecord s ag g sp code 1 info lanes with pc := pc }
  | _, _ => s

/-- The same at the instruction where the split stands. -/
def raiseTerminal (s0 s : State) (ag : Agent) (code info : Nat) (lanes : BitVec 32) : State :=
  raiseTerminalAt s0 s ag (match s.split? ag with | some sp => sp.pc | none => 0) code info lanes

/-- Park, unless the port has no room for the records (R332). -/
def raiseParks (s0 s : State) (ag : Agent) (parks : List Park) : State :=
  match s.group? ag.core ag.slot with
  | some g =>
    let cls := faultClass s ag g 0
    if portRoom s (dieOf ag.core) cls parks.length then parkLanes s ag parks else waitFor s0 ag (.port cls)
  | none => s

/-! ### Issue -/

/-- What the effect of an instruction comes to. -/
inductive Eff where
  /-- It took effect; the next instruction follows (R25). -/
  | done (s : State)
  /-- A taken transfer (R106). -/
  | jump (s : State) (target : Nat)
  /-- The effect itself has settled what the split executes next (EXIT, BRC, JOIN, TRET, an entered handler). -/
  | settled (s : State)
  /-- It does not issue yet. -/
  | wait (s : State) (w : Wait)
  /-- A terminal fault of these lanes, once other lanes have completed in s. -/
  | fault (s : State) (code info : Nat) (lanes : BitVec 32)
  /-- Retryable faults, once other lanes have completed in s. -/
  | park (s : State) (parks : List Park)

/-- The lanes of T. -/
def Ctx.mask (c : Ctx) : BitVec 32 := maskOf c.lanes
def Ctx.amask (c : Ctx) : BitVec 32 := maskOf c.act

/-- The STALL of an instruction that has issued runs while its split waits (R25). -/
def Ctx.stalled (c : Ctx) (s : State) : State := s.modSplit c.ag fun sp =>
  { sp with readyAt := Nat.max sp.readyAt (if c.sp.issuedWait then c.now else c.now + Nat.max c.w.stall.toNat c.x + 1) }

/-- A fault of every active lane without an address. -/
def Ctx.trap (c : Ctx) (code : Nat) : Eff := .fault c.s code (noInfo c.s) c.amask

/-- Results of fixed latency L (Table 1.5). -/
def Ctx.fixed (c : Ctx) (L : Nat) (cells : List RegCell) : State := writeFixed c.s c.ag (c.now + c.x + L) cells

/-- A result of latency 4 (R82) in the type's registers, given its bits in each lane. -/
def Ctx.alu (c : Ctx) (val : Nat → Nat) : Eff := .done (c.fixed 4 (destCells c c.w.ty (tyRegs c.w.ty) val))
/-- A long-latency result (R20). -/
def Ctx.long (c : Ctx) (regs : Nat) (val : Nat → Nat) : Eff := .done (writeLong c.s c.ag (destCells c c.w.ty regs val))

/-- Opcodes a matrix stream admits (Table 12.1). -/
def streamOp (op : Nat) : Bool :=
  (decide (op ≤ 0x2E) && op != 0x28 && op != 0x2C)
    || [0x82, 0x84, 0x87, 0x88, 0x89, 0x8A, 0x8B, 0x8C, 0x8D, 0x8E, 0x8F, 0x90, 0x91, 0x92, 0x93].contains op
    || (decide (0xAD ≤ op) && decide (op ≤ 0xB8))
    || [0xCB, 0xCD, 0xCE, 0xCF, 0xD0, 0xD1].contains op

/-- R67: engine-only and privileged opcodes. -/
def engineOp (op : Nat) : Bool := decide (0xB1 ≤ op) && decide (op ≤ 0xB8)
def privilegedOp (op : Nat) : Bool := op == 0xD4 || op == 0xD5

/-- R69 step 3 on an assigned opcode; TLBI.all only on a headstock core (R366). -/
def opAdmitted (f : Form) (w : Fields) (core : Nat) (g : Group) (sp : Split) : Bool :=
  if g.stream then streamOp f.op
  else !engineOp f.op
    && (!privilegedOp f.op || isHeadstock core || (sp.inHandler && !(f.op == 0xD5 && vr w == 2)))

/-- R69 step 4 in a stream: no operand of class v, t, g or latch. An unused position holds 0x000. -/
def streamFields (f : Form) (w : Fields) : Bool :=
  let bad (p : Pos) (o : Opnd) : Bool := p != .unused && [Cls.v, .t, .g, .latch].contains (opndCls o)
  !(bad (f.d w) w.d || bad (f.a w) w.a || bad (f.b w) w.b || (cimm w && bad (f.c w) (opC w)))

/-- R69 step 5 on the allocation (R12, R178). RED's count register must exist too (R164). -/
def allocOk (f : Form) (w : Fields) (g : Group) : Bool :=
  let ok (p : Pos) (o : Opnd) : Bool := g.stream || posAllocated g.vregs g.grains p o
  ok (f.d w) w.d && ok (f.a w) w.a && ok (f.b w) w.b && (!cimm w || ok (f.c w) (opC w))
    && (f.op != 0x63 || !w.var.getLsbD 3 || (match w.d with
        | .v n => decide (n.toNat + tyRegs w.ty < g.vregs)
        | _ => true))

/-- R18 and R83; a stream is uniform throughout (R260), so R18 does not bind it. -/
def uniformHere (f : Form) (w : Fields) (g : Group) : Bool :=
  if g.stream then !f.splitWide || w.gp == 7#3 else uniformOk f w

/-- The guard's register. -/
def guardLoc (w : Fields) : List Loc := if w.gp == 7#3 then [] else [Loc.p w.gp.toNat]

/-- The cases of R30. A destination is touched whichever lanes the guard leaves, one that leaves none among them (log 77). -/
def stallShort (f : Form) (w : Fields) (sp : Split) (now x : Nat) : Bool :=
  let src := guardLoc w ++ sourceLocs f w
  let dst := destLocs f w
  let early := sp.flight.any fun e => decide (now < e.ready) && e.old.any fun c => src.contains c.loc
  -- CLK issues as if its AWAIT named every tag (R111)
  let touches := sp.unawaited.any fun e => !(f.op == 0x2E && e.1.isSome) && (src.contains e.2 || dst.contains e.2)
  early || decide (w.stall.toNat < x) || touches || (latchReads f w).any fun i => (latchVal sp i).isNone

/-- Steps 3 to 6 of R69 on a decoded instruction. A replay's checks of step 6 were made when it first issued. -/
def precheck (i : Instr) (f : Form) (w : Fields) (core : Nat) (g : Group) (sp : Split) (now x : Nat) : Option Nat :=
  if !opAdmitted f w core g sp then some fIllegalOp
  else if !fieldsOk i w || (g.stream && !streamFields f w) then some fIllegalOp
  else if !operandsOk i w || !allocOk f w g || !uniformHere f w g then some fIllegalOperand
  else if sp.ctl.getLsbD 0 && !(sp.only.isSome && sp.counted) && stallShort f w sp now x then some fStallShort
  else none

/-- The cycle in which a split's next instruction issues (R24, R25, R106, R145). -/
def issueCycle (s : State) (ag : Agent) (g : Group) (sp : Split) : Nat :=
  let q := if g.stream then 0 else (tabGet Quad.init (s.core ag.core).quads g.quad).freeAt
  let settled := if sp.run = 0 then maxNat (sp.flight.map (·.ready)) else 0
  Nat.max (Nat.max s.cycle sp.readyAt) (Nat.max q settled)

/-- R23: the t registers of the split's lanes read zero. -/
def clearT (t : Tab Word) (mask : BitVec 32) : Tab Word := t.filter fun e => !mask.getLsbD (e.1 % 32)

/-- The group as an instruction that issues in a cycle finds it. -/
def beginGroup (g : Group) (sp : Split) (now : Nat) : Group :=
  { g with t := if sp.run = 0 then clearT g.t sp.mask else g.t, lastIssue := now }

/-- R23: a result to a t register of an earlier run is lost with the run. -/
def dropT (p : Pending) : Pending := { p with cells := p.cells.filter fun c => match c.loc with | .t _ => false | _ => true }

/-- The split as the instruction finds it: results that are readable by now are no longer in flight, and the tags that it
awaits cover their destinations no longer (R22). It is no longer held at a BRC.pk target (R155). -/
def beginSplit (w : Fields) (sp : Split) (now : Nat) : Split :=
  { sp with flight := sp.flight.filter fun f => decide (now < f.ready)
            pending := if sp.run = 0 then sp.pending.map dropT else sp.pending
            pkHold := none
            unawaited := sp.unawaited.filter fun e => match e.1 with | some t => !w.await.getLsbD t | none => true }

/-- Count an event for the group in a slot. -/
def countGroup (s : State) (core slot no : Nat) : State :=
  match s.group? core slot with
  | some h => countPrivate s (s.whoOf core h) no
  | none => s

/-- A split whose run is cut for another (R146). -/
def Split.loseQuad (now : Nat) (p : Split) : Split := { p with latch := [], cut := true, readyAt := Nat.max p.readyAt now }

/-- The runs issued in a row (R147), once this split starts a run. -/
def countRun (ag : Agent) (start : Bool) (r : RunRow) : RunRow :=
  if r.slot = ag.slot ∧ r.split = ag.split then (if start then ⟨r.slot, r.split, r.count + 1⟩ else r)
  else ⟨ag.slot, ag.split, 1⟩

/-- The issue slot after the agent issued in it. -/
def Quad.take (q : Quad) (ag : Agent) (start : Bool) (now free : Nat) (cls : Bool) : Quad :=
  { q with owner := some (ag.slot, ag.split), since := if q.owner = some (ag.slot, ag.split) then q.since else now
           freeAt := free, rowG := if cls then q.rowG else countRun ag start q.rowG
           rowH := if cls then countRun ag start q.rowH else q.rowH }

/-- A run of another split that still occupies the quadrant is cut (R146); its cut point is ready no earlier than the cut
(R147), which the choice has named. -/
def cutOther (s : State) (ag : Agent) (o : Nat × Nat) (cutAt now : Nat) : State :=
  if o = (ag.slot, ag.split) then s
  else (countGroup s ag.core o.1 1).modSplit ⟨ag.core, o.1, o.2⟩ (Split.loseQuad (if now ≤ cutAt + 2 then cutAt else now))

/-- The quadrant passes to this split. -/
def claimQuad (s : State) (ag : Agent) (g : Group) (sp : Split) (now : Nat) (cls : Bool) : State :=
  if g.stream then s
  else
    (match (tabGet Quad.init (s.core ag.core).quads g.quad).owner with
      | none => s
      | some o => cutOther s ag o (tabGet Quad.init (s.core ag.core).quads g.quad).cutAt now).modCore ag.core fun c =>
        { c with
          quads := tabUpd Quad.init c.quads g.quad fun q =>
            q.take ag (sp.run == 0 && !sp.counted) now (if sp.issuedWait then now else now + 1) cls }

/-- What a latch slot receives of a source in a lane (R28). Of a capability register, a mailbox, a k group and a group of more
than two registers the manual does not say what 64 bits are held: they are a free value (log 62). -/
def heldVal (c : Ctx) (f : Form) (b : Bool) (p : Pos) (o : Opnd) (slot lane : Nat) : Nat :=
  let open_ := Config.freeNat c.s.free (9000 + slot * 32 + lane) % 2 ^ 64
  match p, o with
  | .cls _ _, .a _ | .cls _ _, .m _ => open_
  | .cls _ r, _ => if r ≤ 2 then opVal c (readTy f c.w b r) r o lane else open_
  | _, _ => open_

/-- HOLD captures sources as the instruction reads them (R28). -/
def holdLatch (c : Ctx) (f : Form) (l : List Latched) : List Latched :=
  let put (l : List Latched) (slot : Nat) (b : Bool) (p : Pos) (o : Opnd) : List Latched :=
    if p = .unused then l
    else ⟨slot, c.sp.run, (List.range 32).map (heldVal c f b p o slot)⟩ :: l.filter fun x => x.slot != slot
  let ls := c.w.ls.toNat
  let l := if c.w.hold.getLsbD 0 then put l ls false (f.a c.w) c.w.a else l
  if c.w.hold.getLsbD 1 then put l (if c.w.hold.getLsbD 0 then (ls + 1) % 3 else ls) true (f.b c.w) c.w.b else l

/-- The lanes in which an instruction acts: active, guard true, and not outside a replay's or re-execution's lanes. -/
def actingLanes (c : Ctx) : List Nat :=
  c.act.filter fun l =>
    ((c.w.gp == 7#3 || c.read (.p c.w.gp.toNat) l % 2 == 1) != c.w.gn)
      && (match c.sp.only with | some m => m.getLsbD l | none => true)

/-- Assign untagged results to a tag (R20). -/
def tagPending (tag : Nat) (ps : List Pending) : List Pending :=
  ps.map fun p => if p.tag.isNone then { p with tag := some tag } else p

/-- A split after the end of its run, with its untagged results on a tag. -/
def Split.endRun (sp : Split) (tag : Nat) : Split :=
  { sp with run := 0, latch := [], pending := tagPending tag sp.pending, only := none, wait := none, counted := false,
            cut := false, resumed := false, unawaited := sp.unawaited.map fun e => (some (e.1.getD tag), e.2) }

/-- The split after an instruction that took effect and did not end its run: the next address, the count of R19, the latch and
the earliest next issue. Lanes of the instruction that are still parked keep the split there (R334). -/
def wentOn (c : Ctx) (f : Form) (target : Option Nat) (sp : Split) : Split :=
  if sp.parked.any (!·.op) then { sp with only := none, wait := none, latch := [] }
  else
    { (match target with | some t => sp.goTo t | none => sp.next) with
      run := sp.run + 1
      latch := if c.sp.only.isSome && c.sp.counted || c.sp.issuedWait then sp.latch else holdLatch c f sp.latch
      readyAt := match target with
        | some _ => c.now + Nat.max c.w.stall.toNat c.x + 3
        | none => Nat.max sp.readyAt (if c.sp.issuedWait then c.now else c.now + Nat.max c.w.stall.toNat c.x + 1)
      only := none, wait := none, counted := false, cut := false }

/-- The same, where the instruction that a TRET resumed ends a run (R357); its untagged results go to w7 (log 63). -/
def retiredSplit (c : Ctx) (f : Form) (target : Option Nat) (sp : Split) : Split :=
  if c.sp.resumed && sp.parked.all (·.op) then (wentOn c f target sp).endRun 7 else wentOn c f target sp

def retire (c : Ctx) (f : Form) (s : State) (target : Option Nat) : State :=
  (if c.sp.resumed then freeQuad s c.ag else s).modSplit c.ag (retiredSplit c f target)

/-- Whether a split can issue at all: it is not parked, its group is resident and its context runs. -/
def canIssue (s : State) (ag : Agent) (g : Group) (sp : Split) : Bool :=
  (sp.parked.isEmpty || sp.only.isSome) && !g.evicted && !(s.context g.context).stopped
    && !((s.core ag.core).halted && isHeadstock ag.core)

/-- The launch of a group stops at its next boundary (R296, R326). -/
def launchStops (s : State) (g : Group) : Bool := match s.launch? g.launch with | some l => l.stopping | none => false

/-- R21: an outstanding result of a tag that the instruction awaits. -/
def awaits (w : Fields) (sp : Split) : Bool :=
  sp.pending.any fun p => match p.tag with | some t => w.await.getLsbD t | none => false

/-- The group with its split, once the instruction has been counted. -/
def issuedGroup (w : Fields) (ag : Agent) (g : Group) (sp : Split) (now : Nat) : Group :=
  { beginGroup g sp now with splits := tabPut g.splits ag.split { beginSplit w sp now with counted := true } }

/-- The state as an instruction that issues finds it: the group and split in their places, the quadrant claimed, and the
instruction counted (R363) unless it was. -/
def issuedState (w : Fields) (s : State) (ag : Agent) (g : Group) (sp : Split) : State :=
  let now := issueCycle s ag g sp
  let who := s.whoOf ag.core g
  let t := claimQuad { s.putGroup ag.core ag.slot (issuedGroup w ag g sp now) with cycle := now } ag g sp now who.cls
  if sp.counted || g.stream then t else countPrivate t who 0

/-- An instruction that faults before its meaning counts too, once (R363). -/
def countFaulted (s : State) (ag : Agent) (g : Group) (sp : Split) : State :=
  if sp.counted || g.stream then s
  else (countPrivate s (s.whoOf ag.core g) 0).modSplit ag fun p => { p with counted := true }

/-- What an instruction that issues finds: its cycle, and the state, group and split as the issue leaves them. -/
def issueView (f : Form) (w : Fields) (s : State) (ag : Agent) (g : Group) (sp : Split) : Ctx :=
  let now := issueCycle s ag g sp
  let c : Ctx :=
    { s := issuedState w s ag g sp, ag := ag, g := beginGroup g sp now, sp := beginSplit w sp now, w := w, now := now
      x := bankConflicts f w, act := lanesOf sp.mask, lanes := [] }
  { c with lanes := actingLanes c }

/-- The state after an instruction, by what its effect came to. -/
def settleEff (f : Form) (c : Ctx) : Eff → State
  | .done t => retire c f t none
  | .jump t a => retire c f t (some a)
  | .settled t => t
  | .wait t k => waitFor t c.ag k
  | .fault t code info lanes =>
    if isRetryable code then raiseParks c.s t c.ag [⟨code, c.sp.confined lanes, info, 0, c.sp.pc, false⟩]
    else raiseTerminal c.s t c.ag code info (c.sp.confined lanes)
  | .park t parks => raiseParks c.s t c.ag parks

/-- R111: CLK does not issue until every result is written. -/
def holdsForResults (f : Form) (s : State) (ag : Agent) (g : Group) (sp : Split) : Bool :=
  f.op == 0x2E && (!sp.pending.isEmpty || decide (issueCycle s ag g sp < maxNat (sp.flight.map (·.ready))))

/-- The issue of one instruction. The checks of the fetch and the run length are the step's. -/
def issue (i : Instr) (f : Form) (w : Fields) (eff : Ctx → Eff) (s : State) (ag : Agent) (g : Group) (sp : Split) : State :=
  let s := { s with turn := none, free := s.free + 1 }
  if !canIssue s ag g sp then { s with cycle := s.cycle + 1 }
  else if launchStops s g then removeGroup s ag.core ag.slot
  else if awaits w sp then s.modSplit ag fun sp => { sp with wait := some (.await w.await) }
  else if holdsForResults f s ag g sp then
    s.modSplit ag fun sp => { sp with wait := some .results, readyAt := Nat.max sp.readyAt (maxNat (sp.flight.map (·.ready))) }
  else
    let c := issueView f w s ag g sp
    match precheck i f w ag.core c.g c.sp c.now c.x with
    | some code => raiseTerminal c.s c.s ag code (noInfo c.s) (c.sp.confined c.sp.mask)
    | none => if f.splitWide && w.gn then retire c f c.s none else settleEff f c (eff c)

/-- R347: the frame of a read that met an uncorrectable error is retired. -/
def settleEcc (s : State) : State :=
  match s.ecc with
  | some e => let s := { s with ecc := none }; if e.hit then retireFrame s (e.pa / 2 ^ 16) else s
  | none => s

/-- A step of the module's engines or of the front end that writes no register of Regs, said here once for all of them. -/
def State.keepRegs (t s : State) : State := { t with regs := s.regs }

/-- The same of an outcome. -/
def keep (s : State) : Host.Outcome State Fault Refusal → Host.Outcome State Fault Refusal
  | .next t => .next (t.keepRegs s)
  | .fault r => .fault r
  | .refused r => .refused r

/-- An instruction's meaning: its issue by the agent whose turn it is. No instruction writes the registers of Regs; a read
that meets an uncorrectable error retires its frame. -/
def runInstr (i : Instr) (eff : Ctx → Eff) (s : State) : Host.Outcome State Fault Refusal :=
  match s.turn with
  | none => .fault .noAgent
  | some ag =>
    match s.group? ag.core ag.slot, s.split? ag with
    | some g, some sp =>
      match formOf i, fieldsOf i with
      | some f, some w => .next (settleEcc ((issue i f w eff s ag g sp).keepRegs s))
      | _, _ => .fault .noAgent
    | _, _ => .fault .noAgent

end Sys2Proof.Machine
end

