-- ==== Sys2Proof/Machine/Lanes.lean ====
section
/-! DEFINITION. Per-lane accesses: global and scratchpad operands (R97, R194, R241), the order of their checks, partial
completion (R194, R334), the region store buffer (R337), and loads and stores over them. -/
namespace Sys2Proof.Machine
open Sys2Proof

/-- One lane's access: its address, and its place or its fault at step 4 of R194. -/
structure Access where
  lane : Nat
  va : Nat
  place : Except Nat Place

/-- The lanes in which a memory instruction makes an access: a uniform or split-wide form makes one (R99, R104). -/
def Ctx.accessLanes (c : Ctx) : List Nat :=
  if opndCls c.w.d == .k || opndCls c.w.d == .a || c.stream then c.lanes.take 1 else c.lanes

/-- The index X of a memory operand (R97). -/
def Ctx.index (c : Ctx) (lane : Nat) : Nat := if bit78 c.w then c.b64 lane else c.b32 lane
/-- The offset o of R97; a form with a C operand has no displacement (R239). -/
def Ctx.offset (c : Ctx) (lane : Nat) : Int := (c.index lane : Int) + (if cimm c.w then 0 else simm c.w)

/-- The address that INFO reports for an offset (log 23). -/
def infoVa (r : CapReg) (o : Int) : Nat := wrap ((r.cap.base.toNat : Int) + o) 64

/-- Steps 1 to 3 of R194 over the lanes, each with the capability it reads (R102): the fault of the lowest failing lane. -/
def checkLanes (s : State) (w : Who) (r : Nat → CapReg) (size align mask : Nat) : List (Nat × Int) → Option (Nat × Nat)
  | [] => none
  | (l, o) :: rest =>
    match capCheck s w (r l).cap o size align mask with
    | some code => some (code, infoVa (r l) o)
    | none => checkLanes s w r size align mask rest

/-- The read of this lane meets an uncorrectable error (R347). -/
def eccHits (s : State) (lane mask size : Nat) (p : Place) : Bool :=
  match s.ecc, p with
  | some e, .mem _ _ pa => e.lane == lane && Nat.land mask permR != 0 && decide (pa ≤ e.pa) && decide (e.pa < pa + size)
  | _, _ => false
def markEcc (s : State) : State := { s with ecc := s.ecc.map fun e => { e with hit := true } }

/-- Step 4 of R194 for each lane. -/
def resolveLanes (s : State) (w : Who) (r : Nat → CapReg) (size mask : Nat) : List (Nat × Int) → List Access × State
  | [] => ([], s)
  | (l, o) :: rest =>
    let va := (r l).cap.base.toNat + o.toNat
    let place : Except Nat Place :=
      match reach s w w.core (r l) o.toNat size mask with
      | .ok (.mem pa) => .ok (.mem va w.tenant pa)
      | .ok (.remote d a) => .ok (.far d a)
      | .error e => .error e
    let bad := match place with | .ok p => eccHits s l mask size p | .error _ => false
    let s := reached s w (r l) o.toNat size
    let (acc, t) := resolveLanes (if bad then markEcc s else s) w r size mask rest
    (⟨l, va, if bad then .error fEccUncorr else place⟩ :: acc, t)

/-- The scratchpad operand of R241, X + SEXT(IMM). -/
def Ctx.spAddr (c : Ctx) (lane : Nat) : Int := (c.b32 lane : Int) + (if cimm c.w then 0 else simm c.w)

/-- R241's checks in each lane, then each lane's place. An allocation is a multiple of every power of two that a lane accesses,
so an aligned access that begins in it lies in it (R203); a record of R324 is checked over all its bytes. -/
def checkSp (s : State) (core : Nat) (g : Group) (size align : Nat) : List (Nat × Int) → Except (Nat × Nat) (List Access)
  | [] => .ok []
  | (l, p) :: rest =>
    match spResolve s core g p (if align < size then size else 1) with
    | none => .error (fCapBounds, wrap p 64)
    | some (k, off) =>
      if p.toNat % align != 0 then .error (fMisaligned, wrap p 64)
      else
        match checkSp s core g size align rest with
        | .ok acc => .ok (⟨l, p.toNat, .ok (.sp k off p.toNat)⟩ :: acc)
        | .error e => .error e

/-- Lanes whose access goes ahead, with their places. -/
def goodOf (acc : List Access) : List (Nat × Place) :=
  acc.filterMap fun a => match a.place with | .ok p => some (a.lane, p) | .error _ => none
/-- Lanes that fail step 4 or 5: lane, code and address. -/
def badOf (acc : List Access) : List (Nat × Nat × Nat) :=
  acc.filterMap fun a => match a.place with | .ok _ => none | .error e => some (a.lane, e, a.va)

/-- The lanes that a failing access concerns: every active lane where one of n accesses serves them all. -/
def Ctx.failMask (c : Ctx) (n : Nat) (l : List Nat) : BitVec 32 := if n < c.lanes.length then c.amask else maskOf l

/-- The parks of failing lanes, one for each code, ascending by first lane (R334). -/
def parksOf (c : Ctx) (n : Nat) (bad : List (Nat × Nat × Nat)) : List Park :=
  let codes := bad.foldl (fun l b => if l.contains b.2.1 then l else l ++ [b.2.1]) []
  codes.map fun code =>
    let mine := bad.filter fun b => b.2.1 == code
    ⟨code, c.sp.confined (c.failMask n (mine.map (·.1))), match mine with | b :: _ => b.2.2 | [] => 0, 0, c.sp.pc, false⟩

/-- R194: how the instruction ends once its passing lanes have completed in s. -/
def Ctx.endLanes (c : Ctx) (s : State) (acc : List Access) : Eff :=
  let bad := badOf acc
  match bad.filter fun b => !isRetryable b.2.1 with
  | t :: _ => .fault s t.2.1 t.2.2 (c.failMask acc.length (bad.map (·.1)))
  | [] => if bad.isEmpty then .done s else .park s (parksOf c acc.length bad)

/-- Lanes that will replay. -/
def parkedLanes (bad : List (Nat × Nat × Nat)) : List (Nat × Nat) :=
  if bad.any fun b => !isRetryable b.2.1 then [] else bad.map fun b => (b.1, b.2.2)

/-- A global operand in some lanes: all checks, then the effect of the passing lanes. -/
def Ctx.globalOn (c : Ctx) (lanes : List Nat) (r : Nat → CapReg) (size align mask : Nat) (k : State → List Access → Eff) : Eff :=
  let offs := lanes.map fun l => (l, c.offset l)
  match checkLanes c.s c.who r size align mask offs with
  | some (code, info) => .fault c.s code info c.amask
  | none =>
    let (acc, s) := resolveLanes c.s c.who r size mask offs
    k s acc

def Ctx.global (c : Ctx) (r : Nat → CapReg) (size align mask : Nat) (k : State → List Access → Eff) : Eff :=
  c.globalOn c.accessLanes r size align mask k
/-- ST from a k register stores from every lane (R98). -/
def Ctx.globalAll (c : Ctx) (r : Nat → CapReg) (size align mask : Nat) (k : State → List Access → Eff) : Eff :=
  c.globalOn c.lanes r size align mask k

/-- A scratchpad operand. -/
def Ctx.scratchOn (c : Ctx) (lanes : List Nat) (size align : Nat) (k : State → List Access → Eff) : Eff :=
  match checkSp c.s c.ag.core c.g size align (lanes.map fun l => (l, c.spAddr l)) with
  | .error (code, info) => .fault c.s code info c.amask
  | .ok acc => k c.s acc
def Ctx.scratch (c : Ctx) (size align : Nat) (k : State → List Access → Eff) : Eff := c.scratchOn c.accessLanes size align k

/-! ### The region store buffer -/

/-- The 128-byte line of a place. -/
def Place.line : Place → Nat × Nat × Nat
  | .mem va _ _ => (0, 0, va / 128)
  | .sp core off _ => (1, core, off / 128)
  | .far d va => (2, d, va / 128)

def distinct (l : List (Nat × Nat × Nat)) : List (Nat × Nat × Nat) := l.foldl (fun r x => if r.contains x then r else r ++ [x]) []

/-- Entries in use (R337). -/
def entriesUsed (held : List Held) : Nat :=
  let lines := held.flatMap fun h => match h with | .store p _ => [p.line] | .capStore p _ => [p.line] | _ => []
  (distinct lines).length + sumNat (held.map fun h => match h with
    | .store _ _ => 0
    | .capStore _ _ => 0
    | .atomic _ _ _ lanes => (distinct (lanes.map fun x => x.1.line)).length
    | _ => 1)

/-- R338: what a harvest group may not do outside a region. -/
def Ctx.outsideHarvest (c : Ctx) : Bool := c.who.cls && !c.stream && c.g.region.isNone

/-- R338 before an instruction's other effects. -/
def Ctx.regional (c : Ctx) (e : Eff) : Eff := if c.outsideHarvest then c.trap fIllegalOp else e

/-- Hold entries in the open region, or perform them (R337). -/
def Ctx.emit (c : Ctx) (s : State) (hs : List Held) (k : State → Eff) : Eff :=
  match c.g.region with
  | some r =>
    if 64 < entriesUsed (r.held ++ hs) then c.trap fRegionOverflow
    else k (s.modGroup c.ag.core c.ag.slot fun g => { g with region := some { r with held := r.held ++ hs } })
  | none =>
    let s := drainCommitted s c.ag.core c.ag.slot
    k (hs.foldl (fun s h => performHeld s c.ag.core c.ag.slot c.who h) s)

/-- Whether two places are one memory. -/
def overlaySame (p q : Place) : Option Int :=
  match p, q with
  | .mem va t _, .mem vb u _ => if t = u then some ((vb : Int) - va) else none
  | .sp c o _, .sp d n _ => if c = d then some ((n : Int) - o) else none
  | .far d a, .far e b => if d = e then some ((b : Int) - a) else none
  | _, _ => none

/-- Bytes of a load as held stores change them (R337). -/
def overlayOne (p : Place) (bs : List Byte) (q : Place) (new : List Byte) : List Byte :=
  match overlaySame p q with
  | none => bs
  | some d =>
    (List.range bs.length).map fun (i : Nat) =>
      let j : Int := (i : Int) - d
      if 0 ≤ j ∧ j < new.length then new.getD j.toNat 0 else bs.getD i 0

def overlay (held : List Held) (p : Place) (bs : List Byte) : List Byte :=
  held.foldl (fun bs h => match h with
    | .store q new => overlayOne p bs q new
    | .capStore q c => overlayOne p bs q (leBytes (capBits c) 16)
    | _ => bs) bs

/-- A handler's loads do not see the entries of the open region (R328). -/
def Ctx.overlaid (c : Ctx) (p : Place) (bs : List Byte) : List Byte :=
  match c.g.region with
  | some r => if c.sp.inHandler then bs else overlay r.held p bs
  | none => bs

/-! ### Loads and stores -/

/-- n bytes at a place, by a load of path LS. -/
def Ctx.loadPlace (c : Ctx) (s : State) (p : Place) (n : Nat) : List Byte × State :=
  match p with
  | .mem _ _ pa =>
    let (bs, _, s) := l1Load s c.who pa n
    (c.overlaid p bs, s)
  | .sp core off _ => (c.overlaid p (spBytes s core off n), s)
  | .far d va =>
    (c.overlaid p ((List.range n).map fun i => Config.freeByte (s.free + i) (d * 2 ^ 57 + va + i)), countFar s c.who.part d n)

/-- Loads of the passing lanes in ascending order. -/
def Ctx.loadLanes (c : Ctx) (n : Nat) : State → List (Nat × Place) → List (Nat × Nat) × State
  | s, [] => ([], s)
  | s, (l, p) :: rest =>
    let (bs, s) := c.loadPlace s p n
    let (vs, s) := c.loadLanes n s rest
    ((l, ofLeBytes bs) :: vs, s)

/-- Bytes of a load or store by VARIANT (Table 4.7). -/
def accessSize (w : Fields) : Nat := Nat.min 16 (2 ^ vr w)
/-- Registers of its data. -/
def accessRegs (w : Fields) : Nat := if vr w ≤ 2 then 1 else if vr w = 3 then 2 else 4
/-- Register content (Table 4.7). -/
def extend (w : Fields) (v : Nat) : Nat :=
  if tySigned w.ty && decide (vr w ≤ 1) then wrap (sext v (8 * accessSize w)) 32 else v

def valueIn (l : List (Nat × Nat)) (lane : Nat) : Nat := match l.filter fun e => e.1 == lane with | e :: _ => e.2 | [] => 0

/-- A load over accesses whose checks are made: the passing lanes' long-latency result. -/
def Ctx.loadOver (c : Ctx) (s : State) (acc : List Access) : Eff :=
  let s := drainCommitted s c.ag.core c.ag.slot
  let good := goodOf acc
  let (vs, s) := c.loadLanes (accessSize c.w) s good
  let cells := destCells { c with lanes := good.map (·.1) } c.w.ty (accessRegs c.w) fun l => extend c.w (valueIn vs l)
  c.endLanes (writeLong s c.ag cells) acc

/-- The data of a store in a lane (Table 4.7). -/
def Ctx.storeData (c : Ctx) (lane : Nat) : List Byte :=
  leBytes (opVal c c.w.ty (accessRegs c.w) c.w.d lane) (accessSize c.w)

/-- R334: a completing lane writes no byte that a higher parked lane will write; accesses of one instruction are of one size
and aligned, so two either agree or are apart. -/
def notShadowed (bad : List (Nat × Nat × Nat)) (good : List (Nat × Place)) (vas : List (Nat × Nat)) : List (Nat × Place) :=
  good.filter fun e => !((parkedLanes bad).any fun b => decide (e.1 < b.1) && valueIn vas e.1 == b.2)

/-- A store over accesses whose checks are made, of `data` in each lane. -/
def Ctx.storeOver (c : Ctx) (s : State) (acc : List Access) (data : Nat → List Byte) : Eff :=
  let good := notShadowed (badOf acc) (goodOf acc) (acc.map fun a => (a.lane, a.va))
  c.emit s (good.map fun e => .store e.2 (data e.1)) fun s => c.endLanes s acc

end Sys2Proof.Machine
end

