-- ==== Sys2Proof/Machine/Sched.lean ====
section
/-! DEFINITION. Which split issues next (R145 to R149): readiness, the end of waits, and the choice within each quadrant.
Choices the manual leaves open are free values. -/
namespace Sys2Proof.Machine
open Sys2Proof

/-- The barrier instance test of R168: instance n has completed when the count is g. -/
def instanceDone (g n : Nat) : Bool :=
  let d := (g + 2 ^ 32 - n % 2 ^ 32) % 2 ^ 32
  d != 0 && decide (d < 2 ^ 31)

/-- Key of a barrier's completion count in Launch.bars. -/
def barKey (g : Group) (cluster : Bool) (b : Nat) : Nat :=
  ((g.cluster * 16 + (if cluster then 0 else g.team)) * 2 + cluster.toNat) * 16 + b

/-- R276: no agent began an earlier wait of the same kind at this mailbox; an MMAS put waits since its completion. -/
def firstAtMailbox (s : State) (ag : Agent) (m : Nat) (put : Bool) (since : Nat) : Bool :=
  !(s.groups.any fun e => e.1 / 65 == ag.core && e.2.splits.any fun p =>
    !(e.1 % 65 == ag.slot && p.1 == ag.split) && p.2.wait == some (.mailbox m put)
      && (decide (p.2.waitFrom < since)))
    && !(put && (s.core ag.core).mq.any fun o =>
      o.completed && !o.asleep && decide (o.computeAt < since) && (match o.put with | some (k, _) => k == m | none => false))

/-- The state in which a mailbox wait ends. -/
def mailboxServes (c : Core) (m : Nat) (put : Bool) : Bool :=
  let st := (tabGet Mailbox.init c.mbx m).state
  if put then st != .full else st != .empty

/-- R310: batch n is among those completed. -/
def batchDone (completed n : Nat) : Bool := decide ((completed + 2 ^ 32 - n % 2 ^ 32) % 2 ^ 32 < 2 ^ 31)

/-- The entries of the matrix queue held by a stream (R262). -/
def streamOps (s : State) (core : Nat) (g : Group) : List MatOp :=
  (s.core core).mq.filter fun o => o.owner == (g.launch, g.groupId)

/-- Those that can still change RERUNS or WFAIL (R271). -/
def flagOps (s : State) (core : Nat) (g : Group) : List MatOp := (streamOps s core g).filter fun o => o.subs.any fun x => !x.done

/-- R336: bytes of the checkpoint banks in use, but for a slot's own snapshot. -/
def banksUsed (c : Core) (slot : Nat) : Nat := sumNat ((c.banks.filter fun e => e.1 != slot).map (·.2))
def bankBytes : Nat := 65536

/-! ### Slots of a queue (R300) -/

/-- Packets of an issuer in the ring unconsumed. -/
def issuerUsed (q : Queue) (i : Nat) : Nat :=
  (q.issuers.filter fun e => e.2 == i && decide ((BitVec.ofNat 32 e.1 - q.rptr).toNat < (q.wptr - q.rptr).toNat)).length

/-- Whether an issuer can take a slot (R300). -/
def canTake (q : Queue) (i : Nat) : Bool :=
  let free := 2 ^ q.log2n - (q.wptr - q.rptr).toNat
  if i < q.niss ∧ issuerUsed q i < q.res then decide (0 < free)
  else
    let kept := sumNat (((List.range q.niss).filter (· != i)).map fun j => q.res - issuerUsed q j)
    decide (kept < free)

/-- The issuer index of a launch's work (R278). -/
def issuerOf (s : State) (l : Nat) : Nat :=
  match s.launch? l with
  | some k => (match s.queue? k.queue with | some q => q.iss | none => 0)
  | none => 0

/-- The ENQs that began to wait for a queue before this agent, and could take a slot now. -/
def earlierEnq (s : State) (ag : Agent) (q : Nat) (qu : Queue) : Bool :=
  (s.enqWait.takeWhile fun a => a != ag).any fun a =>
    match s.group? a.core a.slot, s.split? a with
    | some g, some sp =>
      (match sp.wait with | some (.queue r _) => r == q | _ => false) && canTake qu (issuerOf s g.launch)
    | _, _ => false

/-- The wait of an ENQ is over: the queue runs and has a slot for it. -/
def queueServes (s : State) (ag : Agent) (g : Group) (q : Nat) : Bool :=
  match s.queue? q with
  | some qu => qu.qstate == 1 && canTake qu (issuerOf s g.launch) && !earlierEnq s ag q qu
  | none => false

/-- R291: a record can be accepted by the node. -/
def nodeHasRoom (s : State) (l node : Nat) : Bool :=
  match s.launch? l with
  | none => true
  | some k =>
    match s.queue? k.queue with
    | none => true
    | some q =>
      match tabFind q.nodes node with
      | none => true
      | some n => n.filling != 0 || decide (n.busy.length < n.bslots)

/-- Whether what a split waits for has come. -/
def waitOver (s : State) (ag : Agent) (g : Group) (sp : Split) (now : Nat) : Wait → Bool
  | .await m => !sp.pending.any fun p => (match p.tag with | some t => m.getLsbD t | none => false)
  | .results => sp.pending.isEmpty
  | .join _ => false
  | .barrier cluster b n =>
    match s.launch? g.launch with
    | some l => instanceDone (tabGet 0 l.bars (barKey g cluster b)) n
    | none => true
  | .mailbox m put => mailboxServes (s.core ag.core) m put && firstAtMailbox s ag m put sp.waitFrom
  | .mailboxOff _ => false
  -- a word whose frame has passed to another tenant is translated again
  | .cut pa n => frameLost s (s.whoOf ag.core g).tenant pa || decide (n < cutVersion (s.num pa 8)) || cutState (s.num pa 8) != cutOpen
  | .event t => sp.ev || decide (t ≤ now)
  | .batch n => batchDone g.completed n
  | .batchSlot => decide (g.batches.length < 16)
  | .copySlot => decide ((s.core ag.core).copies.length < 64)
  | .queue q _ => queueServes s ag g q
  | .fetchw => g.fetching.isNone
  | .record node _ => nodeHasRoom s g.launch node
  | .drain => g.committed.isEmpty
  | .snapshot n => decide (banksUsed (s.core ag.core) ag.slot + n ≤ bankBytes)
  | .farCut t => decide (t ≤ now)
  | .matrixSlot => decide ((s.core ag.core).mq.length < 8)
  | .matrix => (streamOps s ag.core g).isEmpty
  | .flags => (flagOps s ag.core g).isEmpty
  | .port cls => !portFull s (dieOf ag.core) cls

/-- The AWAIT mask of the split's next instruction, where it can be fetched: that of the one after a BAR, BWAIT or WFE at which
the split waits, since that one has issued. -/
def nextAwait (s : State) (ag : Agent) (g : Group) (sp : Split) : BitVec 8 :=
  match fetchBytes s ag g (if sp.issuedWait then sp.next else sp) with
  | .ok l => BitVec.ofNat 8 (wordField (wordOfBytes l) 30 23)
  | .error _ => 0

/-- R145: the split is ready, or becomes so by time alone. -/
def isReady (s : State) (ag : Agent) (g : Group) (sp : Split) : Bool :=
  canIssue s ag g sp
    && (match sp.wait with
        | some (.event _) | some (.farCut _) => true
        | some k => waitOver s ag g sp s.cycle k
        | none => true)
    && waitOver s ag g sp s.cycle (.await (nextAwait s ag g sp))

/-- The cycle from which it is ready: waits of a known length end then (R155, R362), and a new run follows its results (R24). -/
def readyFrom (sp : Split) : Nat :=
  let wait := match sp.wait with | some (.event t) => if sp.ev then 0 else t | some (.farCut t) => t | _ => 0
  Nat.max (Nat.max sp.readyAt (if sp.run = 0 then maxNat (sp.flight.map (·.ready)) else 0)) (Nat.max wait (sp.pkHold.getD 0))

/-- A candidate to issue: its agent, quadrant, class, the cycle from which it is ready, and its run row. -/
structure Cand where
  ag : Agent
  quad : Nat
  stream : Bool
  cls : Bool
  ready : Nat
  tired : Bool
  inRun : Bool
  /-- The cycle in which its choice cuts the run that occupies the quadrant; 0 where it cuts none. -/
  cutAt : Nat := 0
  deriving DecidableEq, Repr

/-- The ready splits and streams. -/
def candidates (s : State) : List Cand :=
  s.groups.flatMap fun e =>
    (e.2.splits.filter fun p => isReady s ⟨e.1 / 65, e.1 % 65, p.1⟩ e.2 p.2).map fun p =>
      let core := e.1 / 65
      let slot := e.1 % 65
      let w := s.whoOf core e.2
      let q := tabGet Quad.init (s.core core).quads e.2.quad
      let row := if w.cls then q.rowH else q.rowG
      { ag := ⟨core, slot, p.1⟩, quad := core * 4 + e.2.quad, stream := e.2.stream, cls := w.cls,
        ready := readyFrom p.2,
        tired := row.slot == slot && row.split == p.1 && decide (8 ≤ row.count), inRun := p.2.run != 0 }

/-- R147's order among ready splits of a free quadrant: class, the eight-run rule, age, slot, split. -/
def candKey (c : Cand) : Nat :=
  ((((c.cls.toNat * 2 + c.tired.toNat) * 2 ^ 64 + c.ready) * 64) + c.ag.slot) * 4 + c.ag.split

/-- The choice for a free quadrant from cycle t on: among those ready at the first cycle in which one is. -/
def pickFree (t : Nat) (l : List Cand) : Option (Cand × Nat) :=
  match leastBy (fun c => c.ready) l with
  | none => none
  | some f =>
    let at_ := Nat.max t f.ready
    (leastBy candKey (l.filter fun c => decide (c.ready ≤ at_))).map fun c => (c, at_)

/-- A choice in an occupied quadrant: the cycle in which it falls, its rank among those of one cycle, and what issues when. -/
structure Choice where
  at_ : Nat
  rank : Nat
  who : Cand
  issue : Nat

/-- The choice in one quadrant with its issue cycle, under the cuts of Table 6.3. `next` is the cycle in which the next
instruction of the run that occupies it could issue but for its AWAIT, and `cls` that run's class. The run goes on at `next`,
unless an earlier cut falls: for occupancy once 384 cc have passed, for await where the run is held there, and for a class cut,
after whose cycle a harvest run issues nothing and the chosen split issues two cycles later. An occupancy cut that falls
within a STALL takes effect when the 384 cc have passed, which bounds the run as R148 says (log 61). -/
def pickQuad (q : Quad) (now next : Nat) (cls : Bool) (l : List Cand) : Option (Cand × Nat) :=
  let own (c : Cand) : Bool := q.owner == some (c.ag.slot, c.ag.split)
  if q.owner.isNone then pickFree (Nat.max now q.freeAt) l
  else
    let others := l.filter fun c => !own c
    let at_ := Nat.max q.freeAt next
    -- the first of some splits to be ready from a cycle on cuts the run there, and the quadrant is free for all
    let cut (rank late t : Nat) (by_ : List Cand) : Option Choice :=
      (pickFree t by_).bind fun e => (pickFree e.2 others).map fun c =>
        ⟨e.2, if e.2 = t then rank else late, { c.1 with cutAt := e.2 }, c.2⟩
    let urgent := if cls then others.filter fun c => !c.cls else []
    let choices : List (Option Choice) :=
      [ cut 0 0 (Nat.max q.freeAt (q.since + Config.occupancyLimit)) (others.filter fun c => c.cls == cls),
        (match (l.filter own).head? with
          | some o => some ⟨at_, 1, o, at_⟩
          | none => cut 1 3 at_ others),
        (pickFree (q.freeAt - 1) urgent).map fun e => ⟨e.2, 2, { e.1 with cutAt := Nat.max e.2 q.freeAt }, e.2 + 2⟩ ]
    (leastBy (fun x => x.at_ * 4 + x.rank) (choices.filterMap id)).map fun x => (x.who, Nat.max now x.issue)

/-- The cycle in which the run that occupies a quadrant goes on but for its AWAIT, and its class. -/
def ownerView (s : State) (core : Nat) (q : Quad) : Nat × Bool :=
  match q.owner with
  | none => (0, false)
  | some o =>
    match s.group? core o.1, s.split? ⟨core, o.1, o.2⟩ with
    | some g, some sp => (readyFrom sp, (s.whoOf core g).cls)
    | _, _ => (0, false)

/-- The quadrants with a ready split, and each one's choice; a stream stands for itself. -/
def winners (s : State) : List (Cand × Nat) :=
  let cs := candidates s
  let streams := (cs.filter (·.stream)).map fun c => (c, Nat.max s.cycle c.ready)
  let vec := cs.filter fun c => !c.stream
  let quads := vec.foldl (fun l c => natInsert c.quad l) []
  streams ++ quads.filterMap fun k =>
    let q := tabGet Quad.init (s.core (k / 4)).quads (k % 4)
    let o := ownerView s (k / 4) q
    pickQuad q s.cycle o.1 o.2 (vec.filter fun c => c.quad == k)

/-- The next issuer on the module, with its cycle: the earliest, ties by a free value. -/
def chooseNext (s : State) : Option (Cand × Nat) :=
  let ws := winners s
  match leastBy (fun e => e.2) ws with
  | none => none
  | some f =>
    let ties := ws.filter fun e => e.2 == f.2
    ties[Config.freeNat s.free 11 % ties.length]?

/-- The state in which the chosen split has its turn, not before its cycle, and its quadrant knows of the cut. -/
def giveTurn (s : State) (c : Cand) (at_ : Nat) : State :=
  let s := { s with turn := some c.ag }
  let s := if c.stream then s
    else s.modCore c.ag.core fun k => { k with quads := tabUpd Quad.init k.quads (c.quad % 4) fun q => { q with cutAt := c.cutAt } }
  s.modSplit c.ag fun sp => { sp with readyAt := Nat.max sp.readyAt at_ }

/-! ### The end of a wait for room or for an engine -/

/-- Waits whose end a step of an engine, or of another agent, brings in its own cycle (R304). Those that end at a distance of
the manual's are given theirs where they end (R169, R311, R362). -/
def Wait.bySteps : Wait → Bool
  | .batch _ | .batchSlot | .copySlot | .queue _ _ | .fetchw | .record _ _ | .drain | .snapshot _ | .matrixSlot | .matrix | .flags
  | .port _ => true
  | .await _ | .results | .join _ | .barrier _ _ _ | .mailbox _ _ | .mailboxOff _ | .cut _ _ | .event _ | .farCut _ => false

/-- The wait of this split was not over yet. -/
def stillWaited (s : State) (ag : Agent) (k : Wait) : Bool :=
  match s.group? ag.core ag.slot, s.split? ag with
  | some g, some sp => sp.wait == some k && !waitOver s ag g sp s.cycle k
  | _, _ => false

/-- R147: a split whose wait a step has ended is ready from that step's cycle. -/
def wokenSplit (before after : State) (ag : Agent) (g : Group) (sp : Split) : Split :=
  match sp.wait with
  | some k =>
    if k.bySteps && waitOver after ag g sp after.cycle k && stillWaited before ag k then
      { sp with readyAt := Nat.max sp.readyAt after.cycle }
    else sp
  | none => sp

/-- The state after a step, once the splits whose wait it has ended know their cycle. -/
def woken (before after : State) : State :=
  { after with groups := after.groups.map fun e =>
      (e.1, { e.2 with splits := e.2.splits.map fun p => (p.1, wokenSplit before after ⟨e.1 / 65, e.1 % 65, p.1⟩ e.2 p.2) }) }

/-- The same of an outcome. -/
def wokenBy (s : State) : Host.Outcome State Fault Refusal → Host.Outcome State Fault Refusal
  | .next t => .next (woken s t)
  | .fault r => .fault r
  | .refused r => .refused r

end Sys2Proof.Machine
end

