-- ==== Sys2Proof/Machine/Barrier.lean ====
section
/-! DEFINITION. Barriers (R143, R144, R167 to R169, R342): arrivals by thread, completion, and their instructions. -/
namespace Sys2Proof.Machine
open Sys2Proof

/-- Key of a thread's arrivals in its home group. -/
def arrivalKey (cluster : Bool) (b vl : Nat) : Nat := (cluster.toNat * 16 + b) * 32 + vl

/-- The number of arrivals of a thread that have been counted (R342). -/
def countedOf (g : Group) (k : Nat) : Nat := Nat.max (tabGet 0 g.arrivals k) (tabGet 0 g.counted k)

/-- The arrivals of the thread that is furthest behind; none when every thread has exited (R143). -/
def leastArrivals (g : Group) (cluster : Bool) (b : Nat) : Option Nat :=
  let live := lanesOf (~~~g.exited)
  leastBy id (live.map fun l => countedOf g (arrivalKey cluster b l))

/-- The groups that a barrier of this group's team or cluster expects and that have not ended: those placed. One that a FETCHW
withdrew and that is never placed is not expected (log 79). -/
def expected (s : State) (g : Group) (cluster : Bool) : List Group :=
  (s.groups.filter fun e => e.2.launch == g.launch && e.2.cluster == g.cluster && !e.2.stream && !e.2.repacked
    && (cluster || e.2.team == g.team)).map (·.2)

/-- Completed instances once every expected group has arrived at them. -/
def completedNow (s : State) (g : Group) (cluster : Bool) (b old : Nat) : Nat :=
  match leastBy id ((expected s g cluster).filterMap fun h => leastArrivals h cluster b) with
  | some n => Nat.max old n
  | none => old

/-- Complete what can be completed of one barrier, and wake its waiters (R169). -/
def settleBarrier (s : State) (g : Group) (cluster : Bool) (b : Nat) : State :=
  match s.launch? g.launch with
  | none => s
  | some l =>
    let key := barKey g cluster b
    let old := tabGet 0 l.bars key
    let n := completedNow s g cluster b old
    if n = old then s
    else
      let s := s.modLaunch g.launch fun l => { l with bars := tabSet 0 l.bars key n }
      let ready := s.cycle + (if cluster then 24 else 8)
      let wake (h : Group) : Group :=
        if h.launch = g.launch ∧ h.cluster = g.cluster ∧ (cluster = true ∨ h.team = g.team) then
          { h with splits := h.splits.map fun e => match e.2.wait with
              | some (.barrier c k i) =>
                if c = cluster ∧ k = b ∧ instanceDone n i then (e.1, { e.2 with readyAt := Nat.max e.2.readyAt ready }) else e
              | _ => e }
        else h
      { s with groups := s.groups.map fun e => (e.1, wake e.2) }

/-- After threads of a group have exited: every barrier of its team and cluster. -/
def settleBarriers (s : State) (g : Group) : State :=
  (List.range 16).foldl (fun s b => settleBarrier (settleBarrier s g false b) g true b) s

/-- One arrival of every thread of the executing split (R168): the state, and the instance of the arrival. -/
def Ctx.arrive (c : Ctx) (cluster : Bool) (b : Nat) : Nat × State :=
  let threads := c.act.map fun l => c.g.thread c.ag.slot l
  let (n, s) := threads.foldl (fun (acc : Nat × State) t =>
    let home := t / 32
    match acc.2.group? c.ag.core home with
    | none => acc
    | some h =>
      let k := arrivalKey cluster b (t % 32)
      let at_ := tabGet 0 h.arrivals k
      (Nat.max acc.1 at_, acc.2.putGroup c.ag.core home { h with arrivals := tabSet 0 h.arrivals k (at_ + 1) }))
    (0, c.s)
  (n, settleBarrier s c.g cluster b)

def Ctx.barCluster (c : Ctx) : Bool := vr c.w == 1
def Ctx.barNo (c : Ctx) : Nat := c.w.imm.toNat % 16

/-- Whether instance n of the group's barrier has completed. -/
def Ctx.instanceOver (c : Ctx) (s : State) (n : Nat) : Bool :=
  match s.launch? c.g.launch with
  | some l => instanceDone (tabGet 0 l.bars (barKey c.g c.barCluster c.barNo)) n
  | none => true

/-- Wait for instance n. -/
def Ctx.awaitInstance (c : Ctx) (s : State) (n : Nat) : Eff :=
  if c.instanceOver s n then .done s else .wait (c.stalled s) (.barrier c.barCluster c.barNo n)

/-- R169: the arrival that completes an instance makes its own split ready with those that wait, and its run is cut with theirs:
it counts as a cut, and its latch slots become invalid. -/
def Ctx.released (c : Ctx) (s : State) : State :=
  (countPrivate (freeQuad s c.ag) c.who 1).modSplit c.ag fun sp => { sp with latch := [], readyAt := Nat.max sp.readyAt (c.now + (if c.barCluster then 24 else 8)) }

/-- R168: BAR. A split that waits at it has arrived already. -/
def execBar (w : Fields) (s : State) : Host.Outcome State Fault Refusal :=
  runInstr (.bar w) (fun c =>
    match c.sp.wait with
    | some (.barrier _ _ n) => c.awaitInstance c.s n
    | _ =>
      let (n, s) := c.arrive c.barCluster c.barNo
      let completes := c.instanceOver s (n % 2 ^ 32) && !c.instanceOver c.s (n % 2 ^ 32)
      c.awaitInstance (if completes then c.released s else s) (n % 2 ^ 32)) s

/-- R168. D is the instance's number modulo 2^32, as G counts (log 79). -/
def execArrive (w : Fields) (s : State) : Host.Outcome State Fault Refusal :=
  runInstr (.arrive w) (fun c =>
    let (n, s) := c.arrive c.barCluster c.barNo
    .done (writeFixed s c.ag (c.now + c.x + 8) (destCells c .n64 2 fun _ => n % 2 ^ 32))) s

def execBwait (w : Fields) (s : State) : Host.Outcome State Fault Refusal :=
  runInstr (.bwait w) (fun c => c.awaitInstance c.s (c.a32 c.lane0)) s

end Sys2Proof.Machine
end

