-- ==== Sys2Proof/Machine/Integer.lean ====
section
/-! DEFINITION. Moves, integer arithmetic, logic, shifts, bit fields, comparison and address arithmetic (R84 to R96). -/
namespace Sys2Proof.Machine
open Sys2Proof

/-- The range of an integer type's elements. -/
def tyLo (t : Ty) : Int := if tySigned t then -(2 ^ (tyWidth t - 1) : Nat) else 0
def tyHi (t : Ty) : Int := if tySigned t then (2 ^ (tyWidth t - 1) : Nat) - 1 else (2 ^ tyWidth t : Nat) - 1

/-- How an exact element result is written (R88). -/
def storeInt (t : Ty) (saturate : Bool) (x : Int) : Nat := wrap (if saturate then sat x (tyLo t) (tyHi t) else x) (tyWidth t)

/-- Element by element over one, two and three operands. -/
def elems1 (t : Ty) (f : Int → Nat) (a : Nat) : Nat :=
  packElems (tyWidth t) ((elemsOf (tyWidth t) (tyElems t) a).map fun x => f (elemVal t x))
def elems2 (t : Ty) (f : Int → Int → Nat) (a b : Nat) : Nat := zipElems t (fun x y => f (elemVal t x) (elemVal t y)) a b
def elems3 (t : Ty) (f : Int → Int → Int → Nat) (a b c : Nat) : Nat :=
  let w := tyWidth t
  let n := tyElems t
  packElems w ((List.zip (elemsOf w n a) (List.zip (elemsOf w n b) (elemsOf w n c))).map fun e =>
    f (elemVal t e.1) (elemVal t e.2.1) (elemVal t e.2.2))

/-- Two-operand integer arithmetic (Table 4.3). -/
def Ctx.arith2 (c : Ctx) (f : Int → Int → Int) : Eff :=
  c.alu fun l => elems2 c.w.ty (fun x y => storeInt c.w.ty (bit78 c.w) (f x y)) (c.a l) (c.b l)
def Ctx.arith1 (c : Ctx) (f : Int → Int) : Eff :=
  c.alu fun l => elems1 c.w.ty (fun x => storeInt c.w.ty (bit78 c.w) (f x)) (c.a l)

/-- Quotient and remainder of R89. -/
def divOf (a b : Int) (w : Nat) : Int := if b = 0 then (2 ^ w : Nat) - 1 else Int.tdiv a b
def remOf (a b : Int) : Int := if b = 0 then a else a - Int.tdiv a b * b

def execNop (w : Fields) (s : State) : Host.Outcome State Fault Refusal := runInstr (.nop w) (fun c => .done c.s) s

/-- R85. -/
def execMov (w : Fields) (s : State) : Host.Outcome State Fault Refusal :=
  runInstr (.mov w) (fun c => c.alu fun l => c.a l) s

/-- R86. -/
def execMovi (w : Fields) (s : State) : Host.Outcome State Fault Refusal :=
  runInstr (.movi w) (fun c => c.alu fun _ => wrap (simm c.w) (tyWidth c.w.ty)) s

def movhVal (a n v : Nat) : Nat := a - a / 2 ^ (16 * n) % 2 ^ 16 * 2 ^ (16 * n) + v * 2 ^ (16 * n)
def execMovh (w : Fields) (s : State) : Host.Outcome State Fault Refusal :=
  runInstr (.movh w) (fun c => c.alu fun l => movhVal (c.a l) (vr c.w) (c.w.imm.toNat % 2 ^ 16)) s

/-- R87. -/
def execSel (w : Fields) (s : State) : Host.Outcome State Fault Refusal :=
  runInstr (.sel w) (fun c => c.alu fun l => if c.pred (opC c.w) l then c.a l else c.b l) s

def execIadd (w : Fields) (s : State) : Host.Outcome State Fault Refusal := runInstr (.iadd w) (fun c => c.arith2 (· + ·)) s
def execIsub (w : Fields) (s : State) : Host.Outcome State Fault Refusal := runInstr (.isub w) (fun c => c.arith2 (· - ·)) s
def execImul (w : Fields) (s : State) : Host.Outcome State Fault Refusal := runInstr (.imul w) (fun c => c.arith2 (· * ·)) s
def execImulh (w : Fields) (s : State) : Host.Outcome State Fault Refusal :=
  runInstr (.imulh w) (fun c => c.arith2 fun x y => (x * y) / (2 ^ tyWidth c.w.ty : Nat)) s
def execImad (w : Fields) (s : State) : Host.Outcome State Fault Refusal :=
  runInstr (.imad w) (fun c => c.alu fun l =>
    elems3 c.w.ty (fun x y z => storeInt c.w.ty (bit78 c.w) (x * y + z)) (c.a l) (c.b l) (c.c' l)) s

/-- R89. -/
def execIdiv (w : Fields) (s : State) : Host.Outcome State Fault Refusal :=
  runInstr (.idiv w) (fun c => c.long (tyRegs c.w.ty) fun l =>
    elems2 c.w.ty (fun x y => wrap (divOf x y (tyWidth c.w.ty)) (tyWidth c.w.ty)) (c.a l) (c.b l)) s
def execIrem (w : Fields) (s : State) : Host.Outcome State Fault Refusal :=
  runInstr (.irem w) (fun c => c.long (tyRegs c.w.ty) fun l =>
    elems2 c.w.ty (fun x y => wrap (remOf x y) (tyWidth c.w.ty)) (c.a l) (c.b l)) s

def execImin (w : Fields) (s : State) : Host.Outcome State Fault Refusal := runInstr (.imin w) (fun c => c.arith2 min) s
def execImax (w : Fields) (s : State) : Host.Outcome State Fault Refusal := runInstr (.imax w) (fun c => c.arith2 max) s
def execIabs (w : Fields) (s : State) : Host.Outcome State Fault Refusal :=
  runInstr (.iabs w) (fun c => c.arith1 fun x => (x.natAbs : Int)) s
def execIneg (w : Fields) (s : State) : Host.Outcome State Fault Refusal := runInstr (.ineg w) (fun c => c.arith1 fun x => -x) s

/-- Table 4.4. -/
def execAndb (w : Fields) (s : State) : Host.Outcome State Fault Refusal :=
  runInstr (.andb w) (fun c => c.alu fun l => Nat.land (c.a l) (c.b l)) s
def execOrb (w : Fields) (s : State) : Host.Outcome State Fault Refusal :=
  runInstr (.orb w) (fun c => c.alu fun l => Nat.lor (c.a l) (c.b l)) s
def execXorb (w : Fields) (s : State) : Host.Outcome State Fault Refusal :=
  runInstr (.xorb w) (fun c => c.alu fun l => Nat.xor (c.a l) (c.b l)) s
def execAndn (w : Fields) (s : State) : Host.Outcome State Fault Refusal :=
  runInstr (.andn w) (fun c => c.alu fun l => Nat.xor (c.a l) (Nat.land (c.a l) (c.b l))) s

/-- R91: shifts of a w-bit value by n. -/
def shlVal (w a n : Nat) : Nat := if w ≤ n then 0 else a * 2 ^ n % 2 ^ w
def shrVal (w a n : Nat) : Nat := if w ≤ n then 0 else a / 2 ^ n
def sarVal (w a n : Nat) : Nat := wrap (sext a w / (2 ^ Nat.min n (w - 1) : Nat)) w
def rotVal (w a n : Nat) : Nat :=
  let m := n % w
  (a * 2 ^ m + a / 2 ^ (w - m)) % 2 ^ w

def execShl (w : Fields) (s : State) : Host.Outcome State Fault Refusal :=
  runInstr (.shl w) (fun c => c.alu fun l => shlVal (tyWidth c.w.ty) (c.a l) (c.b32 l)) s
def execShr (w : Fields) (s : State) : Host.Outcome State Fault Refusal :=
  runInstr (.shr w) (fun c => c.alu fun l => shrVal (tyWidth c.w.ty) (c.a l) (c.b32 l)) s
def execSar (w : Fields) (s : State) : Host.Outcome State Fault Refusal :=
  runInstr (.sar w) (fun c => c.alu fun l => sarVal (tyWidth c.w.ty) (c.a l) (c.b32 l)) s
def execRot (w : Fields) (s : State) : Host.Outcome State Fault Refusal :=
  runInstr (.rot w) (fun c => c.alu fun l => rotVal (tyWidth c.w.ty) (c.a l) (c.b32 l)) s

/-- R92: the position and length a field control selects. -/
def fieldOf (w ctl : Nat) : Nat × Nat :=
  let pos := ctl % 256
  (pos, if w ≤ pos then 0 else Nat.min (ctl / 256 % 256) (w - pos))
def bfxVal (t : Ty) (a ctl : Nat) : Nat :=
  let (pos, n) := fieldOf (tyWidth t) ctl
  if n = 0 then 0
  else
    let f := a / 2 ^ pos % 2 ^ n
    if tySigned t then wrap (sext f n) (tyWidth t) else f
def bfiVal (w a b ctl : Nat) : Nat :=
  let (pos, n) := fieldOf w ctl
  let old := a / 2 ^ pos % 2 ^ n
  a - old * 2 ^ pos + b % 2 ^ n * 2 ^ pos

def execBfx (w : Fields) (s : State) : Host.Outcome State Fault Refusal :=
  runInstr (.bfx w) (fun c => c.alu fun l => bfxVal c.w.ty (c.a l) (c.b32 l)) s
def execBfi (w : Fields) (s : State) : Host.Outcome State Fault Refusal :=
  runInstr (.bfi w) (fun c => c.alu fun l => bfiVal (tyWidth c.w.ty) (c.a l) (c.b l) (c.c32 l)) s

/-- Counts and reversal over the low w bits. -/
def popcount (w a : Nat) : Nat := ((List.range w).filter fun i => a.testBit i).length
def clzVal (w a : Nat) : Nat := if a = 0 then w else w - 1 - a.log2
def brevVal (w a : Nat) : Nat := (List.range w).foldl (fun r i => r + (if a.testBit i then 2 ^ (w - 1 - i) else 0)) 0

def execPopc (w : Fields) (s : State) : Host.Outcome State Fault Refusal :=
  runInstr (.popc w) (fun c => c.alu fun l => popcount (tyWidth c.w.ty) (c.a l)) s
def execClz (w : Fields) (s : State) : Host.Outcome State Fault Refusal :=
  runInstr (.clz w) (fun c => c.alu fun l => clzVal (tyWidth c.w.ty) (c.a l)) s
def execBrev (w : Fields) (s : State) : Host.Outcome State Fault Refusal :=
  runInstr (.brev w) (fun c => c.alu fun l => brevVal (tyWidth c.w.ty) (c.a l)) s

/-- Table 4.5. -/
def intCond (code : Nat) (a b : Int) : Bool :=
  match code with
  | 1 => a == b
  | 2 => a != b
  | 3 => decide (a < b)
  | 4 => decide (a ≤ b)
  | 5 => decide (b < a)
  | 6 => decide (b ≤ a)
  | _ => true

/-- The optional third predicate of a comparison. -/
def Ctx.andC (c : Ctx) (l : Nat) : Bool := !cimm c.w || c.pred (opC c.w) l

/-- R94. -/
def execIcmp (w : Fields) (s : State) : Host.Outcome State Fault Refusal :=
  runInstr (.icmp w) (fun c => c.alu fun l =>
    (intCond (vr c.w) (elemVal c.w.ty (c.a l)) (elemVal c.w.ty (c.b l)) && c.andC l).toNat) s

/-- R95. -/
def isatVal (t : Ty) (a n : Nat) : Nat :=
  let w := tyWidth t
  let x := sext a w
  if n = 0 then 0
  else if tySigned t then
    if w ≤ n then wrap x w else wrap (sat x (-(2 ^ (n - 1) : Nat)) ((2 ^ (n - 1) : Nat) - 1)) w
  else wrap (sat x 0 ((2 ^ Nat.min n (w - 1) : Nat) - 1)) w

/-- B is read under TYPE, its bits [31:0] giving the count (log 22). -/
def execIsat (w : Fields) (s : State) : Host.Outcome State Fault Refusal :=
  runInstr (.isat w) (fun c => c.alu fun l => isatVal c.w.ty (c.a l) (c.b l % 2 ^ 32)) s

/-- R96. -/
def execLea (w : Fields) (s : State) : Host.Outcome State Fault Refusal :=
  runInstr (.lea w) (fun c => c.alu fun l =>
    wrap ((c.a l : Int) + (c.b l * 2 ^ vr c.w : Nat) + simm c.w) (tyWidth c.w.ty)) s

end Sys2Proof.Machine
end

