-- ==== Sys2Proof/Machine/Control.lean ====
section
/-! DEFINITION. Runs, transfers, divergence and the end of lanes (R105 to R111, R137, R138, R141, R154 to R156). -/
namespace Sys2Proof.Machine
open Sys2Proof

/-- The cycle after an instruction's STALL (R25, R31). -/
def Ctx.nextCycle (c : Ctx) : Nat := c.now + Nat.max c.w.stall.toNat c.x + 1
def Ctx.jumpCycle (c : Ctx) : Nat := c.now + Nat.max c.w.stall.toNat c.x + 3

/-- R105, R20. -/
def execRunend (w : Fields) (s : State) : Host.Outcome State Fault Refusal :=
  runInstr (.runend w) (fun c => .settled ((freeQuad c.s c.ag).modSplit c.ag fun sp =>
    { (sp.endRun (c.w.imm.toNat % 8)).next with readyAt := c.nextCycle })) s

/-- The code offset of R61. A target outside the 57-bit address space is a number from 2^57 on. -/
def Ctx.codeTarget (c : Ctx) : Nat :=
  let t : Int := (c.sp.pc.toNat : Int) + 12 + simm c.w * 4
  if 0 ≤ t then t.toNat else wrap t 57 + 2 ^ 57

/-- R107. -/
def execBra (w : Fields) (s : State) : Host.Outcome State Fault Refusal :=
  runInstr (.bra w) (fun c => .jump c.s c.codeTarget) s
def execBraCond (w : Fields) (s : State) : Host.Outcome State Fault Refusal :=
  runInstr (.braCond w) (fun c =>
    if intCond (vr c.w) (elemVal c.w.ty (c.a c.lane0)) (elemVal c.w.ty (c.b c.lane0)) then .jump c.s c.codeTarget
    else .done c.s) s

/-- R108: a transfer to a0.base + a. At or above 2^57 the target lies outside a0, and the fetch there raises CAP_BOUNDS (R106,
R193). -/
def Ctx.indirect (c : Ctx) (s : State) : Eff :=
  let t := c.a0.cap.base.toNat + c.a64 c.lane0
  if t % 4 != 0 then .fault c.s fMisaligned (t % 2 ^ 64) c.amask else .jump s t

def execBrx (w : Fields) (s : State) : Host.Outcome State Fault Refusal := runInstr (.brx w) (fun c => c.indirect c.s) s
def execRet (w : Fields) (s : State) : Host.Outcome State Fault Refusal := runInstr (.ret w) (fun c => c.indirect c.s) s

/-- R109: the link. -/
def Ctx.linked (c : Ctx) : State :=
  c.fixed 4 (destCells c .n64 2 fun _ => wrap ((c.sp.pc.toNat : Int) + 12 - c.a0.cap.base.toNat) 64)
def execCall (w : Fields) (s : State) : Host.Outcome State Fault Refusal :=
  runInstr (.call w) (fun c => .jump c.linked c.codeTarget) s
def execCallInd (w : Fields) (s : State) : Host.Outcome State Fault Refusal :=
  runInstr (.callInd w) (fun c => c.indirect c.linked) s

/-- R111. It waited for every result before it issued, as if its AWAIT named every tag. -/
def execClk (w : Fields) (s : State) : Host.Outcome State Fault Refusal :=
  runInstr (.clk w) (fun c =>
    Ctx.alu { c with s := c.s.modSplit c.ag fun sp => { sp with unawaited := sp.unawaited.filter fun e => e.1.isNone } }
      fun _ => c.now % 2 ^ (32 * tyRegs c.w.ty)) s

/-! ### The deferral stack -/

/-- The entry below an entry: the nearest lower one whose parent mask holds its lanes. -/
def belowEntry (stack : List Deferral) (i : Nat) : Option Nat :=
  let m := match stack[i]? with | some e => e.parent | none => 0
  ((List.range i).reverse.filter fun j => match stack[j]? with | some e => m &&& e.parent == m | none => false).head?

/-- Remove entry i; the splits' innermost entries follow the shift. -/
def popEntry (g : Group) (i : Nat) : Group :=
  let below := belowEntry g.stack i
  let fix (o : Option Nat) : Option Nat :=
    match o with
    | none => none
    | some j => if j = i then below else if i < j then some (j - 1) else some j
  { g with stack := g.stack.eraseIdx i, splits := g.splits.map fun e => (e.1, { e.2 with inner := fix e.2.inner }) }

/-- The split that waits at a JOIN under entry i. -/
def joinWaiter (g : Group) (i : Nat) : Option (Nat × Split × Nat) :=
  (g.splits.filterMap fun e => match e.2.wait with
    | some (.join a) => if e.2.inner = some i then some (e.1, e.2, a) else none
    | _ => none).head?

def pathMask (e : Deferral) : BitVec 32 := match e.path with | some p => p.2 | none => 0
def waitMask (e : Deferral) : BitVec 32 := match e.waiting with | some p => p.2 | none => 0

/-- R138's condition: every lane it counts has exited or waits. -/
def entryReady (g : Group) (e : Deferral) (waiting : BitVec 32) : Bool :=
  e.parent &&& ~~~g.exited &&& ~~~(pathMask e) &&& ~~~(waiting ||| waitMask e) == 0

/-- Start the deferred path of entry i in a slot, or resume the entry's lanes after the JOIN and pop it. The split is ready four
cycles after the JOIN or the EXIT that completes the entry's condition; R156 gives that number for a JOIN (log 80). -/
def continueSlot (g : Group) (i slot : Nat) (sp : Split) (addr now : Nat) (waiting : BitVec 32) : Group :=
  match g.stack[i]? with
  | none => g
  | some e =>
    let fresh := { sp.endRun 7 with readyAt := Nat.max sp.readyAt (now + 4) }
    match e.path with
    | some (pc, m) =>
      let record := if waiting = 0 ∧ e.waiting = none then none else some (addr, waiting ||| waitMask e)
      let e := { e with path := none, waiting := record }
      { g with stack := listSetAt g.stack i e, splits := tabPut g.splits slot { fresh.goTo pc with mask := m } }
    | none =>
      let sp := { fresh.goTo (addr + 12) with mask := e.parent &&& ~~~g.exited, inner := some i }
      popEntry { g with splits := tabPut g.splits slot sp } i

/-- Lanes that wait under an entry stay at a JOIN.team, where their group dissolves (R141). -/
def staysAtTeam (g : Group) (i : Nat) (e : Deferral) : Bool := i == 0 && g.teamJoin.isSome && e.path.isNone

/-- One entry, if its condition holds. -/
def settleEntry (g : Group) (now i : Nat) : Group :=
  match g.stack[i]?, joinWaiter g i with
  | some e, some (slot, sp, a) =>
    if entryReady g e sp.mask && !staysAtTeam g i e then continueSlot g i slot sp a now sp.mask else g
  | _, _ => g

/-- Every entry, the newest first. -/
def settleEntries (g : Group) (now : Nat) : Group := (List.range g.stack.length).reverse.foldl (fun g i => settleEntry g now i) g

/-- A slot whose split has ended: the deferred path or the waiting record of its innermost entries goes on there when no
split of the entry is left. -/
def reuseSlot (g : Group) (slot : Nat) (sp : Split) (now : Nat) : Nat → Group
  | 0 => g
  | fuel + 1 =>
    match sp.inner with
    | none => g
    | some i =>
      match g.stack[i]? with
      | none => g
      | some e =>
        if g.splits.any fun x => x.2.mask &&& e.parent != 0 then g
        else if e.parent &&& g.absent != 0 then g
        else if staysAtTeam g i e then
          match e.waiting with
          | some (a, m) =>
            let sp := { sp.endRun 7 with pc := BitVec.ofNat 57 a, mask := m, wait := some (.join a) }
            { g with stack := listSetAt g.stack i { e with waiting := none }, splits := tabPut g.splits slot sp }
          | none => g
        else if e.path.isSome || e.waiting.isSome then
          continueSlot g i slot sp (match e.waiting with | some w => w.1 | none => 0) now 0
        else
          let below := belowEntry g.stack i
          reuseSlot (popEntry g i) slot { sp with inner := below } now fuel

/-- Merge two splits that wait at one JOIN (R138). `a` holds the lowest lane. -/
def mergeSplits (a b : Split) : Split :=
  let lanesOnly (c : RegCell) : Bool := match c.loc with | .k _ | .a _ => false | _ => true
  { a with
    mask := a.mask ||| b.mask, status := a.status ||| b.status, readyAt := Nat.max a.readyAt b.readyAt
    pending := a.pending ++ b.pending.map (fun p => { p with cells := p.cells.filter lanesOnly })
    unawaited := a.unawaited ++ b.unawaited.filter fun e => lanesOnly ⟨e.2, 0, 0⟩
    flight := a.flight ++ b.flight.map (fun f => { f with old := f.old.filter lanesOnly }) }

def lowestLane (m : BitVec 32) : Nat := (lanesOf m).headD 32

/-- A split enters the wait of a JOIN under entry i: it merges with the one already there. -/
def enterJoin (g : Group) (slot : Nat) (sp : Split) (i addr : Nat) : Group :=
  let sp := { sp.endRun 7 with wait := some (.join addr) }
  match joinWaiter { g with splits := tabErase g.splits slot } i with
  | none => { g with splits := tabPut g.splits slot sp }
  | some (k, o, _) =>
    if lowestLane sp.mask < lowestLane o.mask then
      { g with splits := tabPut (tabErase g.splits k) slot (mergeSplits sp o) }
    else { g with splits := tabPut (tabErase g.splits slot) k (mergeSplits o sp) }

/-- Whether a JOIN at this address would meet lanes of the entry that wait at another. -/
def joinConflict (g : Group) (slot i addr : Nat) : Bool :=
  let others := match joinWaiter { g with splits := tabErase g.splits slot } i with
    | some (_, _, a) => a != addr
    | none => false
  let record := match g.stack[i]? with
    | some e => (match e.waiting with | some w => w.1 != addr | none => false)
    | none => false
  others || record

/-- R138, R156. -/
def Ctx.join (c : Ctx) : Eff :=
  match c.sp.inner with
  | none =>
    .settled ((freeQuad c.s c.ag).modSplit c.ag fun sp => { (sp.endRun 7).next with readyAt := c.nextCycle })
  | some i =>
    if joinConflict c.g c.ag.split i c.sp.pc.toNat then c.trap fDivergeDepth
    else
      .settled ((freeQuad c.s c.ag).modGroup c.ag.core c.ag.slot fun g =>
        match tabFind g.splits c.ag.split with
        | some sp => settleEntry (enterJoin g c.ag.split sp i sp.pc.toNat) c.now i
        | none => g)

def execJoin (w : Fields) (s : State) : Host.Outcome State Fault Refusal := runInstr (.join w) (fun c => c.join) s

/-! ### BRC -/

/-- The entry of a BRC (R137, steps 1 and 2): the stack and the innermost entry after it. -/
def brcEntry (g : Group) (sp : Split) (pc : Nat) : Option (List Deferral × Nat) :=
  let same := match sp.inner with
    | some i => (match g.stack[i]? with | some e => if e.brc = pc then some i else none | none => none)
    | none => none
  match same with
  | some i => some (g.stack, i)
  | none => if 8 ≤ g.stack.length then none else some (g.stack ++ [⟨pc, sp.mask, none, none⟩], g.stack.length)

/-- The results of a split but for those of lanes that its other child takes; the tags stay (R137). Results of lanes that wait
or are deferred go on with the slot that they will run in. -/
def pendingFor (m : BitVec 32) (ps : List Pending) : List Pending :=
  ps.map fun p => { p with cells := p.cells.filter fun x => match x.loc with
    | .k _ | .a _ => true
    | _ => m.getLsbD x.lane }

/-- The lowest free split slot. -/
def freeSlot (g : Group) : Option Nat := ((List.range 4).filter fun i => (tabFind g.splits i).isNone).head?

/-- Record deferred lanes in an entry (R137, step 5). -/
def deferInto (e : Deferral) (pc : Nat) (m : BitVec 32) : Option Deferral :=
  match e.path with
  | none => some { e with path := some (pc, m) }
  | some (p, k) => if p = pc then some { e with path := some (p, k ||| m) } else none

/-- BRC with its entry made; `hold` marks the taken path of BRC.pk (R155), which is held for 32 cc (log 68). Committed entries
are performed before the group has a second split, so that their flags reach the split that issued them (R256). -/
def Ctx.brcWith (c : Ctx) (hold : Bool) (stack : List Deferral) (i : Nat) : Eff :=
  let taken := maskOf (c.lanes.filter fun l => c.pred c.w.a l)
  let fall := c.sp.mask &&& ~~~taken
  let held : Option Nat := if hold then some (c.jumpCycle + 32) else none
  let put (s : State) (f : Group → Split → Group) : State :=
    s.modGroup c.ag.core c.ag.slot fun g =>
      match tabFind g.splits c.ag.split with
      | some sp => f { g with stack := stack } sp
      | none => g
  if taken = 0 then
    .done (put c.s fun g sp => { g with splits := tabPut g.splits c.ag.split { sp with inner := some i } })
  else if fall = 0 then
    .jump (put c.s fun g sp =>
      { g with splits := tabPut g.splits c.ag.split { sp with inner := some i, pkHold := held } }) c.codeTarget
  else
    match freeSlot c.g with
    | some k =>
      .settled (put ((freeQuad (drainCommitted c.s c.ag.core c.ag.slot) c.ag).modCore c.ag.core (Core.newSplit c.ag.slot k)) fun g sp =>
        let base := { sp.endRun 7 with inner := some i }
        let a := { base.goTo c.codeTarget with
                   mask := taken, readyAt := c.jumpCycle, pending := pendingFor (~~~fall) base.pending, pkHold := held }
        let b := { base.next with mask := fall, readyAt := c.nextCycle, pending := pendingFor fall base.pending }
        { g with splits := tabPut (tabPut g.splits c.ag.split a) k b })
    | none =>
      let deferTaken := decide ((lanesOf taken).length ≤ (lanesOf fall).length)
      match stack[i]? with
      | none => c.trap fDivergeDepth
      | some e =>
        match deferInto e (if deferTaken then c.codeTarget else c.sp.pc.toNat + 12) (if deferTaken then taken else fall) with
        | none => c.trap fDivergeDepth
        | some e =>
          .settled (put (freeQuad c.s c.ag) fun g sp =>
            { g with
              stack := listSetAt stack i e
              splits := tabPut g.splits c.ag.split
                { (if deferTaken then (sp.endRun 7).next else (sp.endRun 7).goTo c.codeTarget) with
                  inner := some i, mask := if deferTaken then fall else taken
                  readyAt := if deferTaken then c.nextCycle else c.jumpCycle, pkHold := if deferTaken then none else held } })

def Ctx.brc (c : Ctx) (hold : Bool) : Eff :=
  match brcEntry c.g c.sp c.sp.pc.toNat with
  | none => c.trap fDivergeDepth
  | some (stack, i) => c.brcWith hold stack i

/-- R137, R154. -/
def execBrc (w : Fields) (s : State) : Host.Outcome State Fault Refusal := runInstr (.brc w) (fun c => c.brc false) s
/-- R155. -/
def execBrcPk (w : Fields) (s : State) : Host.Outcome State Fault Refusal := runInstr (.brcPk w) (fun c => c.brc true) s

/-! ### Dissolving a repacked group (R141) -/

/-- Per-lane registers of a lane, moved to another group and lane. -/
def moveLane {α : Type} (src dst : Tab α) (n a b : Nat) : Tab α :=
  (List.range n).foldl (fun t i => match tabFind src (i * 32 + a) with
    | some v => tabPut t (i * 32 + b) v
    | none => tabErase t (i * 32 + b)) dst

/-- The per-lane state of a thread moves (R139). -/
def moveThread (src dst : Group) (a b : Nat) : Group :=
  { dst with v := moveLane src.v dst.v 256 a b, p := moveLane src.p dst.p 8 a b, g := moveLane src.g dst.g 32 a b,
             sr := moveLane src.sr dst.sr 1 a b }

/-- Cells of the lanes that go home, at their home lanes; per-split registers stay those of the split. -/
def homeCells (src : Group) (lanes : List Nat) (l : List RegCell) : List RegCell :=
  l.filterMap fun c => match c.loc with
    | .k _ | .a _ => some c
    | _ => if lanes.contains c.lane then some { c with lane := src.thread 64 c.lane % 32 } else none

/-- A split of a repacked group as it goes home with some of its lanes: its outstanding results go with them (log 73). -/
def Split.homeward (sp : Split) (src : Group) (lanes : List Nat) (inner : Option Nat) (now : Nat) : Split :=
  { sp.endRun 7 with
    mask := maskOf (lanes.map fun l => src.thread 64 l % 32), inner := inner, pc := sp.pc + 12
    readyAt := Nat.max sp.readyAt (now + 4)
    pending := (tagPending 7 sp.pending).map fun p => { p with cells := homeCells src lanes p.cells }
    flight := sp.flight.map fun f => { f with old := homeCells src lanes f.old } }

/-- Threads of one home group return to it as one split after the JOIN.team, under the entry of its BRC.pk. -/
def returnHome (s : State) (core home : Nat) (src : Group) (lanes : List Nat) (sp : Split) (now : Nat) : State :=
  match s.group? core home with
  | none => s
  | some h =>
    let back := maskOf (lanes.map fun l => src.thread 64 l % 32)
    let h := lanes.foldl (fun h l => moveThread src h l (src.thread 64 l % 32))
      { h with absent := h.absent &&& ~~~back, failed := h.failed ++ src.failed.map fun f => { f with batch := h.completed } }
    match freeSlot h with
    | some slot =>
      let inner := if h.stack.isEmpty then none else some 0
      (s.modCore core (Core.newSplit home slot)).putGroup core home { h with splits := tabPut h.splits slot (sp.homeward src lanes inner now) }
    | none =>
      -- the home group holds four splits again: the lanes are a deferred path of their entry (log 24)
      match h.stack with
      | e :: r => s.putGroup core home { h with stack := (deferInto e (sp.pc.toNat + 12) back).getD e :: r }
      | [] => s.putGroup core home h

/-- A home group can take lanes back: into a free slot, or as a deferred path. -/
def takesBack (s : State) (core pc home : Nat) : Bool :=
  match s.group? core home with
  | none => true
  | some h => (freeSlot h).isSome || match h.stack with | e :: _ => (deferInto e pc 0).isSome | [] => false

/-- A repacked group dissolves, with the lanes of a split that stands at its JOIN.team. Where a home group holds four splits,
the results still outstanding are written first; where it cannot take its lanes, the group raises DIVERGE_DEPTH, as in R137. -/
def dissolve (s : State) (ag : Agent) (lanes : BitVec 32) (now : Nat) : State :=
  match s.group? ag.core ag.slot with
  | none => s
  | some g =>
    let back := (lanesOf lanes).map fun x => g.thread ag.slot x
    let homes := back.foldl (fun l t => natInsert (t / 32) l) []
    let full := homes.any fun h => match s.group? ag.core h with | some x => (freeSlot x).isNone | none => false
    let s := if full then flushPending s ag else s
    match s.group? ag.core ag.slot, s.split? ag with
    | some g, some sp =>
      if !homes.all (takesBack s ag.core (sp.pc.toNat + 12)) then raiseTerminal s s ag fDivergeDepth (noInfo s) lanes
      else
        let s := s.modCore ag.core fun k => { k with remap := k.remap.filter fun e => !back.contains e.1 }
        let s := homes.foldl (fun s h =>
          returnHome s ag.core h g ((lanesOf lanes).filter fun x => g.thread ag.slot x / 32 == h) sp now) s
        removeGroup s ag.core ag.slot
    | _, _ => s

/-- A repacked group whose lanes have all come to their JOIN.team dissolves. -/
def settleTeam (s : State) (core slot now : Nat) : State :=
  match s.group? core slot with
  | none => s
  | some g =>
    match g.stack, joinWaiter g 0 with
    | e :: _, some (k, sp, _) =>
      if g.repacked && staysAtTeam g 0 e && entryReady g e sp.mask then
        dissolve s ⟨core, slot, k⟩ (e.parent &&& ~~~g.exited) now
      else s
    | _, _ => s

/-- JOIN.team (R141, R156). In a repacked group the lanes of its first entry wait as R138 states and then dissolve it; with
that entry popped by a JOIN, the one split that is left does so at once. -/
def Ctx.joinTeam (c : Ctx) : Eff :=
  if !c.g.repacked then c.join
  else if 1 < c.g.stack.length then c.trap fDivergeDepth
  else
    match c.sp.inner with
    | none => .settled (dissolve (freeQuad c.s c.ag) c.ag c.sp.mask c.now)
    | some i =>
      if joinConflict c.g c.ag.split i c.sp.pc.toNat then c.trap fDivergeDepth
      else
        .settled (settleTeam ((freeQuad c.s c.ag).modGroup c.ag.core c.ag.slot fun g =>
          match tabFind g.splits c.ag.split with
          | some sp => settleEntry { enterJoin g c.ag.split sp i sp.pc.toNat with teamJoin := some sp.pc.toNat } c.now i
          | none => g) c.ag.core c.ag.slot c.now)

/-! ### The end of lanes and groups -/

/-- A group or stream has ended (R110, R143, R282, R292). -/
def endGroup (s : State) (core slot : Nat) : State :=
  match s.group? core slot with
  | none => s
  | some g =>
    let s := removeGroup s core slot
    if g.repacked then s
    else if g.stream then s.modLaunch g.launch fun l => { l with streams := l.streams - 1 }
    else
      let s := s.modLaunch g.launch fun l => { l with ended := l.ended + 1, endedIds := natInsert g.groupId l.endedIds }
      let s := match g.withdrawn with
        | some (l, id) => s.modLaunch l fun l => { l with ended := l.ended + 1, endedIds := natInsert id l.endedIds }
        | none => s
      settleBarriers s g

/-- Threads of a repacked group exit in their home groups too. -/
def exitAtHome (s : State) (core : Nat) (threads : List Nat) (now : Nat) : State :=
  threads.foldl (fun s t =>
    match s.group? core (t / 32) with
    | none => s
    | some h =>
      let bit := maskOf [t % 32]
      let h := settleEntries { h with exited := h.exited ||| bit, absent := h.absent &&& ~~~bit } now
      let s := s.putGroup core (t / 32) h
      if h.splits.isEmpty && h.absent == 0 then endGroup s core (t / 32) else settleBarriers s h) s

/-- R140: the remap entry of a thread; a thread where its group was placed has its key as GSLOT and PLANE. -/
def remapEntry (s : State) (core thread : Nat) : BitVec 12 :=
  tabGet (BitVec.ofNat 12 (0x800 + thread)) (s.core core).remap thread

/-- PRESENT falls when a thread exits. -/
def markExited (s : State) (core : Nat) (threads : List Nat) : State :=
  threads.foldl (fun s t => s.modCore core fun c => { c with remap := tabPut c.remap t (remapEntry s core t &&& 0x7FF#12) }) s

/-- A copy's terminal fault ends its launch whatever TVEC holds (R326); R310 raises it at the CWAIT, and where none
covers it the EXIT that would end the group does (log 69). The record is the copy's, and while the port is full the
instruction waits (R332). -/
def Ctx.copyFails (c : Ctx) (f : CopyFault) : Eff :=
  if portFull c.s (dieOf c.ag.core) (faultClass c.s c.ag c.g 1) then .wait c.s (.port (faultClass c.s c.ag c.g 1))
  else
    .settled (endLaunch c.s c.g.launch f.code
      { splitRecord c.s c.ag c.g c.sp f.code 1 f.info 0 with pc := f.pc, srck := 2, split := 0 })

/-- A failed copy of a home group that ends with these threads of a repacked group. -/
def homeFailed (s : State) (core : Nat) (threads : List Nat) : Option CopyFault :=
  leastBy (·.copy) ((threads.foldl (fun l t => natInsert (t / 32) l) []).flatMap fun home =>
    match s.group? core home with
    | some h =>
      let gone := maskOf ((threads.filter fun t => t / 32 == home).map fun t => t % 32)
      if h.splits.isEmpty && h.absent &&& ~~~gone == 0 then h.failed else []
    | none => [])

/-- An EXIT takes effect, unless it ends a home group with a failed copy. -/
def Ctx.exitHome (c : Ctx) (s : State) : Eff :=
  match if c.g.repacked then homeFailed c.s c.ag.core (c.lanes.map fun l => c.g.thread c.ag.slot l) else none with
  | some f => c.copyFails f
  | none => .settled s

/-- R110. -/
def Ctx.exit (c : Ctx) : Eff :=
  if c.g.stream && c.g.witnessFault && !c.lanes.isEmpty then c.trap fMmaWitness
  else
    let gone := maskOf c.lanes
    let left := c.sp.mask &&& ~~~gone
    let s := markExited c.s c.ag.core (c.lanes.map fun l => c.g.thread c.ag.slot l)
    let s := (freeQuad s c.ag).modGroup c.ag.core c.ag.slot fun g =>
      match tabFind g.splits c.ag.split with
      | none => g
      | some sp =>
        let g := { g with exited := g.exited ||| gone }
        let g := if left = 0 then reuseSlot { g with splits := tabErase g.splits c.ag.split } c.ag.split { sp with pending := [], unawaited := [] } c.now 9
          else { g with splits := tabPut g.splits c.ag.split { (sp.endRun 7).next with mask := left, readyAt := c.nextCycle } }
        settleEntries g c.now
    let s := if c.g.repacked then
        settleTeam (exitAtHome s c.ag.core (c.lanes.map fun l => c.g.thread c.ag.slot l) c.now) c.ag.core c.ag.slot c.now
      else s
    match s.group? c.ag.core c.ag.slot with
    | none => c.exitHome s
    | some g =>
      if g.splits.isEmpty && g.absent == 0 then
        match leastBy (·.copy) g.failed with
        | some f => c.copyFails f
        | none => c.exitHome (endGroup s c.ag.core c.ag.slot)
      else c.exitHome (settleBarriers s g)

def execExit (w : Fields) (s : State) : Host.Outcome State Fault Refusal := runInstr (.exit w) (fun c => c.exit) s

def execJoinTeam (w : Fields) (s : State) : Host.Outcome State Fault Refusal := runInstr (.joinTeam w) (fun c => c.joinTeam) s

end Sys2Proof.Machine
end

