-- ==== Sys2Proof/Machine/Sync.lean ====
section
/-! DEFINITION. Bindings, acquires and releases, fences and cut words as instructions (R251 to R259). -/
namespace Sys2Proof.Machine
open Sys2Proof

/-- A cut-word operand (R239, R241): one 8-byte access for the split. -/
def Ctx.cutAccess (c : Ctx) (mask : Nat) (k : State → Place → Eff) : Eff :=
  c.globalOn (c.lanes.take 1) (c.capAt c.w.a) 8 8 mask fun s acc =>
    match goodOf acc with
    | e :: _ => k s e.2
    | [] => c.endLanes s acc

/-- The device and virtual address that name a word in bindings. -/
def cutName (s : State) : Place → Nat × Nat
  | .mem va _ _ => (s.regs.deviceId.toNat, va)
  | .sp _ off _ => (s.regs.deviceId.toNat, off)
  | .far d va => (d, va)

/-- Bindings of the context as BIND's tests count them (R251): those performed, changed by this group's committed and held
entries in order, and the held BINDs of its other groups, which reserve their ranges. -/
def Ctx.bindingsSeen (c : Ctx) : List Binding :=
  let mine := c.g.committed ++ (match c.g.region with | some r => r.held | none => [])
  let performed := (c.s.context c.who.context).bindings
  let own := mine.foldl (fun l h => match h with
    | .bind b => withBinding b l
    | .unbind dev base len => withoutRange dev base len l
    | .unbindWord wdev word => withoutWord wdev word l
    | _ => l) performed
  let others := c.s.groups.flatMap fun e =>
    if e.1 = groupKey c.ag.core c.ag.slot ∨ e.2.context ≠ c.g.context then []
    else
      let held := (match e.2.region with | some r => r.held | none => []) ++ e.2.committed
      held.filterMap fun h => match h with
        | .bind b => if b.len = 0 then none else some b
        | _ => none
  own ++ others

/-- What BIND asks of the range's capability (R251): PR or PW, and step 2 of R194, which of a remote range is the reach list
(R369). Host memory is no range of it (R370). -/
def rangeCheck (s : State) (w : Who) (r : Cap) : Option Nat :=
  if (!r.pr && !r.pw) || r.device == 0xFFFFF#20 then some fCapPerm else capCheck s w { r with pr := true } 0 0 1 permR

/-- R219, R251. -/
def execBind (w : Fields) (s : State) : Host.Outcome State Fault Refusal :=
  runInstr (.bind w) (fun c => c.regional (c.cutAccess permR fun s p =>
    let r := (c.cap c.w.d).cap
    let base := r.base.toNat
    let dev := r.device.toNat
    match rangeCheck s c.who r with
    | some code => .fault s code base c.amask
    | none =>
      if r.len = 0 then .done s
      else if c.bindingsSeen.any fun b => bindOverlaps b dev base r.len then .fault s fBindOverlap base c.amask
      else if Config.bindingLimit ≤ c.bindingsSeen.length then .fault s fBindOverlap (2 ^ 63 + base) c.amask
      else c.emit s [.bind ⟨dev, base, r.len, (cutName s p).1, (cutName s p).2⟩] fun s => .done s)) s

/-- R252. -/
def execUnbind (w : Fields) (s : State) : Host.Outcome State Fault Refusal :=
  runInstr (.unbind w) (fun c => c.regional
    (let r := (c.cap c.w.d).cap
     c.emit c.s [.unbind r.device.toNat r.base.toNat r.len] fun s => .done s)) s
def execUnbindWord (w : Fields) (s : State) : Host.Outcome State Fault Refusal :=
  runInstr (.unbindWord w) (fun c => c.regional (c.cutAccess permR fun s p =>
    c.emit s [.unbindWord (cutName s p).1 (cutName s p).2] fun s => .done s)) s

/-- The 64-bit word of a cut-word operand at its home. -/
def cutWordAt (s : State) (p : Place) : Nat := loadAt s p 8

/-- The acquire of R253 on a word by this core. The read of the word is an atomic's, so the core's L1 line of the word is
updated or invalidated (R218, R229). -/
def Ctx.acquire (c : Ctx) (s : State) (p : Place) : State :=
  let s := match p with | .mem _ _ pa => l1Fresh s c.ag.core pa 8 | _ => s
  acquireOn s c.ag.core c.who.context (some (cutName s p))

/-- R253. -/
def execAcq (w : Fields) (s : State) : Host.Outcome State Fault Refusal :=
  runInstr (.acq w) (fun c => c.cutAccess permR fun s p => .done (c.acquire (drainCommitted s c.ag.core c.ag.slot) p)) s

/-- A cut-word operation outside a region, performed after the split's earlier writes (R253, R256), or held in one (R228). -/
def Ctx.cutRelease (c : Ctx) (kind : Nat) (s : State) (p : Place) : Eff :=
  match c.g.region with
  | some _ => c.emit s [.cut kind p] fun s => .done s
  | none =>
    let (s, ex) := cutAt (drainCommitted s c.ag.core c.ag.slot) c.who kind p
    .done (setCutFlags s c.ag ex)

def execRel (w : Fields) (s : State) : Host.Outcome State Fault Refusal :=
  runInstr (.rel w) (fun c => c.regional (c.cutAccess permR (c.cutRelease 0))) s

/-- R223, R254. Accesses are performed in the order of the steps, so a release has only held work and acknowledgements to
wait for; an acquire at cluster scope or wider empties the core's L1 of the context's lines. A matrix stream's accesses are
those of its queued operations too, so that beyond split scope it waits for them. -/
def execFence (w : Fields) (s : State) : Host.Outcome State Fault Refusal :=
  runInstr (.fence w) (fun c =>
    let kind := rmCode c.w
    let scope := vr c.w
    let s := drainCommitted c.s c.ag.core c.ag.slot
    if c.stream && scope != 0 && !(streamOps s c.ag.core c.g).isEmpty then .wait s .matrix
    else
      let s := if kind != 1 && scope == 6 then allAcked s c.who.context (some c.ag.core) else s
      .done (if kind != 2 && decide (3 ≤ scope) then l1Drop s c.ag.core fun l => l.owner == c.who.context else s)) s

/-- R225, R255. The accesses of P that are reported complete have been performed in this model, so what remains is the
group's committed entries, and the L1 lines that copies (2 in VARIANT[3:2]) and the chuck unit's reads (3) left behind, from
which later loads on LS or MX would read older bytes. -/
def execXfence (w : Fields) (s : State) : Host.Outcome State Fault Refusal :=
  runInstr (.xfence w) (fun c =>
    let s := drainCommitted c.s c.ag.core c.ag.slot
    let q := vr c.w % 4
    .done (if 2 ≤ vr c.w / 4 ∧ (q = 0 ∨ q = 3) then l1Drop s c.ag.core fun l => l.owner == c.who.context else s)) s

/-- R256. -/
def execCutinit (w : Fields) (s : State) : Host.Outcome State Fault Refusal :=
  runInstr (.cutinit w) (fun c => c.regional (c.cutAccess (permR + permW) (c.cutRelease 1))) s
def execPubcut (w : Fields) (s : State) : Host.Outcome State Fault Refusal :=
  runInstr (.pubcut w) (fun c => c.regional (c.cutAccess (permR + permW) (c.cutRelease 2))) s
def execFincut (w : Fields) (s : State) : Host.Outcome State Fault Refusal :=
  runInstr (.fincut w) (fun c => c.regional (c.cutAccess (permR + permW) (c.cutRelease 3))) s

/-- The cells of a 64-bit result. -/
def Ctx.cells64 (c : Ctx) (v : Nat) : List RegCell := destCells c .n64 2 fun _ => v

/-- R257. Of a word of another device the core learns at a time that is a free value (log 78). -/
def execWaitcut (w : Fields) (s : State) : Host.Outcome State Fault Refusal :=
  runInstr (.waitcut w) (fun c => c.cutAccess permR fun s p =>
    let s := drainCommitted s c.ag.core c.ag.slot
    let n := c.c32 c.lane0
    let v := cutWordAt s p
    if n < cutVersion v ∨ cutState v ≠ cutOpen then .done (writeNow (c.acquire s p) c.ag (c.cells64 v))
    else
      match p with
      | .mem _ _ pa => .wait s (.cut pa n)
      | _ => .wait s (.farCut (c.now + 1 + Config.freeNat s.free 23 % 2 ^ 16))) s

/-- R258. -/
def execCutchk (w : Fields) (s : State) : Host.Outcome State Fault Refusal :=
  runInstr (.cutchk w) (fun c => c.cutAccess permR fun s p =>
    let s := drainCommitted s c.ag.core c.ag.slot
    .done (writeLong (c.acquire s p) c.ag (c.cells64 (cutWordAt s p)))) s

/-- R259: an input of the running task has moved past its launch version, or is cancelled. -/
def taskStale (s : State) (g : Group) : Bool :=
  match s.launch? g.launch with
  | some l =>
    match l.task with
    | some t =>
      match s.task? t with
      | some k => k.inputs.any fun i => decide (i.2.2 < cutVersion (wordNum s i.2.1)) || cutState (wordNum s i.2.1) == cutCancelled
      | none => false
    | none => false
  | none => false

/-- The words that STALE reads, physical addresses. Each read is an atomic's (R218, R229). -/
def staleWords (s : State) (g : Group) : List Nat :=
  match (s.launch? g.launch).bind fun l => l.task.bind s.task? with
  | some k => k.inputs.map fun i => i.2.1
  | none => []

def execStale (w : Fields) (s : State) : Host.Outcome State Fault Refusal :=
  runInstr (.stale w) (fun c =>
    let s := (staleWords c.s c.g).foldl (fun s pa => l1Fresh s c.ag.core pa 8) c.s
    .done (writeLong s c.ag (destCells { c with lanes := c.act } .b32 1 fun _ => (taskStale c.s c.g).toNat))) s

end Sys2Proof.Machine
end

