-- ==== Sys2Proof/Machine/Engines.lean ====
section
/-! DEFINITION. Copies and batches, mailboxes, matrix operations and device-side enqueue as instructions (R303 to R323). -/
namespace Sys2Proof.Machine
open Sys2Proof

/-! ### Copies (R306 to R308, R365) -/

/-- One access that a copy's checks cover: capability, permission, offset, bytes and alignment. -/
structure CopySpan where
  cap : Cap
  mask : Nat
  off : Int
  size : Nat
  align : Nat

/-- The permission that a CPYG needs on its index list: read, and one that no capability has where it names the host, which is
accepted as a source or destination alone (R370). -/
def indexPerm (c : Cap) : Nat := if c.device = 0xFFFFF#20 then 16 else permR

/-- R308: permissions, then tenants, then the bounds of every byte (R193), then the alignment of the index list. -/
def copyFault (s : State) (w : Who) (l : List CopySpan) : Option (Nat × Nat) :=
  let at_ (x : CopySpan) : Nat := wrap ((x.cap.base.toNat : Int) + x.off) 64
  let perm := l.filterMap fun x => if x.cap.has x.mask then none else some (fCapPerm, at_ x)
  let tenant := l.filterMap fun x => (capCheck s w x.cap 0 0 1 0 true).map fun c => (c, at_ x)
  let outside (x : CopySpan) : Bool :=
    x.size != 0 && (decide (x.off < 0) || decide ((x.cap.len : Int) < x.off + x.size)
      || decide ((2 ^ 57 : Int) < x.cap.base.toNat + x.off + x.size))
  let range := l.filterMap fun x => if outside x then some (fCapBounds, at_ x) else none
  let askew := l.filterMap fun x => if at_ x % x.align != 0 then some (fMisaligned, at_ x) else none
  (perm ++ tenant ++ range ++ askew).head?

/-- A copy enters the group's open batch, or is held in its region (R305). -/
def Ctx.copy (c : Ctx) (limits : Bool) (spans : List CopySpan) (dst src idx : Cap) (shape : CopyShape) : Eff :=
  c.regional
    (if !limits then c.trap fIllegalOperand
     else
      match copyFault c.s c.who spans with
      | some (code, info) => .fault c.s code info c.amask
      | none =>
        if c.g.region.isNone && decide (64 ≤ (c.s.core c.ag.core).copies.length) then .wait c.s .copySlot
        else c.emit c.s [.copy c.sp.pc dst src idx shape] fun s => .done s)

def Ctx.copyDst (c : Ctx) : Cap := (c.cap c.w.d).cap
def Ctx.copySrc (c : Ctx) : Cap := (c.cap c.w.a).cap

def execCpy (w : Fields) (s : State) : Host.Outcome State Fault Refusal :=
  runInstr (.cpy w) (fun c =>
    let doff := c.kAt c.w.b 0
    let soff := c.kAt c.w.b 1
    let len := c.kAt c.w.b 2
    c.copy true [⟨c.copySrc, permR, soff, len, 1⟩, ⟨c.copyDst, permW, doff, len, 1⟩] c.copyDst c.copySrc Cap.null
      (.linear doff soff len)) s

/-- The hull of a strided pattern: its lowest offset relative to the start, and its bytes. -/
def hullOf (n : List Nat) (st : List Int) (e : Nat) : Int × Nat :=
  let reach := List.zipWith (fun (n : Nat) (s : Int) => ((n : Int) - 1) * s) n st
  let lo := sumInt (reach.map fun x => min x 0)
  let hi := sumInt (reach.map fun x => max x 0)
  (lo, (hi - lo).toNat + e)

def execCpys (w : Fields) (s : State) : Host.Outcome State Fault Refusal :=
  runInstr (.cpys w) (fun c =>
    let k (i : Nat) : Nat := c.kAt c.w.b i
    let st (i : Nat) : Int := sext (k i) 64
    let e := bits (k 2) 15 0
    let n := [bits (k 2) 31 16, bits (k 2) 47 32, bits (k 2) 63 48]
    let hs := hullOf n [st 3, st 4, st 5] e
    let hd := hullOf n [st 6, st 7, st 8] e
    let none_ := n.contains 0
    let size (h : Int × Nat) : Nat := if none_ then 0 else h.2
    c.copy (decide (1 ≤ e) && decide (e ≤ 4096))
      [⟨c.copySrc, permR, (k 1 : Int) + hs.1, size hs, 1⟩, ⟨c.copyDst, permW, (k 0 : Int) + hd.1, size hd, 1⟩]
      c.copyDst c.copySrc Cap.null
      (.strided (k 0) (k 1) e (n.getD 0 0) (n.getD 1 0) (n.getD 2 0) (st 3) (st 4) (st 5) (st 6) (st 7) (st 8))) s

def execCpyg (w : Fields) (s : State) : Host.Outcome State Fault Refusal :=
  runInstr (.cpyg w) (fun c =>
    let k (i : Nat) : Nat := c.kAt c.w.b i
    let idx := (c.cap (opC c.w)).cap
    let wd := if vr c.w = 0 then 4 else 8
    let e := bits (k 2) 47 32
    let nel := bits (k 2) 31 0
    c.copy (bits (k 2) 63 48 == 0 && decide (1 ≤ e) && decide (e ≤ 4096))
      [⟨c.copySrc, permR, k 1, 0, 1⟩, ⟨idx, indexPerm idx, k 3, nel * wd, wd⟩, ⟨c.copyDst, permW, k 0, nel * e, 1⟩]
      c.copyDst c.copySrc idx (.gather (k 0) (k 1) e nel (k 3) wd)) s

/-- R365. -/
def execCkpt (w : Fields) (s : State) : Host.Outcome State Fault Refusal :=
  runInstr (.ckpt w) (fun c =>
    let k (i : Nat) : Nat := c.kAt c.w.b i
    let shard := bits (k 2) 63 32
    let nshard := bits (k 2) 31 0
    let len := k 3
    c.copy (nshard != 0 && decide (shard < nshard) && len != 0)
      [⟨c.copySrc, permR, 0, len, 1⟩, ⟨c.copyDst, permW, 0, 64 + len, 1⟩] c.copyDst c.copySrc Cap.null
      (.shard (k 0) (k 1) shard nshard len)) s

/-- R274: the batches that have completed leave the list, in order. -/
def settleGo : Nat → Group → Group
  | 0, g => g
  | fuel + 1, g =>
    match g.batches with
    | (n, []) :: r => settleGo fuel { g with batches := r, completed := n }
    | _ => g
def settleBatches (g : Group) : Group := settleGo g.batches.length g

/-- Instructions that no open region admits and no harvest group can use (R305, R338). -/
def Ctx.workOp (c : Ctx) (e : Eff) : Eff := if c.g.region.isSome || c.outsideHarvest then c.trap fIllegalOp else e

/-- R309. -/
def execCbatch (w : Fields) (s : State) : Host.Outcome State Fault Refusal :=
  runInstr (.cbatch w) (fun c =>
    if c.g.region.isSome then c.trap fIllegalOp
    else if 16 ≤ c.g.batches.length then .wait c.s .batchSlot
    else
      let n := (c.g.closed + 1) % 2 ^ 32
      let s := (drainCommitted c.s c.ag.core c.ag.slot).modGroup c.ag.core c.ag.slot fun g =>
        settleBatches { g with closed := n, batches := g.batches ++ [(n, g.openCopies)], openCopies := [] }
      .done (writeNow s c.ag (c.cells64 n))) s

/-- The fault that a CWAIT up to n raises: of the lowest-numbered failed batch up to n, the failed copy that was issued first
(R275, R310). Batches count modulo 2^32 up to n. -/
def firstFailed (g : Group) (n : Nat) : Option CopyFault :=
  let back (f : CopyFault) : Nat := (n + 2 ^ 32 - f.batch % 2 ^ 32) % 2 ^ 32
  let due := g.failed.filter fun f => batchDone n f.batch
  leastBy (·.copy) (due.filter fun f => due.all fun x => decide (back x ≤ back f))

/-- R310. -/
def execCwait (w : Fields) (s : State) : Host.Outcome State Fault Refusal :=
  runInstr (.cwait w) (fun c =>
    let n := c.a32 c.lane0
    if n != 0 && !batchDone c.g.completed n then .wait c.s (.batch n)
    else
      match firstFailed c.g n with
      | none => .done c.s
      | some f => c.copyFails f) s

/-! ### Mailboxes (R276, R311, R312) -/

def mbxOf (o : Opnd) : Nat := match o with | .m n => n.toNat | _ => 0

def State.mailbox (s : State) (core m : Nat) : Mailbox := tabGet Mailbox.init (s.core core).mbx m
def State.setMailbox (s : State) (core m : Nat) (f : Mailbox → Mailbox) : State :=
  s.modCore core fun c => { c with mbx := tabUpd Mailbox.init c.mbx m f }

/-- A put, and the readers it wakes. -/
def putMailbox (s : State) (core m : Nat) (v : DWord) : State :=
  wakeAt (s.setMailbox core m fun b => { b with value := v, state := .full }) core (· == .mailbox m false) (s.cycle + 8)

/-- The puts that wait at a mailbox of a core, asleep or not (R312). -/
def turnWriters (s : State) (core m : Nat) (asleep : Bool) : State :=
  let turn (w : Wait) : Wait :=
    if asleep then (if w = .mailbox m true then .mailboxOff m else w) else (if w = .mailboxOff m then .mailbox m true else w)
  let mine (o : MatOp) : Bool := match o.put with | some (k, _) => k == m && o.completed | none => false
  { s.modCore core fun c => { c with mq := c.mq.map fun o => if mine o then { o with asleep := asleep } else o } with
    groups := s.groups.map fun e =>
      if e.1 / 65 = core then (e.1, { e.2 with splits := e.2.splits.map fun p => (p.1, { p.2 with wait := p.2.wait.map turn }) }) else e }

/-- A read of a FULL mailbox, and the writers it wakes. -/
def takeMailbox (s : State) (core m : Nat) : State :=
  wakeAt (turnWriters (s.setMailbox core m fun b => { b with state := if b.live = 0 ∧ b.bound then .orphan else .empty }) core m false)
    core (· == .mailbox m true) (s.cycle + 8)

/-- R312: the mailbox is EMPTY without writers. Puts that waited at a FULL one are not woken. -/
def resetMailbox (s : State) (core m : Nat) : State :=
  (if (s.mailbox core m).state = .full then turnWriters s core m true else s).setMailbox core m fun b =>
    { b with writers := [], live := 0, bound := false, state := .empty }

/-- Whether this agent is the first of its kind at the mailbox. -/
def Ctx.firstHere (c : Ctx) (m : Nat) (put : Bool) : Bool :=
  firstAtMailbox c.s c.ag m put (if c.sp.wait.isSome then c.sp.waitFrom else c.s.cycle)

/-- A mailbox result: the value, and the predicate of Table 12.6. -/
def Ctx.mailed (c : Ctx) (s : State) (v : Nat) (pred : Bool) (flag : Bool) : Eff :=
  .done (writeNow s c.ag (c.cells64 v ++ (if flag then flagCells (fpCode c.w) (c.act.map fun l => (l, pred)) else [])))

def execMput (w : Fields) (s : State) : Host.Outcome State Fault Refusal :=
  runInstr (.mput w) (fun c => c.workOp
    (let m := mbxOf c.w.d
     if (c.s.mailbox c.ag.core m).state = .full ∨ !c.firstHere m true then .wait c.s (.mailbox m true)
     else .done (putMailbox c.s c.ag.core m (BitVec.ofNat 64 (c.a64 c.lane0))))) s

/-- MGET and MGET.z. -/
def Ctx.mget (c : Ctx) (z : Bool) : Eff :=
  let m := mbxOf c.w.a
  let b := c.s.mailbox c.ag.core m
  if b.state = .orphan then (if z then c.mailed c.s 0 true true else c.trap fMbxOrphan)
  else if b.state = .empty ∨ !c.firstHere m false then .wait c.s (.mailbox m false)
  else c.mailed (takeMailbox c.s c.ag.core m) b.value.toNat false z

def execMget (w : Fields) (s : State) : Host.Outcome State Fault Refusal :=
  runInstr (.mget w) (fun c => c.workOp (c.mget false)) s
def execMgetZ (w : Fields) (s : State) : Host.Outcome State Fault Refusal :=
  runInstr (.mgetZ w) (fun c => c.workOp (c.mget true)) s
/-- A value that a waiting MGET is about to take is not there for MTRY. -/
def execMtry (w : Fields) (s : State) : Host.Outcome State Fault Refusal :=
  runInstr (.mtry w) (fun c => c.workOp
    (let m := mbxOf c.w.a
     let b := c.s.mailbox c.ag.core m
     if b.state ≠ .full ∨ !firstAtMailbox c.s c.ag m false (c.s.cycle + 1) then c.mailed c.s 0 true true
     else c.mailed (takeMailbox c.s c.ag.core m) b.value.toNat false true)) s

def execMbind (w : Fields) (s : State) : Host.Outcome State Fault Refusal :=
  runInstr (.mbind w) (fun c => c.workOp
    (.done (c.s.setMailbox c.ag.core (mbxOf c.w.a) fun b =>
      if b.writers.contains c.ag.slot then b
      else { b with writers := natInsert c.ag.slot b.writers, live := b.live + 1, bound := true }))) s
def execMbindRst (w : Fields) (s : State) : Host.Outcome State Fault Refusal :=
  runInstr (.mbindRst w) (fun c => c.workOp
    (.done (resetMailbox c.s c.ag.core (mbxOf c.w.a)))) s

/-! ### Matrix operations (R262, R313 to R320) -/

/-- Enter the matrix queue, or wait for an entry. -/
def Ctx.enqueueOp (c : Ctx) (kind : MatKind) (subs : List SubOp) (put : Option (Nat × DWord)) (s : State) : Eff :=
  if 8 ≤ (c.s.core c.ag.core).mq.length then .wait c.s .matrixSlot
  else
    let op : MatOp :=
      { owner := (c.g.launch, c.g.groupId), home := (c.g.cluster, c.g.team), pc := c.sp.pc, kind := kind, started := none, computeAt := 0, rate := 0,
        subs := subs, fmtA := 0, fmtB := 0, rowsA := [], rowsB := [], slotsA := [], slotsB := [], scaleA := [],
        scaleB := [], pinned := [], readK := 0, put := put, asleep := false, failed := false, completed := false }
    .done (s.modCore c.ag.core fun k => { k with mq := k.mq ++ [op] })

/-- M and N of a SHAPE code (Table 12.4). -/
def shapeMN (shape : Nat) : Nat × Nat :=
  match shape with
  | 0 => (64, 64)
  | 1 => (128, 128)
  | 2 => (256, 128)
  | _ => (256, 256)

/-- The sub-arrays and blocks of R314, in the order of the block list; none where b breaks its condition. -/
def shapeBlocks (shape b sub : Nat) : Option (List (Nat × Nat)) :=
  let quad (q b0 : Nat) : List (Nat × Nat) := (List.range 4).map fun i => (q * 4 + i, b0 + i)
  match shape with
  | 0 => some [(b / 8 * 4 + sub, b)]
  | 1 => if b % 4 = 0 then some (quad (b / 8) b) else none
  | 2 => if b % 4 = 0 ∧ b / 8 % 2 = 0 then some (quad (b / 8) b ++ quad (b / 8 + 1) (b + 8)) else none
  | _ => if b = 0 ∨ b = 4 then some ((List.range 4).flatMap fun q => quad q (b + 8 * q)) else none

/-- An operand of MMA: its source, or the fault found at issue. -/
def Ctx.mmaSource (c : Ctx) (ring : Bool) (o : Opnd) (bound : Option RingBind) (scale : Option Nat) (rows off stride : Nat) :
    Except (Nat × Nat) MatSource :=
  if ring then
    match bound with
    | some r => if r.rows = rows then .ok (.ring r scale) else .error (fIllegalOperand, noInfo c.s)
    | none => .error (fIllegalOperand, noInfo c.s)
  else
    let cap := (c.cap o).cap
    let va := wrap ((cap.base.toNat : Int) + off) 64
    match capCheck c.s c.who cap 0 0 1 permR with
    | some code => .error (code, va)
    | none =>
      if (cap.base.toNat + off) % 128 != 0 || stride % 128 != 0 then .error (fMisaligned, va) else .ok (.l2 cap off stride)

/-- MMA, and MMAS with its put (R314, R315). -/
def Ctx.mma (c : Ctx) (put : Option (Nat × DWord)) : Eff :=
  let k (i : Nat) : Nat := c.kAt c.w.d i
  let shape := vr c.w % 4
  let mn := shapeMN shape
  let kk := bits (k 3) 12 0
  let sub := bits (k 3) 25 24
  let ok := bits (k 3) 63 26 == 0 && bits (k 3) 23 21 == 0 && bits (k 3) 15 13 == 0 && (shape == 0 || sub == 0)
    && kk % 32 == 0 && decide (32 ≤ kk) && decide (kk ≤ 4096)
  match shapeBlocks shape (bits (k 3) 20 16) sub with
  | none => c.trap fIllegalOperand
  | some blocks =>
    if !ok then c.trap fIllegalOperand
    else
      let a := c.mmaSource (c.w.var.getLsbD 3) c.w.a c.g.ringA c.g.sclA mn.1 (k 0) (bits (k 2) 31 0)
      let b := c.mmaSource (c.w.var.getLsbD 2) c.w.b c.g.ringB c.g.sclB mn.2 (k 1) (bits (k 2) 63 32)
      match a, b with
      | .error (code, info), _ => .fault c.s code info c.amask
      | _, .error (code, info) => .fault c.s code info c.amask
      | .ok a, .ok b =>
        let subs := (blocks.zip (List.range blocks.length)).map fun x =>
          { sub := x.1.1, block := x.1.2, pos := x.2, progress := 0, writeAt := none, attempt := 0, done := false, before := [] : SubOp }
        c.enqueueOp (.mma mn.1 mn.2 kk a b (bit78 c.w)) subs put c.s

def execMma (w : Fields) (s : State) : Host.Outcome State Fault Refusal := runInstr (.mma w) (fun c => c.mma none) s
def execMmas (w : Fields) (s : State) : Host.Outcome State Fault Refusal :=
  runInstr (.mmas w) (fun c => c.mma (some (mbxOf (opC c.w), BitVec.ofNat 64 (c.kAt c.w.d 4)))) s

/-- R316. -/
def execMzero (w : Fields) (s : State) : Host.Outcome State Fault Refusal :=
  runInstr (.mzero w) (fun c =>
    let a := c.a64 c.lane0
    let b := bits a 4 0
    let n := bits a 9 5 + 1
    if a / 2 ^ 10 ≠ 0 ∨ 32 < b + n then c.trap fIllegalOperand else c.enqueueOp (.zero b n) [] none c.s) s

/-- R317. -/
def Ctx.mdrain (c : Ctx) (clear : Bool) : Eff :=
  let k := c.kAt c.w.a 0
  let pitch := bits k 47 32
  let spa := bits k 23 0
  let row := if c.w.ty = .bf16x2 then 128 else 256
  if bits k 63 48 ≠ 0 ∨ bits k 31 29 ≠ 0 ∨ pitch % 16 ≠ 0 ∨ pitch < row then c.trap fIllegalOperand
  else
    match spResolve c.s c.ag.core c.g spa (63 * pitch + row) with
    | none => .fault c.s fCapBounds spa c.amask
    | some _ => c.enqueueOp (.drain c.w.ty spa pitch (bits k 28 24) clear) [] none c.s

def execMdrain (w : Fields) (s : State) : Host.Outcome State Fault Refusal := runInstr (.mdrain w) (fun c => c.mdrain false) s
def execMdrainZ (w : Fields) (s : State) : Host.Outcome State Fault Refusal := runInstr (.mdrainZ w) (fun c => c.mdrain true) s

/-- R318: the scales of later operations; the operation itself holds an entry until it starts. -/
def execMscl (w : Fields) (s : State) : Host.Outcome State Fault Refusal :=
  runInstr (.mscl w) (fun c =>
    let a := c.a32 c.lane0 % 2 ^ 24
    c.enqueueOp .scale [] none (c.s.modGroup c.ag.core c.ag.slot fun g =>
      match vr c.w with
      | 0 => { g with sclA := some a }
      | 1 => { g with sclB := some a }
      | 2 => { g with sclA := none }
      | _ => { g with sclB := none })) s

/-- R319. -/
def execMring (w : Fields) (s : State) : Host.Outcome State Fault Refusal :=
  runInstr (.mring w) (fun c =>
    let bind (r : Option RingBind) : Eff := .done (c.s.modGroup c.ag.core c.ag.slot fun g =>
      if vr c.w % 2 = 0 then { g with ringA := r } else { g with ringB := r })
    if 2 ≤ vr c.w then bind none
    else
      let k0 := c.kAt c.w.a 0
      let k1 := c.kAt c.w.a 1
      let slots := bits k0 39 32
      let spa := bits k0 23 0
      let rows := bits k1 63 48
      let fmt := bits k1 35 32
      let bytes := bits k1 31 0
      let ok := bits k0 63 40 == 0 && bits k0 31 24 == 0 && decide (1 ≤ slots) && decide (slots ≤ 64) && spa % 128 == 0
        && [64, 128, 256].contains rows && bits k1 47 36 == 0 && decide (1 ≤ fmt) && decide (fmt ≤ 8) && bytes % 128 == 0
      if !ok then c.trap fIllegalOperand
      else
        match spResolve c.s c.ag.core c.g spa (128 + slots * bytes) with
        | none => .fault c.s fCapBounds spa c.amask
        | some _ => bind (some ⟨spa, slots, bytes, fmt, rows⟩)) s

/-- R320. -/
def execMwait (w : Fields) (s : State) : Host.Outcome State Fault Refusal :=
  runInstr (.mwait w) (fun c =>
    if !(streamOps c.s c.ag.core c.g).isEmpty then .wait c.s .matrix
    else if c.g.witnessFault then c.trap fMmaWitness
    else .done c.s) s

/-- MXSTATUS (Table 12.2). -/
def mxStatusVal (s : State) (core : Nat) (g : Group) : Nat :=
  let pend := Nat.min 8 (streamOps s core g).length
  Nat.lor g.mxstatus.toNat (pend * 2 ^ 12 + (if (s.core core).suspect then 2 ^ 11 else 0))

def execMwit (w : Fields) (s : State) : Host.Outcome State Fault Refusal :=
  runInstr (.mwit w) (fun c => .done (writeNow c.s c.ag (c.cells64 (mxStatusVal c.s c.ag.core c.g)))) s

/-! ### Enqueue (R300, R321, R322) -/

/-- The step at the queue's descriptor (R322). -/
def Ctx.append (c : Ctx) (q : Nat) (qu : Queue) : Eff :=
  let bytes := (List.range 4).flatMap fun i => leBytes (c.kAt c.w.b i) 8
  let va := qu.ring.base.toNat + 32 * (qu.wptr.toNat % 2 ^ qu.log2n)
  match frontXlat c.s (c.s.part qu.part).tenant va permR with
  | .error code => .fault c.s code va c.amask
  | .ok pa =>
    let s := drainCommitted c.s c.ag.core c.ag.slot
    let s := physWrite s c.who pa bytes
    let s := s.modQueue q fun x =>
      { x with wptr := x.wptr + 1, issuers := (qu.wptr.toNat, issuerOf c.s c.g.launch) :: x.issuers.filter fun e => e.1 != qu.wptr.toNat }
    let s := { s with enqWait := s.enqWait.filter fun a => a != c.ag }
    .done (writeNow s c.ag (c.cells64 0))

/-- A blocking ENQ that cannot append (R300). -/
def Ctx.enqWaits (c : Ctx) (q etime : Nat) : Eff :=
  if etime = 0 then .fault c.s fQfullTimeout (noInfo c.s) c.amask
  else
    let since := match c.sp.wait with | some (.queue _ t) => t | _ => c.s.cycle
    .wait { c.s with enqWait := if c.s.enqWait.contains c.ag then c.s.enqWait else c.s.enqWait ++ [c.ag] } (.queue q since)

def Ctx.enq (c : Ctx) (nb : Bool) : Eff :=
  let a := c.a64 c.lane0
  let q := a % 2 ^ 12
  if a / 2 ^ 12 ≠ 0 then c.trap fIllegalOperand
  else
    let part := match c.s.queue? q with | some x => x.part | none => 0
    if part ≠ c.who.part then c.trap fCapTenant
    else
      match c.s.queue? q with
      | none => if nb then .done (writeNow c.s c.ag (c.cells64 2)) else c.enqWaits q 0
      | some qu =>
        if qu.qstate ≠ 1 then (if nb then .done (writeNow c.s c.ag (c.cells64 2)) else c.enqWaits q qu.etime)
        else if canTake qu (issuerOf c.s c.g.launch) && !earlierEnq c.s c.ag q qu then c.append q qu
        else if nb then .done (writeNow c.s c.ag (c.cells64 1))
        else c.enqWaits q qu.etime

def execEnq (w : Fields) (s : State) : Host.Outcome State Fault Refusal := runInstr (.enq w) (fun c => c.workOp (c.enq false)) s
def execEnqNb (w : Fields) (s : State) : Host.Outcome State Fault Refusal := runInstr (.enqNb w) (fun c => c.workOp (c.enq true)) s

/-- R292: a withdrawn group counts as completed. -/
def endWithdrawn (s : State) (core slot : Nat) : State :=
  match s.group? core slot with
  | none => s
  | some g =>
    match g.withdrawn with
    | none => s
    | some (l, id) =>
      (s.modLaunch l fun l => { l with ended := l.ended + 1, endedIds := natInsert id l.endedIds }).modGroup core slot
        fun g => { g with withdrawn := none }

/-- R323. -/
def execFetchw (w : Fields) (s : State) : Host.Outcome State Fault Refusal :=
  runInstr (.fetchw w) (fun c => c.workOp
    (if c.g.fetching.isSome then .wait c.s .fetchw
     else c.scratchOn (c.act.take 1) 32 32 fun s _ =>
      .done ((endWithdrawn s c.ag.core c.ag.slot).modGroup c.ag.core c.ag.slot
        fun g => { g with fetching := some (c.spAddr c.lane0).toNat }))) s

end Sys2Proof.Machine
end

