-- ==== Sys2Proof/Machine/Transcend.lean ====
section
/-! DEFINITION. The special functions of R121 to R123, bracketed exactly: each exact value is found as a magnitude
m * 2^e and a mark that it lies strictly between m * 2^e and (m + 1) * 2^e, far below one unit of f32. Which neighbour a
faithfully rounded result takes is Config.faithfulUp's choice. Roots and quotients are correctly rounded. -/
namespace Sys2Proof.Machine
open Sys2Proof

/-- Newton steps toward the integer square root of n, from above. -/
def isqrtGo (n : Nat) : Nat → Nat → Nat
  | 0, x => x
  | fuel + 1, x =>
    let y := (x + n / x) / 2
    if y < x then isqrtGo n fuel y else x

/-- floor(sqrt(n)). -/
def isqrt (n : Nat) : Nat :=
  if n = 0 then 0 else isqrtGo n (n.log2 + 8) (2 ^ (n.log2 / 2 + 1))

/-- Fixed-point precision of the power and the circular functions. -/
def trP : Nat := 256

/-- π * 2^512, truncated. -/
def piFixed : Nat :=
  0x3243f6a8885a308d313198a2e03707344a4093822299f31d0082efa98ec4e6c89452821e638d01377be5466cf34e90c6cc0ac29b7c97c50dd3f84d5b5b5470917

/-- The product over the bits of f, taken from 2^-1 down, of 2^(2^-i), in fixed point; f has n bits. -/
def exp2Frac (f : Nat) : Nat → Nat → Nat → Nat
  | 0, _, acc => acc
  | n + 1, r, acc =>
    let r' := isqrt (r * 2 ^ trP)
    exp2Frac f n r' (if f / 2 ^ n % 2 = 1 then acc * r' / 2 ^ trP else acc)

/-- 2^(f / 2^n) * 2^trP, truncated, for f below 2^n. -/
def exp2Fixed (f n : Nat) : Nat := exp2Frac f n (2 * 2 ^ trP) (2 ^ trP)

/-- The leading n fraction bits of log2(y), for 1 ≤ y = m / 2^p < 2. -/
def log2Bits (p : Nat) : Nat → Nat → Nat → Nat
  | 0, _, acc => acc
  | n + 1, y, acc =>
    let z := y * y / 2 ^ p
    if 2 * 2 ^ p ≤ z then log2Bits p n (z / 2) (2 * acc + 1) else log2Bits p n z (2 * acc)

/-- log2(m) for m > 0 in units of 2^-n, rounded down, and whether it is exact (m a power of two). -/
def log2Fixed (n m : Nat) : Nat × Bool :=
  let k := m.log2
  let p := 3 * n + 64
  let y := if k ≤ p then m * 2 ^ (p - k) else m / 2 ^ (k - p)
  (k * 2 ^ n + log2Bits p n y 0, m == 2 ^ k)

/-- An exact value as the special functions deliver it. -/
structure Exact where
  neg : Bool
  m : Nat
  e : Int
  sticky : Bool

/-- R121: the exact value where f32 has it, else the neighbour that the operands choose. Tininess is judged in mode rn, also
for R46's flush to zero. -/
def faithful (op key : Nat) (flush : Bool) (x : Exact) : Rounded :=
  let lo := roundMag .f32 3 false x.neg x.m x.e x.sticky
  let hi := roundMag .f32 2 false x.neg x.m x.e x.sticky
  let tiny := isTiny .f32 0 x.neg x.m x.e x.sticky
  if flush && tiny && !(x.m == 0 && !x.sticky) then ⟨Fmt.f32.withSign x.neg 0, exUF + exNX⟩
  else if lo.bits = hi.bits then lo
  else
    let b := if Config.faithfulUp op key flush then hi.bits else lo.bits
    ⟨b, exNX + (if tiny then exUF else 0) + (if b % 2 ^ 31 == Fmt.f32.infBits then exOF else 0)⟩

/-- 1 / (m * 2^e). -/
def rcpExact (neg : Bool) (m : Nat) (e : Int) : Exact :=
  let k := m.log2 + 64
  ⟨neg, 2 ^ k / m, -(k : Int) - e, 2 ^ k % m != 0⟩

/-- m1 * 2^e1 / (m2 * 2^e2). -/
def divExact (neg : Bool) (m1 : Nat) (e1 : Int) (m2 : Nat) (e2 : Int) : Exact :=
  let k := m2.log2 + 64
  ⟨neg, m1 * 2 ^ k / m2, e1 - e2 - k, m1 * 2 ^ k % m2 != 0⟩

/-- sqrt(m * 2^e). -/
def sqrtExact (m : Nat) (e : Int) : Exact :=
  let m := if e % 2 = 0 then m else 2 * m
  let e := if e % 2 = 0 then e else e - 1
  let n := m * 2 ^ 128
  let q := isqrt n
  ⟨false, q, e / 2 - 64, q * q != n⟩

/-- 1 / sqrt(m * 2^e). -/
def rsqExact (m : Nat) (e : Int) : Exact :=
  let m := if e % 2 = 0 then m else 2 * m
  let e := if e % 2 = 0 then e else e - 1
  let k := m.log2 / 2 + 64
  let q := isqrt (2 ^ (2 * k) / m)
  ⟨false, q, -(e / 2) - k, q * q * m != 2 ^ (2 * k)⟩

/-- 2^t for t = ±m * 2^e. -/
def exp2Exact (neg : Bool) (m : Nat) (e : Int) : Exact :=
  -- t beyond ±1024 lies far outside the format in either direction
  if decide (10 ≤ (m.log2 : Int) + e) && m != 0 then ⟨false, 1, if neg then -1024 else 1024, true⟩
  else if 0 ≤ e then
    let t : Int := (m * 2 ^ e.toNat : Nat)
    ⟨false, 1, if neg then -t else t, false⟩
  else
    let d := (-e).toNat
    let t : Int := if neg then -(m : Int) else m
    let n : Int := t / (2 ^ d : Nat)
    let f := (t % (2 ^ d : Nat)).toNat
    if f = 0 then ⟨false, 1, n, false⟩
    else
      let f' := if d ≤ trP then f * 2 ^ (trP - d) else f / 2 ^ (d - trP)
      ⟨false, exp2Fixed f' trP / 2 ^ 128, n - (trP - 128 : Nat), true⟩

/-- log2(m * 2^e), m > 0. -/
def log2Exact (m : Nat) (e : Int) : Exact :=
  let n := 96
  let (l, exact) := log2Fixed n m
  let v : Int := (l : Int) + e * (2 ^ n : Nat)
  if exact then ⟨decide (v < 0), v.natAbs, -(n : Int), false⟩
  else if 0 ≤ v then ⟨false, v.natAbs, -(n : Int), true⟩
  else ⟨true, v.natAbs - 1, -(n : Int), true⟩

/-- Terms of the power series of sine (k odd) or cosine (k even) in fixed point: x2 is x², t the present term. -/
def trigSeries (x2 : Nat) : Nat → Nat → Nat → Int → Int
  | 0, _, _, acc => acc
  | fuel + 1, k, t, acc =>
    let t' := t * x2 / 2 ^ trP / ((k + 1) * (k + 2))
    if t' = 0 then acc
    else
      let s : Int := if (k / 2) % 2 = 0 then acc - t' else acc + t'
      trigSeries x2 fuel (k + 2) t' s

def sinFixed (x : Nat) : Int := trigSeries (x * x / 2 ^ trP) 80 1 x x
def cosFixed (x : Nat) : Int := trigSeries (x * x / 2 ^ trP) 80 0 (2 ^ trP) (2 ^ trP : Nat)

/-- sin or cos of ±m * 2^e, m > 0, by reduction modulo π/2. -/
def trigExact (cosine neg : Bool) (m : Nat) (e : Int) : Exact :=
  if (m.log2 : Int) + e < -40 then
    -- x³/6 and x²/2 are far below one unit of the result
    if cosine then ⟨false, 2 ^ 64 - 1, -64, true⟩ else ⟨neg, m * 2 ^ 64 - 1, e - 64, true⟩
  else
    let x := if -(512 : Int) ≤ e then m * 2 ^ (e + 512).toNat else m / 2 ^ (-(e + 512)).toNat
    let half := piFixed / 2
    let n := x / half
    let r := x % half / 2 ^ (512 - trP)
    let useCos := (n % 2 == 1) != cosine
    let v := if useCos then cosFixed r else sinFixed r
    let flip := if cosine then n % 4 == 1 || n % 4 == 2 else (n % 4 == 2 || n % 4 == 3) != neg
    ⟨flip != decide (v < 0), v.natAbs / 2 ^ 64, -((trP - 64 : Nat) : Int), true⟩

/-- The one-source functions with their special operands (Table 5.6): FRCP 0x48, FRSQ 0x49, FSQRT 0x4A, LOG2 0x4D,
SIN 0x4E and COS 0x4F. -/
def special1 (op rm : Nat) (flush : Bool) (b : Nat) : Rounded :=
  let f := Fmt.f32
  let invalid : Rounded := ⟨f.qnan, exNV⟩
  match flushIn f flush b with
  | .nan s => ⟨f.qnan, if s then exNV else 0⟩
  | .inf n =>
    match op with
    | 0x48 => ⟨f.withSign n 0, 0⟩
    | 0x49 => if n then invalid else ⟨0, 0⟩
    | 0x4A | 0x4D => if n then invalid else ⟨f.infBits, 0⟩
    | _ => invalid
  | .fin n m e =>
    if m = 0 then
      match op with
      | 0x48 | 0x49 => ⟨f.withSign n f.infBits, exDZ⟩
      | 0x4D => ⟨f.withSign true f.infBits, exDZ⟩
      | 0x4F => ⟨0x3F800000, 0⟩
      | _ => ⟨f.withSign n 0, 0⟩
    else
      match op with
      | 0x48 => faithful op b flush (rcpExact n m e)
      | 0x49 => if n then invalid else faithful op b flush (rsqExact m e)
      | 0x4A =>
        if n then invalid
        else
          let x := sqrtExact m e
          roundMag f rm flush false x.m x.e x.sticky
      | 0x4D => if n then invalid else faithful op b flush (log2Exact m e)
      | 0x4E => faithful op b flush (trigExact false n m e)
      | _ => faithful op b flush (trigExact true n m e)

/-- FDIV (R121, R122). -/
def fdivV (rm : Nat) (flush : Bool) (a b : Nat) : Rounded :=
  let f := Fmt.f32
  let x := flushIn f flush a
  let y := flushIn f flush b
  match x, y with
  | .nan _, _ | _, .nan _ => ⟨f.qnan, sigNV [x, y]⟩
  | .inf _, .inf _ => ⟨f.qnan, exNV⟩
  | .inf n1, .fin n2 _ _ => ⟨f.withSign (n1 != n2) f.infBits, 0⟩
  | .fin n1 _ _, .inf n2 => ⟨f.withSign (n1 != n2) 0, 0⟩
  | .fin n1 m1 e1, .fin n2 m2 e2 =>
    let n := n1 != n2
    if m2 = 0 then (if m1 = 0 then ⟨f.qnan, exNV⟩ else ⟨f.withSign n f.infBits, exDZ⟩)
    else if m1 = 0 then ⟨f.withSign n 0, 0⟩
    else
      let q := divExact n m1 e1 m2 e2
      roundMag f rm flush n q.m q.e q.sticky

/-- EXP2S (R123). `key` names the operand bits for R121's choice. -/
def exp2sV (flush : Bool) (key a b c : Nat) : Rounded :=
  let f := Fmt.f32
  let x := flushIn f flush a
  let y := flushIn f flush b
  let z := flushIn f flush c
  let clash : Bool := match x, y with
    | .inf n1, .inf n2 => n1 == n2
    | _, _ => false
  if clash then ⟨f.qnan, exNV⟩
  else if x.isNan || y.isNan || z.isNan then ⟨f.qnan, sigNV [x, y, z]⟩
  else
    let d : Option FVal := match x, y with
      | .inf n1, .inf n2 => if n1 == n2 then none else some (.inf n1)
      | .inf n, _ => some (.inf n)
      | _, .inf n => some (.inf !n)
      | .fin n1 m1 e1, .fin n2 m2 e2 =>
        let (n, m, e) := addFin 0 n1 m1 e1 (!n2) m2 e2
        some (.fin n m e)
      | _, _ => none
    match d with
    | none => ⟨f.qnan, exNV⟩
    | some d =>
      if mulInvalid d z then ⟨f.qnan, exNV⟩
      else
        match mulV d z with
        | .nan _ => ⟨f.qnan, exNV⟩
        | .inf n => if n then ⟨0, 0⟩ else ⟨f.infBits, 0⟩
        | .fin n m e => faithful 0x4C key flush (exp2Exact n m e)

end Sys2Proof.Machine
end

