-- ==== Sys2Proof/Machine/FloatOps.lean ====
section
/-! DEFINITION. Floating point, special functions, conversions and peak registers (R112 to R130). -/
namespace Sys2Proof.Machine
open Sys2Proof

/-- FLUSH acts on TYPE f32 alone (R46, R112). -/
def Ctx.fflush (c : Ctx) : Bool := c.flush && c.w.ty == .f32

/-- Results element by element with the union of their exceptions (R45). -/
def packRounded (t : Ty) (l : List Rounded) : Rounded :=
  ⟨packElems (tyWidth t) (l.map (·.bits)), exUnion (l.map (·.ex))⟩

/-- Write rounded results of latency 6 and set the flags of the lanes that act. -/
def Ctx.fpu (c : Ctx) (t : Ty) (regs : Nat) (val : Nat → Rounded) : Eff :=
  .done (setFlags (c.fixed 6 (destCells c t regs fun l => (val l).bits)) c.ag (exUnion (c.lanes.map fun l => (val l).ex)))
/-- The same with long latency. -/
def Ctx.fpuLong (c : Ctx) (val : Nat → Rounded) : Eff :=
  .done (setFlags (writeLong c.s c.ag (destCells c c.w.ty 1 fun l => (val l).bits)) c.ag (exUnion (c.lanes.map fun l => (val l).ex)))

/-- Two operands, element by element. -/
def Ctx.fpu2 (c : Ctx) (f : Fmt → Nat → Nat → Rounded) : Eff :=
  let t := c.w.ty
  c.fpu t 1 fun l => packRounded t
    (List.zipWith (f (fmtOf t)) (elemsOf (tyWidth t) (tyElems t) (c.a l)) (elemsOf (tyWidth t) (tyElems t) (c.b l)))

/-- R115. -/
def execFadd (w : Fields) (s : State) : Host.Outcome State Fault Refusal :=
  runInstr (.fadd w) (fun c => c.fpu2 fun f x y => faddV f (rmCode c.w) c.fflush (flushIn f c.fflush x) (flushIn f c.fflush y)) s
/-- a − b. A NaN keeps its sign of signalling. -/
def execFsub (w : Fields) (s : State) : Host.Outcome State Fault Refusal :=
  runInstr (.fsub w) (fun c => c.fpu2 fun f x y =>
    faddV f (rmCode c.w) c.fflush (flushIn f c.fflush x) (flushIn f c.fflush y).negate) s
def execFmul (w : Fields) (s : State) : Host.Outcome State Fault Refusal :=
  runInstr (.fmul w) (fun c => c.fpu2 fun f x y => fmulV f (rmCode c.w) c.fflush (flushIn f c.fflush x) (flushIn f c.fflush y)) s
def execFfma (w : Fields) (s : State) : Host.Outcome State Fault Refusal :=
  runInstr (.ffma w) (fun c =>
    let t := c.w.ty
    let f := fmtOf t
    let el (v : Nat) : List FVal := (elemsOf (tyWidth t) (tyElems t) v).map (flushIn f c.fflush)
    c.fpu t 1 fun l => packRounded t ((List.zip (el (c.a l)) (List.zip (el (c.b l)) (el (c.c' l)))).map fun e =>
      ffmaV f (rmCode c.w) c.fflush e.1 e.2.1 e.2.2)) s

/-- R116. -/
def execFmin (w : Fields) (s : State) : Host.Outcome State Fault Refusal :=
  runInstr (.fmin w) (fun c => c.fpu2 fun f x y => fminmax f false c.fflush x y) s
def execFmax (w : Fields) (s : State) : Host.Outcome State Fault Refusal :=
  runInstr (.fmax w) (fun c => c.fpu2 fun f x y => fminmax f true c.fflush x y) s

/-- R118. -/
def execFcmp (w : Fields) (s : State) : Host.Outcome State Fault Refusal :=
  runInstr (.fcmp w) (fun c => c.fpu c.w.ty 1 fun l =>
    let x := flushIn .f32 c.fflush (c.a l)
    let y := flushIn .f32 c.fflush (c.b l)
    ⟨(fcond (vr c.w) x y && c.andC l).toNat, sigNV [x, y]⟩) s

/-- R119. -/
def execFclass (w : Fields) (s : State) : Host.Outcome State Fault Refusal :=
  runInstr (.fclass w) (fun c => c.fpu .n32 1 fun l => ⟨fclassMask (c.a l), 0⟩) s
def execFclassTest (w : Fields) (s : State) : Host.Outcome State Fault Refusal :=
  runInstr (.fclassTest w) (fun c => c.fpu c.w.ty 1 fun l =>
    ⟨(Nat.land (fclassMask (c.a l)) (c.w.imm.toNat % 1024) != 0).toNat, 0⟩) s

/-- R120. -/
def execFrnd (w : Fields) (s : State) : Host.Outcome State Fault Refusal :=
  runInstr (.frnd w) (fun c => c.fpu c.w.ty 1 fun l => packRounded c.w.ty
    ((elemsOf (tyWidth c.w.ty) (tyElems c.w.ty) (c.a l)).map (frndV (fmtOf c.w.ty) (rmCode c.w) c.fflush))) s

/-- R117. -/
def execFdot (w : Fields) (s : State) : Host.Outcome State Fault Refusal :=
  runInstr (.fdot w) (fun c =>
    let t := c.w.ty
    let el (v : Nat) : List Nat := elemsOf (tyWidth t) (tyElems t) v
    c.fpu .f32 1 fun l => fdotV (fmtOf t) (rmCode c.w) (el (c.a l)) (el (c.b l)) (c.cF l)) s

/-- Table 5.5. -/
def execFrcp (w : Fields) (s : State) : Host.Outcome State Fault Refusal :=
  runInstr (.frcp w) (fun c => c.fpuLong fun l => special1 0x48 0 c.flush (c.a l)) s
def execFrsq (w : Fields) (s : State) : Host.Outcome State Fault Refusal :=
  runInstr (.frsq w) (fun c => c.fpuLong fun l => special1 0x49 0 c.flush (c.a l)) s
def execFsqrt (w : Fields) (s : State) : Host.Outcome State Fault Refusal :=
  runInstr (.fsqrt w) (fun c => c.fpuLong fun l => special1 0x4A (rmCode c.w) c.flush (c.a l)) s
def execFdiv (w : Fields) (s : State) : Host.Outcome State Fault Refusal :=
  runInstr (.fdiv w) (fun c => c.fpuLong fun l => fdivV (rmCode c.w) c.flush (c.a l) (c.b l)) s
/-- R123. The scale is 1.0 where CIMM is 0. -/
def execExp2s (w : Fields) (s : State) : Host.Outcome State Fault Refusal :=
  runInstr (.exp2s w) (fun c => c.fpuLong fun l =>
    let k := if cimm c.w then c.c' l else 0x3F800000
    exp2sV c.flush (c.a l + c.b l * 2 ^ 32 + k * 2 ^ 64) (c.a l) (c.b l) k) s
def execLog2 (w : Fields) (s : State) : Host.Outcome State Fault Refusal :=
  runInstr (.log2 w) (fun c => c.fpuLong fun l => special1 0x4D 0 c.flush (c.a l)) s
def execSin (w : Fields) (s : State) : Host.Outcome State Fault Refusal :=
  runInstr (.sin w) (fun c => c.fpuLong fun l => special1 0x4E 0 c.flush (c.a l)) s
def execCos (w : Fields) (s : State) : Host.Outcome State Fault Refusal :=
  runInstr (.cos w) (fun c => c.fpuLong fun l => special1 0x4F 0 c.flush (c.a l)) s

/-! ### Conversions -/

/-- The stochastic-rounding state of a lane; unlisted, it is as launched with seed 0 (R50). -/
def srOf (c : Ctx) (g : Group) (lane : Nat) : Nat :=
  match tabFind g.sr lane with | some x => x.toNat | none => srSeed 0 (g.vlane c.ag.slot lane)

/-- The elements of a conversion's source in a lane, under its source type (R124). -/
def Ctx.cvtSource (c : Ctx) (lane : Nat) : List Nat :=
  let src := srcTy c.w
  let n := cvtCount src c.w.ty
  elemsOf (tyWidth src) n (opVal c src (cvtRegs n src) c.w.a lane)

def isIntTy (t : Ty) : Bool := [Ty.n32, .s32, .n64, .s64].contains t

/-- A value of a source element. -/
def srcVal (t : Ty) (x : Nat) : FVal := if isIntTy t then ofInt (elemVal t x) else fval (fmtOf t) x

/-- R48, R49, R126: one value converted to type t without stochastic rounding. -/
def cvtTo (t : Ty) (rm : Nat) (x : FVal) : Rounded :=
  if isIntTy t then
    let (v, ex) := toIntV t rm x
    ⟨wrap v (tyWidth t), ex⟩
  else roundVal (fmtOf t) rm x

/-- STOCH of R47, with R49 for the other values. -/
def stochTo (t : Ty) (u : Nat) (x : FVal) : Rounded :=
  match x with
  | .fin n m e => if m = 0 then roundVal (fmtOf t) 0 (.fin n m e) else stochMag (fmtOf t) u n m e
  | x => roundVal (fmtOf t) 0 x

/-- The elements of a lane in ascending order, with the lane's state after them. -/
def stochGo (t : Ty) : Nat → List FVal → List Rounded × Nat
  | st, [] => ([], st)
  | st, x :: rest =>
    let st := srStep st
    let r := stochTo t (st % 2 ^ 16) x
    let (rs, st) := stochGo t st rest
    (r :: rs, st)

/-- A conversion of the values `vals` gives each lane; `extra` is the exceptions of forming them. A stochastic result in a k
register is that of one acting lane's state, which one is a free value (log 66); every acting lane's state steps. -/
def Ctx.convert (c : Ctx) (s : State) (vals : Nat → List FVal) (extra : Nat → Nat) : Eff :=
  let t := c.w.ty
  let n := cvtCount (srcTy c.w) t
  let lane (l : Nat) : List Rounded × Nat :=
    if bit78 c.w then stochGo t (srOf c c.g l) (vals l) else ((vals l).map (cvtTo t (rmCode c.w)), 0)
  let one := c.lanes.getD (Config.freeNat c.s.free 45 % c.lanes.length) 0
  let r (l : Nat) : Rounded := packRounded t (lane (if bit78 c.w && opndCls c.w.d == .k then one else l)).1
  let s := writeFixed s c.ag (c.now + c.x + 6) (destCells c t (cvtRegs n t) fun l => (r l).bits)
  let s := setFlags s c.ag (exUnion (c.lanes.map fun l => Nat.lor (extra l) (r l).ex))
  .done (if bit78 c.w then s.modGroup c.ag.core c.ag.slot fun g =>
      { g with sr := c.lanes.foldl (fun sr l => tabPut sr l (BitVec.ofNat 32 (lane l).2)) g.sr }
    else s)

/-- R126. -/
def execFcvt (w : Fields) (s : State) : Host.Outcome State Fault Refusal :=
  runInstr (.fcvt w) (fun c => c.convert c.s (fun l => (c.cvtSource l).map (srcVal (srcTy c.w))) fun _ => 0) s

/-- Source elements times the f32 scale of B (R127, R128). -/
def Ctx.scaled (c : Ctx) (lane : Nat) : List FVal :=
  (c.cvtSource lane).map fun x => mulV (fval (fmtOf (srcTy c.w)) x) (fval .f32 (c.bF lane))
def Ctx.scaledNV (c : Ctx) (lane : Nat) : Nat :=
  if (c.cvtSource lane).any fun x => mulInvalid (fval (fmtOf (srcTy c.w)) x) (fval .f32 (c.bF lane)) then exNV else 0

/-- R129: the largest magnitude as an f32 pattern; none without a number. -/
def peakOf (t : Ty) (l : List Nat) : Option Nat :=
  l.foldl (fun m x =>
    match fval (fmtOf t) x with
    | .nan _ => m
    | .inf _ => some 0x7F800000
    | .fin _ k e => some (Nat.max (m.getD 0) (roundVal .f32 0 (.fin false k e)).bits)) none

/-- max(pkN, m). A CSRW can leave a NaN's pattern in pkN, for which no maximum is stated: the result is then a free value
(log 65). -/
def raisePeak (free : Nat) (g : Group) (n : Nat) (m : Option Nat) : Group :=
  match m with
  | none => g
  | some v =>
    let old := (tabGet 0#32 g.pk n).toNat
    let new := if Fmt.f32.infBits < old then Config.freeNat free (40 + n) % 2 ^ 31 else Nat.max old v
    { g with pk := tabSet 0 g.pk n (BitVec.ofNat 32 new) }

/-- R127, R129. -/
def execQcvt (w : Fields) (s : State) : Host.Outcome State Fault Refusal :=
  runInstr (.qcvt w) (fun c =>
    let m := peakOf (srcTy c.w) (c.lanes.flatMap c.cvtSource)
    let s := c.s.modGroup c.ag.core c.ag.slot fun g => raisePeak c.s.free g (c.w.imm.toNat % 4) m
    c.convert s c.scaled c.scaledNV) s

/-- R128. -/
def execDqcvt (w : Fields) (s : State) : Host.Outcome State Fault Refusal :=
  runInstr (.dqcvt w) (fun c => c.convert c.s c.scaled c.scaledNV) s

/-- R130. A peak register is updated when its QCVT issues, so nothing is left to wait for. -/
def Ctx.readPeak (c : Ctx) (clear : Bool) : Eff :=
  let n := c.w.imm.toNat % 4
  let v := (tabGet 0#32 c.g.pk n).toNat
  let s := c.fixed 6 (destCells c c.w.ty 1 fun _ => v)
  .done (if clear then s.modGroup c.ag.core c.ag.slot fun g => { g with pk := tabSet 0 g.pk n 0 } else s)

def execPkrd (w : Fields) (s : State) : Host.Outcome State Fault Refusal := runInstr (.pkrd w) (fun c => c.readPeak false) s
def execPkrdClr (w : Fields) (s : State) : Host.Outcome State Fault Refusal := runInstr (.pkrdClr w) (fun c => c.readPeak true) s

end Sys2Proof.Machine
end

