-- ==== Sys2Proof/Machine/Matrix.lean ====
section
/-! DEFINITION. The matrix engine of a core (R52 to R55, R262 to R273, R314 to R318): the start of queued operations, the
steady rest, ring slots, the accumulator update and its witness, and the put of an MMAS. -/
namespace Sys2Proof.Machine
open Sys2Proof

/-! ### Operand formats (Tables 9.7 and 12.3) -/

/-- Bits of an element and the elements kept of each eight. -/
def tagBits (f : Nat) : Nat := if f = 7 then 4 else if f = 1 ∨ f = 2 ∨ f = 9 ∨ f = 10 then 16 else 8
def tagKept (f : Nat) : Nat := if f = 9 ∨ f = 11 then 4 else if f = 10 ∨ f = 12 then 2 else 8
def isFp8Tag (f : Nat) : Bool := decide (3 ≤ f) && decide (f ≤ 6)

/-- The rate of Table 12.3 for a pair of tags; none for a pair it does not list. -/
def pairRate (a b : Nat) : Option Nat :=
  if b = 1 then (if a = 1 then some 1 else if a = 9 ∨ a = 10 then some 2 else none)
  else if isFp8Tag b then (if isFp8Tag a then some 2 else if a = 11 ∨ a = 12 then some 4 else none)
  else if a = 7 ∧ b = 7 then some 4
  else if a = 8 ∧ b = 8 then some 2
  else none

/-- Elements of a chunk (R52, R53), and the meter of Table 16.5. -/
def chunkOf (b : Nat) : Nat := if b = 1 ∨ b = 7 then 32 else 128
def meterOf (b : Nat) : Nat := if b = 1 then 0 else if b = 8 then 2 else if b = 7 then 3 else 1

/-- The value of an element under a format code. -/
def tagVal (f code : Nat) : FVal :=
  if f = 7 then fval .e2m1 code
  else if f = 8 then ofInt (sext code 8)
  else if f = 4 ∨ f = 6 then fval .e5m2 code
  else if tagBits f = 16 then fval .bf16 code
  else fval .e4m3 code

/-- Bytes that K dense elements of a row take (R314). -/
def rowBytes (f k : Nat) : Nat := k * tagKept f / 8 * tagBits f / 8

/-! ### Faults of an operation -/

/-- The requester behind an operation. -/
def opWho (s : State) (core : Nat) (o : MatOp) : Who :=
  match s.launch? o.owner.1 with
  | some l => l.who core
  | none => ⟨core, 0, 0, 0, false⟩

/-- The stream that issued it, while it lives. -/
def opStream (s : State) (core : Nat) (o : MatOp) : Option Group :=
  match s.group? core Config.streamSlot with
  | some g => if (g.launch, g.groupId) == o.owner then some g else none
  | none => none

def opRecord (s : State) (core : Nat) (o : MatOp) (code kind info : Nat) : Record :=
  let w := opWho s core o
  { info := info, lmask := 1, pc := o.pc, context := w.context, tenant := w.tenant, part := w.part,
    queue := (match s.launch? o.owner.1 with | some l => l.queue | none => 0), srck := 1, core := core % Config.coreKeys,
    die := dieOf core, gslot := Config.freeNat s.free 8 % 64, split := 0, code := code, kind := kind }

/-- A fault at the start of an operation or at one of its chunks: a retryable one parks the stream at the MMA (R263), any
other ends the launch (R264). While the port is full it waits (R332). -/
def opFault (s : State) (core : Nat) (o : MatOp) (code info : Nat) : State :=
  let kind := if isRetryable code then 0 else 1
  let r := opRecord s core o code kind info
  if portFull s (dieOf core) (ringClass (ringOf s r.part (dieOf core) kind)) then s
  else if kind = 1 then endLaunch s o.owner.1 code r
  else
    match opStream s core o with
    | none => s
    | some _ =>
      (pushRecord s r).modSplit ⟨core, Config.streamSlot, 0⟩ fun sp => { sp with parked := sp.parked ++ [⟨code, 1, info, 0, o.pc, true⟩] }

/-! ### Operands (R263 to R266) -/

/-- The addresses of the lines of each row, in ascending K. -/
def rowLines (off stride rows bytes : Nat) : List (List Nat) :=
  (List.range rows).map fun i => (List.range ((bytes + 127) / 128)).map fun j => off + i * stride + 128 * j

/-- The physical lines of an operand, or the first fault. -/
def xlatLines (s : State) (w : Who) (c : Cap) : List Nat → Except (Nat × Nat) (List Nat)
  | [] => .ok []
  | o :: r =>
    match translate s w w.core (c.base.toNat + o) permR with
    | .error code => .error (code, c.base.toNat + o)
    | .ok pa =>
      match xlatLines s w c r with
      | .error e => .error e
      | .ok l => .ok (pa :: l)

def xlatRows (s : State) (w : Who) (c : Cap) : List (List Nat) → Except (Nat × Nat) (List (List Nat))
  | [] => .ok []
  | o :: r =>
    match xlatLines s w c o, xlatRows s w c r with
    | .error e, _ => .error e
    | .ok _, .error e => .error e
    | .ok l, .ok t => .ok (l :: t)

/-- FTAG and side array of a line as the slice holds it, or as a fill gives it. -/
def lineTag (s : State) (pa : Nat) : Nat × List Byte :=
  match tabFind s.l2 (pa / 128) with
  | some l => (l.ftag, l.side)
  | none => sideFill s pa

/-- The side array with which a line is computed: the FP8 formats of sparse operands have scale 1.0 in a window without scales
(Table 9.7). -/
def lineSide (s : State) (tag pa : Nat) : List Byte :=
  let side := (lineTag s pa).2
  if (tag = 11 ∨ tag = 12) ∧ (windowAt s pa).any (fun w => winSlay w == 0) = true then leBytes 0x3F800000 4 ++ side.drop 4 else side

/-- The format of an operand: the tag of its first line, or the ring's code. Memory of another device has no tag. -/
def sourceTag (s : State) (w : Who) : MatSource → Except (Nat × Nat) Nat
  | .ring r _ => .ok r.fmt
  | .l2 c off _ =>
    if c.device != s.regs.deviceId then .ok 0
    else if c.len ≤ off ∨ 2 ^ 57 ≤ c.base.toNat + off then .error (fCapBounds, c.base.toNat + off)
    else
      match translate s w w.core (c.base.toNat + off) permR with
      | .error code => .error (code, c.base.toNat + off)
      | .ok pa => .ok (lineTag s pa).1

/-- The rows of an operand in L2; none listed for a ring. -/
def sourceRows (s : State) (w : Who) (rows k tag : Nat) : MatSource → Except (Nat × Nat) (List (List OpLine))
  | .ring _ _ => .ok []
  | .l2 c off stride =>
    let bytes := rowBytes tag k
    let past (e : Nat) : Bool := decide (c.len < e) || decide (2 ^ 57 < c.base.toNat + e)
    match ((List.range rows).filter fun i => past (off + i * stride + bytes)).head? with
    | some i => .error (fCapBounds, c.base.toNat + off + i * stride)
    | none =>
      match xlatRows s w c (rowLines off stride rows bytes) with
      | .error e => .error e
      | .ok pas =>
        if pas.any fun r => r.any fun pa => (lineTag s pa).1 != tag then .error (fFormatMismatch, c.base.toNat + off)
        else .ok (pas.map fun r => r.map fun pa => ⟨pa, s.bytes pa 128, lineSide s tag pa, false⟩)

/-- The virtual addresses of an operand's lines in L2. -/
def sourceVas (rows k tag : Nat) : MatSource → List Nat
  | .ring _ _ => []
  | .l2 c off stride => ((rowLines off stride rows (rowBytes tag k)).flatten).map (c.base.toNat + ·)

/-- The dense index of kept element q of a row (R55): each line's side array holds the metadata of its elements. -/
def keptIndex (tag : Nat) (row : List OpLine) (q : Nat) : Nat :=
  let perLine := 128 * 8 / tagBits tag
  let side := match row[q / perLine]? with | some l => l.side | none => []
  let j := q % perLine
  bits (ofLeBytes (side.drop 16)) (3 * j + 2) (3 * j)

/-- R55: the indices of each group rise strictly. -/
def rowSound (tag k : Nat) (row : List OpLine) : Bool :=
  let n := tagKept tag
  n == 8 || (List.range (k * n / 8)).all fun q =>
    q % n == 0 || decide (keptIndex tag row (q - 1) < keptIndex tag row q)

/-! ### Pins (R265) -/

/-- The other lines pinned in the set of a line that L2 holds. -/
def setPinned (s : State) (l : L2Line) (line : Nat) : List Nat :=
  (s.l2.filter fun e => e.2.slice == l.slice && l2Set e.1 == l2Set line && e.2.lst == 3 && e.1 != line).map (·.1)

/-- Pin a line that L2 holds; its dirty data is written back, since it returns to clean. -/
def pinAt (s : State) (pa : Nat) : State :=
  match tabFind s.l2 (pa / 128) with
  | none => s
  | some l =>
    let s := if l.lst = 2 then countBytes s l.owner (s.context l.owner).part (pa / 128 * 128) 128 else s
    { s with l2 := tabPut s.l2 (pa / 128) { l with lst := 3, pins := l.pins + 1 } }

/-- A line of an operand's row: the K at which its elements begin and end, and its address. -/
structure KLine where
  from_ : Nat
  upto : Nat
  pa : Nat

/-- Read lines in ascending K, each pinned. Past the operation's share of pins, and in a set that holds four, one of its own
earlier pins is released, for a line that it has read; where all four are others', the read waits, the operation's pins
are released, and the K is given from which its lines are still to be read. -/
def pinLines (w : Who) (limit : Nat) : State → List Nat → List KLine → State × List Nat × Option Nat
  | s, got, [] => (s, got, none)
  | s, got, x :: r =>
    let s := if (tabFind s.l2 (x.pa / 128)).isSome then s else l2Touch s w x.pa false
    match tabFind s.l2 (x.pa / 128) with
    | none => pinLines w limit s got r
    | some l =>
      let mates := setPinned s l (x.pa / 128)
      let own := got.reverse.find? fun p => mates.contains (p / 128)
      if 4 ≤ mates.length ∧ own.isNone then (unpinLines s got, [], some x.from_)
      else
        let give := if 4 ≤ mates.length then own else if limit ≤ got.length then got.getLast? else none
        match give with
        | some p => pinLines w limit (pinAt (unpinLines s [p]) x.pa) (x.pa :: got.filter (· != p)) r
        | none => pinLines w limit (pinAt s x.pa) (x.pa :: got) r

/-- K that one line of an operand's row covers, and the lines of an operation that are still to be read, in ascending K. -/
def lineK (tag : Nat) : Nat := 128 * 8 / tagBits tag * 8 / tagKept tag
def linesByK (o : MatOp) (k : Nat) : List KLine :=
  let col (tag : Nat) (rows : List (List OpLine)) (e : Nat) : List KLine :=
    if e % lineK tag != 0 then []
    else rows.filterMap fun r => (r[e / lineK tag]?).bind fun l => if l.read then none else some ⟨e, e + lineK tag, l.pa⟩
  (List.range ((k + 63) / 64)).flatMap fun j => col o.fmtA o.rowsA (64 * j) ++ col o.fmtB o.rowsB (64 * j)

/-- The sub-arrays that have K to compute. -/
def liveSubs (o : MatOp) : List SubOp := o.subs.filter fun x => !x.done && x.writeAt.isNone
/-- The quadrants of an operation. -/
def opQuads (o : MatOp) : List Nat := o.subs.foldl (fun l x => natInsert (x.sub / 4) l) []

/-- Its share of the 64 pins of each of its quadrants: those of the operations in progress there are shared alike. -/
def pinShare (c : Core) (o : MatOp) : Nat :=
  let mates := (c.mq.filter fun e => e.started.isSome && !(liveSubs e).isEmpty && (opQuads e).any fun q => (opQuads o).contains q).length
  64 * (opQuads o).length / Nat.max 1 mates

/-- R265: the pins move with K. Lines that every sub-array has passed are released, and those of the present step are read;
the lines pinned, and the K up to which its lines have been read. -/
def movePins (s : State) (w : Who) (core : Nat) (o : MatOp) (k : Nat) : State × List Nat × Nat :=
  let past := (leastBy id ((liveSubs o).map (·.progress))).getD k
  let ahead := Nat.max (past + 1) (maxNat ((liveSubs o).map fun x => x.progress + o.rate * tabGet 0 (s.core core).activity x.sub / 4))
  let (s, got, stop) := pinLines w (pinShare (s.core core) o) (unpinLines s o.pinned) []
    ((linesByK o k).filter fun l => decide (past < l.upto) && decide (l.from_ < ahead))
  (s, got, stop.getD k)

/-! ### The start of an operation (R262, R264, R314) -/

/-- Accumulator blocks and rings that an operation touches. -/
def opBlocks (o : MatOp) : List Nat :=
  match o.kind with
  | .mma .. => o.subs.map (·.block)
  | .zero b n => (List.range n).map (b + ·)
  | .drain _ _ _ b _ => [b]
  | .scale => []
/-- The scratchpad place of n bytes at an address of the operation's team. -/
def opSp (s : State) (core : Nat) (o : MatOp) (p n : Nat) : Option (Nat × Nat) :=
  spResolveAt s core o.owner.1 o.home.1 o.home.2 p n
/-- Each ring by its core, its first byte and its end. -/
def opRings (s : State) (core : Nat) (o : MatOp) : List (Nat × Nat × Nat) :=
  let of (x : MatSource) : List (Nat × Nat × Nat) :=
    match x with
    | .ring r _ => (opSp s core o r.spa (128 + r.slots * r.bytes)).toList.map fun e => (e.1, e.2, e.2 + 128 + r.slots * r.bytes)
    | _ => []
  match o.kind with
  | .mma _ _ _ a b _ => of a ++ of b
  | _ => []
def meets (a b : List Nat) : Bool := a.any fun x => b.contains x
def ringsMeet (a b : List (Nat × Nat × Nat)) : Bool :=
  a.any fun x => b.any fun y => x.1 == y.1 && decide (x.2.1 < y.2.2) && decide (y.2.1 < x.2.2)

/-- R262: an earlier operation holds a later one back. An MMAS whose put waits has not completed, and holds its sub-arrays,
blocks and rings (R315). -/
def holdsBack (s : State) (core : Nat) (e o : MatOp) : Bool :=
  e.started.isNone
    || (o.subs.any fun x => e.subs.any fun y => y.sub == x.sub && (!y.done || e.completed))
    || meets (opBlocks e) (opBlocks o) || ringsMeet (opRings s core e) (opRings s core o)

/-- The position of the operation that can start. -/
def startable (s : State) (core : Nat) : Option Nat :=
  let mq := (s.core core).mq
  match (List.range mq.length).filter fun i => match mq[i]? with | some o => o.started.isNone | none => false with
  | i :: _ =>
    match mq[i]? with
    | some o => if (mq.take i).any fun e => holdsBack s core e o then none else some i
    | none => none
  | [] => none

def modOp (s : State) (core i : Nat) (f : MatOp → MatOp) : State :=
  s.modCore core fun c => match c.mq[i]? with | some o => { c with mq := listSetAt c.mq i (f o) } | none => c
def removeOp (s : State) (core i : Nat) : State :=
  s.modCore core fun c => { c with mq := c.mq.take i ++ c.mq.drop (i + 1) }

/-- R269: the first step boundary at or after a cycle. -/
def boundary (t : Nat) : Nat := (t + 3) / 4 * 4

/-- An MMA starts, or faults before any block is written. -/
def startMma (s : State) (core i : Nat) (o : MatOp) (m n k : Nat) (a b : MatSource) : State :=
  let w := opWho s core o
  let s := fillPages s w (sourceVas 1 1 1 a ++ sourceVas 1 1 1 b)
  match sourceTag s w a, sourceTag s w b with
  | .error e, _ => opFault s core o e.1 e.2
  | _, .error e => opFault s core o e.1 e.2
  | .ok ta, .ok tb =>
    let ringA := match a with | .ring .. => true | _ => false
    match pairRate ta tb with
    | none => opFault s core o fFormatMismatch (noInfo s)
    | some rate =>
      if (ringA && 8 < ta) || k % chunkOf tb != 0 then opFault s core o fFormatMismatch (noInfo s)
      else
        match sourceRows s w m k ta a, sourceRows s w n k tb b with
        | .error e, _ => opFault s core o e.1 e.2
        | _, .error e => opFault s core o e.1 e.2
        | .ok ra, .ok rb =>
          if ra.any fun r => !rowSound ta k r then opFault s core o fFormatMismatch (noInfo s)
          else
            let o := { o with started := some s.cycle, computeAt := boundary (s.cycle + 12), rate := rate, fmtA := ta,
                              fmtB := tb, rowsA := ra, rowsB := rb }
            let s := fillPages s w (sourceVas m k ta a ++ sourceVas n k tb b)
            let (s, pinned, readK) := movePins ((linesByK o k).foldl (fun s l => l2Touch s w l.pa false) s) w core o k
            modOp s core i fun _ => { o with pinned := pinned, readK := readK }

/-- Count a completed operation (Table 16.4). -/
def countOp (s : State) (core : Nat) (o : MatOp) : State := countPrivate s (opWho s core o) 7

def startOp (s : State) (core i : Nat) (o : MatOp) : State :=
  let at_ (t : Nat) : State := modOp s core i fun o => { o with started := some s.cycle, computeAt := s.cycle + t }
  match o.kind with
  | .mma m n k a b _ => startMma s core i o m n k a b
  | .zero _ n => at_ (4 * n)
  | .drain ty _ _ _ _ => at_ (if ty = .bf16x2 then 32 else 64)
  | .scale => removeOp (countOp s core o) core i

/-- An operation has parked its stream, which is replayed before another operation starts (R263). -/
def opParked (s : State) (core : Nat) : Bool :=
  match s.group? core Config.streamSlot with
  | some g => g.splits.any fun p => p.2.parked.any (·.op)
  | none => false

/-- A queued operation starts (R262). -/
def execMatrixOpStart (core : Nat) (s : State) : Host.Outcome State Fault Refusal := keep s <|
  match startable s core with
  | none => .next s
  | some i =>
    match (s.core core).mq[i]? with
    | none => .next s
    | some o => .next (if opParked s core && (opStream s core o).isSome then s else (startOp s core i o).tick)

/-- An operation that can start now, and by its start enters into progress, leaves the queue, or is reported. It starts in the
cycle in which its conditions hold (R262). -/
def startDue (s : State) (core : Nat) : Bool :=
  match startable s core with
  | none => false
  | some i =>
    match (s.core core).mq[i]? with
    | none => false
    | some o =>
      let t := startOp s core i o
      !(opParked s core && (opStream s core o).isSome)
        && (t.port.length != s.port.length || (t.core core).mq.length != (s.core core).mq.length
          || ((t.core core).mq[i]?).any (·.started.isSome))

/-! ### Ring slots (R266) -/

/-- K elements that one slot holds, at least one. -/
def slotK (r : RingBind) : Nat := Nat.max 1 (r.bytes / r.rows * 8 / tagBits r.fmt)
/-- K for which an operand's data is present. -/
def presentK (k : Nat) (src : MatSource) (slots : List (List Byte)) : Nat :=
  match src with
  | .l2 .. => k
  | .ring r _ => Nat.min k (slots.length * slotK r)

/-- Bytes and number of scales of one chunk of a ring operand (R318); none for an unscaled format. -/
def scaleShape (r : RingBind) (opB : Bool) : Nat × Nat :=
  if r.fmt = 7 then (2, r.rows)
  else if r.fmt = 5 ∨ r.fmt = 6 then (4, if opB then (r.rows + 127) / 128 else r.rows)
  else (0, 0)

/-- The least progress of an operation's sub-arrays. -/
def leastProgress (o : MatOp) : Nat :=
  match leastBy id (o.subs.map fun x => if x.done ∨ x.writeAt.isSome then 4096 * 4 else x.progress) with
  | some p => p
  | none => 0

/-- The ring of an operand. -/
def opRing (o : MatOp) (opB : Bool) : Option (RingBind × Option Nat × Nat) :=
  match o.kind with
  | .mma _ _ k a b _ =>
    match if opB then b else a with
    | .ring r sc => some (r, sc, k)
    | _ => none
  | _ => none

/-- A started operation whose next slot of the operand is due: every slot before the present chunk has been computed with. -/
def slotDue (o : MatOp) (opB : Bool) : Bool :=
  match opRing o opB with
  | none => false
  | some (r, _, k) =>
    let n := (if opB then o.slotsB else o.slotsA).length
    let ch := chunkOf o.fmtB
    o.started.isSome && !o.completed && decide (n * slotK r < k) && decide (n * slotK r < (leastProgress o / ch + 1) * ch)

/-- R266: slot j has been filled. -/
def slotFilled (filled j : Nat) : Bool :=
  let d := (filled + 2 ^ 32 - j % 2 ^ 32) % 2 ^ 32
  decide (1 ≤ d) && decide (d ≤ 2 ^ 31)

/-- The due slot has been filled, or cannot be read. -/
def slotReady (s : State) (core : Nat) (opB : Bool) (o : MatOp) : Bool :=
  match opRing o opB with
  | none => false
  | some (r, _, _) => match opSp s core o r.spa (128 + r.slots * r.bytes) with
    | none => true
    | some (pc, off) => slotFilled (spNum s pc off 4) (spNum s pc (off + 4) 4)

/-- A ring operation with a slot to consume, and its position. -/
def slotNext (s : State) (core : Nat) (opB : Bool) : Option (Nat × MatOp) :=
  match ((s.core core).mq.zip (List.range (s.core core).mq.length)).filter fun x => slotDue x.1 opB && slotReady s core opB x.1 with
  | (o, i) :: _ => some (i, o)
  | [] => none

/-- The first K chunk of both operands is present (R269). -/
def firstPresent (o : MatOp) : Bool :=
  match o.kind with
  | .mma _ _ k sa sb _ =>
    let n := Nat.min k (chunkOf o.fmtB)
    decide (n ≤ presentK k sa o.slotsA) && decide (n ≤ presentK k sb o.slotsB)
  | _ => false

/-- The operation with a slot's bytes. Where they complete the first chunks, it starts computing at the next boundary. -/
def MatOp.withSlot (o : MatOp) (opB : Bool) (now : Nat) (data : List Byte) : MatOp :=
  let n := if opB then { o with slotsB := o.slotsB ++ [data] } else { o with slotsA := o.slotsA ++ [data] }
  if firstPresent o then n else { n with computeAt := Nat.max o.computeAt (boundary now) }

/-- The chuck unit consumes the next slot of a ring operand and adds 1 to FREED. -/
def consumeSlot (s : State) (core : Nat) (opB : Bool) (i : Nat) (o : MatOp) : State :=
  match opRing o opB with
  | none => s
  | some (r, _, _) =>
    match opSp s core o r.spa (128 + r.slots * r.bytes) with
    | none => opFault s core o fCapBounds r.spa
    | some (pc, off) =>
      let freed := spNum s pc (off + 4) 4
      if !slotFilled (spNum s pc off 4) freed then s
      else
        let data := spBytes s pc (off + 128 + freed % r.slots * r.bytes) r.bytes
        spWrite (modOp s core i fun o => o.withSlot opB s.cycle data) pc (off + 4) (leBytes (freed + 1) 4)

def execRingSlotConsume (core : Nat) (opB : Bool) (s : State) : Host.Outcome State Fault Refusal := keep s <|
  match slotNext s core opB with
  | none => .next s
  | some (i, o) => .next (consumeSlot s core opB i o).tick

/-- R318: the scales of the chunks that the operation begins in the present step and has not read. A chunk whose scales leave the
allocation gives CAP_BOUNDS. -/
def readScales (s : State) (core : Nat) (o : MatOp) (opB : Bool) : Except Nat (List Byte) :=
  let have_ := if opB then o.scaleB else o.scaleA
  match opRing o opB with
  | some (r, some a, k) =>
    let (sz, per) := scaleShape r opB
    if sz = 0 then .ok have_
    else
      let c := chunkOf o.fmtB
      let reach := maxNat (o.subs.map fun x => x.progress + o.rate * tabGet 0 (s.core core).activity x.sub / 4)
      -- a chunk begins once its data is present
      let data := match o.kind with
        | .mma _ _ _ sa sb _ => Nat.min (presentK k sa o.slotsA) (presentK k sb o.slotsB)
        | _ => k
      let begun := Nat.min (k / c) (Nat.max 1 ((Nat.min reach data + c - 1) / c))
      let len := sz * per * begun - have_.length
      if len = 0 then .ok have_
      else
        match opSp s core o (a + have_.length) len with
        | some (pc, off) => .ok (have_ ++ spBytes s pc off len)
        | none => .error a
  | _ => .ok have_

/-! ### The steady rest (R269, R272, R273) -/

/-- The sub-array computes in the step that begins at b. -/
def computes (o : MatOp) (x : SubOp) (b : Nat) : Bool :=
  match o.kind with
  | .mma .. =>
    o.started.isSome && decide (o.computeAt ≤ b) && !x.done && x.writeAt.isNone && firstPresent o
  | _ => false
def subComputes (c : Core) (sub b : Nat) : Bool := c.mq.any fun o => o.subs.any fun x => x.sub == sub && computes o x b

/-- A sub-array that asks for a change: core, sub-array and class. -/
structure RestReq where
  core : Nat
  sub : Nat
  cls : Bool
  deriving DecidableEq, Repr

/-- The class of the sub-array's present or last operation. -/
def subClass (s : State) (core sub b : Nat) : Bool :=
  let c := s.core core
  match c.mq.filter fun o => o.subs.any fun x => x.sub == sub && computes o x b with
  | o :: _ => (opWho s core o).cls
  | [] => c.filler.contains sub

/-- The requests of one kind on a die. -/
def restReqs (s : State) (die b : Nat) (rise : Bool) : List RestReq :=
  (s.cores.filter fun e => dieOf e.1 == die).flatMap fun e =>
    ((List.range 16).filter fun k =>
        let a := tabGet 0 e.2.activity k
        if subComputes e.2 k b then rise && decide (a < 16) else !rise && decide (0 < a)).map fun k =>
      ⟨e.1, k, subClass s e.1 k b⟩

/-- The key of a rotation (State.rotation). -/
def rotKey (die : Nat) (cls rise : Bool) : Nat := die * 4 + cls.toNat * 2 + (if rise then 0 else 1)

/-- One class's pass: its granted requests, in order from the core after the last granted. -/
def restPass (s : State) (die : Nat) (cls rise : Bool) (budget : Nat) (l : List RestReq) : List RestReq :=
  let first := tabGet 0 s.rotation (rotKey die cls rise)
  let at_ (r : RestReq) : Nat := (r.core % Config.coreKeys + Config.meshCores - first % Config.meshCores) % Config.meshCores
  let mine := l.filter fun r => r.cls == cls
  ((List.range Config.meshCores).flatMap fun i => mine.filter fun r => at_ r == i).take budget

/-- Grants of one kind at a boundary: six of 4 AU each, guaranteed first. -/
def restGrants (s : State) (die b : Nat) (rise : Bool) : List RestReq × State :=
  let l := restReqs s die b rise
  let p := restPass s die false rise 6 l
  let q := restPass s die true rise (6 - p.length) l
  let move (s : State) (cls : Bool) (g : List RestReq) : State :=
    match g.getLast? with
    | some r => { s with rotation := tabPut s.rotation (rotKey die cls rise) (r.core % Config.coreKeys + 1) }
    | none => s
  (p ++ q, move (move s false p) true q)

def addActivity (s : State) (rise : Bool) (l : List RestReq) : State :=
  l.foldl (fun s r => s.modCore r.core fun c =>
    { c with activity := tabUpd 0 c.activity r.sub fun a => if rise then a + 4 else a - 4 }) s

/-- K for which an operand's scales are there. -/
def scaledK (o : MatOp) (opB : Bool) (k : Nat) : Nat :=
  match opRing o opB with
  | some (r, some _, _) =>
    let (sz, per) := scaleShape r opB
    if sz = 0 then k else (if opB then o.scaleB else o.scaleA).length / (sz * per) * chunkOf o.fmtB
  | _ => k

/-- Progress of one sub-array's part in a step (R269): its rate times a quarter of its activity, as far as data is present. -/
def advanceSub (c : Core) (o : MatOp) (b : Nat) (x : SubOp) : SubOp :=
  if !computes o x b then x
  else
    match o.kind with
    | .mma _ _ k sa sb _ =>
      let p := Nat.min (x.progress + o.rate * tabGet 0 c.activity x.sub / 4)
        (Nat.min (Nat.max x.progress o.readK)
          (Nat.min (Nat.min (presentK k sa o.slotsA) (presentK k sb o.slotsB)) (Nat.min (scaledK o false k) (scaledK o true k))))
      { x with progress := p, writeAt := if k ≤ p then some (b + 12) else none }
    | _ => x

/-- What an operation reads and pins as its progress allows: the scales of chunks that begin, and its window of lines. -/
def feedOp (core b : Nat) (s : State) (i : Nat) : State :=
  match (s.core core).mq[i]? with
  | none => s
  | some o =>
    match o.kind with
    | .mma _ _ k _ _ _ =>
      if !(o.subs.any fun x => computes o x b) then s
      else
        let (s, pinned, readK) := movePins s (opWho s core o) core o k
        let s := modOp s core i fun o => { o with pinned := pinned, readK := readK }
        match readScales s core o false, readScales s core o true with
        | .ok a, .ok b => modOp s core i fun o => { o with scaleA := a, scaleB := b }
        | .error a, _ | _, .error a => opFault s core o fCapBounds a
    | _ => s

def advanceCore (s : State) (core b : Nat) : State :=
  let s := (List.range (s.core core).mq.length).foldl (feedOp core b) s
  s.modCore core fun c => { c with mq := c.mq.map fun o => { o with subs := o.subs.map (advanceSub c o b) } }

/-- The classes of the sub-arrays that compute. -/
def noteClasses (s : State) (core b : Nat) : State :=
  let subs := (List.range 16).filter fun k => subComputes (s.core core) k b
  let keep (l : List Nat) (k : Nat) : List Nat := if subClass s core k b then natInsert k l else natRemove k l
  s.modCore core fun c => { c with filler := subs.foldl keep c.filler }

/-- Whether anything on the die rises, falls or computes at boundary b. -/
def restBusy (s : State) (die b : Nat) : Bool :=
  s.cores.any fun e => dieOf e.1 == die
    && (e.2.activity.any (fun x => x.2 != 0) || (List.range 16).any fun k => subComputes e.2 k b)

/-- The next boundary at which the die has something to do, no later than `until_`. -/
def restDue (s : State) (die until_ : Nat) : Option Nat :=
  let n := tabGet 0 s.restNext die
  if restBusy s die n then (if n ≤ until_ then some n else none)
  else
    let starts := (s.cores.filter fun e => dieOf e.1 == die).flatMap fun e =>
      e.2.mq.filterMap fun o =>
        let b := Nat.max n o.computeAt
        if o.subs.any fun x => computes o x b then some b else none
    match leastBy id starts with
    | some b => if b ≤ until_ then some b else none
    | none => none

/-- One step boundary of a die (R272). -/
def execSteadyRestStep (die : Nat) (s : State) : Host.Outcome State Fault Refusal := keep s <|
  match restDue s die s.cycle with
  | none => .next s
  | some b =>
    let cores := (s.cores.filter fun e => dieOf e.1 == die).map (·.1)
    let (up, t) := restGrants s die b true
    let (down, t) := restGrants t die b false
    let t := addActivity (addActivity t true up) false down
    let t := cores.foldl (fun t c => advanceCore (noteClasses t c b) c b) t
    .next { t with restNext := tabPut t.restNext die (b + 4) }

/-! ### The product (R52 to R55, R268) -/

/-- One row of an operand ready to multiply: per chunk its values by position, none where no product is formed, and its
scale. -/
structure RowVals where
  chunks : List (List (Option FVal))
  scales : List FVal

def chunksOf {α : Type} (n : Nat) : Nat → List α → List (List α)
  | 0, _ => []
  | m + 1, l => l.take n :: chunksOf n m (l.drop n)

/-- Codes of a row's stored elements, lowest first; a byte that no slot gives is free. -/
def rowCodes (s : State) (tag n : Nat) (data : List Byte) : List Nat :=
  let byte (i : Nat) : Nat := ((data[i]?).getD (Config.freeByte s.free i)).toNat
  (List.range n).map fun q =>
    if tagBits tag = 4 then byte (q / 2) / 16 ^ (q % 2) % 16
    else if tagBits tag = 16 then byte (2 * q) + 256 * byte (2 * q + 1)
    else byte q

/-- The values of a row at its K positions. -/
def rowDense (tag k : Nat) (row : List OpLine) (codes : List Nat) : List (Option FVal) :=
  let n := tagKept tag
  if n = 8 then codes.map fun c => some (tagVal tag c)
  else
    (List.range (k / 8)).flatMap fun g =>
      let kept := (List.range n).map fun j => (keptIndex tag row (g * n + j), codes.getD (g * n + j) 0)
      (List.range 8).map fun d => ((kept.filter fun x => x.1 == d).head?).map fun x => tagVal tag x.2

def oneVal : FVal := .fin false 1 0

/-- The scale of a line's chunk from its side array; 1.0 in the formats that have none. -/
def lineScale (tag : Nat) (row : List OpLine) (c : Nat) : FVal :=
  let start := c * chunkOf (if tag = 7 then 7 else if tagBits tag = 16 then 1 else 3) * tagKept tag / 8 * tagBits tag / 8
  match row[start / 128]? with
  | none => oneVal
  | some l =>
    if tag = 7 then fval .bf16 (ofLeBytes ((l.side.drop (2 * (start % 128 / 16))).take 2))
    else if tag = 5 ∨ tag = 6 ∨ tag = 11 ∨ tag = 12 then fval .f32 (ofLeBytes (l.side.take 4))
    else oneVal

/-- The scale of a ring operand's row and chunk (R318). -/
def ringScale (r : RingBind) (sc : Option Nat) (opB : Bool) (scales : List Byte) (i c : Nat) : FVal :=
  let (sz, per) := scaleShape r opB
  match sc with
  | none => oneVal
  | some _ =>
    if sz = 0 then oneVal
    else
      let j := if opB && r.fmt != 7 then i / 128 else i
      let v := ofLeBytes ((scales.drop (sz * (c * per + j))).take sz)
      if sz = 2 then fval .bf16 v else fval .f32 v

/-- Row i of an operand. -/
def opRow (s : State) (tenant : BitVec 12) (o : MatOp) (opB : Bool) (k i : Nat) : RowVals :=
  let tag := if opB then o.fmtB else o.fmtA
  let ch := chunkOf o.fmtB
  let nc := k / ch
  match opRing o opB with
  | some (r, sc, _) =>
    let slots := if opB then o.slotsB else o.slotsA
    let rb := r.bytes / r.rows
    let data := slots.flatMap fun x => (x.drop (i * rb)).take rb
    ⟨chunksOf ch nc (rowDense tag k [] (rowCodes s tag k data)),
      (List.range nc).map fun c => ringScale r sc opB (if opB then o.scaleB else o.scaleA) i c⟩
  | none =>
    let row := (if opB then o.rowsB else o.rowsA).getD i []
    let data := row.flatMap (lineData s tenant)
    ⟨chunksOf ch nc (rowDense tag k row (rowCodes s tag (k * tagKept tag / 8) data)),
      (List.range nc).map fun c => lineScale tag row c⟩

/-- The exact sum of one chunk (R52 to R54). -/
def chunkSum (a b : List (Option FVal)) : FVal :=
  (exactSum 0 ((List.zipWith (fun x y => match x, y with | some x, some y => some (mulV x y) | _, _ => none) a b).filterMap id)).1

/-- A finite exact value as an integer. -/
def fvalInt : FVal → Int
  | .fin n m e => signedAt n m e 0
  | _ => 0

/-- One chunk added to an accumulator word. -/
def accumulate (fmtB : Nat) (sat_ : Bool) (acc : Nat) (p sa sb : FVal) : Nat :=
  if fmtB = 8 then
    let x := sext acc 32 + fvalInt p
    if sat_ then wrap (sat x (-(2 ^ 31 : Nat)) (2 ^ 31 - 1 : Nat)) 32 else wrap x 32
  else
    let t := if fmtB = 1 then p
      else if fmtB = 7 then fval .f32 (roundVal .f32 0 (mulV (mulV p sa) sb)).bits
      else mulV (mulV p sa) sb
    (faddV .f32 0 false (fval .f32 acc) t).bits

def accGo (fmtB : Nat) (sat_ : Bool) : List (List (Option FVal)) → List (List (Option FVal)) → List FVal → List FVal → Nat → Nat
  | a :: as, b :: bs, x :: xs, y :: ys, acc => accGo fmtB sat_ as bs xs ys (accumulate fmtB sat_ acc (chunkSum a b) x y)
  | _, _, _, _, acc => acc

/-- The new words of the block at position `pos` of the block list (R268). -/
def blockWords (s : State) (core : Nat) (o : MatOp) (n k pos block : Nat) (sat_ : Bool) : List Nat :=
  let cols := n / 64
  let tn := (opWho s core o).tenant
  let ra := (List.range 64).map fun i => opRow s tn o false k (64 * (pos / cols) + i)
  let rb := (List.range 64).map fun j => opRow s tn o true k (64 * (pos % cols) + j)
  let acc := (s.core core).acc
  (ra.zip (List.range 64)).flatMap fun (a, i) => (rb.zip (List.range 64)).map fun (b, j) =>
    accGo o.fmtB sat_ a.chunks b.chunks a.scales b.scales (tabGet 0#32 acc (block * 4096 + 64 * i + j)).toNat

/-! ### Completion (R269 to R271) -/

def writeBlock (s : State) (core block : Nat) (ws : List Nat) : State :=
  s.modCore core fun c =>
    { c with acc := ((ws.zip (List.range ws.length)).foldl
        (fun t x => tabSet 0#32 t (block * 4096 + x.2) (BitVec.ofNat 32 x.1)) c.acc) }

/-- The words of a block. -/
def blockOf (c : Core) (block : Nat) : List Nat := (List.range 4096).map fun j => (tabGet 0#32 c.acc (block * 4096 + j)).toNat

/-- The operation is complete: its pins are released, it is counted, and it leaves the queue unless a put remains. -/
def finishOp (s : State) (core i : Nat) (o : MatOp) : State :=
  let s := countOp (unpinLines s o.pinned) core o
  let s := match o.kind with
    | .mma m n k _ _ _ => meterAdd s (opWho s core o).part (meterOf o.fmtB) (m * n * (k * tagKept o.fmtA / 8))
    | _ => s
  match o.put with
  | none => removeOp s core i
  | some _ => modOp s core i fun o => { o with completed := true, pinned := [], computeAt := s.cycle }

/-- R271: RERUNS stops at 255. -/
def addRerun (s : State) (core : Nat) (o : MatOp) : State :=
  match opStream s core o with
  | none => s
  | some g =>
    let n := g.mxstatus.toNat / 2 ^ 24
    s.putGroup core Config.streamSlot
      { g with mxstatus := BitVec.ofNat 32 (Nat.min 255 (n + 1) * 2 ^ 24 + g.mxstatus.toNat % 2 ^ 24) }

/-- R271: a second mismatch sets WFAIL, and the stream owes its MMA_WITNESS. -/
def markWitness (s : State) (core : Nat) (o : MatOp) : State :=
  match opStream s core o with
  | some g => s.putGroup core Config.streamSlot { g with mxstatus := g.mxstatus ||| 0x400#32, witnessFault := true }
  | none => s

/-- The operation with a due block write of a sub-array. -/
def subDue (s : State) (core sub : Nat) : Option (Nat × MatOp × SubOp) :=
  let mq := (s.core core).mq
  ((mq.zip (List.range mq.length)).filterMap fun x =>
    match x.1.subs.filter fun y => y.sub == sub && !y.done
        && (match y.writeAt with | some t => decide (t ≤ s.cycle) | none => false) with
    | y :: _ => some (x.2, x.1, y)
    | [] => none).head?

/-- A sub-array writes its block. A nonzero `upsets` is an upset of the array in this attempt, which its witness finds. -/
def writeSub (s : State) (core i : Nat) (o : MatOp) (x : SubOp) (upset : Bool) : State :=
  match o.kind with
  | .mma _ n k _ _ sat_ =>
    if upset && x.attempt == 0 then
      addRerun (modOp s core i fun o =>
        { o with subs := listUpd (fun y => y.sub == x.sub) (fun y => { y with progress := 0, writeAt := none, attempt := 1 }) o.subs })
        core o
    else
      let ws := blockWords s core o n k x.pos x.block sat_
      let ws := if upset then (List.range 4096).map fun j => Config.freeNat s.free (100 + j) else ws
      let before := blockOf (s.core core) x.block
      let s := writeBlock s core x.block ws
      let s := if upset then markWitness (s.modCore core fun c => { c with suspect := true }) core o else s
      let s := modOp s core i fun o =>
        { o with failed := o.failed || upset,
                 subs := listUpd (fun y => y.sub == x.sub) (fun y => { y with done := true, before := before }) o.subs }
      match (s.core core).mq[i]? with
      | some o => if o.subs.all (·.done) then finishOp s core i o else s
      | none => s
  | _ => s

/-- A word as MDRAIN writes it (R317). -/
def drainWord (ty : Ty) (w : Nat) : List Byte :=
  if ty = .bf16x2 then
    leBytes (match fval .f32 w with | .nan _ => Fmt.bf16.qnan | x => (roundVal .bf16 0 x).bits) 2
  else leBytes w 4

/-- An operation without sub-arrays completes: MZERO, or MDRAIN. -/
def finishPlain (s : State) (core i : Nat) (o : MatOp) : State :=
  match o.kind with
  | .zero b n =>
    finishOp (s.modCore core fun c =>
      { c with acc := c.acc.filter fun e => !(decide (b * 4096 ≤ e.1) && decide (e.1 < (b + n) * 4096)) }) core i o
  | .drain ty spa pitch b clear =>
    let acc := (s.core core).acc
    let row (r : Nat) : List Byte := (List.range 64).flatMap fun j => drainWord ty (tabGet 0#32 acc (b * 4096 + 64 * r + j)).toNat
    let s := (List.range 64).foldl (fun s r =>
      match opSp s core o (spa + r * pitch) 1 with
      | some (pc, off) => spWrite s pc off (row r)
      | none => s) s
    let s := if clear then s.modCore core fun c => { c with acc := c.acc.filter fun e => e.1 / 4096 != b } else s
    finishOp s core i o
  | _ => s

/-- The operation without sub-arrays that is due. -/
def plainDue (s : State) (core : Nat) : Option (Nat × MatOp) :=
  let mq := (s.core core).mq
  ((mq.zip (List.range mq.length)).filterMap fun x =>
    if x.1.subs.isEmpty && x.1.started.isSome && !x.1.completed && decide (x.1.computeAt ≤ s.cycle) then some (x.2, x.1) else none).head?

/-- A sub-array 0 to 15 writes its block; `sub` 16 stands for an operation without sub-arrays, MZERO or MDRAIN. -/
def execMatrixOpComplete (core sub upsets : Nat) (s : State) : Host.Outcome State Fault Refusal := keep s <|
  if sub < 16 then
    match subDue s core sub with
    | some (i, o, x) => .next (writeSub s core i o x (upsets != 0)).tick
    | none => .next s
  else
    match plainDue s core with
    | some (i, o) => .next (finishPlain s core i o).tick
    | none => .next s

/-- The completed MMAS whose put can be performed: its mailbox has room, and of all that wait for it none began earlier. -/
def putDue (s : State) (core : Nat) : Option (Nat × Nat × DWord) :=
  let mq := (s.core core).mq
  let earlier (m t : Nat) : Bool := s.groups.any fun e => e.1 / 65 == core && e.2.splits.any fun p =>
    p.2.wait == some (.mailbox m true) && decide (p.2.waitFrom < t)
  let due := (mq.zip (List.range mq.length)).filterMap fun x =>
    match x.1.put with
    | some (m, v) =>
      if x.1.completed && !x.1.asleep && (s.mailbox core m).state != .full && !earlier m x.1.computeAt then some (x.1.computeAt, x.2, m, v)
      else none
    | none => none
  (leastBy (·.1) due).map (·.2)

/-- R315. -/
def execMmasPut (core : Nat) (s : State) : Host.Outcome State Fault Refusal := keep s <|
  match putDue s core with
  | none => .next s
  | some (i, m, v) => .next (removeOp (putMailbox s core m v) core i).tick

end Sys2Proof.Machine
end

