-- ==== Sys2Proof/Machine/Hash.lean ====
section
/-! DEFINITION. SHA-256 and SHA-384 of FIPS 180-4, which R365 and R377 name, over byte lists. -/
namespace Sys2Proof.Machine
open Sys2Proof

/-- The first 80 primes, whose roots give the constants of FIPS 180-4. -/
def shaPrimes : List Nat :=
  [2, 3, 5, 7, 11, 13, 17, 19, 23, 29, 31, 37, 41, 43, 47, 53, 59, 61, 67, 71, 73, 79, 83, 89, 97, 101, 103, 107, 109, 113,
   127, 131, 137, 139, 149, 151, 157, 163, 167, 173, 179, 181, 191, 193, 197, 199, 211, 223, 227, 229, 233, 239, 241, 251,
   257, 263, 269, 271, 277, 281, 283, 293, 307, 311, 313, 317, 331, 337, 347, 349, 353, 359, 367, 373, 379, 383, 389, 397,
   401, 409]

/-- floor of the k-th root of n by bisection over the given number of bits. -/
def rootBits (k n : Nat) : Nat → Nat → Nat
  | 0, acc => acc
  | b + 1, acc => let c := acc + 2 ^ b; rootBits k n b (if c ^ k ≤ n then c else acc)

/-- The first w bits of the fraction of the k-th root of p. -/
def rootFrac (k w p : Nat) : Nat := rootBits k (p * 2 ^ (k * w)) (w + 6) 0 % 2 ^ w

/-- Rotate right. -/
def rotr (w x n : Nat) : Nat := x / 2 ^ n + x % 2 ^ n * 2 ^ (w - n)

/-- The shift and rotation amounts of one hash function: word width, rounds, and the four sigma functions. -/
structure ShaKind where
  w : Nat
  rounds : Nat
  big0 : Nat × Nat × Nat
  big1 : Nat × Nat × Nat
  small0 : Nat × Nat × Nat
  small1 : Nat × Nat × Nat

def sha256Kind : ShaKind := ⟨32, 64, (2, 13, 22), (6, 11, 25), (7, 18, 3), (17, 19, 10)⟩
def sha512Kind : ShaKind := ⟨64, 80, (28, 34, 39), (14, 18, 41), (1, 8, 7), (19, 61, 6)⟩

def shaBig (w : Nat) (r : Nat × Nat × Nat) (x : Nat) : Nat :=
  Nat.xor (Nat.xor (rotr w x r.1) (rotr w x r.2.1)) (rotr w x r.2.2)
def shaSmall (w : Nat) (r : Nat × Nat × Nat) (x : Nat) : Nat :=
  Nat.xor (Nat.xor (rotr w x r.1) (rotr w x r.2.1)) (x / 2 ^ r.2.2)

/-- The message schedule, newest word first. -/
def shaSchedule (kd : ShaKind) : Nat → List Nat → List Nat
  | 0, l => l
  | n + 1, l =>
    let g (i : Nat) := l.getD i 0
    let x := (shaSmall kd.w kd.small1 (g 1) + g 6 + shaSmall kd.w kd.small0 (g 14) + g 15) % 2 ^ kd.w
    shaSchedule kd n (x :: l)

/-- One round over the eight working words. -/
def shaRound (kd : ShaKind) (st : List Nat) (kw : Nat × Nat) : List Nat :=
  match st with
  | [a, b, c, d, e, f, g, h] =>
    let m := 2 ^ kd.w
    let ch := Nat.xor (Nat.land e f) (Nat.land (m - 1 - e) g)
    let maj := Nat.xor (Nat.xor (Nat.land a b) (Nat.land a c)) (Nat.land b c)
    let t1 := h + shaBig kd.w kd.big1 e + ch + kw.1 + kw.2
    let t2 := shaBig kd.w kd.big0 a + maj
    [(t1 + t2) % m, a, b, c, (d + t1) % m, e, f, g]
  | _ => st

/-- The number whose bytes, most significant first, are l. -/
def ofBeBytes (l : List Byte) : Nat := l.foldl (fun a b => 256 * a + b.toNat) 0
/-- The n bytes of v, most significant first. -/
def beBytes (v n : Nat) : List Byte := (leBytes v n).reverse

/-- l cut into pieces of n, by a bound on their number. -/
def chunks {α : Type} (n : Nat) : Nat → List α → List (List α)
  | 0, _ => []
  | k + 1, l => if l.isEmpty then [] else l.take n :: chunks n k (l.drop n)

def shaBlock (kd : ShaKind) (ks : List Nat) (st : List Nat) (block : List Byte) : List Nat :=
  let words := (chunks (kd.w / 8) 16 block).map ofBeBytes
  let sched := (shaSchedule kd (kd.rounds - 16) words.reverse).reverse
  let out := (List.zip ks sched).foldl (shaRound kd) st
  List.zipWith (fun x y => (x + y) % 2 ^ kd.w) st out

/-- The padded message. -/
def shaPad (kd : ShaKind) (l : List Byte) : List Byte :=
  let lenBytes := kd.w / 4
  let blk := 2 * kd.w
  let z := (2 * blk - (l.length + 1 + lenBytes) % blk) % blk
  l ++ (0x80#8 :: List.replicate z 0) ++ beBytes (8 * l.length) lenBytes

def shaRun (kd : ShaKind) (init : List Nat) (l : List Byte) : List Byte :=
  let p := shaPad kd l
  let ks := (shaPrimes.take kd.rounds).map (rootFrac 3 kd.w)
  let st := (chunks (2 * kd.w) (p.length / (2 * kd.w)) p).foldl (shaBlock kd ks) init
  (st.map fun x => beBytes x (kd.w / 8)).flatten

/-- SHA-256, 32 bytes. -/
def sha256 (l : List Byte) : List Byte := shaRun sha256Kind ((shaPrimes.take 8).map (rootFrac 2 32)) l

/-- SHA-384, 48 bytes. -/
def sha384 (l : List Byte) : List Byte :=
  (shaRun sha512Kind (((shaPrimes.drop 8).take 8).map (rootFrac 2 64)) l).take 48

end Sys2Proof.Machine
end

