-- ==== Sys2Proof/Machine/CopyDone.lean ====
section
/-! DEFINITION. What the copy engine does when a copy finishes (R274, R275, R307, R308, R365). -/
namespace Sys2Proof.Machine
open Sys2Proof

/-- The copy engine of a core as a master (R374, log 21). -/
def copyMaster (core : Nat) : Nat := 290 + core

/-- Where one byte of a capability lies. -/
def copyByte (s : State) (w : Who) (c : Cap) (off mask : Nat) : Except (Nat × Nat) Place :=
  match reach s w (copyMaster w.core) ⟨c, false, 0, 0⟩ off 1 mask with
  | .ok (.mem pa) => .ok (.mem (c.base.toNat + off) c.tenant pa)
  | .ok (.remote d va) => .ok (.far d va)
  | .error code => .error (code, c.base.toNat + off)

/-- A number of the index list (R307). -/
def copyIndex (s : State) (w : Who) (c : Cap) (off n : Nat) : Except (Nat × Nat) Nat :=
  match copyByte s w c off permR with
  | .error e => .error e
  | .ok p => .ok (loadAt s p n)

/-- The offsets of each byte moved, destination and source. -/
def stridedMoves (doff soff e n0 n1 n2 : Nat) (ss0 ss1 ss2 ds0 ds1 ds2 : Int) : List (Nat × Nat) :=
  (List.range n2).flatMap fun (i2 : Nat) => (List.range n1).flatMap fun (i1 : Nat) => (List.range n0).flatMap fun (i0 : Nat) =>
    (List.range e).map fun (x : Nat) =>
      let at_ (o : Nat) (a b c : Int) : Nat := ((o : Int) + (i0 : Int) * a + (i1 : Int) * b + (i2 : Int) * c + (x : Int)).toNat
      (at_ doff ds0 ds1 ds2, at_ soff ss0 ss1 ss2)

/-- One element of CPYG: its moves, or the fault of its index. -/
def gatherMoves (s : State) (w : Who) (c : Copy) (doff soff e ioff wd j : Nat) : List (Except (Nat × Nat) (Nat × Nat)) :=
  match copyIndex s w c.idx (ioff + j * wd) wd with
  | .error x => [.error x]
  | .ok q =>
    if c.src.len < soff + q * e + e ∨ 2 ^ 57 < c.src.base.toNat + soff + q * e + e then [.error (fCapBounds, (c.src.base.toNat + soff + q * e) % 2 ^ 64)]
    else (List.range e).map fun x => .ok (doff + j * e + x, soff + q * e + x)

/-- The bytes that a copy moves (R307, R365). -/
def copyMoves (s : State) (w : Who) (c : Copy) : List (Except (Nat × Nat) (Nat × Nat)) :=
  match c.shape with
  | .linear d a n => (List.range n).map fun x => .ok (d + x, a + x)
  | .strided d a e n0 n1 n2 s0 s1 s2 d0 d1 d2 => (stridedMoves d a e n0 n1 n2 s0 s1 s2 d0 d1 d2).map .ok
  | .gather d a e nel ioff wd => (List.range nel).flatMap (gatherMoves s w c d a e ioff wd)
  | .shard _ _ _ _ n => (List.range n).map fun x => .ok (64 + x, x)

/-- Both places of a byte moved. -/
def placeMove (s : State) (w : Who) (c : Copy) (m : Except (Nat × Nat) (Nat × Nat)) : Except (Nat × Nat) (Place × Place) :=
  match m with
  | .error e => .error e
  | .ok (d, a) =>
    match copyByte s w c.dst d permW, copyByte s w c.src a permR with
    | .ok x, .ok y => .ok (x, y)
    | .error e, _ => .error e
    | _, .error e => .error e

def placePa : Place → Option Nat
  | .mem _ _ pa => some pa
  | _ => none
def samePlace (a b : Place) : Bool :=
  match a, b with
  | .mem _ _ x, .mem _ _ y => x == y
  | _, _ => a == b
/-- A salt for choices about a place. -/
def placeSalt : Place → Nat
  | .mem _ _ pa => pa
  | .sp core off _ => core * 2 ^ 20 + off
  | .far d va => d * 2 ^ 57 + va

/-- The byte at a place before this copy, or before another copy of the batch wrote it (R275). -/
def oldByte (s : State) (rivals : List (Nat × Byte × Byte)) (p : Place) : Byte :=
  match placePa p with
  | none => BitVec.ofNat 8 (loadAt s p 1)
  | some pa =>
    match (rivals.filter fun r => r.1 == pa).head? with
    | some r => if Config.freeBit s.free (8 * pa + 1) then r.2.1 else s.byte pa
    | none => s.byte pa

/-- The value that a copy's byte moves: a source that the copy, or another of its batch, also writes is read before or after
that write, and of several writers of one byte one comes last (R275, R307). -/
def moveValue (s : State) (rivals : List (Nat × Byte × Byte)) (moves : List (Place × Place)) : Nat → Place → Byte
  | 0, p => oldByte s rivals p
  | fuel + 1, p =>
    match moves.filter fun m => samePlace m.1 p with
    | [] => oldByte s rivals p
    | ws =>
      if Config.freeBit s.free (8 * placeSalt p + 2) then
        match ws[Config.freeNat s.free (8 * placeSalt p + 3) % ws.length]? with
        | some m => moveValue s rivals moves fuel m.2
        | none => oldByte s rivals p
      else oldByte s rivals p

/-- The byte that ends at each destination, with its place; `others` are the moves of copies of the batch still to finish. -/
def movedBytes (s : State) (rivals : List (Nat × Byte × Byte)) (moves others : List (Place × Place)) :
    List (Place × Byte) :=
  (moves.zip (List.range moves.length)).filterMap fun (m, i) =>
    let same := (List.range moves.length).filter fun j => match moves[j]? with | some x => samePlace x.1 m.1 | none => false
    let last := same.getD (Config.freeNat s.free (8 * placeSalt m.1 + 4) % same.length) i
    if last = i then some (m.1, moveValue s rivals (moves ++ others) (moves.length + others.length) m.2) else none

/-- R275: a byte that another copy of the batch has written keeps either value. -/
def keepsRival (s : State) (rivals : List (Nat × Byte × Byte)) (p : Place) : Bool :=
  match placePa p with
  | some pa => (rivals.any fun r => r.1 == pa) && Config.freeBit s.free (8 * pa + 5)
  | none => false

/-- Bytes at consecutive places of one line as one access. -/
def coalesce : List (Place × Byte) → List (Place × List Byte)
  | [] => []
  | (p, b) :: r =>
    match coalesce r with
    | [] => [(p, [b])]
    | (q, bs) :: t =>
      let joins := match p, q with
        | .mem va _ pa, .mem vb _ pb => pa + 1 == pb && va + 1 == vb && pa / 128 == pb / 128
        | .far d x, .far e y => d == e && x + 1 == y && x / 128 == y / 128
        | _, _ => false
      if joins then (p, b :: bs) :: t else (p, [b]) :: (q, bs) :: t

/-- Read traffic of the source lines. -/
def touchSources (s : State) (w : Who) (moves : List (Place × Place)) : State :=
  (coalesce (moves.map fun m => (m.2, 0#8))).foldl (fun s x =>
    match x.1 with
    | .mem _ _ pa => l2Touch s w pa false
    | .far d _ => countFar s w.part d x.2.length
    | _ => s) s

/-- The requester of a copy engine's traffic: it goes to L2 without the core's L1 (R202, R214). -/
def engineWho (w : Who) : Who := { w with core := dieOf w.core * Config.coreKeys + Config.meshCores }

def writePlaces (s : State) (w : Who) (l : List (Place × Byte)) : State :=
  (coalesce l).foldl (fun s x => storeAt s (engineWho w) x.1 x.2) s

/-- The header of Table 16.6. Its digest's first byte has the lowest address (log 26). -/
def shardHeader (job step shard nshard len : Nat) (data : List Byte) : List Byte :=
  sha256 data ++ leBytes len 8 ++ leBytes nshard 4 ++ leBytes shard 4 ++ leBytes step 8 ++ leBytes job 8

/-- Where the header of a shard goes. -/
def headerPlaces (s : State) (w : Who) (c : Copy) : List Place :=
  match c.shape with
  | .shard .. => (List.range 64).filterMap fun i => match copyByte s w c.dst i permW with | .ok p => some p | .error _ => none
  | _ => []

/-- The header of a shard, written after its data. -/
def writeHeader (s : State) (w : Who) (c : Copy) (places : List Place) (moved : List (Place × Byte)) : State :=
  match c.shape with
  | .shard job step shard nshard len => writePlaces s w (places.zip (shardHeader job step shard nshard len (moved.map (·.2))))
  | _ => s

def copyRecord (s : State) (core : Nat) (c : Copy) (w : Who) (code kind info : Nat) : Record :=
  { info := info, lmask := 0, pc := c.pc, context := w.context, tenant := w.tenant, part := w.part,
    queue := (match s.launch? c.launch with | some l => l.queue | none => 0), srck := 2, core := core % Config.coreKeys,
    die := dieOf core, gslot := c.slot, split := 0, code := code, kind := kind }

/-- The group of a copy is no longer on its core, so no CWAIT covers the copy. -/
def ownerGone (s : State) (core : Nat) (c : Copy) : Bool :=
  match s.group? core c.slot with
  | none => true
  | some g => (g.launch, g.groupId) != (c.launch, c.group)

/-- A failure that no CWAIT can raise ends its launch (R326, log 69). -/
def lateFailure (s : State) (core : Nat) (c : Copy) (f : CopyFault) : State :=
  match s.launch? c.launch with
  | none => s
  | some l => if l.done then s else endLaunch s c.launch f.code (copyRecord s core c (l.who core) f.code 1 f.info)

/-- It waits for room in the port (R332). -/
def failureWaits (s : State) (core : Nat) (c : Copy) (w : Who) : Bool :=
  ownerGone s core c && portFull s (dieOf core) (ringClass (ringOf s w.part (dieOf core) 1))

/-- The copy leaves the engine; its batch may complete. -/
def retireCopy (s : State) (core : Nat) (c : Copy) (fault : Option CopyFault) : State :=
  let s := s.modCore core fun k => { k with copies := k.copies.filter fun x => x.id != c.id }
  if ownerGone s core c then
    match fault with
    | some f => lateFailure s core c f
    | none => s
  else
    match s.group? core c.slot with
    | none => s
    | some g =>
      s.putGroup core c.slot (settleBatches
        { g with openCopies := natRemove c.id g.openCopies, failed := g.failed ++ fault.toList,
                 batches := g.batches.map fun b => (b.1, natRemove c.id b.2) })

/-- The other copies of its batch learn what this one wrote. -/
def tellRivals (s : State) (core : Nat) (c : Copy) (wrote : List (Nat × Byte × Byte)) : State :=
  s.modCore core fun k =>
    { k with copies := k.copies.map fun x =>
        if x.launch == c.launch && x.group == c.group && x.batch == c.batch && x.id != c.id then
          { x with rivals := wrote ++ x.rivals }
        else x }

/-- What the copies of the same batch that have not finished move. -/
def batchMoves (s : State) (core : Nat) (c : Copy) (w : Who) : List (Place × Place) :=
  ((s.core core).copies.filter fun x => x.launch == c.launch && x.group == c.group && x.batch == c.batch && x.id != c.id).flatMap
    fun x => ((copyMoves s w x).map (placeMove s w x)).filterMap fun m => match m with | .ok m => some m | .error _ => none

/-- The TLB after the copy's accesses (R198). -/
def fillPlaces (s : State) (w : Who) (l : List Place) : State :=
  fillPages s w (l.filterMap fun p => match p with | .mem va _ _ => some va | _ => none)

/-- The bytes of a copy are moved. -/
def performCopy (s : State) (core : Nat) (c : Copy) (w : Who) (moves : List (Place × Place)) (fault : Option CopyFault) : State :=
  let moved := movedBytes s c.rivals moves (batchMoves s core c w)
  let written := moved.filter fun x =>
    !keepsRival s c.rivals x.1 && (fault.isNone || Config.freeBit s.free (8 * placeSalt x.1 + 6))
  let wrote := written.filterMap fun x => (placePa x.1).map fun pa => (pa, s.byte pa, x.2)
  let header := headerPlaces s w c
  let s := fillPlaces s w (moves.flatMap fun m => [m.1, m.2])
  let s := writePlaces (touchSources s w moves) w written
  let s := if fault.isNone then writeHeader s w c header moved else s
  retireCopy (tellRivals s core c wrote) core c fault

/-- The first fault of a shard's header bytes. -/
def headerFault (s : State) (w : Who) (c : Copy) : List (Nat × Nat) :=
  match c.shape with
  | .shard .. => (List.range 64).filterMap fun i => match copyByte s w c.dst i permW with | .error e => some e | .ok _ => none
  | _ => []

/-- One copy runs: it completes, parks (R334), or ends with a terminal fault (R275). -/
def runCopy (s : State) (core : Nat) (c : Copy) : State :=
  let w : Who := match s.launch? c.launch with | some l => l.who core | none => ⟨core, 0, 0, 0, false⟩
  let all := (copyMoves s w c).map (placeMove s w c)
  let moves := all.filterMap fun x => match x with | .ok m => some m | .error _ => none
  match (all.filterMap fun x => match x with | .error e => some e | .ok _ => none) ++ headerFault s w c with
  | [] => performCopy s core c w moves none
  | (code, info) :: _ =>
    if isRetryable code then
      if portFull s (dieOf core) (ringClass (ringOf s w.part (dieOf core) 0)) then s
      else
        (pushRecord s (copyRecord s core c w code 0 info)).modCore core fun k =>
          { k with copies := k.copies.map fun x => if x.id == c.id then { x with parked := some (code, info) } else x }
    else if failureWaits s core c w then s
    else performCopy s core c w moves (some ⟨c.batch, c.id, c.pc, code, info⟩)

/-- The copies of a group slot that can run, oldest first. -/
def runnableCopies (s : State) (core slot : Nat) : List Copy :=
  (s.core core).copies.filter fun c => c.slot == slot && c.parked.isNone

/-- The copy at position `pos` among those of a group slot finishes. -/
def execCopyComplete (core slot pos : Nat) (s : State) : Host.Outcome State Fault Refusal := keep s <|
  match (runnableCopies s core slot)[pos]? with
  | some c => .next (runCopy s core c).tick
  | none => .next s

end Sys2Proof.Machine
end

