-- ==== Sys2Proof/Machine/Place.lean ====
section
/-! DEFINITION. Placement of groups on cores (R131 to R135, R284, R290), the state of a group at launch (Table 1.2), and the
eviction and restart of harvest groups (R340 to R343). -/
namespace Sys2Proof.Machine
open Sys2Proof

/-! ### A group at launch -/

/-- The split of a group at launch, but for its capabilities, k registers and PC. -/
def freshSplit (pc : BitVec 57) (mask : BitVec 32) (k : Tab DWord) (a : Tab CapReg) (readyAt : Nat) : Split where
  pc := pc
  mask := mask
  k := k
  a := a
  ctl := 0
  status := 0
  srseed := 0
  run := 0
  flight := []
  pending := []
  unawaited := []
  latch := []
  readyAt := readyAt
  pcOver := false
  resumed := false
  cut := false
  tvec := 0
  inHandler := false
  trapCode := 0
  trapPc := 0
  trapMask := 0
  trapEntry := 0
  trapInfo := 0
  trapFrom := 0
  ev := false
  wait := none
  waitFrom := 0
  parked := []
  parkedSince := 0
  ending := false
  only := none
  inner := none
  pkHold := none
  counted := false

/-- A group or stream at launch with one split. -/
def freshGroup (launch : Nat) (context : BitVec 12) (stream : Bool) (vregs grains : Nat) (sp : Split) : Group where
  launch := launch
  context := context
  groupId := 0
  cluster := 0
  team := 0
  member := 0
  stream := stream
  quad := 0
  vregs := vregs
  grains := grains
  banks := []
  granules := []
  v := []
  p := []
  t := []
  g := []
  sr := []
  pk := []
  exited := 0
  absent := 0
  threads := []
  repacked := false
  teamJoin := none
  stack := []
  splits := [(0, sp)]
  arrivals := []
  counted := []
  openCopies := []
  closed := 0
  completed := 0
  batches := []
  failed := []
  fetching := none
  withdrawn := none
  region := none
  committed := []
  snapshot := none
  evictions := 0
  protectedUntil := 0
  rgnSel := 0
  placedAt := 0
  lastIssue := 0
  evicted := false
  mxstatus := 0
  ringA := none
  ringB := none
  sclA := none
  sclB := none
  witnessFault := false

def teamsOf (l : Launch) : Nat := l.cw * l.ch
def groupsPerCluster (l : Launch) : Nat := teamsOf l * l.team
/-- R284. -/
def gridGroups (l : Launch) : Nat := l.gx * l.gy * groupsPerCluster l

/-- The front end's access to memory of another device, or its fault (R369, R370, R373). -/
def frontFar (s : State) (w : Who) (device va : Nat) : Except Nat Place :=
  if device = 0xFFFFF then .error fCapPerm
  else if 0x80000 ≤ device then .error fPeerLost
  else if !(s.part w.part).reach.contains device then .error fCapTenant
  else match farAnswer s device va with
    | some e => .error e
    | none => .ok (.far device va)

/-- Where the front end finds an address of a capability. -/
def frontPlace (s : State) (w : Who) (c : Cap) (va mask : Nat) : Except Nat Place :=
  if c.device != s.regs.deviceId then frontFar s w c.device.toNat va
  else match frontXlat s w.tenant va mask with
    | .ok pa => .ok (.mem va w.tenant pa)
    | .error e => .error e

/-- n bytes of a capability's memory, read for the work of a launch as it starts. -/
def blockBytes (s : State) (w : Who) (c : Cap) (off : Nat) : Nat → Except Nat (List Byte)
  | 0 => .ok []
  | n + 1 =>
    match frontPlace s w c (c.base.toNat + off) permR, blockBytes s w c (off + 1) n with
    | .ok p, .ok r => .ok (BitVec.ofNat 8 (loadAt s p 1) :: r)
    | .error e, _ => .error e
    | _, .error e => .error e

/-- A read of the front end of some bytes at an address: a hit or a fill at the home slice, or bytes over Torwen (R376). -/
def frontTouch (s : State) (w : Who) (at_ : Option Nat × Nat) (n : Nat) : State :=
  match at_.1 with
  | some d => countFar s w.part d n
  | none => match frontXlat s w.tenant at_.2 permR with
    | .ok pa => l2Touch s w pa false
    | .error _ => s

/-- A read of n bytes of a capability's memory, line by line. -/
def touchBlock (s : State) (w : Who) (c : Cap) (off n : Nat) : State :=
  let va := c.base.toNat + off
  if c.device != s.regs.deviceId then frontTouch s w (some c.device.toNat, va) n
  else (List.range ((va % 128 + n + 127) / 128)).foldl (fun s i => frontTouch s w (none, (va / 128 + i) * 128) 128) s

/-- k0 to k63 of Table 1.2. -/
def argWords (bs : List Byte) : Tab DWord :=
  (List.range 64).foldl (fun t i =>
    tabSet 0#64 t i (BitVec.ofNat 64 (ofLeBytes ((bs.drop (8 * i)).take 8)))) []

/-- The capability registers of Table 1.2. -/
def launchCaps (l : Launch) : Tab CapReg :=
  let regs := { l.code with pr := false, pw := false, pa := false } :: l.argReg :: l.caps
  ((regs.zip (List.range 16)).filterMap fun x => if x.1 = Cap.null then none else some (x.2, ⟨x.1, false, 0, 0⟩))

/-- The split with which a group of a launch starts, or the fault of reading its argument block. A group of a node batch
holds its record count in k63 (R291), and kPASSK the LOOP pass (R284). -/
def launchSplit (s : State) (l : Launch) (stream : Bool) (readyAt : Nat) : Except Nat Split :=
  match blockBytes s (l.who Config.meshCores) l.arg 0 (Nat.min l.argLen 512) with
  | .error e => .error e
  | .ok bs =>
    let k := argWords bs
    let k := match l.node with | some _ => tabSet 0#64 k 63 (BitVec.ofNat 64 l.records) | none => k
    let k := match l.passK with | some (i, n) => tabSet 0#64 k i (BitVec.ofNat 64 n) | none => k
    let entry := if stream then l.mentry.getD 0 else l.entry
    .ok (freshSplit (l.code.base + BitVec.ofNat 57 entry) (if stream then 1 else 0xFFFFFFFF#32) k (launchCaps l) readyAt)

/-! ### The register budget (R133, R134) -/

/-- RFBUDGET's Reset value (Table 6.5). -/
def rfBudgetReset : DWord := 0x000000F00000FF00#64
def rfBudget (s : State) (core quad : Nat) : Nat := (tabGet rfBudgetReset s.regs.rfbudget (core * 4 + quad)).toNat
def bankSpare (s : State) (core quad b : Nat) : Bool := (rfBudget s core quad).testBit b
def bankProt (s : State) (core quad b : Nat) : Bool := (rfBudget s core quad).testBit (16 + b)
def grainSpare (s : State) (core quad j : Nat) : Bool := (rfBudget s core quad).testBit (32 + j)
def grainProt (s : State) (core quad j : Nat) : Bool := (rfBudget s core quad).testBit (40 + j)

/-- R133: whether a class may use an allocation bank or grain granule. -/
def bankAllowed (s : State) (core quad : Nat) (cls : Bool) (b : Nat) : Bool :=
  if cls then bankSpare s core quad b else !bankProt s core quad b
def grainAllowed (s : State) (core quad : Nat) (cls : Bool) (j : Nat) : Bool :=
  if cls then grainSpare s core quad j else !grainProt s core quad j

/-- The groups resident in a quadrant, but for some slots. -/
def residents (s : State) (core quad : Nat) (without : List (Nat × Nat)) : List Group :=
  (s.groups.filter fun e => e.1 / 65 == core && e.2.quad == quad && !e.2.stream && !e.2.evicted
    && !without.contains (core, e.1 % 65)).map (·.2)

def bankUsed (gs : List Group) (b : Nat) : Nat := sumNat (gs.map fun g => (g.banks.filter (· == b)).length)
def grainUsed (gs : List Group) (j : Nat) : Bool := gs.any fun g => g.granules.contains j

/-- Groups of a shape for which a quadrant has free granules and grain granules. -/
def granuleRoom (s : State) (core quad : Nat) (without : List (Nat × Nat)) (cls : Bool) (nv ng : Nat) : Nat :=
  let gs := residents s core quad without
  let freeV := sumNat (((List.range 16).filter (bankAllowed s core quad cls)).map fun b => 8 - bankUsed gs b)
  let freeG := ((List.range 8).filter fun j => grainAllowed s core quad cls j && !grainUsed gs j).length
  let byV := if nv = 0 then 16 else freeV / nv
  let byG := if ng = 0 then 16 else freeG / ng
  Nat.min byV byG

/-- Groups of a shape that fit in a quadrant, which holds 16. -/
def quadRoom (s : State) (core quad : Nat) (without : List (Nat × Nat)) (cls : Bool) (nv ng : Nat) : Nat :=
  Nat.min (16 - (residents s core quad without).length) (granuleRoom s core quad without cls nv ng)

/-! ### Room for a cluster (R135) -/

/-- The scratchpad ranges of a core in use: of teams whose cluster still has a group. -/
def scratchUsed (s : State) (core : Nat) : List (Nat × Nat) :=
  s.launches.flatMap fun e =>
    (e.2.teams.filter fun t => t.2.2.1 == core && s.groups.any fun g => g.2.launch == e.1 && g.2.cluster == t.1).map fun t =>
      (t.2.2.2 / 16384, e.2.spblk)

def scratchFree (s : State) (core at_ n : Nat) : Bool :=
  decide (at_ + n ≤ 64) && (scratchUsed s core).all fun r => decide (at_ + n ≤ r.1) || decide (r.1 + r.2 ≤ at_) || n == 0 || r.2 == 0

/-- R347: a launch uses none of the storage that has been removed from a core. -/
def storageOk (l : Launch) (removed : List StorageKind) : Bool :=
  removed.all fun k => match k with
    | .registers => false
    | .scratchpad => l.spblk == 0
    | .accumulators => l.mentry.isNone
    | .checkpoint => !l.hasSave

/-- A core on which a launch's groups may stand (R271, R347). -/
def coreServes (s : State) (core : Nat) (l : Launch) : Bool :=
  !isHeadstock core && (dieOf core == 0 || s.regs.die1) && tabGet 0 s.coreOwner core == l.part && !(s.core core).suspect
    && storageOk l (s.core core).removed

/-- A core that may receive a launch. None of its partition's work is placed on a core that is to move (R302). -/
def coreUsable (s : State) (core : Nat) (l : Launch) : Bool := coreServes s core l && (tabFind s.moves core).isNone

/-- The groups of a team that fit on a core. -/
def teamFits (s : State) (l : Launch) (core : Nat) (without : List (Nat × Nat)) : Bool :=
  let room := sumNat ((List.range 4).map fun q => quadRoom s core q without l.cls (l.vregs / 8) (l.grain / 8))
  let slots := 64 - (s.groups.filter fun e => e.1 / 65 == core && e.1 % 65 != Config.streamSlot).length
  coreUsable s core l && decide (l.team ≤ room) && decide (l.team ≤ slots)
    && ((List.range 65).any fun b => scratchFree s core b l.spblk)
    && (l.mentry.isNone || (s.group? core Config.streamSlot).isNone)

/-- The cores of a cluster whose first team is at (x, y) of a die. -/
def rectCores (l : Launch) (die x y : Nat) : List Nat :=
  (List.range (teamsOf l)).map fun t => die * Config.coreKeys + (y + t / l.cw) * 12 + x + t % l.cw

/-- The positions of a cluster on a die. -/
def positions (l : Launch) (die : Nat) : List (List Nat) :=
  (List.range (13 - l.ch)).flatMap fun y => (List.range (13 - l.cw)).map fun x => rectCores l die x y

def fitsAt (s : State) (l : Launch) (without : List (Nat × Nat)) (cores : List Nat) : Bool :=
  cores.all fun c => teamFits s l c without
def fitsDie (s : State) (l : Launch) (die : Nat) : Bool := (positions l die).any (fitsAt s l [])

/-! ### Eviction (R340) -/

/-- The harvest groups that a placement on these cores may evict, in eviction order. -/
def evictable (s : State) (cores : List Nat) : List (Nat × Nat) :=
  let l := (s.groups.filter fun e => cores.contains (e.1 / 65) && !e.2.stream && !e.2.evicted
    && decide (e.2.protectedUntil ≤ s.cycle) && (s.whoOf (e.1 / 65) e.2).cls).map fun e => ((e.1 / 65, e.1 % 65), e.2.placedAt)
  let before (a b : (Nat × Nat) × Nat) : Bool :=
    decide (b.2 < a.2) || (a.2 == b.2 && (decide (b.1.2 < a.1.2) || (a.1.2 == b.1.2
      && decide (b.1.1 % Config.coreKeys < a.1.1 % Config.coreKeys))))
  (l.foldl (fun acc x => (acc.takeWhile fun y => before y x) ++ x :: (acc.dropWhile fun y => before y x)) []).map (·.1)

/-- The sublists of k elements, in lexicographic order. -/
def choose {α : Type} : Nat → List α → List (List α)
  | 0, _ => [[]]
  | _ + 1, [] => []
  | k + 1, x :: r => (choose k r).map (x :: ·) ++ choose (k + 1) r

/-- Free granules of a position suffice for a cluster, whatever else it lacks there (R135). -/
def granulesAt (s : State) (l : Launch) (cores : List Nat) : Bool :=
  cores.all fun c => coreUsable s c l
    && decide (l.team ≤ sumNat ((List.range 4).map fun q => granuleRoom s c q [] l.cls (l.vregs / 8) (l.grain / 8)))

/-- The positions where a placement may evict: there it needs granules that harvest groups hold (R340). -/
def evictingPositions (s : State) (l : Launch) (die : Nat) : List (List Nat) :=
  (positions l die).filter fun p => !granulesAt s l p

/-- The sets of k groups whose eviction gives a cluster room at one of those positions. -/
def evictionSets (s : State) (l : Launch) (die k : Nat) : List (List (Nat × Nat)) :=
  let cores := (List.range Config.meshCores).map fun c => die * Config.coreKeys + c
  (choose k (evictable s cores)).filter fun d => (evictingPositions s l die).any (fitsAt s l d)

/-- The smallest set, and among equals the first in eviction order; the search ends at the number of evictable groups. -/
def leastEviction (s : State) (l : Launch) (die : Nat) : Nat → Nat → Option (List (Nat × Nat))
  | 0, _ => none
  | fuel + 1, k =>
    match evictionSets s l die k with
    | d :: _ => some d
    | [] => leastEviction s l die fuel (k + 1)

/-- The groups that must be evicted to place a cluster on a die: none where it fits. Only the guaranteed class evicts, and
only at a position where free granules do not suffice (R135, R340). -/
def evictionFor (s : State) (l : Launch) (die : Nat) : Option (List (Nat × Nat)) :=
  if fitsDie s l die then some []
  else if l.cls then none
  else
    let n := (evictable s ((List.range Config.meshCores).map fun c => die * Config.coreKeys + c)).length
    leastEviction s l die n 1

/-- The positions at which a cluster is placed once some groups are evicted. -/
def placePositions (s : State) (l : Launch) (die : Nat) (d : List (Nat × Nat)) : List (List Nat) :=
  if d.isEmpty then positions l die else evictingPositions s l die

/-- The cycle from which the groups of a placement can issue. Of one that evicts, Table 15.3 bounds it by 96 cycles after the
decision, from whose second cycle on the evicted groups issue nothing. -/
def placeReady (s : State) (d : List (Nat × Nat)) : Nat :=
  s.cycle + (if d.isEmpty then 0 else 2 + Config.freeNat s.free 43 % 95)

/-- A group is evicted: what it held in a region or in flight is discarded, its banks are free, its committed entries and
barrier arrivals stay (R340, R342). -/
def evictGroup (s : State) (core slot : Nat) : State :=
  match s.group? core slot with
  | none => s
  | some g =>
    let s := s.modCore core (Core.leaveQuads (· == slot))
    let w := s.whoOf core g
    let s := countPrivate (if g.region.isSome then countPrivate s w 6 else s) w 4
    s.putGroup core slot
      { g with evicted := true, evictions := g.evictions + 1, region := none, banks := [], granules := [], t := [],
               protectedUntil := 0,
               splits := g.splits.map fun p => (p.1, { p.2 with flight := [], pending := [], unawaited := [], latch := [], parked := [], ending := false, wait := none,
                                                                 only := none, pkHold := none, counted := false, run := 0 }) }

/-! ### The order of queues (R290) -/

/-- A launch with groups to place, of a running context. -/
def placing (s : State) (l : Launch) : Bool :=
  -- a packet that was discarded before it executed launches nothing
  (l.packet.isNone || (packetRing s l.queue l.packet).isSome) && decide (l.placed < gridGroups l) && !l.stopping && !l.done && !(s.context l.context).stopped && (s.part l.part).present

/-- A launch that can place its next cluster on a die. -/
def placeable (s : State) (l : Launch) (die : Nat) : Bool := placing s l && (evictionFor s l die).isSome

/-- The queues of a class with such a launch, ascending. -/
def placeableQueues (s : State) (die : Nat) (cls : Bool) : List (Nat × Queue) :=
  s.queues.filter fun q => s.launches.any fun e => e.2.queue == q.1 && e.2.cls == cls && placeable s e.2 die

/-- The queue that R290 serves next on a die, and whether a new round begins. -/
def servedQueue (s : State) (die : Nat) (cls : Bool) : Option (Nat × Bool) :=
  let l := placeableQueues s die cls
  let weighted := l.filter fun q => q.2.weight != 0
  match weighted.filter fun q => decide (tabGet 0 q.2.round die < q.2.weight) with
  | q :: _ => some (q.1, false)
  | [] =>
    match weighted with
    | q :: _ => some (q.1, true)
    | [] => (l.head?).map fun q => (q.1, false)

/-! ### Placing a cluster -/

/-- The %groupids of the launch's next cluster that are still to be placed. -/
def nextIds (l : Launch) : List Nat :=
  let per := groupsPerCluster l
  (List.range (per - l.placed % per)).map fun i => l.placed + i

def idTeam (l : Launch) (id : Nat) : Nat := id % groupsPerCluster l / l.team
def idCluster (l : Launch) (id : Nat) : Nat := id / groupsPerCluster l

/-- One group's site against the state without the evicted groups and with the earlier sites of the list. -/
def siteOk (s : State) (l : Launch) (without : List (Nat × Nat)) (earlier : List GroupSite) (x : GroupSite) : Bool :=
  let gs := residents s x.core x.quad without
  let mine := earlier.filter fun y => y.core == x.core && y.quad == x.quad
  let usedV (b : Nat) : Nat := bankUsed gs b + sumNat (mine.map fun y => (y.banks.filter (· == b)).length)
  decide (x.quad < 4) && decide (x.slot < 64) && decide (gs.length + mine.length < 16)
    && (s.group? x.core x.slot).isNone && !(earlier.any fun y => y.core == x.core && y.slot == x.slot)
    && x.banks.length == l.vregs / 8 && x.grains.length == l.grain / 8
    && x.banks.all (fun b => decide (b < 16) && bankAllowed s x.core x.quad l.cls b
        && decide (usedV b + (x.banks.filter (· == b)).length ≤ 8))
    && x.grains.all (fun j => decide (j < 8) && grainAllowed s x.core x.quad l.cls j && !grainUsed gs j
        && !(mine.any fun y => y.grains.contains j) && (x.grains.filter (· == j)).length == 1)

def sitesOkGo (s : State) (l : Launch) (without : List (Nat × Nat)) : List GroupSite → List GroupSite → Bool
  | _, [] => true
  | earlier, x :: r => siteOk s l without earlier x && sitesOkGo s l without (x :: earlier) r

/-- The sites form a rectangle of usable cores on one die, one core and scratchpad allocation a team. It is a position where
the cluster may be placed with these evictions. -/
def sitesShape (s : State) (l : Launch) (d : List (Nat × Nat)) (ids : List Nat) (sites : List GroupSite) : Bool :=
  match sites with
  | [] => false
  | f :: _ =>
    let die := dieOf f.core
    let t0 := idTeam l (ids.headD 0)
    let x0 := f.core % Config.coreKeys % 12 - t0 % l.cw
    let y0 := f.core % Config.coreKeys / 12 - t0 / l.cw
    let cores := rectCores l die x0 y0
    ids.length == sites.length && decide (x0 + l.cw ≤ 12) && decide (y0 + l.ch ≤ 12)
      && cores.all (fun c => coreUsable s c l) && (d.isEmpty || !granulesAt s l cores)
      && (ids.zip sites).all fun e =>
        cores[idTeam l e.1]? == some e.2.core && scratchFree s e.2.core e.2.spBase l.spblk
          && (l.mentry.isNone || (s.group? e.2.core Config.streamSlot).isNone)
          && (ids.zip sites).all fun d => idTeam l d.1 != idTeam l e.1 || d.2.spBase == e.2.spBase

/-- Put one group at its site. -/
def placeOne (s : State) (li : Nat) (l : Launch) (sp : Split) (id : Nat) (x : GroupSite) : State :=
  let t := idTeam l id
  let c := idCluster l id
  let empty := !(s.groups.any fun e => e.1 / 65 == x.core)
  -- R312
  let s := if empty then s.modCore x.core fun k => { k with mbx := [] } else s
  let g := { freshGroup li l.context false l.vregs l.grain sp with
    groupId := id, cluster := c, team := t, member := id % l.team, quad := x.quad, banks := x.banks, granules := x.grains,
    placedAt := s.cycle, lastIssue := s.cycle }
  let s := s.putGroup x.core x.slot g
  -- the work starts after an acquire on its core (R289, R322)
  let s := l1Drop s x.core fun y => y.owner == l.context
  if l.teams.any fun y => y.1 == c && y.2.1 == t then s
  else s.modLaunch li fun l => { l with teams := l.teams ++ (if l.teams.any (fun y => y.1 == c && y.2.1 == t) then [] else [(c, t, x.core, x.spBase * 16384)]) }

/-- Start the matrix stream of a team (R260). -/
def placeStream (s : State) (li : Nat) (l : Launch) (sp : Split) (id : Nat) (core : Nat) : State :=
  if l.mentry.isNone || (s.group? core Config.streamSlot).isSome then s
  else
    let g := { freshGroup li l.context true l.vregs 0 sp with
      groupId := id / l.team * l.team, cluster := idCluster l id, team := idTeam l id, placedAt := s.cycle }
    (s.putGroup core Config.streamSlot g).modLaunch li fun l => { l with streams := l.streams + 1 }

/-- Place the next cluster of a launch, evicting first what must be (R340). -/
def placeCluster (s : State) (li : Nat) (l : Launch) (sites : List GroupSite) (evicted : List (Nat × Nat)) (newRound : Bool)
    (sp st : Split) : State :=
  let s := touchBlock (evicted.foldl (fun s e => evictGroup s e.1 e.2) s) (l.who Config.meshCores) l.arg 0 (Nat.min l.argLen 512)
  let ids := nextIds l
  let s := (ids.zip sites).foldl (fun s e => placeStream (placeOne s li l sp e.1 e.2) li l st e.1 e.2.core) s
  let s := s.modLaunch li fun l => { l with placed := l.placed + ids.length }
  let die := match sites with | x :: _ => dieOf x.core | [] => 0
  let s := if newRound then
      { s with queues := s.queues.map fun q => (q.1, if q.2.cls == l.cls then { q.2 with round := tabPut q.2.round die 0 } else q.2) }
    else s
  let s := s.modQueue l.queue fun q => { q with round := tabPut q.round die (tabGet 0 q.round die + ids.length) }
  -- Table 13.3: a LAUNCH executes when its first group is placed
  match l.packet with
  | some p => advanceRptr (markPacket s l.queue p fun x => { x with executed := true }) l.queue
  | none => s

/-- The record of a fault of the front end. -/
def frontRecord (s : State) (q : Nat) (code info src : Nat) : Record :=
  let w := s.frontWho q
  { info := info, lmask := 0, pc := 0, context := w.context, tenant := w.tenant, part := w.part, queue := q, srck := src,
    core := 0xFF, die := 0, gslot := 0, split := 0, code := code, kind := 1 }
def frontPortFull (s : State) (q : Nat) : Bool := portFull s 0 (ringClass (ringOf s (s.frontWho q).part 0 1))

/-! ### Restart (R341 to R343) -/

/-- Arrival numbers that stay counted. -/
def mergeCounts (a b : Tab Nat) : Tab Nat := b.foldl (fun t e => tabPut t e.1 (Nat.max (tabGet 0 t e.1) e.2)) a

/-- The group with the state of its snapshot, or of its launch before its first one. DESIGN CHOICE (log 88): threads that a home
group has lent to a repacked group stay lent, and a repacked group keeps the threads it took in, whichever of the two is evicted
and restarted. -/
def restartGroup (g : Group) (launch : Split) : Group :=
  let counted := mergeCounts g.counted g.arrivals
  let base := { g with v := [], p := [], t := [], g := [], sr := [], pk := [], exited := 0, stack := [], teamJoin := none, counted := counted,
                       arrivals := [], splits := [(0, launch)], region := none, evicted := false }
  match g.snapshot with
  | none => base
  | some n =>
    { base with
      v := n.v, p := n.p, sr := n.sr, pk := n.pk, exited := n.exited, stack := n.stack, arrivals := n.arrivals
      splits := [(n.slot, n.split)], region := if n.opens then some ⟨n.live, n.stack.length, []⟩ else none }

/-- The split with which it resumes: its snapshot's, or without one that of its launch, whose argument block is read again. -/
def Group.startSplit (g : Group) (s : State) (l : Launch) : Except Nat Split :=
  match g.snapshot with
  | some n => .ok n.split
  | none => launchSplit s l false s.cycle

/-- A site that can take an evicted group again: free granules of the harvest class in a quadrant of its core. -/
def restartSiteOk (s : State) (core : Nat) (l : Launch) (site : GroupSite) : Bool :=
  let gs := residents s core site.quad []
  site.banks.all (fun b => decide (b < 16) && bankAllowed s core site.quad true b
      && decide (bankUsed gs b + (site.banks.filter (· == b)).length ≤ 8))
    && site.grains.all (fun j => decide (j < 8) && grainAllowed s core site.quad true j && !grainUsed gs j
      && (site.grains.filter (· == j)).length == 1)
    && decide (site.quad < 4) && site.core == core && decide (gs.length < 16) && site.banks.length == l.vregs / 8
    && site.grains.length == l.grain / 8

/-- R341: the third eviction since the marker earns the window, where every granule is protectable. -/
def windowEarned (s : State) (core : Nat) (g : Group) (site : GroupSite) : Bool :=
  decide (3 ≤ g.evictions) && site.banks.all (bankProt s core site.quad) && site.grains.all (grainProt s core site.quad)

/-- Some quadrant of the core has room for the group in free protectable granules. -/
def protectableFits (s : State) (core : Nat) (l : Launch) : Bool :=
  (List.range 4).any fun q =>
    let gs := residents s core q []
    let freeV := sumNat (((List.range 16).filter fun b => bankAllowed s core q true b && bankProt s core q b).map fun b => 8 - bankUsed gs b)
    let freeG := ((List.range 8).filter fun j => grainAllowed s core q true j && grainProt s core q j && !grainUsed gs j).length
    decide (gs.length < 16) && decide (l.vregs / 8 ≤ freeV) && decide (l.grain / 8 ≤ freeG)

/-- The remap row of a group that restarts (R140): its threads are where they were placed, and those that its snapshot holds
as exited are not present. -/
def resetRow (s : State) (core slot : Nat) (g : Group) : State :=
  markExited (s.modCore core fun c => { c with remap := c.remap.filter fun e => e.1 / 32 != slot }) core
    ((lanesOf g.exited).map fun l => slot * 32 + l)

/-- HARVEST_RESTART: an evicted group is placed again on its core once banks are free and its committed entries have been
performed, where R341 can give it the protected window with it. -/
def execHarvestRestart (core slot : Nat) (site : GroupSite) (s : State) : Host.Outcome State Fault Refusal := keep s <|
  match s.group? core slot with
  | none => .next s
  | some g =>
    match s.launch? g.launch with
    | none => .next s
    | some l =>
      if !g.evicted || !g.committed.isEmpty || (s.context g.context).stopped || !restartSiteOk s core l site || !coreServes s core l
          || (decide (3 ≤ g.evictions) && protectableFits s core l && !windowEarned s core g site) || (servedQueue s (dieOf core) false).isSome then .next s
      else
        match g.startSplit s l with
        | .error _ => .next s
        | .ok sp =>
          let s := if g.snapshot.isNone then touchBlock s (l.who Config.meshCores) l.arg 0 (Nat.min l.argLen 512) else s
          let g := { restartGroup g sp with
            quad := site.quad, banks := site.banks, granules := site.grains, placedAt := s.cycle, lastIssue := s.cycle
            protectedUntil := if windowEarned s core g site then s.cycle + 4096 else 0 }
          .next ((resetRow s core slot g).putGroup core slot { g with splits := g.splits.map fun p => (p.1, { p.2 with readyAt := s.cycle, ev := true }) })

/-- PROTECTED_WINDOW_END (R149): the window ends 4,096 cc after the placement. -/
def execProtectedWindowEnd (core slot : Nat) (s : State) : Host.Outcome State Fault Refusal := keep s <|
  match s.group? core slot with
  | some g =>
    if g.protectedUntil != 0 && decide (g.protectedUntil ≤ s.cycle) then .next (s.putGroup core slot { g with protectedUntil := 0 })
    else .next s
  | none => .next s

end Sys2Proof.Machine
end

