-- ==== Sys2Proof/Machine/FrontEnd.lean ====
section
/-! DEFINITION. The command processor (R278 to R292, R297 to R299): fetch through indirect buffers and loops, the execution
of packets in queue order, program nodes with REC, work fetch, and completion. -/
namespace Sys2Proof.Machine
open Sys2Proof

/-- What the front end gets: a value; an invalid packet (R281); nothing yet, for a page that a resolver must supply; or a fault
of another device, with which the packet fails (R384). -/
inductive Got (α : Type) where
  | ok (a : α)
  | invalid
  | later
  | fail (code : Nat)

def Got.bind {α β : Type} (x : Got α) (f : α → Got β) : Got β :=
  match x with
  | .ok a => f a
  | .invalid => .invalid
  | .later => .later
  | .fail c => .fail c

/-- A value that must meet a limit. -/
def Got.need {α : Type} (b : Bool) (x : Got α) : Got α := if b then x else .invalid

def gotOf {α : Type} : Except Nat α → Got α
  | .ok a => .ok a
  | .error c => if isRetryable c then .later else if c = fPeerLost ∨ c = fCapTenant then .fail c else .invalid

/-! ### Reading what packets name -/

def State.queueTenant (s : State) (q : Queue) : BitVec 12 := (s.part q.part).tenant

/-- The requester of a queue's front end. -/
def State.queueWho (s : State) (q : Queue) : Who := ⟨Config.meshCores, q.context, s.queueTenant q, q.part, q.cls⟩

/-- Entry j of the capability table (R281). -/
def capEntry (s : State) (q : Queue) (j : Nat) : Got Cap :=
  if j = 0xFFFF then .ok Cap.null
  else if q.ctab.len < 16 * j + 16 then .invalid
  else
    (gotOf (frontXlat s (s.queueTenant q) (q.ctab.base.toNat + 16 * j) permR)).bind fun pa =>
      let c := capOfBits (s.num pa 16)
      if s.tagged pa && c.tenant == s.queueTenant q then .ok c else .invalid

def capEntries (s : State) (q : Queue) : List Nat → Got (List Cap)
  | [] => .ok []
  | j :: r => (capEntry s q j).bind fun c => (capEntries s q r).bind fun l => .ok (c :: l)

/-- n bytes through a capability with PR. -/
def frontRead (s : State) (q : Queue) (c : Cap) (off n : Nat) : Got Nat :=
  if !c.has permR || c.len < off + n then .invalid
  else (gotOf (blockBytes s (s.queueWho q) c off n)).bind fun bs => .ok (ofLeBytes bs)

/-- The place of a 64-bit word that a packet names. -/
def frontWord (s : State) (q : Queue) (c : Cap) (off mask : Nat) : Got Place :=
  if !c.has mask || c.len < off + 8 then .invalid else gotOf (frontPlace s (s.queueWho q) c (c.base.toNat + off) mask)

/-- The 32 bytes of a packet at an address of this device or of another. -/
def packetAt (s : State) (q : Queue) (at_ : Option Nat × Nat) : Except Nat Nat :=
  match at_.1 with
  | some d => (frontFar s (s.queueWho q) d at_.2).map fun p => loadAt s p 32
  | none => (frontXlat s (s.queueTenant q) at_.2 permR).map fun pa => s.num pa 32

/-! ### Launch descriptors (R283, Table 13.5, R14, R339) -/

/-- A descriptor as a launch with nothing placed. -/
def mkLaunch (s : State) (qi : Nat) (q : Queue) (d gx gy graph : Nat) (passK : Option (Nat × Nat)) (packet : Option Nat) :
    Got Launch :=
  let vr := bits d 271 264
  let team := bits d 255 251
  let cw := bits d 250 247
  let ch := bits d 246 243
  let sp := bits d 242 236
  let grain := bits d 263 256
  let saveIdx := bits d 287 272
  let len := bits d 447 416
  let limits := bits d 233 0 == 0 && bits d 511 480 % 4 == 0 && (vr == 0 || (decide (32 ≤ vr) && decide (vr ≤ 248) && vr % 8 == 0))
    && decide (grain ≤ 32) && grain % 8 == 0 && decide (1 ≤ team) && decide (team ≤ 16) && decide (1 ≤ cw) && decide (cw ≤ 12)
    && decide (1 ≤ ch) && decide (cw * ch ≤ 12) && decide (sp ≤ 64) && (!q.cls || (bits d 235 235 == 1 && saveIdx != 0xFFFF))
    && decide (1 ≤ gx) && decide (1 ≤ gy) && decide (gx * gy * (cw * ch * team) < 2 ^ 32)
  Got.need limits <|
    (capEntries s q ([bits d 415 400, bits d 399 384, saveIdx] ++ (List.range 6).map fun i => bits d (383 - 16 * i) (368 - 16 * i))).bind
      fun caps =>
        let code := caps.getD 0 Cap.null
        let arg := caps.getD 1 Cap.null
        let save := caps.getD 2 Cap.null
        let (m, e) := lenCeil len
        let hasSave := saveIdx != 0xFFFF
        if !code.has permX || arg.len < m * 2 ^ e || (hasSave && decide (save.len < 8192 * 288 * 64)) then .invalid
        else
          .ok
            { queue := qi, packet := packet, task := none, node := none, nodeGen := 0, nodeSlot := 0, records := 0, graph := graph
              cls := q.cls, tenant := s.queueTenant q, part := q.part, context := q.context, entry := bits d 511 480
              mentry := if bits d 479 448 = 0xFFFFFFFF then none else some (bits d 479 448), argLen := len, code := code
              arg := arg
              argReg := { arg with pw := false, px := false, pa := false, lenM := BitVec.ofNat 18 m, lenE := BitVec.ofNat 6 e }
              caps := caps.drop 3, save := save, hasSave := hasSave, vregs := if vr = 0 then 256 else vr, grain := grain
              team := team, cw := cw, ch := ch, spblk := sp, region := bits d 235 235 == 1, fetch := bits d 234 234 == 1
              gx := gx, gy := gy, passK := passK, ring := 0, placed := 0, ended := 0, streams := 0, withdrawnIds := [], teams := []
              bars := [], endedIds := [], stopping := false, failed := none, done := false }

def addLaunch (s : State) (l : Launch) : State × Nat :=
  ({ s with launches := tabPut s.launches s.nextLaunch l, nextLaunch := s.nextLaunch + 1 }, s.nextLaunch)

/-- kPASSK of a LAUNCH or TASK packet. -/
def packetPassK (p : Packet) : Option (Nat × Nat) :=
  let n := bits p.bytes 47 42
  if n = 0 then none else some (n, p.pass)

/-! ### Validity of packets (R281, Tables 13.2 and 13.4) -/

/-- The bits that a packet type does not name. -/
def packetReserved (ty v : Nat) : Bool :=
  let z (hi lo : Nat) : Bool := bits v hi lo == 0
  z 26 24 && z 15 0 && match ty with
    | 0 => z 191 128 && z 41 32
    | 1 => z 53 44
    | 2 => z 255 128 && z 41 32
    | 3 => z 43 32
    | 4 => z 191 128 && z 41 32
    | 5 => z 255 160 && z 47 32
    | 6 => z 35 32
    | 7 => z 255 64
    | 8 => z 255 32
    | 9 => z 255 32
    | _ => false

/-- Limits that the bytes alone decide. -/
def packetLimits (q : Queue) (p : Packet) : Bool :=
  let v := p.bytes
  let ty := p.ptype
  let g := p.graph
  let graphOk := if ty = 9 then g != 0 else g == 0 || ty == 0 || ty == 1 || ty == 2
  decide (ty ≤ 9) && packetReserved ty v && graphOk && (g == 0 || q.gstat != Cap.null)
    && match ty with
      | 0 => bits v 127 64 % 64 == 0 && bits v 255 224 != 0 && bits v 223 192 != 0
      | 1 => bits v 127 64 % 64 == 0 && bits v 255 224 != 0 && bits v 223 160 % 128 == 0 && bits v 43 32 != 0
      | 2 => bits v 127 64 % 256 == 0
      | 3 => bits v 127 64 % 8 == 0 && decide (bits v 47 44 ≤ 3)
      | 4 => bits v 127 64 % 8 == 0 && decide (bits v 47 44 ≤ 1)
      | 5 => bits v 127 64 % 32 == 0
      | 6 => bits v 127 64 % 8 == 0 && decide (bits v 47 44 ≤ 3) && bits v 43 36 != 0
      | 7 => bits v 63 48 != 0
      | _ => true

/-! ### Fetch (R285 to R288, R297, R298) -/

/-- A path within what a PRED skips. -/
def skipped (skips : List (List Nat × Nat × Nat)) (path : List Nat) : Bool :=
  skips.any fun k => k.1.isPrefixOf path && match path[k.1.length]? with
    | some i => decide (k.2.1 ≤ i) && decide (i ≤ k.2.2)
    | none => false

/-- Leave the levels that fetch has finished: a LOOP's next pass begins at its start. -/
def popFrames : Nat → List Frame → List Frame
  | 0, l => l
  | fuel + 1, l =>
    match l with
    | f :: p :: r =>
      match f.body with
      | some n =>
        if f.ordinal < n then l
        else if f.passes = 0 then popFrames fuel ({ p with index := f.index } :: r)
        else { f with ordinal := 0, index := f.start, passes := f.passes - 1, pass := f.pass + 1,
                      path := f.path.dropLast ++ [f.pass + 1] } :: p :: r
      | none => if f.index < f.count then l else popFrames fuel (p :: r)
    | _ => l

/-- The device and address of the next packet, if fetch can read one. -/
def fetchAt (q : Queue) (f : Frame) : Option (Option Nat × Nat) :=
  match f.base with
  | none => if (q.wptr - BitVec.ofNat 32 f.index).toNat = 0 ∨ 2 ^ 31 ≤ (q.wptr - BitVec.ofNat 32 f.index).toNat then none
      else some (none, q.ring.base.toNat + 32 * (f.index % 2 ^ q.log2n))
  | some va => if f.index < f.count then some (f.far, va + 32 * f.index) else none

/-- The next index of a level. -/
def Frame.next (f : Frame) : Nat := if f.base.isNone then (f.index + 1) % 2 ^ 32 else f.index + 1

/-- The body of a LOOP as a level below f, entered after the LOOP at f's index. -/
def loopFrame (f : Frame) (opener ring body count : Nat) (dead : Bool) : Frame :=
  { base := f.base, far := f.far, count := f.count, index := f.next, ordinal := 0, body := some body, start := f.next
    passes := count - 1, pass := 0, dead := dead || f.dead || count == 0, path := f.path ++ [f.ordinal, 0], opener := opener
    ring := ring, ibDepth := f.ibDepth, loops := f.loops + 1 }

/-- The level f after it has passed one packet. -/
def Frame.pass1 (f : Frame) : Frame := { f with index := f.next, ordinal := f.ordinal + 1 }

/-- The dies on which a partition holds cores. -/
def partDies (s : State) (part : Nat) : List Nat :=
  (List.range 2).filter fun d => (d == 0 || s.regs.die1)
    && (List.range Config.meshCores).any fun c => tabGet 0 s.coreOwner (d * Config.coreKeys + c) == part

/-- The die whose dependence window of 4,096 takes the next task of a partition (R295): the lower one that has room. -/
def windowDie (s : State) (part : Nat) : Option Nat :=
  (partDies s part).find? fun d =>
    decide ((s.tasks.filter fun t => t.2.die == d && t.2.phase != .done && t.2.phase != .cancelled).length < 4096)

/-- R285, R295: fetch does not pass these until they have executed, nor an IB or LOOP before it has gone into it. -/
def fetchHeld (s : State) (q : Queue) : Bool :=
  q.packets.any fun p => !p.executed && (p.ptype == 3 || p.ptype == 9 || ((p.ptype == 5 || p.ptype == 7) && p.entered.isNone)
    || (p.ptype == 2 && (windowDie s q.part).isNone))

/-- A queue whose front end works: it runs, it is not being reset, and its context runs. -/
def frontRuns (s : State) (q : Queue) : Bool := q.qstate == 1 && !q.resetting && !(s.context q.context).stopped

/-- R298: the first packet of a graph without an open submission starts one. -/
def startSubmission (s : State) (qi g : Nat) : State :=
  match s.queue? qi with
  | none => s
  | some q =>
    if g = 0 ∨ q.opened.contains g ∨ q.gstat = Cap.null then s
    else
      let s := match graphStatusPa s qi g with
        | some pa => physAtomic s (s.frontWho qi) pa 8 ((s.num pa 8 + 1) % 2 ^ 32)
        | none => s
      s.modQueue qi fun q =>
        { q with opened := natInsert g q.opened, words := q.words.filter fun w => w.1 != g
                 cancelled := natRemove g q.cancelled, owed := q.owed.filter fun o => o.1 != g }

/-- R297: at most 1,024 open graphs on a device. -/
def graphsFull (s : State) (q : Queue) (g : Nat) : Bool :=
  g != 0 && !q.opened.contains g && decide (1024 ≤ sumNat (s.queues.map fun e => e.2.opened.length))

/-- Take in the packet read at the top level. -/
def takePacket (s : State) (qi : Nat) (q : Queue) (f : Frame) (rest : List Frame) (v : Nat) : State :=
  let path := f.path ++ [f.ordinal]
  let ring := if rest.isEmpty then f.index else f.ring
  let ty := bits v 31 28
  let dead := f.dead || skipped q.skips path
  if dead then
    -- it never executes; a LOOP takes its body with it
    let frames := if ty = 7 ∧ bits v 63 48 ≠ 0 then loopFrame f 0 ring (bits v 63 48) 0 true :: { f with ordinal := f.ordinal + 1 } :: rest
      else f.pass1 :: rest
    s.modQueue qi fun q => { q with frames := frames }
  else if graphsFull s q (bits v 23 16) || (!q.opened.contains (bits v 23 16) && bits v 23 16 != 0 && statusWaits s qi (bits v 23 16)) then s
  else
    let p : Packet := ⟨q.nextPacket, v, ring, if f.base.isNone then 0 else f.index, f.ibDepth, path, f.pass,
      if ty = 8 then f.pass1 :: rest else [], f :: rest, false, false, none⟩
    let s := startSubmission s qi (bits v 23 16)
    -- fetch stays at an IB or LOOP until it goes into it
    let frames := if ty = 5 ∨ ty = 7 then f :: rest else f.pass1 :: rest
    s.modQueue qi fun q => { q with frames := frames, packets := q.packets ++ [p], nextPacket := q.nextPacket + 1 }

/-- A packet as fetch sees it between two readings: each 8-byte part in which they differ is that of either (R286). -/
def mixParts (free old new : Nat) : Nat :=
  sumNat ((List.range 4).map fun i =>
    bits (if Config.freeBit free (60000 + i) then old else new) (64 * i + 63) (64 * i) * 2 ^ (64 * i))

/-- A fetch that finds nothing to read with, at a packet of another device that cannot be reached, fails once it is the next
to execute (R384). -/
def fetchFails (s : State) (qi : Nat) (q : Queue) (f : Frame) (code : Nat) : State :=
  if isRetryable code || (code != fPeerLost && code != fCapTenant) || frontPortFull s qi || !(waitingPackets s qi).isEmpty then s
  else pushRecord (advanceRptr (haltQueue s qi (some (if f.base.isNone then f.index else f.ring))) qi)
    (frontRecord s qi code (((q.frames.getLast?.map fun r => r.index).getD 0) % 2 ^ 32) 3)

/-- PACKET_FETCH: fetch begins to read the next packet, or has read it, so that a write that is performed between is seen or not in
each part. -/
def execPacketFetch (queue : Nat) (s : State) : Host.Outcome State Fault Refusal := keep s <|
  match s.queue? queue with
  | none => .next s
  | some q =>
    if !frontRuns s q || fetchHeld s q || decide (16 ≤ (q.packets.filter fun p => !p.executed).length) then .next s
    else
      let frames := popFrames (q.frames.length + 1) q.frames
      let s := s.modQueue queue fun q => { q with frames := frames }
      let q := { q with frames := frames }
      match frames with
      | [] => .next s
      | f :: rest =>
        match fetchAt q f with
        | none =>
          -- R288: a LOOP body that leaves its buffer was refused when the LOOP executed
          .next (advanceRptr s queue)
        | some at_ =>
          match packetAt s q at_, q.peek with
          | .error e, _ => .next (fetchFails s queue q f e)
          | .ok v, some (a, old) =>
            if a = at_ then
              let s := frontTouch s (s.queueWho q) at_ 32
              .next (advanceRptr (takePacket (s.modQueue queue fun q => { q with peek := none }) queue q f rest (mixParts s.free old v)) queue).tick
            else .next (s.modQueue queue fun q => { q with peek := some (at_, v) })
          | .ok v, none => .next (s.modQueue queue fun q => { q with peek := some (at_, v) })

/-! ### Execution in queue order -/

/-- The next packet to execute. -/
def headPacket (q : Queue) : Option Packet := (q.packets.filter fun p => !p.executed).head?

/-- R282: every packet before p has completed, but for those that enclose it. -/
def earlierDone (q : Queue) (p : Packet) : Bool :=
  (q.packets.takeWhile fun x => x.id != p.id).all fun x => x.completed || x.path.isPrefixOf p.path

/-- A packet's place, as the INFO of R281 gives it. -/
def Packet.place (p : Packet) : Nat := p.ring % 2 ^ 32 + p.ibIndex % 2 ^ 16 * 2 ^ 32 + p.ibDepth * 2 ^ 48

/-- R281: an invalid packet halts its queue, and its place is reported. -/
def haltInvalid (s : State) (qi : Nat) (p : Packet) : State :=
  if frontPortFull s qi then s
  else pushRecord (advanceRptr (haltQueue s qi (some p.ring)) qi) (frontRecord s qi fIllegalOp p.place 3)

/-- A packet that a fault of another device ends: its queue halts there, and a terminal record reports it (R384). -/
def haltFailed (s : State) (qi : Nat) (p : Packet) (code : Nat) : State :=
  if frontPortFull s qi then s
  else pushRecord (advanceRptr (haltQueue s qi (some p.ring)) qi) (frontRecord s qi code (p.place) 3)

/-- The reads of a packet that executes: its capability entries, and its descriptor, task or word (R376). -/
def packetTouched (s : State) (q : Queue) (p : Packet) : State :=
  let v := p.bytes
  let w := s.queueWho q
  let entry (s : State) (j : Nat) : State := if j = 0xFFFF then s else frontTouch s w (none, q.ctab.base.toNat + 16 * j) 16
  let block (s : State) (j n : Nat) : State :=
    match capEntry s q j with | .ok c => touchBlock (entry s j) w c (bits v 127 64) n | _ => s
  let launch (s : State) (j n : Nat) : State :=
    match (capEntry s q j).bind fun c => frontRead s q c (bits v 127 64) n with
    | .ok d => ([bits d 415 400, bits d 399 384, bits d 287 272] ++ (List.range 6).map fun i => bits d (383 - 16 * i) (368 - 16 * i)).foldl
        entry (block s j n)
    | _ => s
  match p.ptype with
  | 0 => launch s (bits v 63 48) 64
  | 1 => entry (launch s (bits v 143 128) 64) (bits v 159 144)
  | 2 => launch s (bits v 63 48) 256
  | 3 | 6 => block s (bits v 63 48) 8
  | 4 | 5 => entry s (bits v 63 48)
  | _ => s

/-- The step of a packet of type `ty` at the head: the checks that its bytes decide, ORD, and then its meaning. A reserved
type is found invalid by the LAUNCH step. -/
def packetStep (s : State) (qi ty : Nat) (f : Queue → Packet → Got State) : Host.Outcome State Fault Refusal := keep s <|
  match s.queue? qi with
  | none => .next s
  | some q =>
    match headPacket q with
    | none => .next s
    | some p =>
      if !frontRuns s q || !(p.ptype == ty || (ty == 0 && decide (10 ≤ p.ptype))) then .next s
      else if !packetLimits q p then .next (haltInvalid s qi p).tick
      else if bits p.bytes 27 27 = 1 ∧ !earlierDone q p then .next s
      else
        match f q p with
        | .ok t => .next (packetTouched t q p).tick
        | .invalid => .next (haltInvalid s qi p).tick
        | .later => .next s
        | .fail code => .next (haltFailed s qi p code).tick

/-- The packet executes; it stays listed until it completes. -/
def markExecuted (s : State) (qi : Nat) (p : Packet) : State := markPacket s qi p.id fun x => { x with executed := true }

/-- The packet completes, and its graph may be burnished. -/
def finishPacket (s : State) (qi : Nat) (p : Nat) (graph : Nat) : State := burnTest (completePacket s qi p) qi graph

/-- The launch that a LAUNCH packet describes now (R283). -/
def packetLaunch (s : State) (queue : Nat) (q : Queue) (p : Packet) : Got Launch :=
  let v := p.bytes
  (capEntry s q (bits v 63 48)).bind fun c =>
  (frontRead s q c (bits v 127 64) 64).bind fun d =>
    (mkLaunch s queue q d (bits v 223 192) (bits v 255 224) p.graph (packetPassK p) (some p.id)).bind fun l => .ok { l with ring := p.ring }

/-- LAUNCH (R283, R284): the launch waits for its first placement, with which it executes. Until then what its packet names is
read again, so that a rewritten descriptor is placed as it now stands (R286). -/
def execLaunchPacket (queue : Nat) (s : State) : Host.Outcome State Fault Refusal :=
  packetStep s queue 0 fun q p =>
    (packetLaunch s queue q p).bind fun l =>
      match (s.launches.filter fun e => e.2.queue == queue && e.2.packet == some p.id).head? with
      | some e => if e.2 = l then .later else .ok (s.modLaunch e.1 fun _ => l)
      | none => .ok (addLaunch s l).1

/-- A LAUNCH executes when its first group is placed or withdrawn (Table 13.3), so that its descriptor and capability entries
are those of that time (R281, R283). An invalid one halts its queue, and the launch is over. -/
def atFirst (s : State) (li : Nat) (l : Launch) (f : State → Launch → Host.Outcome State Fault Refusal) :
    Host.Outcome State Fault Refusal :=
  match l.packet, s.queue? l.queue with
  | some id, some q =>
    match if l.placed = 0 then q.packets.find? fun p => p.id == id && !p.executed else none with
    | none => f s l
    | some p =>
      match packetLaunch s l.queue q p with
      | .ok l => f (s.modLaunch li fun _ => l) l
      | .invalid =>
        if frontPortFull s l.queue then .next s
        else .next (haltInvalid (s.modLaunch li fun l => { l with done := true }) l.queue p).tick
      | .later => .next s
      | .fail code =>
        if frontPortFull s l.queue then .next s
        else .next (haltFailed (s.modLaunch li fun l => { l with done := true }) l.queue p code).tick
  | _, _ => f s l

/-- GROUP_PLACE: the next cluster of a launch takes the sites that the hardware chose, if they meet R131 to R135, R290 and
R340. -/
def execGroupPlace (launch : Nat) (places : List GroupSite) (s : State) : Host.Outcome State Fault Refusal := keep s <|
  match s.launch? launch, places with
  | some l, x :: _ =>
    let die := dieOf x.core
    let first (s : State) (l : Launch) : Option Bool :=
      match servedQueue s die l.cls with | some (q, r) => if q = l.queue then some r else none | none => none
    if (first s l).isNone || !placing s l then .next s
    else atFirst s launch l fun s l =>
      let behind := l.cls && (servedQueue s die false).isSome
      match first s l, evictionFor s l die with
      | some newRound, some d =>
        if !placing s l || behind || !sitesShape s l d (nextIds l) places || !sitesOkGo s l d [] places then .next s
        else
          let ready := placeReady s d
          match launchSplit s l false ready, launchSplit s l true ready with
          | .ok sp, .ok st => .next (placeCluster s launch l places d newRound sp st).tick
          | .error code, _ | _, .error code =>
            if isRetryable code || frontPortFull s l.queue then .next s
            else .next (endLaunch s launch code (frontRecord s l.queue code l.arg.base.toNat 3)).tick
      | _, _ => .next s
  | _, _ => .next s

/-! ### Program nodes (R291, R324) -/

/-- NODE: declares a node, once the batch that an earlier declaration gathers has launched. -/
def execNodePacket (queue : Nat) (s : State) : Host.Outcome State Fault Refusal :=
  packetStep s queue 1 fun q p =>
    let v := p.bytes
    let id := bits v 43 32
    let rsize := bits v 57 54
    let old := tabFind q.nodes id
    if (match old with | some n => n.filling != 0 | none => false) then .later
    else
      (capEntry s q (bits v 159 144)).bind fun buf =>
      (capEntry s q (bits v 143 128)).bind fun c =>
      (frontRead s q c (bits v 127 64) 64).bind fun d =>
      (mkLaunch s queue q d 1 1 p.graph none none).bind fun l₀ =>
        let l := { l₀ with ring := p.ring }
        let need := bits v 223 160 + 512 * (rsize + 1) * bits v 255 224
        if l.team != 1 || l.cw != 1 || l.ch != 1 || !buf.has (permR + permW) || decide (buf.len < need) then .invalid
        else
          let n : Node := ⟨p.id, bits v 255 224, bits v 223 160, buf, l, bits v 63 58, rsize, p.graph, 0, 0, 0, []⟩
          .ok (finishPacket (s.modQueue queue fun q => { q with nodes := tabPut q.nodes id n }) queue p.id p.graph)

def nodeBytes (n : Node) : Nat := 16 * (n.rsize + 1)
/-- Offset of batch slot i in the buffer. -/
def nodeSlotOff (n : Node) (i : Nat) : Nat := n.boff + 512 * (n.rsize + 1) * i

/-- The gathered batch launches as one group. -/
def launchBatch (s : State) (qi id : Nat) (n : Node) : State :=
  let start := n.buf.base + BitVec.ofNat 57 (nodeSlotOff n n.slot)
  let recs : Cap := ⟨n.buf.device, n.buf.tenant, true, false, false, false, BitVec.ofNat 18 (n.filling * nodeBytes n), 0, start⟩
  let l : Launch := { n.template with
    node := some id, nodeGen := n.gen, nodeSlot := n.slot, records := n.filling, caps := recs :: n.template.caps.drop 1 }
  let n : Node := { n with filling := 0, busy := natInsert n.slot n.busy }
  (addLaunch s l).1.modQueue qi fun q => { q with nodes := tabPut q.nodes id n }

/-- The slot that the next record goes to, with the node. -/
def openBatch (n : Node) (now : Nat) : Option Node :=
  if n.filling != 0 then some n
  else ((List.range n.bslots).filter fun i => !n.busy.contains i).head?.map fun i => { n with slot := i, since := now }

/-- Where the front end writes the bytes of a capability's memory from an address, or the fault and its address. -/
def frontPlaces (s : State) (w : Who) (c : Cap) (va : Nat) : List Byte → Except (Nat × Nat) (List (Place × Byte))
  | [] => .ok []
  | b :: r =>
    match frontPlace s w c va permW, frontPlaces s w c (va + 1) r with
    | .ok p, .ok l => .ok ((p, b) :: l)
    | .error e, _ => .error (e, va)
    | _, .error e => .error e

/-- One record enters the node's batch. -/
def acceptRecord (s : State) (qi id : Nat) (n : Node) (data : List Byte) : Except (Nat × Nat) State :=
  match frontPlaces s (s.frontWho qi) n.buf (n.buf.base.toNat + nodeSlotOff n n.slot + n.filling * nodeBytes n) data with
  | .error e => .error e
  | .ok ps =>
    let s := writePlaces s (s.frontWho qi) ps
    let n := { n with filling := n.filling + 1 }
    let s := s.modQueue qi fun q => { q with nodes := tabPut q.nodes id n }
    .ok (if n.filling = 32 then launchBatch s qi id n else s)

/-- R324: the records of the lanes from the first not yet accepted. -/
def Ctx.recordGo (c : Ctx) (qi id : Nat) : List Access → State → Eff
  | [], s => .done s
  | a :: r, s =>
    let rest := maskOf (a.lane :: r.map (·.lane))
    match s.queue? qi with
    | none => .done s
    | some q =>
      match tabFind q.nodes id with
      | none => .done s
      | some n =>
        match openBatch n c.now with
        | none => .wait s (.record id a.lane)
        | some n =>
          match a.place with
          | .error e => .fault s e a.va rest
          | .ok p =>
            let data := (List.range (nodeBytes n)).map fun i => match p with
              | .sp k off _ => spByte s k (off + i)
              | _ => 0
            match acceptRecord s qi id n data with
            | .error (code, va) => .fault s code va rest
            | .ok s => Ctx.recordGo c qi id r s

/-- REC: one record from each lane of T, read after what its group has committed (R33). A wait resumes at the lane whose
record has not been accepted. -/
def execRecSend (w : Fields) (s : State) : Host.Outcome State Fault Refusal :=
  runInstr (.recSend w) (fun c => c.workOp
    (let a := c.a64 c.lane0
     let id := a % 2 ^ 12
     match c.s.launch? c.g.launch with
     | none => c.trap fIllegalOperand
     | some l =>
       match (c.s.queue? l.queue).bind fun q => tabFind q.nodes id with
       | none => c.trap fIllegalOperand
       | some n =>
         if a / 2 ^ 12 ≠ 0 then c.trap fIllegalOperand
         else
           let from_ := match c.sp.wait with | some (.record _ k) => k | _ => 0
           c.scratchOn (c.lanes.filter fun k => decide (from_ ≤ k)) (nodeBytes n) 16 fun s acc => c.recordGo l.queue id acc (drainCommitted s c.ag.core c.ag.slot))) s

/-- NODE_TIMER_EXPIRY: a partial batch launches TIMER + 1 µs after its first record. -/
def execNodeTimerExpiry (queue node : Nat) (s : State) : Host.Outcome State Fault Refusal := keep s <|
  match (s.queue? queue).bind fun q => tabFind q.nodes node with
  | some n =>
    if n.filling != 0 && decide (s.after n.since (n.timer + 1) ≤ s.cycle) then .next (launchBatch s queue node n).tick
    else .next s
  | none => .next s

/-! ### Control packets (R287 to R289, R299) -/

/-- The word that a PRED reads. -/
def packetWord (s : State) (q : Queue) (p : Packet) : Got Nat :=
  (capEntry s q (bits p.bytes 63 48)).bind fun c =>
  (frontWord s q c (bits p.bytes 127 64) permR).bind fun w => .ok (loadAt s w 8)

/-- The work that follows starts without L1 copies of its context (R289, R299). -/
def dropContextL1 (s : State) (ctx : BitVec 12) : State :=
  { s with cores := s.cores.map fun e => (e.1, { e.2 with l1 := e.2.l1.filter fun l => l.owner != ctx }) }

/-- The watch of a WAIT. -/
def watchOf (s : State) (queue : Nat) (p : Packet) : Option Watch := s.watches.find? fun w => w.queue == queue && w.packet == p.id

/-- The WAIT waits for a write that meets its test. -/
def setWatch (s : State) (queue : Nat) (p : Packet) (pa : Nat) : State :=
  { s with watches := ⟨queue, p.id, pa, p.bytes, false⟩ :: s.watches.filter fun w => w.queue != queue }

/-- No WAIT of a queue waits. -/
def dropWatch (s : State) (queue : Nat) : State := { s with watches := s.watches.filter fun w => w.queue != queue }

/-- WAIT: executes when its word meets the test, now or at a write since it came to the head. -/
def execWaitPacket (queue : Nat) (s : State) : Host.Outcome State Fault Refusal :=
  packetStep s queue 3 fun q p =>
    (capEntry s q (bits p.bytes 63 48)).bind fun c =>
    (frontWord s q c (bits p.bytes 127 64) permR).bind fun w =>
      let seen := match watchOf s queue p with | some x => x.hit | none => false
      if packetTest p.bytes (loadAt s w 8) || seen then
        .ok (completePacket (dropContextL1 (dropWatch s queue) q.context) queue p.id)
      else
        match w with
        | .mem _ _ pa =>
          if (match watchOf s queue p with | some x => x.pa == pa | none => false) then .later else .ok (setWatch s queue p pa)
        | _ => .later

/-- Copies and matrix operations of a queue's work that have not completed. -/
def queueBusy (s : State) (qi : Nat) : Bool :=
  let mine (l : Nat) : Bool := match s.launch? l with | some k => k.queue == qi | none => false
  s.cores.any fun c => (c.2.copies.any fun x => mine x.launch) || c.2.mq.any fun o => mine o.owner.1

/-- SIGNAL: after every earlier packet and its writes. -/
def execSignalPacket (queue : Nat) (s : State) : Host.Outcome State Fault Refusal :=
  packetStep s queue 4 fun q p =>
    let v := p.bytes
    if !earlierDone q p || queueBusy s queue then .later
    else
      let add := bits v 47 44 == 1
      (capEntry s q (bits v 63 48)).bind fun c =>
      (frontWord s q c (bits v 127 64) (if add then permW + permA else permW)).bind fun w =>
        let who := s.frontWho queue
        let s := if bits v 43 43 = 1 then allAcked s q.context none else s
        let s := if add then (atomAt s who 0 0 .n64 w (bits v 255 192) 0).2 else storeAt s who w (leBytes (bits v 255 192) 8)
        let s := if bits v 42 42 = 1 then { s with irqs := s.irqs + 1 } else s
        .ok (completePacket s queue p.id)

/-- The levels that an IB or LOOP opens below those of its fetch, and the address that it goes to. -/
abbrev Level := List Frame × Nat

/-- The step of an IB or LOOP. One that is at the head, and that fetch has gone into, executes: ORD is met, and what it names
is read again, so that a buffer at another address is fetched from there (R286). Otherwise the last packet fetched is one,
and fetch goes into it ahead of its execution (R285); an invalid one is found when it is at the head. -/
def levelStep (s : State) (qi ty : Nat) (level : Queue → Packet → List Frame → Got Level) : Host.Outcome State Fault Refusal := keep s <|
  match s.queue? qi with
  | none => .next s
  | some q =>
    if !frontRuns s q then .next s
    else
      let head := match headPacket q with | some p => if p.ptype = ty then some p else none | none => none
      match (match head with | some p => if p.entered.isSome then head else none | none => none) with
      | some p =>
        if bits p.bytes 27 27 = 1 ∧ !earlierDone q p then .next s
        else
          match Got.need (packetLimits q p) (level q p p.fetchedAt) with
          | .ok (fs, a) =>
            let s := packetTouched s q p
            if p.entered = some a then .next (advanceRptr (markExecuted s qi p) qi).tick
            else
              let later := (q.packets.dropWhile fun x => x.id != p.id).drop 1
              let s := (markExecuted s qi p).modQueue qi fun q =>
                { q with frames := fs, peek := none, packets := q.packets.filter fun x => !later.any fun y => y.id == x.id }
              .next (later.foldl (fun s x => burnTest s qi x.graph) (advanceRptr s qi)).tick
          | .invalid => .next (haltInvalid s qi p).tick
          | .fail code => .next (haltFailed s qi p code).tick
          | .later => .next s
      | none =>
        match (q.packets.filter fun p => !p.executed && p.ptype == ty && p.entered.isNone).getLast? with
        | none => .next s
        | some p =>
          match Got.need (packetLimits q p) (level q p q.frames) with
          | .ok (fs, a) =>
            .next ((markPacket s qi p.id fun x => { x with entered := some a }).modQueue qi fun q => { q with frames := fs, peek := none }).tick
          | .invalid => .next (match head with | some h => if h.id = p.id then (haltInvalid s qi p).tick else s | none => s)
          | .fail code => .next (match head with | some h => if h.id = p.id then (haltFailed s qi p code).tick else s | none => s)
          | .later => .next s

/-- IB: fetch enters the buffer. -/
def execIbPacket (queue : Nat) (s : State) : Host.Outcome State Fault Refusal :=
  levelStep s queue 5 fun q p fs =>
    let n := bits p.bytes 159 128
    let off := bits p.bytes 127 64
    (capEntry s q (bits p.bytes 63 48)).bind fun c =>
      match fs with
      | [] => .later
      | f :: rest =>
        if 3 ≤ f.ibDepth ∨ !c.has permR ∨ c.len < off + 32 * n ∨ c.device = 0xFFFFF#20 then .invalid
        else
          let g : Frame :=
            { base := some (c.base.toNat + off), far := if c.device = s.regs.deviceId then none else some c.device.toNat, count := n, index := 0, ordinal := 0, body := none, start := 0, passes := 0
              pass := f.pass, dead := false, path := p.path, opener := p.id, ring := p.ring, ibDepth := f.ibDepth + 1
              loops := f.loops }
          .ok (if n = 0 then f.pass1 :: rest else g :: f.pass1 :: rest, c.base.toNat + off)

/-- Packets of a buffer from an index that n units take, a LOOP with its body being one; none where the buffer ends first. -/
def bodyFits (s : State) (q : Queue) (far : Option Nat) (va count : Nat) : Nat → Nat → Nat → Got Unit
  | _, _, 0 => .ok ()
  | 0, _, _ => .invalid
  | fuel + 1, i, n + 1 =>
    if count ≤ i then .invalid
    else
      (gotOf (packetAt s q (far, va + 32 * i))).bind fun v =>
        bodyFits s q far va count fuel (i + 1) (n + (if bits v 31 28 = 7 then bits v 63 48 else 0))

/-- LOOP: fetch enters the body. -/
def execLoopPacket (queue : Nat) (s : State) : Host.Outcome State Fault Refusal :=
  levelStep s queue 7 fun q p fs =>
    match fs with
    | [] => .later
    | f :: rest =>
      let body := bits p.bytes 63 48
      let count := bits p.bytes 47 32
      let within : Got Unit := match f.base with
        | none => .ok ()
        | some va => bodyFits s q f.far va f.count f.count f.next body
      if 2 ≤ f.loops then .invalid
      else within.bind fun _ =>
        .ok (loopFrame f p.id p.ring body count false :: { f with ordinal := f.ordinal + 1 } :: rest, 0)

/-- The levels of fetch after a PRED skips what they stand in: it leaves a buffer, and goes to the end of a LOOP's body
without running it (R288). -/
def skipFrames (skip : List Nat × Nat × Nat) (fs : List Frame) : List Frame :=
  let inner := fs.takeWhile fun f => skipped [skip] f.path
  (inner.foldl (fun acc f => if f.body.isNone then [] else acc ++ [{ f with dead := true, passes := 0 }]) [])
    ++ fs.drop inner.length

/-- PRED: when the test holds, the next SKIP packets of its level never execute. -/
def execPredPacket (queue : Nat) (s : State) : Host.Outcome State Fault Refusal :=
  packetStep s queue 6 fun q p =>
    (packetWord s q p).bind fun w =>
      if !packetTest p.bytes w then .ok (completePacket s queue p.id)
      else
        let k := p.path.getLastD 0
        let skip := (p.path.dropLast, k + 1, k + bits p.bytes 43 36)
        let gone := q.packets.filter fun x => !x.executed && x.id != p.id && skipped [skip] x.path
        -- fetch at a skipped IB or LOOP goes past it, and past a LOOP's body
        let frames := match gone.filter fun x => (x.ptype == 5 || x.ptype == 7) && x.entered.isNone, skipFrames skip q.frames with
          | x :: _, f :: rest =>
            if x.ptype = 7 ∧ bits x.bytes 63 48 ≠ 0 then loopFrame f 0 x.ring (bits x.bytes 63 48) 0 true :: { f with ordinal := f.ordinal + 1 } :: rest
            else f.pass1 :: rest
          | _, fs => fs
        let s := s.modQueue queue fun q =>
          { q with skips := skip :: q.skips, frames := frames, peek := none, packets := q.packets.filter fun x => !gone.any fun y => y.id == x.id }
        let s := completePacket s queue p.id
        .ok (gone.foldl (fun s x => burnTest s queue x.graph) s)

/-- FFENCE: packets fetched after it are discarded, and fetch restarts at the packet that follows it. -/
def execFfencePacket (queue : Nat) (s : State) : Host.Outcome State Fault Refusal :=
  packetStep s queue 8 fun q p =>
    let later := (q.packets.dropWhile fun x => x.id != p.id).drop 1
    let s := s.modQueue queue fun q =>
      { q with frames := p.resume, peek := none, packets := q.packets.filter fun x => !later.any fun y => y.id == x.id }
    let s := completePacket s queue p.id
    .ok (later.foldl (fun s x => burnTest s queue x.graph) s)

/-- BURNWAIT: executes when the submission of its graph has ended, which is tested again here (R237). -/
def execBurnwaitPacket (queue : Nat) (s : State) : Host.Outcome State Fault Refusal :=
  packetStep s queue 9 fun q p =>
    let s := burnTest s queue p.graph
    match s.queue? queue with
    | none => .later
    | some q' =>
      if q'.opened.contains p.graph then .later
      else .ok (completePacket (dropContextL1 s q.context) queue p.id)

/-! ### Work fetch and completion -/

/-- The launches of a queue that are not done, oldest first. -/
def openLaunches (s : State) (qi : Nat) : List (Nat × Launch) := s.launches.filter fun e => e.2.queue == qi && !e.2.done

/-- R292: the oldest launch with FETCH = 1 and unplaced groups ahead of the first launch without FETCH. -/
def fetchFrom (s : State) (qi : Nat) : Option (Nat × Launch) :=
  (((openLaunches s qi).takeWhile fun e => e.2.fetch).filter fun e => placing s e.2).head?

/-- FETCHW_ANSWER. -/
def execFetchwAnswer (core slot : Nat) (s : State) : Host.Outcome State Fault Refusal := keep s <|
  match s.group? core slot with
  | none => .next s
  | some g =>
    match g.fetching, s.launch? g.launch with
    | some addr, some own =>
      match spResolve s core g (addr : Nat) 32 with
      | none => .next (s.putGroup core slot { g with fetching := none })
      | some (k, off) =>
        match fetchFrom s own.queue with
        | none =>
          .next ((spWrite s k (off + 24) (leBytes 2 8)).modGroup core slot fun g => { g with fetching := none }).tick
        | some (li, l) => atFirst s li l fun s l =>
          if !l.fetch then .next s else
          let id := l.placed
          let bs := leBytes l.ring 8 ++ leBytes id 4 ++ leBytes (idCluster l id) 4 ++ leBytes (idTeam l id) 4 ++ leBytes 0 4
          let s := spWrite (spWrite s k off bs) k (off + 24) (leBytes 1 8)
          let s := s.modLaunch li fun l => { l with placed := l.placed + 1, withdrawnIds := natInsert id l.withdrawnIds }
          let s := match l.packet with
            | some p => markPacket s l.queue p fun x => { x with executed := true }
            | none => s
          .next (s.modGroup core slot fun g => { g with fetching := none, withdrawn := some (li, id) }).tick
    | _, _ => .next s

/-- Every group and matrix stream of a launch has ended. -/
def launchOver (s : State) (li : Nat) (l : Launch) : Bool :=
  decide (gridGroups l ≤ l.placed) && decide (gridGroups l ≤ l.ended) && !((allGroups s).any fun g => g.launch == li)

/-- LAUNCH_COMPLETE. A task's instance completes by TASK_COMPLETE or TASK_RELAUNCH. -/
def execLaunchComplete (launch : Nat) (s : State) : Host.Outcome State Fault Refusal := keep s <|
  match s.launch? launch with
  | some l =>
    if l.done || l.task.isSome || !launchOver s launch l then .next s
    else
      let s := freeBatch (s.modLaunch launch fun l => { l with done := true }) l
      .next (match l.packet with
        | some p => finishPacket s l.queue p l.graph
        | none => burnTest s l.queue l.graph).tick
  | none => .next s

end Sys2Proof.Machine
end

