-- ==== Sys2Proof/Machine/Queues.lean ====
section
/-! DEFINITION. Writes of queue descriptors that act (R279, R280, R300), fault rings and their reporting ports (R331 to
R333), and replay by the resolver (R335). -/
namespace Sys2Proof.Machine
open Sys2Proof

/-! ### Queue descriptors -/

/-- A queue's descriptor at reset (Table 13.1). -/
def Queue.init : Queue where
  ring := Cap.null
  ctab := Cap.null
  gstat := Cap.null
  wptr := 0
  rptr := 0
  log2n := 0
  cls := false
  part := 0
  weight := 1
  etime := 0
  niss := 0
  res := 0
  qstate := 0
  iss := 0
  reserved := 0
  context := 0
  frames := []
  peek := none
  packets := []
  nextPacket := 0
  skips := []
  hold := none
  resetting := false
  nodes := []
  round := []
  issuers := []
  opened := []
  words := []
  cancelled := []
  owed := []

/-- The state with a queue's descriptor listed; a device holds queues 0 to 4,095 (R278). -/
def listQueue (s : State) (queue : Nat) : State :=
  match s.queue? queue with
  | some _ => s
  | none => if queue < 4096 then { s with queues := tabPut s.queues queue Queue.init } else s

/-- QUEUE_WPTR_WRITE: accepts packets, or halts a running queue that would be overrun (R279). A write that would halt it is
performed once the port has room for its record (R332). -/
def execQueueWptrWrite (queue : Nat) (value : BitVec 32) (s : State) : Host.Outcome State Fault Refusal := keep s <|
  let s := listQueue s queue
  match s.queue? queue with
  | none => .next s
  | some q =>
    let t := s.modQueue queue fun q => { q with wptr := value }
    if q.qstate != 1 || decide ((value - q.wptr).toNat ≤ 2 ^ q.log2n - (q.wptr - q.rptr).toNat) then .next t
    else if frontPortFull s queue then .next s
    else .next (pushRecord (advanceRptr (haltQueue t queue none) queue) (frontRecord s queue fIllegalOp (2 ^ 62 + value.toNat) 3)).tick

/-- R280: what makes a descriptor valid. -/
def descriptorValid (s : State) (q : Queue) (writer : Writer) : Bool :=
  let t := s.queueTenant q
  let local_ (c : Cap) : Bool := c.tenant == t && c.device == s.regs.deviceId
  let owns := match writer with
    | .physical => true
    | .virtualFn n => (s.part q.part).function == some n
  decide (4 ≤ q.log2n) && decide (q.log2n ≤ 20) && decide (q.niss * q.res < 2 ^ q.log2n) && q.reserved == 0
    && q.ring.has permR && q.ring.base.toNat % 32 == 0 && q.ring.len == 32 * 2 ^ q.log2n
    && q.ctab.has permR && q.ctab.len % 16 == 0
    && (q.gstat == Cap.null || (q.gstat.has (permR + permW) && q.gstat.base.toNat % 8 == 0 && decide (2048 ≤ q.gstat.len) && local_ q.gstat))
    && local_ q.ring && local_ q.ctab && decide (q.part < 16) && (s.part q.part).present && owns

/-- VDCFG of a virtual device and its fields (Table 17.3). -/
def vdcfgReset : DWord := 0x000003E801000000#64
def vdcfgOf (r : Regs) (v : Nat) : Nat := (tabGet vdcfgReset r.vdcfg v).toNat
def vdQuantum (r : Regs) (v : Nat) : Nat := bits (vdcfgOf r v) 47 32
def vdWeight (r : Regs) (v : Nat) : Nat := bits (vdcfgOf r v) 31 24

/-- R375: the descriptors of a virtual device of weight 0 store CLASS as 1. -/
def harvestContext (s : State) (ctx : BitVec 12) : Bool := vdWeight s.regs (s.context ctx).vdev == 0
def harvestOnly (s : State) (part : Nat) : Bool := harvestContext s (s.part part).context

/-- The context whose queue a descriptor is: that for which it was enabled, or its partition's. -/
def queueContext (s : State) (q : Queue) : BitVec 12 := if q.qstate = 0 then (s.part q.part).context else q.context

/-- CLASS of every descriptor after a change of what its virtual device is. -/
def reclass (s : State) : State :=
  { s with queues := s.queues.map fun e => (e.1, if harvestContext s (queueContext s e.2) then { e.2 with cls := true } else e.2) }

/-- A context has work: saved groups, a queue that is not empty, or a launch that is not done. -/
def hasWork (s : State) (ctx : Nat) (c : Context) : Bool :=
  (match c.saved with | some v => !v.groups.isEmpty | none => false)
    || (s.queues.any fun q => q.2.context.toNat == ctx && q.2.qstate == 1 && (!q.2.packets.isEmpty || q.2.wptr != q.2.rptr))
    || s.launches.any fun l => l.2.context.toNat == ctx && !l.2.done

/-- The first queue of a context: it runs at once, or waits for its quantum where another context of the partition runs, and, if its
virtual device is harvest-only, while one of another has work (R375). -/
def admitContext (s : State) (ctx tenant : BitVec 12) (part : Nat) : State :=
  if (s.context ctx).enabled then s
  else
    let busy := s.contexts.any fun e => e.1 != ctx.toNat && e.2.enabled && e.2.part == part
      && (e.2.phase != .out || (harvestContext s ctx && vdWeight s.regs e.2.vdev != 0 && hasWork s e.1 e.2))
    s.modContext ctx fun c =>
      { c with tenant := tenant, part := part, enabled := true, since := s.cycle, used := if busy then 0 else 1,
               phase := if busy then .out else .running, saved := if busy then some ⟨[], []⟩ else none }

/-- The ring as fetch's outermost level. -/
def ringFrame (i : Nat) : Frame where
  base := none
  far := none
  count := 0
  index := i
  ordinal := 0
  body := none
  start := 0
  passes := 0
  pass := 0
  dead := false
  path := []
  opener := 0
  ring := 0
  ibDepth := 0
  loops := 0

/-- QUEUE_ENABLE: a write of 01 to STATE. -/
def execQueueEnable (queue : Nat) (writer : Writer) (s : State) : Host.Outcome State Fault Refusal := keep s <|
  let s := listQueue s queue
  match s.queue? queue with
  | none => .next s
  | some q =>
    if q.qstate != 0 then .next s
    else if descriptorValid s q writer then
      .next ((dropWatch (admitContext s (s.part q.part).context (s.queueTenant q) q.part) queue).modQueue queue fun q =>
        { q with qstate := 1, context := (s.part q.part).context, cls := q.cls || harvestOnly s q.part, frames := [ringFrame q.rptr.toNat], peek := none, packets := [], skips := [],
                 hold := none, resetting := false, opened := [], words := [], cancelled := [], owed := [], round := [] })
    else if frontPortFull s queue then .next s
    else .next (pushRecord (s.modQueue queue fun q => { q with qstate := 2 }) (frontRecord s queue fIllegalOperand (2 ^ 63 + queue) 3)).tick

/-- A launch that has placed nothing and whose packet is gone never starts. -/
def dropUnplaced (s : State) (queue : Nat) : State :=
  { s with launches := s.launches.map fun e =>
      if e.2.queue == queue && e.2.packet.isSome && e.2.placed == 0 && (packetRing s queue e.2.packet).isNone then
        (e.1, { e.2 with done := true })
      else e }

/-- QUEUE_RESET: a write of 11 to STATE discards fetched packets; the queue is disabled once its running work has completed,
which is this same step taken again. -/
def execQueueReset (queue : Nat) (s : State) : Host.Outcome State Fault Refusal := keep s <|
  match s.queue? queue with
  | none => .next s
  | some q =>
    let gone := q.packets.filter fun p => !p.executed
    let s := s.modQueue queue fun q =>
      { q with qstate := 3, resetting := true, frames := [], peek := none, packets := q.packets.filter fun p => p.executed }
    let s := dropUnplaced (advanceRptr s queue) queue
    let s := gone.foldl (fun s p => burnTest s queue p.graph) s
    match s.queue? queue with
    | none => .next s
    | some q =>
      if q.packets.isEmpty && (openLaunches s queue).isEmpty then
        .next (s.modQueue queue fun q =>
          { q with rptr := q.wptr, qstate := 0, resetting := false, hold := none, skips := [], issuers := [] })
      else .next s

/-- The port has room for the record of an ENQ's timeout; without, the ENQ goes on waiting (R332). -/
def timeoutReports (s : State) (ag : Agent) : Bool :=
  match s.group? ag.core ag.slot with
  | some g => portRoom s (dieOf ag.core) (faultClass s ag g 0) 1
  | none => false

/-- QFULL_TIMEOUT: a blocking ENQ has waited ETIME µs without a slot (R300). -/
def execQfullTimeout (ag : Agent) (s : State) : Host.Outcome State Fault Refusal := keep s <|
  match s.split? ag with
  | some sp =>
    match sp.wait with
    | some (.queue q since) =>
      match s.queue? q with
      | none => .next s
      | some qu =>
        if decide (s.after since qu.etime ≤ s.cycle) && timeoutReports s ag then
          let s := { s with enqWait := s.enqWait.filter fun a => a != ag }
          .next (raiseParks s s ag [⟨fQfullTimeout, sp.confined sp.mask, noInfo s, 0, sp.pc, false⟩]).tick
        else .next s
    | _ => .next s
  | none => .next s

/-! ### Fault rings -/

def ringIndex : RingId → Nat
  | .retry d => 2 * d
  | .term d => 2 * d + 1
  | .vf n => 4 + n

/-- The function whose capability table a ring uses: 0 the physical function, n + 1 virtual function n. -/
def ringFn (ring : Nat) : Nat := if ring < 4 then 0 else ring - 3
def capTableKey (fn idx : Nat) : Nat := fn * 2 ^ 16 + idx

/-- Fields of the ring registers (Table 15.7). -/
def rcfgOf (r : Regs) (ring : Nat) : Nat := (tabGet 6#64 r.rcfg ring).toNat
def ringLog2 (r : Regs) (ring : Nat) : Nat := rcfgOf r ring % 32
def ringOn (r : Regs) (ring : Nat) : Bool := (rcfgOf r ring).testBit 63
def ringCap (r : Regs) (ring : Nat) : Option Cap :=
  tabFind r.capTables (capTableKey (ringFn ring) (bits (tabGet 0#64 r.rloc ring).toNat 63 48))
def ringOff (r : Regs) (ring : Nat) : Nat := bits (tabGet 0#64 r.rloc ring).toNat 47 0
def ringCount (s : State) (ring : Nat) : RingCount := tabGet ⟨0, 0⟩ s.rings ring

/-- The weight of a port class in FARB (R332, R333). -/
def portWeight (r : Regs) (die cls : Nat) : Nat :=
  let f := (tabGet 0x124#64 r.farb die).toNat
  bits f (4 * cls + 3) (4 * cls)

/-- The 32 bytes of a record (Table 15.2). -/
def recordBits (r : Record) (phase : Bool) : Nat :=
  r.info * 2 ^ 192 + r.lmask.toNat * 2 ^ 160 + r.pc.toNat * 2 ^ 103 + r.context.toNat * 2 ^ 84 + r.tenant.toNat * 2 ^ 72
    + r.part * 2 ^ 68 + r.queue * 2 ^ 52 + r.srck * 2 ^ 48 + recordCore r.core * 2 ^ 40 + r.die * 2 ^ 39 + r.gslot * 2 ^ 33
    + r.split * 2 ^ 31 + r.code * 2 ^ 16 + r.kind * 2 ^ 14 + (if phase then 2 ^ 13 else 0)

/-- A ring that can take a record now: enabled, not full, and its place mapped. -/
def ringPlace (s : State) (ring : Nat) : Option (Cap × Nat) :=
  let n := ringLog2 s.regs ring
  let c := ringCount s ring
  if !ringOn s.regs ring || (c.widx - c.ridx).toNat == 2 ^ n then none
  else
    match ringCap s.regs ring with
    | none => none
    | some cap => some (cap, ringOff s.regs ring + 32 * (c.widx.toNat % 2 ^ n))

/-- Write one record to its ring, if its page is there. -/
def writeRecord (s : State) (ring : Nat) (r : Record) : Option State :=
  match ringPlace s ring with
  | none => none
  | some (cap, off) =>
    let c := ringCount s ring
    let bs := leBytes (recordBits r (c.widx.toNat.testBit (ringLog2 s.regs ring))) 32
    let w : Who := ⟨Config.meshCores, r.context, cap.tenant, r.part, false⟩
    let t := { s with rings := tabPut s.rings ring { c with widx := c.widx + 1 } }
    if cap.device != s.regs.deviceId then
      -- R370: the host's memory takes copies alone
      if cap.device = 0xFFFFF#20 ∨ (farAnswer s cap.device.toNat (cap.base.toNat + off)).isSome = true then none
      else some (sendOut t w cap.device.toNat (cap.base.toNat + off) bs)
    else
      match frontXlat s cap.tenant (cap.base.toNat + off) permW with
      | .ok pa => some (physWrite t w pa bs)
      | .error _ => none

/-- The first pending record of each ring of a class of a die. -/
def pendingHeads (s : State) (die cls : Nat) : List (Nat × Record) :=
  let mine := s.port.filter fun e => e.2.die == die && ringClass e.1 == cls
  mine.foldl (fun l e => if l.any fun x => x.1 == e.1 then l else l ++ [e]) []

/-- The record that a class would write: the virtual functions' rings take turns. -/
def classNext (s : State) (die cls : Nat) : Option (Nat × Record) :=
  let heads := (pendingHeads s die cls).filter fun e => (writeRecord s e.1 e.2).isSome
  let last := tabGet 0 s.rotation (100 + die)
  leastBy (fun e => if cls = 2 ∧ e.1 ≤ last then e.1 + 4096 else e.1) heads

/-- Keys of State.turns: turns used of a class, and the cycle from which the port writes again. -/
def turnKey (die cls : Nat) : Nat := die * 3 + cls
def portKey (die : Nat) : Nat := 6 + die

/-- The class that the port serves: the first with turns left that has a record to write; a round ends when none has. -/
def servedClass (s : State) (die : Nat) : Option (Nat × Bool) :=
  let ready := [0, 1, 2].filter fun c => (classNext s die c).isSome
  match ready.filter fun c => decide (tabGet 0 s.turns (turnKey die c) < portWeight s.regs die c) with
  | c :: _ => some (c, false)
  | [] => ready.head?.map fun c => (c, true)

/-- Remove the first element that equals x. -/
def dropFirst {α : Type} [DecidableEq α] (x : α) : List α → List α
  | [] => []
  | y :: r => if y = x then r else y :: dropFirst x r

/-- Writing EN = 1: the ring is enabled if its capability qualifies (R333). -/
def enableRing (s : State) (i : Nat) : State :=
  let need := ringOff s.regs i + 32 * 2 ^ ringLog2 s.regs i
  match ringCap s.regs i with
  | some c =>
    if c.has permW && decide (need ≤ c.len) then
      s.modRegs fun r => { r with rcfg := tabSet 6#64 r.rcfg i (BitVec.ofNat 64 (2 ^ 63 + ringLog2 r i)) }
    else s
  | none => s

/-- RING_ENABLE. -/
def execRingEnable (ring : RingId) (s : State) : Host.Outcome State Fault Refusal := .next (enableRing s (ringIndex ring))

/-- RING_RIDX_WRITE: a value past WIDX is stored as WIDX (R333). -/
def execRingRidxWrite (ring : RingId) (value : BitVec 32) (s : State) : Host.Outcome State Fault Refusal := keep s <|
  let i := ringIndex ring
  let c := ringCount s i
  let v := if (c.widx - c.ridx).toNat < (value - c.ridx).toNat then c.widx else value
  .next { s with rings := tabPut s.rings i { c with ridx := v } }

/-! ### Replay (R335) -/

def replayKey : ReplayPair → Nat
  | .die d => d
  | .vf n => 2 + n

/-- Whether a pair acts on work of a core and a partition (R333). -/
def pairActs (s : State) (who : ReplayPair) (core part : Nat) : Bool :=
  match who with
  | .die d => dieOf core == d
  | .vf n => (s.part part).function == some n

/-- The codes that the resolver replays. -/
def resolvable (code : Nat) : Bool := code == fPageAbsent || code == fQfullTimeout

/-- R332: the record of a park waits in the port, which keeps it parked. `gslot`, `split` and `pc` are the record's; the
slot and split of a stream are open, and a core has one stream. -/
def recordHeld (s : State) (core srck gslot split : Nat) (ctx : BitVec 12) (pc : BitVec 57) (code : Nat) : Bool :=
  s.port.any fun e => e.2.kind == 0 && e.2.code == code && e.2.pc == pc && e.2.context == ctx && e.2.srck == srck && e.2.die == dieOf core
    && e.2.core == core % Config.coreKeys && (srck == 1 || (e.2.gslot == gslot && e.2.split == split))

/-- Take the parks that meet a test from a split. Their lanes execute the instruction, but for those that stay parked
under another code, with which a lane in `also` replays (R190, R334). -/
def unpark (p : Park → Bool) (sp : Split) : Split :=
  let gone := sp.parked.filter p
  let rest := sp.parked.filter fun k => !p k
  if gone.isEmpty then sp
  else
    let all (l : List Park) : BitVec 32 := (l.filter (!·.op)).foldl (fun m k => m ||| k.lanes ||| k.also) 0
    let now := (all gone &&& ~~~ all rest) ||| sp.only.getD 0
    { sp with parked := rest, ending := sp.ending && !rest.isEmpty, only := if now = 0 then none else some now }

/-- R349: the time that a group has stood parked does not count for its watchdog. -/
def Group.excuse (s : State) (g : Group) : Group :=
  match leastBy id ((g.splits.filter fun p => !p.2.parked.isEmpty).map fun p => p.2.parkedSince) with
  | none => g
  | some t =>
    { g with lastIssue := s.before s.cycle (s.span g.lastIssue (Nat.max g.lastIssue t))
             splits := g.splits.map fun p => (p.1, if p.2.parked.isEmpty then p.2 else { p.2 with parkedSince := s.cycle }) }

/-- Change splits and copies wherever they are: on cores, and in contexts that are switched out. The split's function takes
the core and slot, the group and the split's number. -/
def mapWork (s : State) (fs : Nat → Nat → Group → Nat → Split → Split) (fc : Nat → Copy → Copy) : State :=
  let group (live : Bool) (e : Nat × Group) : Nat × Group :=
    let g := if live then e.2.excuse s else e.2
    (e.1, { g with splits := g.splits.map fun p => (p.1, fs (e.1 / 65) (e.1 % 65) e.2 p.1 p.2) })
  let core (e : Nat × Core) : Nat × Core := (e.1, { e.2 with copies := e.2.copies.map (fc e.1) })
  { s with
    groups := s.groups.map (group true)
    cores := s.cores.map core
    contexts := s.contexts.map fun e =>
      (e.1, match e.2.saved with
        | some v => { e.2 with saved := some { groups := v.groups.map (group false), cores := v.cores.map core } }
        | none => e.2) }

/-- A park of a split that may be replayed: its record has left the port. -/
def parkOpen (s : State) (core slot : Nat) (g : Group) (i : Nat) (k : Park) : Bool :=
  !recordHeld s core (if g.stream then 1 else 0) slot i g.context k.pc k.code

/-- A parked copy under a code whose record has left the port. -/
def copyOpen (s : State) (core : Nat) (c : Copy) (ctx : BitVec 12) (code : Nat) : Bool := !recordHeld s core 2 c.slot 0 ctx c.pc code

/-- Replay what is parked and meets a test (R335). -/
def replayParks (s : State) (hit : Who → Park → Bool) : State :=
  mapWork s
    (fun core slot g i sp => unpark (fun k => hit (s.whoOf core g) k && parkOpen s core slot g i k) sp)
    fun core c =>
      match c.parked, s.launch? c.launch with
      | some (code, info), some l =>
        if hit (l.who core) ⟨code, 0, info, 0, c.pc, false⟩ && copyOpen s core c l.context code then { c with parked := none, ending := false } else c
      | _, _ => c

/-- A write of REPLAY_CTL names a park of a split. -/
def namesPark (s : State) (who : ReplayPair) (context : BitVec 12) (core slot : Nat) (g : Group) (i : Nat) (k : Park) : Bool :=
  let pc := (tabGet 0#64 s.regs.replayPc (replayKey who)).toNat % 2 ^ 57
  g.context == context && pairActs s who core (s.whoOf core g).part && k.pc.toNat == pc && resolvable k.code
    && parkOpen s core slot g i k

/-- It names a parked copy. -/
def namesCopy (s : State) (who : ReplayPair) (context : BitVec 12) (core : Nat) (c : Copy) : Bool :=
  let pc := (tabGet 0#64 s.regs.replayPc (replayKey who)).toNat % 2 ^ 57
  c.pc.toNat == pc && match c.parked, s.launch? c.launch with
    | some (code, _), some l => resolvable code && l.context == context && pairActs s who core l.part && copyOpen s core c context code
    | _, _ => false

/-- REPLAY: END = 0. -/
def execReplay (who : ReplayPair) (context : BitVec 12) (s : State) : Host.Outcome State Fault Refusal := keep s <|
  .next (mapWork s (fun core slot g i sp => unpark (namesPark s who context core slot g i) sp)
    fun core c => if namesCopy s who context core c then { c with parked := none, ending := false } else c)

/-- The parked fault of a split becomes a terminal fault of the same code, once its record, if it writes one, has room. -/
def terminatePark (s : State) (ag : Agent) : State :=
  match s.group? ag.core ag.slot, s.split? ag with
  | some g, some sp =>
    match sp.parked.filter fun k => resolvable k.code with
    | [] => s.modSplit ag fun sp => { sp with ending := false }
    | k :: r =>
      if terminalWaits s ag g sp then s
      else
        let lanes := (r.filter fun x => x.code == k.code).foldl (fun m x => m ||| x.lanes) k.lanes
        let s := if k.op then s else countFaulted s ag g sp
        raiseTerminalAt s (s.modSplit ag fun sp => { sp with parked := sp.parked.filter fun x => x.code != k.code, ending := false })
          ag k.pc k.code k.info lanes
  | _, _ => s

/-- The splits and copies on cores whose parked faults are to become terminal. -/
def endingSplits (s : State) : List Agent :=
  s.groups.flatMap fun e => (e.2.splits.filter fun p => p.2.ending).map fun p => ⟨e.1 / 65, e.1 % 65, p.1⟩
def endingCopies (s : State) : List (Nat × Copy) :=
  s.cores.flatMap fun e => (e.2.copies.filter fun c => c.ending).map fun c => (e.1, c)

/-- Terminal faults that a write with END = 1 asked for are raised as far as the port has room. A copy ends as a failed copy
(R275). -/
def settleEnding (s : State) : State :=
  let s := (endingSplits s).foldl terminatePark s
  (endingCopies s).foldl (fun s c =>
    match c.2.parked with
    | some (code, info) =>
      if failureWaits s c.1 c.2 (match s.launch? c.2.launch with | some l => l.who c.1 | none => ⟨c.1, 0, 0, 0, false⟩) then s
      else retireCopy s c.1 c.2 (some ⟨c.2.batch, c.2.id, c.2.pc, code, info⟩)
    | none => s) s

/-- REPLAY_TERMINATE: END = 1. In a context that is switched out it takes effect with the context's return. -/
def execReplayTerminate (who : ReplayPair) (context : BitVec 12) (s : State) : Host.Outcome State Fault Refusal := keep s <|
  let t := mapWork s
    (fun core slot g i sp => if sp.parked.any (namesPark s who context core slot g i) then { sp with ending := true } else sp)
    fun core c => if namesCopy s who context core c then { c with ending := true } else c
  .next (settleEnding t).tick

/-! ### The reporting port (R332) -/

/-- The migration that a page of a tenant takes part in. -/
def migrationOf (s : State) (tenant : BitVec 12) (page : Nat) : Option Migration :=
  (s.migrations.filter fun m => m.tenant == tenant && decide (m.page ≤ page) && decide (page < m.page + 2 ^ m.extent)).head?

/-- The park waits for a controller that serves, or its page has gone elsewhere. -/
def tierServes (s : State) (w : Who) (k : Park) : Bool :=
  k.code == fSecondTier &&
    (match walk s.regs (dieOf w.core) w.tenant (k.info % 2 ^ 57 / 2 ^ 16) with
     | .ok e =>
       let pa := tlbPa e (k.info % 2 ^ 57)
       !(isSecondTier pa && s.regs.tierDown.getLsbD ((pa - 2 ^ 44) / 2 ^ 39))
     | .error _ => true)

/-- A peer answers with the park's code for its page. -/
def peerHolds (s : State) (k : Park) : Bool := s.regs.peers.any fun p => tabFind p.2.answers (k.info % 2 ^ 57 / 2 ^ 16) == some k.code

/-- The cause of a park that no resolver removes is gone. -/
def causeGone (s : State) (w : Who) (k : Park) : Bool :=
  !peerHolds s k && (tierServes s w k || (k.code == fPageMigrating && (migrationOf s w.tenant (k.info % 2 ^ 57 / 2 ^ 16)).isNone))

/-- What a record that leaves the port lets happen: parks whose cause is gone replay, and terminal faults find room. -/
def portMoved (s : State) : State := settleEnding (replayParks s (causeGone s))

/-- FAULT_RECORD_WRITE: the die's port writes one pending record (R332). -/
def execFaultRecordWrite (die : Nat) (s : State) : Host.Outcome State Fault Refusal := keep s <|
  if s.cycle < tabGet 0 s.turns (portKey die) then .next s
  else
    match servedClass s die with
    | none => .next s
    | some (c, fresh) =>
      match classNext s die c with
      | none => .next s
      | some (ring, r) =>
        match writeRecord s ring r with
        | none => .next s
        | some t =>
          let turns := if fresh then s.turns.filter fun e => e.1 / 3 != die || 6 ≤ e.1 else s.turns
          let turns := tabPut (tabUpd 0 turns (turnKey die c) (· + 1)) (portKey die) (s.cycle + 4)
          .next (portMoved { t with port := dropFirst (ring, r) t.port, turns := turns,
                                    rotation := if c = 2 then tabPut t.rotation (100 + die) ring else t.rotation })

end Sys2Proof.Machine
end

