-- ==== Sys2Proof/Machine/Occur.lean ====
section
/-! DEFINITION. Steps of the split machinery that no instruction takes: the writing of long-latency results (R20), the
occupancy cut (R146), repacking (R139), the ends of waits (R232, R362) and the watchdog (R349). -/
namespace Sys2Proof.Machine
open Sys2Proof

/-- The results of one issue are written in a split, which is able to issue from this cycle at the earliest if it waits for
them (R147). -/
def writeIssue (id : Nat) (s : State) (ag : Agent) : State :=
  match s.group? ag.core ag.slot, s.split? ag with
  | some g, some sp =>
    let held := !waitOver s ag g sp s.cycle (.await (nextAwait s ag g sp))
      || (match sp.wait with | some k => !waitOver s ag g sp s.cycle k | none => false)
    let s := (sp.pending.filter fun p => p.id == id).foldl (fun s p => writeNow s ag p.cells) s
    s.modSplit ag fun sp =>
      { sp with pending := sp.pending.filter fun p => p.id != id
                readyAt := if held then Nat.max sp.readyAt s.cycle else sp.readyAt }
  | _, _ => s

/-- The splits of a core that hold results of an issue: the children of a BRC share them (R137). -/
def holders (s : State) (core id : Nat) : List Agent :=
  (s.groups.filter fun e => e.1 / 65 == core).flatMap fun e =>
    (e.2.splits.filter fun p => p.2.pending.any fun x => x.id == id).map fun p => ⟨core, e.1 % 65, p.1⟩

/-- LONG_LATENCY_WRITEBACK: the results of one instruction are written; their tag is clear, in every split that inherited it,
when none of its results is left (R20, R137). -/
def execLongLatencyWriteback (ag : Agent) (idx : Nat) (s : State) : Host.Outcome State Fault Refusal := keep s <|
  match s.split? ag with
  | some sp =>
    match sp.pending[idx]? with
    | some p => .next ((holders s ag.core p.id).foldl (writeIssue p.id) s)
    | none => .next s
  | none => .next s

/-- RUN_CUT: the run that has occupied its quadrant for 384 cc is cut while a split of its class is ready (Table 6.3). -/
def execRunCut (ag : Agent) (s : State) : Host.Outcome State Fault Refusal := keep s <|
  match s.group? ag.core ag.slot with
  | none => .next s
  | some g =>
    let q := tabGet Quad.init (s.core ag.core).quads g.quad
    let w := s.whoOf ag.core g
    let peers := (candidates s).filter fun c =>
      !c.stream && c.quad == ag.core * 4 + g.quad && c.cls == w.cls && c.ag != ag && decide (c.ready ≤ s.cycle)
    if q.owner == some (ag.slot, ag.split) && decide (q.since + Config.occupancyLimit ≤ s.cycle) && !peers.isEmpty && !g.stream then
      .next ((countPrivate (freeQuad s ag) w 1).modSplit ag fun sp =>
        { sp with latch := [], cut := true, readyAt := Nat.max sp.readyAt s.cycle })
    else .next s

/-! ### Repacking (R139) -/

/-- The order that Config chooses for a list. -/
def shuffle {α : Type} (free : Nat) : Nat → List α → List α
  | 0, _ => []
  | n + 1, l =>
    let i := Config.freeNat free (70 + n) % l.length
    match l[i]? with
    | some x => x :: shuffle free n (l.eraseIdx i)
    | none => []

/-- A split that stands at the target of a BRC.pk with nothing but that BRC.pk's entry, and may be moved. -/
def movable (s : State) (core : Nat) (p : Nat × Nat) : Option (Group × Split) :=
  match s.group? core p.1, s.split? ⟨core, p.1, p.2⟩ with
  | some g, some sp =>
    let held := match sp.pkHold with | some t => decide (s.cycle ≤ t) | none => false
    if held && !g.stream && !g.repacked && g.region.isNone && !g.evicted && g.stack.length == 1
        && sp.inner == some 0 && sp.wait.isNone && sp.parked.isEmpty && sp.only.isNone && sp.run == 0 && !sp.inHandler then some (g, sp)
    else none
  | _, _ => none

def movables (s : State) (core : Nat) : List (Nat × Nat) → Option (List (Nat × Group × Split))
  | [] => some []
  | p :: r =>
    match movable s core p, movables s core r with
    | some (g, sp), some l => some ((p.1, g, sp) :: l)
    | _, _ => none

/-- R139's conditions against the first of the moved splits. -/
def samePack (a : Group × Split) (b : Group × Split) : Bool :=
  a.1.launch == b.1.launch && a.1.cluster == b.1.cluster && a.1.team == b.1.team && a.1.quad == b.1.quad
    && a.1.vregs == b.1.vregs && a.1.grains == b.1.grains && a.2.pc == b.2.pc && a.2.k == b.2.k && a.2.a == b.2.a

/-- Free granules of the group's class in its quadrant: banks with a free granule, one entry a granule, and grain granules. -/
def freeBanks (s : State) (core quad : Nat) (cls : Bool) : List Nat :=
  let gs := residents s core quad []
  ((List.range 16).filter (bankAllowed s core quad cls)).flatMap fun b => List.replicate (8 - bankUsed gs b) b
def freeGrains (s : State) (core quad : Nat) (cls : Bool) : List Nat :=
  let gs := residents s core quad []
  (List.range 8).filter fun j => grainAllowed s core quad cls j && !grainUsed gs j

/-- A moved lane: its home slot, its lane there, its lane in the fresh group. -/
structure Moved where
  home : Nat
  lane : Nat
  spot : Nat

/-- Outstanding results of a split that follow its lanes; of its uniform registers only `uniform` ones do. -/
def moveCells (m : List Moved) (home : Nat) (uniform : Bool) (l : List RegCell) : List RegCell :=
  l.flatMap fun c =>
    match c.loc with
    | .k _ | .a _ => if uniform then [c] else []
    | _ => (m.filter fun x => x.home == home && x.lane == c.lane).map fun x => { c with lane := x.spot }

/-- The fresh group. Its peak registers start with open values. -/
def packGroup (s : State) (slot : Nat) (first : Group × Split) (all : List (Nat × Group × Split)) (m : List Moved)
    (banks granules : List Nat) : Group :=
  let mask := maskOf (m.map (·.spot))
  let lanes := all.map fun e => e.2.2
  let isFirst (e : Nat × Group × Split) : Bool := match all with | f :: _ => e.1 == f.1 && e.2.2.mask == f.2.2.mask | [] => false
  let sp := { first.2 with
    mask := mask, inner := some 0, pkHold := none
    status := lanes.foldl (fun a p => a ||| p.status) 0
    readyAt := Nat.max s.cycle (maxNat (lanes.map (·.readyAt)))
    pending := all.flatMap fun e => e.2.2.pending.map fun p => { p with cells := moveCells m e.1 (isFirst e) p.cells }
    unawaited := lanes.flatMap (·.unawaited)
    flight := all.flatMap fun e => e.2.2.flight.map fun f => { f with old := moveCells m e.1 (isFirst e) f.old } }
  let base : Group := { freshGroup first.1.launch first.1.context false first.1.vregs first.1.grains sp with
    groupId := first.1.groupId, cluster := first.1.cluster, team := first.1.team, member := first.1.member
    quad := first.1.quad, banks := banks, granules := granules, splits := [(0, sp)], repacked := true
    stack := [⟨match first.1.stack with | e :: _ => e.brc | [] => 0, mask, none, none⟩]
    threads := m.foldl (fun t x => tabPut t x.spot (x.home * 32 + x.lane)) []
    pk := (List.range 4).foldl (fun t i => tabSet 0 t i (BitVec.ofNat 32 (Config.freeNat s.free (60 + i)))) []
    placedAt := s.cycle, lastIssue := s.cycle }
  m.foldl (fun g x => match s.group? (slot / 65) x.home with
    | some h => moveThread h g x.lane x.spot
    | none => g) base

/-- A home group without the moved split. -/
def leaveHome (s : State) (core home split : Nat) (mask : BitVec 32) : State :=
  s.modGroup core home fun h => { h with splits := tabErase h.splits split, absent := h.absent ||| mask }

/-- R139's conditions on the splits that move and on the room for their fresh group. -/
def repackOk (s : State) (core fresh : Nat) (splits : List (Nat × Nat)) (all : List (Nat × Group × Split)) : Bool :=
  match all with
  | [] => false
  | (_, first) :: rest =>
    let cls := (s.whoOf core first.1).cls
    let homes := all.foldl (fun l e => natInsert e.1 l) []
    let lanes := all.flatMap fun e => (lanesOf e.2.2.mask).map fun l => (e.1, l)
    rest.all (fun e => samePack first e.2) && decide (2 ≤ homes.length) && decide (lanes.length ≤ 32)
      && splits.length == (splits.foldl (fun l p => natInsert (p.1 * 4 + p.2) l) []).length
      && decide (fresh < Config.streamSlot) && (s.group? core fresh).isNone && decide ((residents s core first.1.quad []).length < 16)
      && decide (first.1.vregs / 8 ≤ (freeBanks s core first.1.quad cls).length)
      && decide (first.1.grains / 8 ≤ (freeGrains s core first.1.quad cls).length)

/-- REPACK: splits of a team at one BRC.pk target move into a fresh group, or stay where they are. -/
def execRepack (core fresh : Nat) (splits : List (Nat × Nat)) (s : State) : Host.Outcome State Fault Refusal := keep s <|
  match movables s core splits with
  | some ((slot, first) :: rest) =>
    let all := (slot, first) :: rest
    if !repackOk s core fresh splits all then .next s
    else
      let cls := (s.whoOf core first.1).cls
      let banks := freeBanks s core first.1.quad cls
      let granules := freeGrains s core first.1.quad cls
      let lanes := all.flatMap fun e => (lanesOf e.2.2.mask).map fun l => (e.1, l)
      let m := (shuffle s.free lanes.length lanes).zipIdx.map fun x => (⟨x.1.1, x.1.2, x.2⟩ : Moved)
      let g := packGroup s (core * 65) first all m ((shuffle s.free banks.length banks).take (first.1.vregs / 8))
        (granules.take (first.1.grains / 8))
      let t := (splits.zip all).foldl (fun t e => leaveHome t core e.1.1 e.1.2 e.2.2.2.mask) s
      let t := t.modCore core fun k =>
        { k with remap := m.foldl (fun r x => tabPut r (x.home * 32 + x.lane) (BitVec.ofNat 12 (0x800 + fresh * 32 + x.spot))) k.remap }
      .next (t.putGroup core fresh g).tick
  | _ => .next s

/-! ### Waits -/

/-- WAITCUT_WAKE: the word's value ends the wait, and the WAITCUT reads it again (R232, R257). -/
def execWaitcutWake (ag : Agent) (s : State) : Host.Outcome State Fault Refusal := keep s <|
  match s.group? ag.core ag.slot, s.split? ag with
  | some g, some sp =>
    match sp.wait with
    | some (.cut pa n) =>
      if waitOver s ag g sp s.cycle (.cut pa n) then
        .next (s.modSplit ag fun sp => { sp with wait := none, readyAt := Nat.max sp.readyAt s.cycle })
      else .next s
    | _ => .next s
  | _, _ => .next s

/-- WFE_TIMEOUT: the limit of a WFE has passed. The split wakes, EV is clear, and the instruction after the WFE follows in the
same run (R362, R304). -/
def execWfeTimeout (ag : Agent) (s : State) : Host.Outcome State Fault Refusal := keep s <|
  match s.split? ag with
  | some sp =>
    match sp.wait with
    | some (.event t) =>
      if t ≤ s.cycle then
        .next (s.modSplit ag fun sp =>
          let sp := { sp.next with ev := false, wait := none, run := sp.run + 1, counted := false,
                                   readyAt := Nat.max sp.readyAt s.cycle }
          if sp.resumed then sp.endRun 7 else sp)
      else .next s
    | _ => .next s
  | none => .next s

/-- The lowest split that waits at a barrier or a JOIN. -/
def watched (g : Group) : Option (Nat × Split) :=
  (g.splits.filter fun p => match p.2.wait with
    | some (.barrier _ _ _) | some (.join _) => true
    | _ => false).head?

/-- Whether a group's watchdog is due (R349). WDLIMIT 0 disables it, and a parked group is not watched. -/
def watchdogDue (s : State) (core : Nat) (g : Group) : Bool :=
  let limit := (s.part (s.whoOf core g).part).wdlimit
  limit != 0 && !g.stream && !g.evicted && g.splits.all (fun p => p.2.parked.isEmpty)
    && decide (s.after g.lastIssue limit ≤ s.cycle) && (watched g).isSome

/-- WATCHDOG: the group raises its terminal fault at the waiting split; without room for its record it goes on waiting (R332). -/
def execWatchdog (core slot : Nat) (s : State) : Host.Outcome State Fault Refusal := keep s <|
  match s.group? core slot with
  | some g =>
    match watchdogDue s core g, watched g with
    | true, some (i, sp) => .next (if terminalWaits s ⟨core, slot, i⟩ g sp then s else raiseTerminal s s ⟨core, slot, i⟩ fWatchdog (noInfo s) sp.mask).tick
    | _, _ => .next s
  | none => .next s

end Sys2Proof.Machine
end

