-- ==== Sys2Proof/Machine/Contexts.lean ====
section
/-! DEFINITION. The parting engine (R339), the drain of committed entries (R354), and the switch of contexts at quantum ends
(R344, R345, R375). -/
namespace Sys2Proof.Machine
open Sys2Proof

/-- The address of a group's save slot (R339). -/
def saveSlot (l : Launch) (core slot : Nat) : Nat :=
  l.save.base.toNat + 8192 * ((dieOf core * Config.meshCores + core % Config.coreKeys) * 64 + slot)

/-- Write a snapshot's bytes to its save slot. Their contents are not architectural, so they are open. -/
def writeSaveSlot (s : State) (w : Who) (l : Launch) (core slot n : Nat) : State :=
  (List.range (n / 128)).foldl (fun s i =>
    let bs := (List.range 128).map fun j => BitVec.ofNat 8 (Config.freeNat s.free (1000 + 128 * i + j))
    let va := saveSlot l core slot + 128 * i
    if l.save.device != s.regs.deviceId then
      match frontFar s w l.save.device.toNat va with
      | .ok _ => sendOut s w l.save.device.toNat va bs
      | .error _ => s
    else
      match frontXlat s l.tenant va permW with
      | .ok pa => physWrite s (engineWho w) pa bs
      | .error _ => s) s

/-- Other traffic of a core on path CP competes with a drain: copies, or another group's snapshot. -/
def drainCompetes (s : State) (core slot : Nat) : Bool :=
  !(s.core core).copies.isEmpty || s.groups.any fun e => e.1 / 65 == core && e.1 % 65 != slot
    && match e.2.snapshot with | some n => n.phase == 2 | none => false

/-- Cycles that a drain takes: ceil(size / 64), and more where other traffic competes (R392). -/
def drainTime (s : State) (core slot bytes : Nat) : Nat :=
  (bytes + 63) / 64 + (if drainCompetes s core slot then Config.freeNat s.free 44 else 0)

/-- SNAPSHOT_DRAIN: the parting engine takes up a snapshot in the cycle after it was taken, and then finishes it, which frees
its space in the banks (R339, R392). -/
def execSnapshotDrain (core slot : Nat) (s : State) : Host.Outcome State Fault Refusal := keep s <|
  match s.group? core slot with
  | none => .next s
  | some g =>
    match g.snapshot, s.launch? g.launch with
    | some n, some l =>
      if s.cycle < n.due then .next s
      else if n.phase = 1 then
        .next (s.putGroup core slot { g with snapshot := some { n with phase := 2, due := s.cycle + drainTime s core slot n.bytes } })
      else if n.phase = 2 then
        let t := writeSaveSlot (s.putGroup core slot { g with snapshot := some { n with phase := 3 } }) (l.who core) l core slot n.bytes
        .next (t.modCore core fun k => { k with banks := tabErase k.banks slot }).tick
      else .next s
    | _, _ => .next s

/-- COMMIT_DRAIN_COMPLETE: the group's committed entries are performed, the last of them included, so that DRAIN reads 0 (R354). -/
def execCommitDrainComplete (core slot : Nat) (s : State) : Host.Outcome State Fault Refusal := keep s <|
  .next (drainCommitted s core slot).tick

/-! ### Saving a context -/

def contextGroups (s : State) (ctx : BitVec 12) : List (Nat × Group) := s.groups.filter fun e => e.2.context == ctx

def launchOf (s : State) (l : Nat) (ctx : BitVec 12) : Bool := match s.launch? l with | some k => k.context == ctx | none => false

/-- Copies that are neither complete nor parked, and matrix operations that have started and not completed. -/
def outstanding (s : State) (ctx : BitVec 12) : Bool :=
  s.cores.any fun e => (e.2.copies.any fun c => c.parked.isNone && launchOf s c.launch ctx)
    || e.2.mq.any fun o => o.started.isSome && !o.completed && launchOf s o.owner.1 ctx

/-- The operations of R344, step 2, that this model performs when a context stops: committed entries and the results of
instructions that have issued. Tags stay to be awaited. -/
def performOutstanding (s : State) (ctx : BitVec 12) : State :=
  (contextGroups s ctx).foldl (fun s e =>
    let core := e.1 / 65
    let slot := e.1 % 65
    e.2.splits.foldl (fun s p =>
      let ag : Agent := ⟨core, slot, p.1⟩
      let s := freeQuad s ag
      (p.2.pending.foldl (fun s x => writeNow s ag x.cells) s).modSplit ag fun sp =>
        { sp with pending := [], latch := [], cut := sp.run != 0 }) (drainCommitted s core slot)) s

/-- The part of a core that belongs to a context. -/
def corePart (s : State) (ctx : BitVec 12) (mine : Nat → Bool) (c : Core) : Core :=
  { Core.init with
    sp := c.sp, acc := c.acc, mbx := c.mbx, remap := c.remap.filter fun x => mine (x.1 / 32)
    banks := c.banks.filter fun x => mine x.1
    mq := c.mq.filter fun o => launchOf s o.owner.1 ctx
    copies := c.copies.filter fun x => launchOf s x.launch ctx }

/-- The core without it. The L1 is empty; the scratchpad and the accumulators keep what they hold. -/
def coreRest (s : State) (ctx : BitVec 12) (mine : Nat → Bool) (c : Core) : Core :=
  { c.leaveQuads mine with
    mbx := [], l1 := [], remap := c.remap.filter fun x => !mine (x.1 / 32), banks := c.banks.filter fun x => !mine x.1
    mq := c.mq.filter fun o => !launchOf s o.owner.1 ctx, copies := c.copies.filter fun x => !launchOf s x.launch ctx }

/-- Step 3 of R344: the fetch window of a queue is discarded, and fetch restarts at the first packet that was in it. -/
def rewindFetch (s : State) (qi : Nat) : State :=
  match s.queue? qi with
  | none => s
  | some q =>
    match q.packets.dropWhile fun p => p.executed with
    | [] => s
    | p :: _ =>
      dropUnplaced (advanceRptr (s.modQueue qi fun q =>
        { q with frames := p.fetchedAt, peek := none, packets := q.packets.takeWhile fun p => p.executed }) qi) qi

def discardWindows (s : State) (ctx : BitVec 12) : State :=
  (s.queues.filter fun e => e.2.context == ctx).foldl (fun s e => rewindFetch s e.1) s

/-- Step 4 of R344: everything the context holds on the cores of its partition is saved. While it is out, lastIssue holds
the units of time since the group's last issue, so that the time out does not count (R349). -/
def saveContext (s : State) (ctx : BitVec 12) : State :=
  let s := discardWindows s ctx
  let part := (s.context ctx).part
  let gs := contextGroups s ctx
  let cores := s.cores.filter fun e => tabGet 0 s.coreOwner e.1 == part && !isHeadstock e.1
  let mine (core slot : Nat) : Bool := gs.any fun e => e.1 == groupKey core slot
  let v : Saved :=
    { groups := gs.map fun e => (e.1, { e.2 with lastIssue := s.span (e.2.excuse s).lastIssue s.cycle })
      cores := cores.map fun e => (e.1, corePart s ctx (mine e.1) e.2) }
  let rest := s.cores.map fun e => if cores.any (fun x => x.1 == e.1) then (e.1, coreRest s ctx (mine e.1) e.2) else e
  let s := { s with cores := rest, groups := s.groups.filter fun e => e.2.context != ctx,
                    enqWait := s.enqWait.filter fun a => !mine a.core a.slot }
  s.modContext ctx fun c => { c with phase := .out, saved := some v }

/-- The blocks of a core with the words that they held before a matrix operation in progress wrote them (R344). -/
def undoBlocks (c : Core) (o : MatOp) : Core :=
  (o.subs.filter (·.done)).foldl (fun c x =>
    { c with acc := ((x.before.zip (List.range 4096)).foldl (fun t w => tabSet 0#32 t (x.block * 4096 + w.2) (BitVec.ofNat 32 w.1)) c.acc) }) c

/-- Operations still outstanding become replay entries: copies run whole, and matrix operations restore their blocks, hold no
pins and are executed again whole (R344, R345). -/
def recordReplays (s : State) (ctx : BitVec 12) : State :=
  let copies : List (Nat × Nat) := s.cores.flatMap fun e => (e.2.copies.filter fun c => c.parked.isNone && launchOf s c.launch ctx).map fun c => (e.1, c.id)
  let ops := s.cores.flatMap fun e => e.2.mq.filter fun o => launchOf s o.owner.1 ctx
  let s := unpinLines s (ops.flatMap (·.pinned))
  let mine (o : MatOp) : Bool := launchOf s o.owner.1 ctx && o.started.isSome && !o.completed
  let again (o : MatOp) : MatOp :=
    if mine o then
      { o with pinned := [], subs := o.subs.map fun x => { x with progress := 0, writeAt := none, done := false, before := [] } }
    else o
  let s : State := { s with cores := s.cores.map fun e =>
    (e.1, { (e.2.mq.filter mine).foldl undoBlocks e.2 with mq := e.2.mq.map again }) }
  s.modContext ctx fun c => { c with replay := copies }

/-- QUANTUM_END: the outgoing context stops and its outstanding operations are performed; once none is left, which is this
same step taken again, it is saved. -/
def execQuantumEnd (outgoing : BitVec 12) (s : State) : Host.Outcome State Fault Refusal := keep s <|
  let c := s.context outgoing
  match c.phase with
  | .running =>
    if c.enabled && decide (s.after c.since (vdQuantum s.regs c.vdev) ≤ s.cycle) then
      let t := (performOutstanding s outgoing).modContext outgoing fun c => { c with phase := .quiescing s.cycle }
      .next (if outstanding t outgoing then t else saveContext t outgoing).tick
    else .next s
  | .quiescing _ => .next (if outstanding s outgoing then s else saveContext s outgoing)
  | _ => .next s

/-- QUIESCENCE_TIMEOUT: 15 µs after the stop. -/
def execQuiescenceTimeout (context : BitVec 12) (s : State) : Host.Outcome State Fault Refusal := keep s <|
  match (s.context context).phase with
  | .quiescing t =>
    if s.after t 15 ≤ s.cycle then .next (saveContext (recordReplays s context) context) else .next s
  | _ => .next s

/-! ### Restoring -/

/-- Quanta that a virtual device has used in the present round of a partition. -/
def usedQuanta (s : State) (part vdev : Nat) : Nat :=
  sumNat ((s.contexts.filter fun e => e.2.part == part && e.2.vdev == vdev).map fun e => e.2.used)

/-- R375: a context may be given the next quantum, and whether a new round begins with it. -/
def nextQuantum (s : State) (ctx : BitVec 12) : Option Bool :=
  let c := s.context ctx
  let w := vdWeight s.regs c.vdev
  let mates := s.contexts.filter fun e => e.2.enabled && e.2.part == c.part
  let ready := mates.filter fun e => e.2.phase == .out && hasWork s e.1 e.2
  let weighted := ready.filter fun e => vdWeight s.regs e.2.vdev != 0
  let fresh := weighted.filter fun e => decide (usedQuanta s c.part e.2.vdev < vdWeight s.regs e.2.vdev)
  if c.phase != .out || !hasWork s ctx.toNat c || mates.any (fun e => e.2.phase != .out) then none
  else if w = 0 then (if weighted.isEmpty then some false else none)
  else if fresh.isEmpty then some true
  else if usedQuanta s c.part c.vdev < w then some false
  else none

/-- Blocked ENQs come back in the order in which they began to wait (R300). -/
def rejoinEnq (s : State) (gs : List (Nat × Group)) : State :=
  let since (s : State) (a : Agent) : Nat := match s.split? a with
    | some sp => (match sp.wait with | some (.queue _ t) => t | _ => 0)
    | none => 0
  let back := gs.flatMap fun e => (e.2.splits.filter fun p => match p.2.wait with | some (.queue _ _) => true | _ => false).map
    fun p => (⟨e.1 / 65, e.1 % 65, p.1⟩ : Agent)
  back.foldl (fun s a =>
    { s with enqWait := (s.enqWait.takeWhile fun b => decide (since s b ≤ since s a)) ++ a ::
        (s.enqWait.dropWhile fun b => decide (since s b ≤ since s a)) }) s

/-- A matrix operation in progress starts computing again no earlier than it would from its start (R269). -/
def restartOp (now : Nat) (o : MatOp) : MatOp :=
  if o.started.isSome && !o.completed then { o with computeAt := Nat.max o.computeAt (boundary (now + 12)) } else o

/-- What a context had on a core comes back to it. -/
def restoreCore (now : Nat) (c v : Core) : Core :=
  { c with sp := v.sp, acc := v.acc, mbx := v.mbx, remap := v.remap, banks := v.banks, mq := v.mq.map (restartOp now), copies := v.copies }

/-- Groups as they come back: EV is 1 (R362), and the watchdog's time goes on. -/
def restoreGroup (s : State) (g : Group) : Group :=
  { g with lastIssue := s.before s.cycle g.lastIssue,
           splits := g.splits.map fun p => (p.1, { p.2 with ev := true, readyAt := Nat.max p.2.readyAt s.cycle, parkedSince := s.cycle }) }

def restoreSaved (s : State) (ctx : BitVec 12) (v : Saved) : State :=
  let gs := v.groups.map fun e => (e.1, restoreGroup s e.2)
  let s := gs.foldl (fun s e => { s with groups := tabPut s.groups e.1 e.2 }) s
  let s := v.cores.foldl (fun s e => s.modCore e.1 fun c => restoreCore s.cycle c e.2) s
  let s := rejoinEnq s gs
  s.modContext ctx fun c => { c with phase := .restoring, saved := none, used := c.used + 1 }

/-- A replay entry has still to run: a copy that is not parked, or a started operation whose operands are not rings. Waits
on rings and mailboxes stand as they were saved. -/
def replaysLeft (s : State) (ctx : BitVec 12) : Bool :=
  ((s.context ctx).replay.any fun r => (s.core r.1).copies.any fun c => c.id == r.2 && c.parked.isNone)
    || s.cores.any fun e => e.2.mq.any fun o => o.started.isSome && !o.completed && launchOf s o.owner.1 ctx
        && (opRing o false).isNone && (opRing o true).isNone

/-- Issue resumes once no replay entry is left. -/
def resumeContext (s : State) (ctx : BitVec 12) : State :=
  if replaysLeft s ctx then s
  else settleEnding (s.modContext ctx fun c => { c with phase := .running, replay := [], since := s.cycle })

/-- CONTEXT_RESTORE: a context gets a quantum; its state returns and its replay entries run; once they are done, which is
this same step taken again, issue resumes. -/
def execContextRestore (context : BitVec 12) (s : State) : Host.Outcome State Fault Refusal := keep s <|
  let c := s.context context
  match c.phase, c.saved with
  | .restoring, _ => .next (resumeContext s context)
  | .out, some v =>
    match nextQuantum s context with
    | some newRound =>
      if v.groups.any fun e => (tabFind s.groups e.1).isSome then .next s
      else
        let s := if newRound then
            { s with contexts := s.contexts.map fun e => (e.1, if e.2.part == c.part then { e.2 with used := 0 } else e.2) }
          else s
        .next (resumeContext (restoreSaved s context v) context)
    | none => .next s
  | _, _ => .next s

end Sys2Proof.Machine
end

