-- ==== Sys2Proof/Machine/Cross.lean ====
section
/-! DEFINITION. Cross-lane reading, pushing, matching, reductions, scans and votes (R151 to R166). The participants of R151
are the lanes in which the instruction acts: a moved or exited thread is in no split of the group. -/
namespace Sys2Proof.Machine
open Sys2Proof

/-- The virtual group and lane of a lane's thread (R142). -/
def Ctx.vgroup (c : Ctx) (l : Nat) : Nat := c.g.thread c.ag.slot l / 32
def Ctx.vlane (c : Ctx) (l : Nat) : Nat := c.g.vlane c.ag.slot l
/-- The participants of a lane's virtual group. -/
def Ctx.peers (c : Ctx) (l : Nat) : List Nat := c.lanes.filter fun x => c.vgroup x == c.vgroup l
/-- The participant at a virtual lane of a lane's virtual group. -/
def Ctx.peerAt (c : Ctx) (l : Nat) (v : Int) : Option Nat := ((c.peers l).filter fun x => (c.vlane x : Int) == v).head?
/-- R153: whether all participants are of one virtual group. -/
def Ctx.oneGroup (c : Ctx) : Bool :=
  match c.lanes with
  | [] => true
  | l :: r => r.all fun x => c.vgroup x == c.vgroup l

/-- Results of latency 8 with a flag in FP (R152). -/
def Ctx.crossed (c : Ctx) (cells : List RegCell) (flag : Nat → Bool) : Eff :=
  .done (c.fixed 8 (cells ++ flagCells (fpCode c.w) (c.lanes.map fun l => (l, flag l))))

/-- LREAD and LBCAST (R158), given the source lane that each participant names. -/
def Ctx.laneRead (c : Ctx) (src : Nat → Int) : Eff :=
  let val (l : Nat) : Nat := match c.peerAt l (src l) with
    | some q => c.a q
    | none => if cimm c.w then c.c' l else 0
  c.crossed (destCells c c.w.ty (tyRegs c.w.ty) val) fun l => (c.peerAt l (src l)).isNone

/-- The lane that LREAD names (R158). -/
def Ctx.laneName (c : Ctx) (l : Nat) : Int :=
  match vr c.w with
  | 0 => c.b32 l
  | 1 => (c.vlane l : Int) - c.b32 l
  | 2 => (c.vlane l : Int) + c.b32 l
  | _ => (Nat.xor (c.vlane l) (c.b32 l) : Nat)

def execLread (w : Fields) (s : State) : Host.Outcome State Fault Refusal :=
  runInstr (.lread w) (fun c => c.laneRead c.laneName) s
def execLbcast (w : Fields) (s : State) : Host.Outcome State Fault Refusal :=
  runInstr (.lbcast w) (fun c => c.laneRead fun l => (c.b32 l : Int)) s

/-- The lanes that send to a participant, in ascending virtual lane (R159). -/
def Ctx.senders (c : Ctx) (l : Nat) : List Nat :=
  (List.range 32).filterMap fun (v : Nat) => match c.peerAt l (v : Int) with
    | some q => if c.b32 q = c.vlane l then some q else none
    | none => none

/-- R159. -/
def execLpush (w : Fields) (s : State) : Host.Outcome State Fault Refusal :=
  runInstr (.lpush w) (fun c =>
    let got := { c with lanes := c.lanes.filter fun l => !(c.senders l).isEmpty }
    c.crossed (destCells got c.w.ty (tyRegs c.w.ty) fun l => c.a ((c.senders l).getLastD l))
      fun l => decide (2 ≤ (c.senders l).length)) s

/-- R160. -/
def execMatchLanes (w : Fields) (s : State) : Host.Outcome State Fault Refusal :=
  runInstr (.matchLanes w) (fun c =>
    let same (l : Nat) : List Nat := (c.peers l).filter fun q => c.a q == c.a l
    c.crossed (destCells c c.w.ty (tyRegs c.w.ty) fun l => (maskOf ((same l).map c.vlane)).toNat)
      fun l => (same l).length == (c.peers l).length) s

/-- R161. -/
def execVlane (w : Fields) (s : State) : Host.Outcome State Fault Refusal :=
  runInstr (.vlane w) (fun c => .done (c.fixed 8 (destCells c .n32 1 fun l =>
    if 32 ≤ c.a32 l then 0 else (remapEntry c.s c.ag.core (c.vgroup l * 32 + c.a32 l)).toNat))) s

/-- A node of R163: exact value or bits, and the exceptions of the combinations below it. -/
structure Part where
  val : Int
  ex : Nat

/-- One level of the tree. -/
def treeLevel (f : Part → Part → Part) : List (Option Part) → List (Option Part)
  | x :: y :: r =>
    (match x, y with
      | some a, some b => some (f a b)
      | some a, none => some a
      | none, b => b) :: treeLevel f r
  | l => l

/-- The tree of R163 over 32 leaves. -/
def treeOf (f : Part → Part → Part) (leaves : List (Option Part)) : Option Part :=
  ((List.range 5).foldl (fun l _ => treeLevel f l) leaves).headD none

/-- COMBINE of Table 7.3; floats, and logic, are held as bit patterns. -/
def Ctx.combine (c : Ctx) (x y : Part) : Part :=
  let ex := Nat.lor x.ex y.ex
  let ofR (r : Rounded) : Part := ⟨r.bits, Nat.lor ex r.ex⟩
  let fl (v : Int) : FVal := flushIn .f32 c.fflush v.toNat
  let float := c.w.ty == .f32
  match vr c.w % 8 with
  | 0 => if float then ofR (faddV .f32 (rmCode c.w) c.fflush (fl x.val) (fl y.val)) else ⟨x.val + y.val, ex⟩
  | 1 => if float then ofR (fminmax .f32 false c.fflush x.val.toNat y.val.toNat) else ⟨min x.val y.val, ex⟩
  | 2 => if float then ofR (fminmax .f32 true c.fflush x.val.toNat y.val.toNat) else ⟨max x.val y.val, ex⟩
  | 3 => ⟨Nat.land x.val.toNat y.val.toNat, ex⟩
  | 4 => ⟨Nat.lor x.val.toNat y.val.toNat, ex⟩
  | _ => ⟨Nat.xor x.val.toNat y.val.toNat, ex⟩

/-- The identity of Table 7.3. -/
def Ctx.identity (c : Ctx) : Int :=
  let t := c.w.ty
  match vr c.w % 8 with
  | 1 => if t == .f32 then 0x7F800000 else tyHi t
  | 2 => if t == .f32 then 0xFF800000 else tyLo t
  | 3 => (2 ^ tyWidth t : Nat) - 1
  | _ => 0

/-- A member's own value: an f32 input is flushed as R46 says, also where no COMBINE reads it. -/
def Ctx.leafVal (c : Ctx) (l : Nat) : Int :=
  if c.w.ty == .f32 then (deliver .f32 c.fflush (c.a l) : Int) else elemVal c.w.ty (c.a l)

/-- R163 over a set of lanes. -/
def Ctx.reduce (c : Ctx) (q : List Nat) : Part :=
  let leaf (v : Nat) : Option Part := ((q.filter fun l => c.vlane l == v).head?).map fun l => ⟨c.leafVal l, 0⟩
  match treeOf c.combine ((List.range 32).map leaf) with
  | some n => n
  | none => ⟨c.identity, 0⟩

/-- The stored result (R38, R88). -/
def Ctx.reduced (c : Ctx) (n : Part) : Nat :=
  if c.w.ty == .f32 then n.val.toNat else storeInt c.w.ty (bit78 c.w && vr c.w % 8 == 0) n.val

/-- R164. -/
def Ctx.red (c : Ctx) : Eff :=
  let t := c.w.ty
  let cnt := c.w.var.getLsbD 3
  match c.w.d with
  | .k n =>
    if !c.oneGroup then c.trap fIllegalOperand
    else
      let r := c.reduce c.lanes
      let cells : List RegCell := [⟨.k n.toNat, 0, extK t (tyRegs t) (c.reduced r)⟩]
      .done (setFlags (c.fixed 8 (if cnt then cells ++ [⟨.k (n.toNat + 1), 0, c.lanes.length⟩] else cells)) c.ag r.ex)
  | d =>
    let counts : List RegCell := match d with
      | .v n => if cnt then c.lanes.map fun l => ⟨.v (n.toNat + tyRegs t), l, (c.peers l).length⟩ else []
      | _ => []
    .done (setFlags (c.fixed 8 (destCells c t (tyRegs t) (fun l => c.reduced (c.reduce (c.peers l))) ++ counts)) c.ag
      (exUnion (c.lanes.map fun l => (c.reduce (c.peers l)).ex)))

def execRed (w : Fields) (s : State) : Host.Outcome State Fault Refusal := runInstr (.red w) (fun c => c.red) s

/-- R165. -/
def execScan (w : Fields) (s : State) : Host.Outcome State Fault Refusal :=
  runInstr (.scan w) (fun c =>
    let q (l : Nat) : List Nat := (c.peers l).filter fun x =>
      if c.w.var.getLsbD 3 then decide (c.vlane x < c.vlane l) else decide (c.vlane x ≤ c.vlane l)
    .done (setFlags (c.fixed 8 (destCells c c.w.ty (tyRegs c.w.ty) fun l => c.reduced (c.reduce (q l)))) c.ag
      (exUnion (c.lanes.map fun l => (c.reduce (q l)).ex)))) s

/-- R166. -/
def execVote (w : Fields) (s : State) : Host.Outcome State Fault Refusal :=
  runInstr (.vote w) (fun c => .done (c.fixed 8 (destCells c .b32 1 fun l =>
    let on := (c.peers l).filter fun x => c.pred c.w.a x
    (match vr c.w with
      | 0 => on.length == (c.peers l).length
      | 1 => !on.isEmpty
      | _ => on.isEmpty || on.length == (c.peers l).length).toNat))) s

def execBallot (w : Fields) (s : State) : Host.Outcome State Fault Refusal :=
  runInstr (.ballot w) (fun c =>
    let on (q : List Nat) : Nat := (maskOf ((q.filter fun x => c.pred c.w.a x).map c.vlane)).toNat
    match c.w.d with
    | .k n => if !c.oneGroup then c.trap fIllegalOperand else .done (c.fixed 8 [⟨.k n.toNat, 0, on c.lanes⟩])
    | _ => .done (c.fixed 8 (destCells c .b32 1 fun l => on (c.peers l)))) s

end Sys2Proof.Machine
end

