-- ==== Sys2Proof/Machine/Pages.lean ====
section
/-! DEFINITION. Page migration (R201, R211, R238) and the power state of the second tier (R213). -/
namespace Sys2Proof.Machine
open Sys2Proof

/-! ### Migration -/

/-- Frames of a table: those of HBM4E stacks and second-tier controllers (R199). -/
def tableFrame (r : Regs) (f : Nat) : Bool := (isHbm (f * 2 ^ 16) || isSecondTier (f * 2 ^ 16)) && (homeDie r (f * 2 ^ 16)).isSome

/-- A frame heads or continues a hash chain. -/
def linked (r : Regs) (f : Nat) : Bool :=
  (r.anchors.any fun e => e.2.toNat == f) || r.ipt.any fun e => pteNext e.2 == f

/-- Where a window's scales lie from its base. -/
def scaleShift (w : BitVec 128) : Nat := (winSbase w + 2 ^ 49 - winBase w * 2 ^ 16) % 2 ^ 48

/-- R211: a page in a window goes only to a window of the same form. -/
def sameWindow (s : State) (f d : Nat) : Bool :=
  match windowAt s (f * 2 ^ 16), windowAt s (d * 2 ^ 16) with
  | none, _ => true
  | some w, some v => winFmt w == winFmt v && winSlay w == winSlay v && scaleShift w == scaleShift v
  | some _, none => false

/-- A free extent of frames that may receive the one at `src`. -/
def destOk (s : State) (src n d : Nat) : Bool :=
  d % 2 ^ n == 0 && (List.range (2 ^ n)).all (fun j =>
      tableFrame s.regs (d + j) && pteState (pteAt s.regs (d + j)) == 0 && !linked s.regs (d + j) && sameWindow s (src + j) (d + j))
    && s.migrations.all fun m => match m.dst with
      | some x => decide (x + 2 ^ m.extent ≤ d) || decide (d + 2 ^ n ≤ x)
      | none => true

/-- The valid entry of a page. -/
def validPte (r : Regs) (tenant : BitVec 12) (page : Nat) : Option (Nat × BitVec 128) :=
  (r.ipt.filter fun e => pteState e.2 == 1 && pteTenant e.2 == tenant.toNat && pteVpn e.2 == page).head?

/-- The committed entries of a tenant's groups are performed (XFENCE MG). -/
def drainTenant (s : State) (tenant : BitVec 12) : State := drainTenants s (· == tenant)

def shootPages (s : State) (tenant : BitVec 12) (page n : Nat) : State :=
  (List.range (2 ^ n)).foldl (fun s j => shootPage s tenant (page + j)) s

/-- Set the state of the entries of an extent. -/
def setPteStates (s : State) (f n st : Nat) : State :=
  (List.range (2 ^ n)).foldl (fun s j => setPte s (f + j) (pteWithState (pteAt s.regs (f + j)) st)) s

/-- PAGE_MIGRATION: the extent of a page becomes migrating (steps 1 and 2 of R238), or a migration whose destination was
retired gets another. An unsuitable destination is refused. -/
def execPageMigration (tenant : BitVec 12) (page dest : Nat) (s : State) : Host.Outcome State Fault Refusal :=
  match migrationOf s tenant page with
  | some m =>
    if m.dst.isNone && destOk s m.src m.extent dest then
      .next { s with migrations := s.migrations.map fun x => if x = m then { m with dst := some dest } else x }
    else .next s
  | none =>
    match validPte s.regs tenant page with
    | none => .next s
    | some (f, e) =>
      let n := pteExtent e
      let k := page % 2 ^ n
      if destOk s (f - k) n dest then
        let t := shootPages (setPteStates (drainTenant s tenant) (f - k) n 2) tenant (page - k) n
        .next { t with migrations := t.migrations ++ [⟨tenant, page - k, f - k, n, some dest⟩] }
      else .next s

/-- The bytes, tags and remembered code of the source go to the destination, a write of its side bytes among them (R210). -/
def moveFrames (s : State) (src n d : Nat) : State :=
  let lo := src * 2 ^ 16
  let size := 2 ^ n * 2 ^ 16
  let dlo := d * 2 ^ 16
  let inside (base x : Nat) : Bool := decide (base ≤ x) && decide (x < base + size)
  let move (t : Tab Byte) : Tab Byte :=
    (t.filter fun e => inside lo (e.1 % 2 ^ 48)).foldl (fun t e => tabPut t (e.1 - lo + dlo) e.2)
      (t.filter fun e => !inside dlo (e.1 % 2 ^ 48))
  let moved := { s with
    mem := move s.mem, codeShadow := move s.codeShadow
    tags := (s.tags.filter fun g => inside lo (g * 16)).foldl (fun l g => natInsert (g - lo / 16 + dlo / 16) l)
      (s.tags.filter fun g => !inside dlo (g * 16)) }
  sideInval moved dlo size

/-- The destination's entries take the place of the source's in their chains. -/
def relink (r : Regs) (src n d : Nat) : Regs :=
  let rebase (x : Nat) : Nat := if src ≤ x ∧ x < src + 2 ^ n then x - src + d else x
  let fix (e : BitVec 128) : BitVec 128 := BitVec.ofNat 128 (e.toNat / 2 ^ 32 * 2 ^ 32 + rebase (pteNext e))
  let ipt := r.ipt.map fun e => (e.1, fix e.2)
  let home := match homeDie r (d * 2 ^ 16) with | some h => h | none => 0
  let moved (e : BitVec 128) : BitVec 128 :=
    BitVec.ofNat 128 (2 ^ 126 + bits e.toNat 125 64 * 2 ^ 64 + home * 2 ^ 63 + bits e.toNat 62 0)
  { r with
    anchors := r.anchors.map fun e => (e.1, BitVec.ofNat 32 (rebase e.2.toNat))
    ipt := (List.range (2 ^ n)).foldl (fun t j =>
      tabErase (tabPut t (d + j) (moved (tabGet pteFree t (src + j)))) (src + j)) ipt }

/-- The places that a held entry names, moved by f. -/
def heldMoved (f : Nat → Nat) (h : Held) : Held :=
  let p (x : Place) : Place := match x with | .mem va t pa => .mem va t (f pa) | y => y
  match h with
  | .store x bs => .store (p x) bs
  | .capStore x c => .capStore (p x) c
  | .atomic kind op ty lanes => .atomic kind op ty (lanes.map fun l => (p l.1, l.2))
  | .cut kind x => .cut kind (p x)
  | y => y

/-- Physical addresses that the machine remembers follow the page. -/
def movePas (s : State) (src n d : Nat) : State :=
  let lo := src * 2 ^ 16
  let rebase (x : Nat) : Nat := if lo ≤ x ∧ x < lo + 2 ^ n * 2 ^ 16 then x - lo + d * 2 ^ 16 else x
  let wait (w : Wait) : Wait := match w with | .cut pa k => .cut (rebase pa) k | x => x
  let group (e : Nat × Group) : Nat × Group :=
    (e.1, { e.2 with splits := e.2.splits.map (fun p => (p.1, { p.2 with wait := p.2.wait.map wait }))
                     committed := e.2.committed.map (heldMoved rebase)
                     region := e.2.region.map fun r => { r with held := r.held.map (heldMoved rebase) } })
  let copy (c : Copy) : Copy := { c with rivals := c.rivals.map fun x => (rebase x.1, x.2) }
  let rows (l : List (List OpLine)) : List (List OpLine) := l.map fun r => r.map fun x => { x with pa := rebase x.pa }
  let op (o : MatOp) : MatOp := { o with rowsA := rows o.rowsA, rowsB := rows o.rowsB }
  let core (e : Nat × Core) : Nat × Core := (e.1, { e.2 with copies := e.2.copies.map copy, mq := e.2.mq.map op })
  { s with
    groups := s.groups.map group
    cores := s.cores.map core
    contexts := s.contexts.map fun e =>
      (e.1, match e.2.saved with
        | some v => { e.2 with saved := some { groups := v.groups.map group, cores := v.cores.map core } }
        | none => e.2)
    tasks := s.tasks.map fun e =>
      (e.1, { e.2 with wordPa := rebase e.2.wordPa, inputs := e.2.inputs.map (fun i => (i.1, rebase i.2.1, i.2.2)),
                       countedOn := e.2.countedOn.map rebase })
    watches := s.watches.map fun w => { w with pa := rebase w.pa }
    queues := s.queues.map fun e => (e.1, { e.2 with words := e.2.words.map fun w => (w.1, rebase w.2) }) }

/-- No L2 or L1 line of an extent of frames is left. -/
def dropLines (s : State) (f n : Nat) : State :=
  let inside (line : Nat) : Bool := decide (f ≤ line / 512) && decide (line / 512 < f + 2 ^ n)
  { s with l2 := s.l2.filter fun e => !inside e.1,
           cores := s.cores.map fun e => (e.1, { e.2 with l1 := e.2.l1.filter fun l => !inside l.line }) }

/-- A pinned line of an extent of frames. -/
def pinnedIn (s : State) (f n : Nat) : Bool :=
  s.l2.any fun e => e.2.lst == 3 && decide (f ≤ e.1 / 512) && decide (e.1 / 512 < f + 2 ^ n)

/-- A park under a code whose address lies in an extent of a tenant's pages. -/
def parkedOn (code : Nat) (tenant : BitVec 12) (page n : Nat) (w : Who) (k : Park) : Bool :=
  k.code == code && w.tenant == tenant && decide (page ≤ k.info % 2 ^ 57 / 2 ^ 16) && decide (k.info % 2 ^ 57 / 2 ^ 16 < page + 2 ^ n)

/-- MIGRATION_COMPLETE: once no line of the page is pinned, its data moves, the new entries are valid, the shootdown is done
and parked accesses replay (steps 3 and 4 of R238). -/
def execMigrationComplete (tenant : BitVec 12) (page : Nat) (s : State) : Host.Outcome State Fault Refusal :=
  match migrationOf s tenant page with
  | none => .next s
  | some m =>
    match m.dst with
    | none => .next s
    | some d =>
      if pinnedIn s m.src m.extent then .next s
      else
        let s := drainTenant s tenant
        let s := dropLines (dropLines (moveFrames s m.src m.extent d) m.src m.extent) d m.extent
        let s := movePas (s.modRegs fun r => relink r m.src m.extent d) m.src m.extent d
        let s := shootPages s tenant m.page m.extent
        let s := { s with migrations := s.migrations.filter fun x => x != m }
        .next (settleGraphs (replayParks s (parkedOn fPageMigrating tenant m.page m.extent))).tick

/-! ### The second tier -/

/-- SECOND_TIER_POWER_DOWN: accesses to the controller's frames raise SECOND_TIER from now on. -/
def execSecondTierPowerDown (controller : Nat) (s : State) : Host.Outcome State Fault Refusal :=
  if controller < 8 then .next (s.modRegs fun r => { r with tierDown := r.tierDown ||| BitVec.ofNat 8 (2 ^ controller) })
  else .next s

/-- SECOND_TIER_RESUME: the controller serves, and accesses parked for it replay. -/
def execSecondTierResume (controller : Nat) (s : State) : Host.Outcome State Fault Refusal :=
  if controller < 8 then
    let s := s.modRegs fun r => { r with tierDown := r.tierDown &&& ~~~ BitVec.ofNat 8 (2 ^ controller) }
    .next (settleGraphs (replayParks s (tierServes s)))
  else .next s

end Sys2Proof.Machine
end

