-- ==== Sys2Proof/Machine/Ecc.lean ====
section
/-! DEFINITION. Error containment (R346, R347) and failure warnings (R348). -/
namespace Sys2Proof.Machine
open Sys2Proof

/-- A record that the memory system raises for a context. It concerns no one piece of queued work, so QUEUE is open. -/
def memoryRecord (s : State) (ctx tenant : BitVec 12) (part core die code kind info : Nat) : Record :=
  { info := info, lmask := 0, pc := 0, context := ctx, tenant := tenant, part := part, queue := Config.freeNat s.free 9 % 4096,
    srck := 5, core := core, die := die, gslot := 0, split := 0, code := code, kind := kind }

/-- The reporting port of a die has room for a record of a partition. -/
def reportRoom (s : State) (part die kind : Nat) : Bool := !portFull s die (ringClass (ringOf s part die kind))

/-- The migrations of which a frame is a source. -/
def sourceOf (s : State) (f : Nat) : List Migration :=
  s.migrations.filter fun m => decide (m.src ≤ f) && decide (f < m.src + 2 ^ m.extent)

/-- These migrations are over: the rest of each extent is valid again and parked accesses replay (R201). -/
def endMigrations (s : State) (ended : List Migration) : State :=
  ended.foldl (fun s m =>
    let s := (List.range (2 ^ m.extent)).foldl (fun s j =>
      let e := pteAt s.regs (m.src + j)
      if pteState e = 2 then setPte s (m.src + j) (pteWithState e 1) else s) s
    replayParks s (parkedOn fPageMigrating m.tenant m.page m.extent)) s

/-- A frame is retired for good, which ends its migration. -/
def retireNow (s : State) (f : Nat) : State := endMigrations (retireFrame s f) (sourceOf s f)

/-- A context is terminated (R346): its launches end, its queues halt, its tasks' cut words are cancelled. -/
def terminateContext (s : State) (ctx : BitVec 12) : State :=
  let s := (s.launches.filter fun e => e.2.context == ctx && !e.2.done).foldl (fun s e => failLaunch s e.1 fEccUncorr) s
  let s := (s.tasks.filter fun e => e.2.context == ctx && e.2.phase != .done && e.2.phase != .cancelled).foldl (fun s e =>
    completePacket (cancelTask s e.1) e.2.queue e.2.packet) s
  let s := (s.queues.filter fun e => e.2.context == ctx && e.2.qstate == 1).foldl (fun s e => advanceRptr (haltQueue s e.1 none) e.1) s
  settleMoves <| s.modContext ctx fun c => { c with enabled := false, phase := .running, saved := none, replay := [], bindings := [], unacked := [] }

/-- L2_ECC_UNCORR. A clean line is invalidated. A dirty line ends the context of its OWNER, its frame is retired, its way is
quarantined, and the rest of its set is written back and invalidated. -/
def execL2EccUncorr (die slice : Nat) (line : Nat) (s : State) : Host.Outcome State Fault Refusal :=
  match tabFind s.l2 line with
  | none => .next s
  | some l =>
    if l.slice != die * 256 + slice then .next s
    else if l.lst != 2 then .next (settleWindows { s with l2 := tabErase s.l2 line })
    else
      let c := s.context l.owner
      if !reportRoom s c.part die 1 then .next s
      else
        let r := memoryRecord s l.owner c.tenant c.part 0xFF die fEccUncorr 1 (line * 128)
        let mates := s.l2.filter fun e => e.2.slice == l.slice && l2Set e.1 == l2Set line && e.1 != line
        let s := mates.foldl (fun s e =>
          if e.2.lst = 2 then countBytes s e.2.owner (s.context e.2.owner).part (e.1 * 128) 128 else s) s
        let s := { s with l2 := s.l2.filter fun e => !(e.2.slice == l.slice && l2Set e.1 == l2Set line),
                          quarantined := natInsert ((l.slice * 512 + l2Set line) * 16 + l.way) s.quarantined }
        .next (pushRecord (retireNow (terminateContext (settleWindows s) l.owner) (line / 512)) r).tick

/-- MEMORY_ECC_UNCORR: the agent's next instruction meets an uncorrectable error at a physical address, if the lane reads
it: that lane raises ECC_UNCORR, and the frame is retired after the instruction. -/
def execMemoryEccUncorr (ag : Agent) (lane : Nat) (addr : Nat) (s : State) : Host.Outcome State Fault Refusal :=
  if (s.split? ag).isSome && s.turn.isNone && (isHbm addr || isSecondTier addr) && (homeDie s.regs addr).isSome then
    .next { s with ecc := some ⟨lane, addr, false⟩, turn := some ag }
  else .next s

/-- STORAGE_ECC_UNCORR: the launch that owns the storage ends, and the core's storage of that kind is not used again until
firmware has tested it. -/
def execStorageEccUncorr (core slot : Nat) (kind : StorageKind) (s : State) : Host.Outcome State Fault Refusal := keep s <|
  let remove (s : State) : State :=
    s.modCore core fun k => { k with removed := if k.removed.contains kind then k.removed else kind :: k.removed }
  match s.group? core slot with
  | none => .next (remove s)
  | some g =>
    let w := s.whoOf core g
    if !reportRoom s w.part (dieOf core) 1 then .next s
    else
      let r := { memoryRecord s w.context w.tenant w.part (core % Config.coreKeys) (dieOf core) fEccUncorr 1 (noInfo s) with
        gslot := slot % 64, queue := match s.launch? g.launch with | some l => l.queue | none => 0 }
      .next (endLaunch (remove s) g.launch fEccUncorr r).tick

/-! ### Failure warnings -/

def warnKey : WarnUnit → Nat
  | .stack n => n
  | .slice die n => 100 + die * 256 + n
  | .core n => 10000 + n

def warnLimit (r : Regs) : WarnUnit → Nat
  | .stack _ => r.warnStack
  | _ => r.warnUnit
/-- The window in microseconds. -/
def warnMicros (r : Regs) : WarnUnit → Nat
  | .stack _ => 1000 * r.warnStackMs
  | _ => 1000 * r.warnUnitMs
/-- A window that began in a cycle has passed. -/
def warnOver (s : State) (u : WarnUnit) (start : Nat) : Bool := decide (s.after start (warnMicros s.regs u) ≤ s.cycle)
/-- No notice may be written yet, the last having come in the cycle before this one. -/
def warnQuiet (s : State) (u : WarnUnit) (last : Nat) : Bool := last != 0 && !warnOver s u (last - 1)

def warnDie : WarnUnit → Nat
  | .stack n => n / 8
  | .slice die _ => die
  | .core n => dieOf n
def warnCore : WarnUnit → Nat
  | .core n => n % Config.coreKeys
  | _ => 0xFF

/-- Distinct contexts of a list. -/
def addContext (l : List (BitVec 12 × BitVec 12 × Nat)) (c : BitVec 12 × BitVec 12 × Nat) : List (BitVec 12 × BitVec 12 × Nat) :=
  if l.any fun x => x.1 == c.1 then l else l ++ [c]

/-- Contexts with their tenants and partitions that a unit concerns: those with groups on the core or lines in the slice, and
those of the tenants with valid frames on the stack. -/
def warned (s : State) : WarnUnit → List (BitVec 12 × BitVec 12 × Nat)
  | .core n => (s.groups.filter fun e => e.1 / 65 == n).foldl (fun l e =>
      let w := s.whoOf n e.2
      addContext l (w.context, w.tenant, w.part)) []
  | .slice die n => (s.l2.filter fun e => e.2.slice == die * 256 + n).foldl (fun l e =>
      let c := s.context e.2.owner
      addContext l (e.2.owner, c.tenant, c.part)) []
  | .stack n =>
    let tenants := (s.regs.ipt.filter fun e => pteState e.2 == 1 && decide (e.1 * 2 ^ 16 / 2 ^ 36 = n)).map fun e => pteTenant e.2
    (s.contexts.filter fun e => e.2.enabled && tenants.contains e.2.tenant.toNat).map fun e => (BitVec.ofNat 12 e.1, e.2.tenant, e.2.part)

/-- FAILURE_WARNING: the unit corrects one more error. When that brings its count to the threshold within its window, a notice
goes to each context concerned, and none is written again for one window. -/
def execFailureWarning (unit : WarnUnit) (s : State) : Host.Outcome State Fault Refusal := keep s <|
  let (n, start, last) := tabGet (0, 0, 0) s.corrected (warnKey unit)
  let (n, start) := if n = 0 ∨ warnOver s unit start then (1, s.cycle) else (n + 1, start)
  let concerned := warned s unit
  if n < warnLimit s.regs unit ∨ warnQuiet s unit last then
    .next { s with corrected := tabPut s.corrected (warnKey unit) (n, start, last) }
  else if !concerned.all (fun c => reportRoom s c.2.2 (warnDie unit) 2) then .next s
  else
    let s := { s with corrected := tabPut s.corrected (warnKey unit) (n, start, s.cycle + 1) }
    .next (concerned.foldl (fun s c =>
      pushRecord s (memoryRecord s c.1 c.2.1 c.2.2 (warnCore unit) (warnDie unit) 0x01 2 (noInfo s))) s).tick

end Sys2Proof.Machine
end

