-- ==== Sys2Proof/Machine/HostRegs.lean ====
section
/-! DEFINITION. Registers that the host and firmware write, under their access codes and ranges (R7): each table's register,
and the writes that act (R207, R209, R375). -/
namespace Sys2Proof.Machine
open Sys2Proof

/-! ### L2 mode (R207) -/

/-- Lines of a die's L2. -/
def dieLines (s : State) (die : Nat) : List (Nat × L2Line) := s.l2.filter fun e => e.2.slice / 256 == die

/-- Every context of a die stands at a context boundary: nothing of one is on its cores. -/
def dieQuiet (s : State) (die : Nat) : Bool :=
  s.groups.all (fun e => dieOf (e.1 / 65) != die)
    && s.cores.all fun e => dieOf e.1 != die || (e.2.copies.isEmpty && e.2.mq.isEmpty)

/-- Partitions that hold a core on a die. -/
def diePartitions (s : State) (die : Nat) : List Nat :=
  (List.range Config.meshCores).foldl (fun l c => natInsert (tabGet 0 s.coreOwner (die * Config.coreKeys + c)) l) []

/-- L2_MODE_CHANGE: an accepted write flushes the die's L2 and applies the mode; BUSY is 1 only within this step. Another
write is ignored. -/
def execL2ModeChange (die : Nat) (mode : Bool) (s : State) : Host.Outcome State Fault Refusal :=
  let old := (tabGet 0 s.regs.l2mode die).toNat % 2 == 1
  let owned := (diePartitions s die).all fun p => !(ownSlices s.regs die p).isEmpty
  if old == mode || !dieQuiet s die || (mode && !owned) then .next s
  else
    let s := settleWindows (flushLines s fun e => e.2.slice / 256 == die)
    .next (s.modRegs fun r => { r with l2mode := tabSet 0 r.l2mode die (if mode then 1 else 0) })

/-! ### Format windows (R209) -/

/-- The pairs of FMT and SLAY that enable. -/
def windowForm (w : BitVec 128) : Bool :=
  let f := winFmt w
  let l := winSlay w
  if (1 ≤ f ∧ f ≤ 4) ∨ (8 ≤ f ∧ f ≤ 10) then l == 0
  else if f = 5 ∨ f = 6 then l == 1 || l == 2
  else if f = 7 then l == 1
  else if f = 11 ∨ f = 12 then decide (l ≤ 2)
  else false

def winOverlap (a b : BitVec 128) : Bool := decide (winBase a ≤ winLimit b) && decide (winBase b ≤ winLimit a)

/-- Setting EN: the window is enabled, or the enable is refused with OVL. No two enabled windows of the device overlap. -/
def enableWindow (s : State) (die n : Nat) : State :=
  let w := winOf s die n
  let clash := s.fmtwin.any fun e => e.1 != winKey die n && winEn e.2 && winOverlap w e.2
  if winEn w then s
  else if windowForm w && !clash then setWin s (winKey die n) (winWith w true false)
  else setWin s (winKey die n) (winWith w false true)

/-- Clearing EN: the range's lines are written back and invalidated, and EN reads 0 once no line of the range is pinned. -/
def disableWindow (s : State) (die n : Nat) : State :=
  let w := winOf s die n
  if !winEn w then s
  else
    let s := flushLines s fun e => windowLine die w e && e.2.lst != 3
    settleWindows { s with closing := natInsert (winKey die n) s.closing }

/-- FMTWIN_ENABLE. -/
def execFmtwinEnable (die n : Nat) (s : State) : Host.Outcome State Fault Refusal :=
  if die < 2 ∧ n < 64 then .next (enableWindow s die n) else .next s
/-- FMTWIN_DISABLE. -/
def execFmtwinDisable (die n : Nat) (s : State) : Host.Outcome State Fault Refusal := .next (disableWindow s die n)

/-! ### Virtual devices (R375) -/

/-- VDCFG after a write: QUANTUM 0 is rejected whole, and one below 40 µs is stored as 42 µs. -/
def vdcfgWritten (old value : Nat) : Nat :=
  let q := bits value 47 32
  if q = 0 then Nat.lor old (2 ^ 62)
  else
    let rest := bits value 31 20 * 2 ^ 20
    if q < 40 then 2 ^ 63 + 42 * 2 ^ 32 + rest else q * 2 ^ 32 + rest

/-- VDCFG_WRITE. Queues of a virtual device of weight 0 store CLASS as 1. -/
def execVdcfgWrite (vdev : Nat) (value : BitVec 64) (s : State) : Host.Outcome State Fault Refusal :=
  let s := s.modRegs fun r =>
    { r with vdcfg := tabSet vdcfgReset r.vdcfg vdev (BitVec.ofNat 64 (vdcfgWritten (vdcfgOf r vdev) value.toNat)) }
  .next (reclass s)

/-! ### Plain registers (REGISTER_WRITE) -/

def clamp (lo hi v : Nat) : Nat := Nat.min hi (Nat.max lo v)

/-- SLICECFG (Table 9.6); a write that changes PART in private mode is ignored (R207). -/
def writeSliceCfg (r : Regs) (die slice value : Nat) : Regs :=
  let k := die * 256 + slice
  let old := (tabGet 12#32 r.slicecfg k).toNat
  let privMode := (tabGet 0 r.l2mode die).toNat % 2 == 1
  if privMode && bits old 11 8 != bits value 11 8 then r
  else { r with slicecfg := tabSet 12#32 r.slicecfg k (BitVec.ofNat 32 (bits value 11 8 * 2 ^ 8 + clamp 4 16 (bits value 4 0))) }

/-- RFBUDGET (Table 6.5): PROT within SPARE, GPROT within GSPARE (R134). -/
def writeRfBudget (r : Regs) (k value : Nat) : Regs :=
  let spare := bits value 15 0
  let gspare := bits value 39 32
  { r with rfbudget := tabSet rfBudgetReset r.rfbudget k (BitVec.ofNat 64
      (Nat.land (bits value 47 40) gspare * 2 ^ 40 + gspare * 2 ^ 32 + Nat.land (bits value 31 16) spare * 2 ^ 16 + spare)) }

/-- FARB (Table 15.7): a weight of 0 is stored as 1. -/
def writeFarb (r : Regs) (die value : Nat) : Regs :=
  let f (i : Nat) : Nat := Nat.max 1 (bits value (4 * i + 3) (4 * i))
  { r with farb := tabSet 0x124#64 r.farb die (BitVec.ofNat 64 (f 2 * 256 + f 1 * 16 + f 0)) }

/-- LOG2 of RCFG while EN is 0: 6 to 16 (Table 15.7). -/
def writeRingLog2 (r : Regs) (i value : Nat) : Regs :=
  { r with rcfg := tabSet 6#64 r.rcfg i (BitVec.ofNat 64 (clamp 6 16 (bits value 4 0))) }

/-- A window register: the fields other than EN only while EN is 0, and EN as the rows of its own do. -/
def writeFmtwin (s : State) (die n value : Nat) : State :=
  let w := winOf s die n
  let en := value.testBit 127
  if winEn w then (if en then s else disableWindow s die n)
  else
    let v := (if w.getLsbD 126 then 2 ^ 126 else 0) + bits value 125 120 * 2 ^ 120 + bits value 111 0
    let s := setWin s (winKey die n) (BitVec.ofNat 128 v)
    if en then enableWindow s die n else s

/-- The enabled contexts of a tenant, with their partitions. -/
def tenantContexts (s : State) (t : Nat) : List (BitVec 12 × Nat) :=
  (s.contexts.filter fun e => e.2.enabled && e.2.tenant.toNat == t).map fun e => (BitVec.ofNat 12 e.1, e.2.part)

/-- Firmware retires the source of a migration: the contexts of its tenant are handled as R347 says, with a record each. -/
def retireSource (s : State) (f : Nat) : State :=
  let t := pteTenant (pteAt s.regs f)
  (tenantContexts s t).foldl (fun s c =>
    pushRecord (terminateContext s c.1)
      (memoryRecord s c.1 (BitVec.ofNat 12 t) c.2 0xFF ((homeDie s.regs (f * 2 ^ 16)).getD 0) fEccUncorr 1 (f * 2 ^ 16))) s

/-- A page table entry: reserved bits read as zero, and a retired frame stays retired (R199, R201). Retiring a frame ends the
migration that it takes part in, whose owner is terminated where the frame is its source, or sends it to another destination
(R201); the write waits for room for the records (log 72). Contexts whose access waits for a graph's status page find it again. -/
def writePte (s : State) (f value : Nat) : State :=
  let old := pteAt s.regs f
  let st := if pteState old = 3 then 3 else bits value 127 126
  let e := BitVec.ofNat 128 (st * 2 ^ 126 + bits value 125 63 * 2 ^ 63 + bits value 31 0)
  let ended := if st = 3 ∧ pteState old ≠ 3 then sourceOf s f else []
  let owners := if ended.isEmpty then [] else tenantContexts s (pteTenant old)
  if !owners.all fun c => portRoom s ((homeDie s.regs (f * 2 ^ 16)).getD 0) (ringClass (ringOf s c.2 0 1)) owners.length then s
  else
    let t := setPte (if ended.isEmpty then s else retireSource s f) f e
    settleGraphs (if st = 3 ∧ pteState old ≠ 3 then endMigrations (leaveMigrations t f) ended else t)

/-- A field of a descriptor, while STATE is 00 (R279). -/
def writeQField (s : State) (queue : Nat) (f : QField) (value : Nat) : State :=
  let s := listQueue s queue
  s.modQueue queue fun q =>
    if q.qstate != 0 then q
    else
      match f with
      | .ring => { q with ring := capOfBits value }
      | .ctab => { q with ctab := capOfBits value }
      | .gstat => { q with gstat := capOfBits value }
      | .log2n => { q with log2n := value % 32 }
      | .cls => { q with cls := value % 2 == 1 || harvestOnly s q.part }
      | .part => { q with part := value % 16, cls := q.cls || harvestOnly s (value % 16) }
      | .weight => { q with weight := value % 256 }
      | .etime => { q with etime := value % 2 ^ 16 }
      | .niss => { q with niss := value % 16 }
      | .res => { q with res := value % 2 ^ 10 }
      | .iss => { q with iss := value % 16 }
      | .reservedBits => { q with reserved := value % 2 ^ 10 }

def modPart (s : State) (p : Nat) (f : Partition → Partition) : State :=
  s.modRegs fun r => { r with parts := tabUpd Partition.init r.parts p f }

/-- R302: the service controller moves a core to a partition. -/
def moveCore (s : State) (core part : Nat) : State := settleMoves { s with moves := tabPut s.moves core (part % 16) }

/-- A partition is created, with meters from 0 and a new life (R376, R377), or removed. -/
def setLife (s : State) (p : Nat) (create : Bool) : State :=
  if create then
    { modPart s p fun x => { x with present := true } with
      meters := s.meters.filter fun e => e.1 / 16 != p
      chain := tabPut s.chain p (s.nextLife, 0, 0), snapshots := tabErase s.snapshots p, nextLife := s.nextLife + 1 }
  else modPart s p fun x => { x with present := false }

/-- Each virtual function is assigned one partition (R374); values from 16 on name none. -/
def setFunction (s : State) (p value : Nat) : State :=
  let f := if value < 16 then some value else none
  let s := (List.range 16).foldl (fun s j =>
    if f.isSome && (s.part j).function == f then modPart s j fun x => { x with function := none } else s) s
  modPart s p fun x => { x with function := f }

/-- The faults that a device answers (R369): CAP_TENANT, the retryable faults of a page, and those of its table. -/
def answerCodes : List Nat := [fCapTenant, fCapPerm, fPageAbsent, fPageMigrating, fPageRetired, fSecondTier]

/-- What a peer answers for a page from now on. Accesses that are parked there because the page moved or slept go on. -/
def peerAnswers (s : State) (d : BitVec 20) (page v : Nat) : State :=
  let p := tabGet Peer.init s.regs.peers d.toNat
  let old := tabFind p.answers page
  let answers := if answerCodes.contains v then tabPut p.answers page v else tabErase p.answers page
  let t := s.modRegs fun r => { r with peers := tabPut r.peers d.toNat { p with answers := answers } }
  replayParks t fun _ k => (k.code == fPageMigrating || k.code == fSecondTier) && old == some k.code
    && k.info % 2 ^ 57 / 2 ^ 16 == page && tabFind answers page != old

/-- The register's write. -/
def writeReg (s : State) (reg : HostReg) (v : Nat) : State :=
  match reg with
  | .sliceCfg die slice => s.modRegs fun r => writeSliceCfg r die slice v
  | .regCfg ch => s.modRegs fun r => { r with regcfg := tabSet 90 r.regcfg ch (Nat.min 120 (v % 128)) }
  | .allowCfg n => s.modRegs fun r => { r with allowcfg := tabSet 75 r.allowcfg n (Nat.min 100 (v % 128)) }
  | .rfBudget die core quad => s.modRegs fun r => writeRfBudget r ((die * Config.coreKeys + core) * 4 + quad) v
  | .accessEntry target master => s.modRegs fun r =>
      { r with access := tabSet 0#32 r.access (target * 4096 + master) (BitVec.ofNat 32 (bits v 31 16 * 2 ^ 16 + v % 16)) }
  | .queueField q f => writeQField s q f v
  | .rloc ring =>
    if ringOn s.regs (ringIndex ring) then s
    else s.modRegs fun r => { r with rloc := tabSet 0#64 r.rloc (ringIndex ring) (BitVec.ofNat 64 v) }
  | .rcfg ring =>
    let i := ringIndex ring
    if ringOn s.regs i then
      (if v.testBit 63 then s
       else s.modRegs fun r => { r with rcfg := tabSet 6#64 r.rcfg i (BitVec.ofNat 64 (ringLog2 r i)) })
    else
      let s := s.modRegs fun r => writeRingLog2 r i v
      if v.testBit 63 then enableRing s i else s
  | .farb die => s.modRegs fun r => writeFarb r die v
  | .replayPc who => s.modRegs fun r => { r with replayPc := tabSet 0#64 r.replayPc (replayKey who) (BitVec.ofNat 64 (v % 2 ^ 57)) }
  | .fmtwin die n => if die < 2 ∧ n < 64 then writeFmtwin s die n v else s
  | .capTable fn idx => s.modRegs fun r => { r with capTables := tabPut r.capTables (capTableKey fn idx) (capOfBits v) }
  | .pte f => if tableFrame s.regs f then writePte s f v else s
  | .anchor die idx =>
    settleGraphs <| s.modRegs fun r => { r with anchors := tabSet 0xFFFFFFFF#32 r.anchors (die * 2 ^ 22 + idx % 2 ^ 22) (BitVec.ofNat 32 v) }
  | .powerCap => if 2000 ≤ v ∧ v ≤ 7800 then s.modRegs fun r => { r with powerCap := v } else s
  | .wdLimit p => modPart s p fun x => { x with wdlimit := v }
  | .suspectClear core => s.modCore core fun c => { c with suspect := false }
  | .coreOwner core => moveCore s core v
  | .partitionLife p => if p < 16 then setLife s p (v % 2 == 1) else s
  | .partitionTenant p => modPart s p fun x => { x with tenant := BitVec.ofNat 12 v }
  | .partitionContext p => reclass (modPart s p fun x => { x with context := BitVec.ofNat 12 v })
  | .partitionFunction p => if p < 16 then setFunction s p v else s
  | .reachList p =>
    let d := v % 2 ^ 20
    modPart s p fun x => { x with reach := if v.testBit 20 then natInsert d x.reach else natRemove d x.reach }
  | .contextDevice c => reclass (s.modContext c fun x => { x with vdev := v })
  | .storageTested core kind => s.modCore core fun c => { c with removed := c.removed.filter fun k => k != kind }
  | .warnThreshold u => s.modRegs fun r => match u with | .stack _ => { r with warnStack := v } | _ => { r with warnUnit := v }
  | .warnWindow u => s.modRegs fun r => match u with | .stack _ => { r with warnStackMs := v } | _ => { r with warnUnitMs := v }
  | .peer d => s.modRegs fun r =>
      -- R373: a peer is reached again only at a new incarnation
      let p := tabGet Peer.init r.peers d.toNat
      if p.incarnation.toNat < v % 2 ^ 32 then { r with peers := tabPut r.peers d.toNat { p with incarnation := BitVec.ofNat 32 v, lost := false } } else r
  | .peerAnswer d page => peerAnswers s d page v

/-! ### The host register windows (R134, R207, R333, R385 to R387) -/

/-- DEVICE_ID_WRITE: an id below 0x8_0000 lets the ports train. -/
def execDeviceIdWrite (value : BitVec 20) (s : State) : Host.Outcome State Fault Refusal :=
  .next (s.modRegs fun r => { r with deviceId := value, deviceIdWritten := r.deviceIdWritten || decide (value.toNat < 0x80000) })

/-- A register that a window holds: one of this file's, or one whose write acts. -/
inductive WindowReg where
  | plain (reg : HostReg)
  | l2mode (die : Nat)
  | ridx (ring : RingId)
  | replay (who : ReplayPair)
  | deviceId
  deriving DecidableEq, Repr

/-- The registers of a ring, in the order of Table 15.6; WIDX is read only. -/
def ringReg (ring : RingId) (off : Nat) : Option WindowReg :=
  match off with
  | 0x00 => some (.plain (.rloc ring))
  | 0x08 => some (.plain (.rcfg ring))
  | 0x18 => some (.ridx ring)
  | _ => none

/-- The fault feature's registers (Table 15.6). -/
def faultReg (fn : Writer) (off : Nat) : Option WindowReg :=
  match fn with
  | .physical =>
    let d := off / 0x100
    let o := off % 0x100
    if 2 ≤ d then none
    else if 0x40 ≤ o ∧ o < 0x60 then ringReg (.retry d) (o - 0x40)
    else if 0x60 ≤ o ∧ o < 0x80 then ringReg (.term d) (o - 0x60)
    else if o = 0x80 then some (.plain (.farb d))
    else if o = 0x88 then some (.plain (.replayPc (.die d)))
    else if o = 0x90 then some (.replay (.die d))
    else none
  | .virtualFn n =>
    if 0x40 ≤ off ∧ off < 0x60 then ringReg (.vf n) (off - 0x40)
    else if off = 0x60 then some (.plain (.replayPc (.vf n)))
    else if off = 0x68 then some (.replay (.vf n))
    else none

/-- The partition feature's registers, which the physical function's window alone holds (R134, R207). -/
def partitionReg (off : Nat) : Option WindowReg :=
  if off % 8 ≠ 0 then none
  else if 0x0010 ≤ off ∧ off < 0x0020 then some (.l2mode ((off - 0x0010) / 8))
  else if 0x0100 ≤ off ∧ off < 0x1100 then
    let k := (off - 0x0100) / 8
    some (.plain (.sliceCfg (k / 256) (k % 256)))
  else if 0x1100 ≤ off ∧ off < 0x3500 then
    let k := (off - 0x1100) / 8
    some (.plain (.rfBudget (k / 576) (k % 576 / 4) (k % 4)))
  else none

/-- The register at an offset from the entry of a feature in a function's window. -/
def windowReg (fn : Writer) (fid off : Nat) : Option WindowReg :=
  match fid, fn with
  | 3, fn => faultReg fn off
  | 4, .physical => partitionReg off
  | 1, .physical => if off = 0x18 then some .deviceId else none
  | 6, .physical => if off = 0x08 then some (.plain .powerCap) else none
  | _, _ => none

/-- REGISTER_WRITE. A write to what a window does not hold, or holds read only, is ignored (log 71). -/
def execRegisterWrite (place : RegPlace) (value : Nat) (s : State) : Host.Outcome State Fault Refusal :=
  match place with
  | .firmware reg => .next (writeReg s reg value)
  | .window fn fid off =>
    match windowReg fn fid off with
    | some (.plain reg) => .next (writeReg s reg value)
    | some (.l2mode die) => execL2ModeChange die (value % 2 == 1) s
    | some (.ridx ring) => execRingRidxWrite ring (BitVec.ofNat 32 value) s
    | some (.replay who) =>
      let context := BitVec.ofNat 12 value
      if value.testBit 12 then execReplayTerminate who context s else execReplay who context s
    | some .deviceId => execDeviceIdWrite (BitVec.ofNat 20 value) s
    | none => .next s

/-! ### The feature chain (R387). DESIGN CHOICE (log 87): the order of the features, their offsets after the first, their
versions and the bodies of features 1, 2 and 5 to 7; the manual gives the bodies of 3 and 4, and a virtual function's of 3. -/

/-- The entries of a function's chain: identifier, offset, and bytes with the header. -/
def featureChain : Writer → List (Nat × Nat × Nat)
  | .physical => [(1, 0x1000, 0x20), (2, 0x1020, 0x08), (3, 0x1040, 0x198), (4, 0x1200, 0x3500), (5, 0x4700, 0x08),
      (6, 0x4708, 0x10), (7, 0x4718, 0x08)]
  | .virtualFn _ => [(1, 0x1000, 0x20), (2, 0x1020, 0x08), (3, 0x1040, 0x70)]

/-- The header of a feature (Table 18.5). -/
def featureHeader (fid fver flen next : Nat) : Nat := fid * 2 ^ 48 + fver * 2 ^ 40 + flen * 2 ^ 24 + next

/-- What a register of a window holds. A field that is write only reads as zero. -/
def readWindowReg (s : State) : WindowReg → Nat
  | .plain (.rloc ring) => (tabGet 0#64 s.regs.rloc (ringIndex ring)).toNat
  | .plain (.rcfg ring) => (tabGet 6#64 s.regs.rcfg (ringIndex ring)).toNat
  | .plain (.farb die) => (tabGet 0x124#64 s.regs.farb die).toNat
  | .plain (.replayPc who) => (tabGet 0#64 s.regs.replayPc (replayKey who)).toNat
  | .plain (.sliceCfg die slice) => (tabGet 12#32 s.regs.slicecfg (die * 256 + slice)).toNat
  | .plain (.rfBudget die core quad) => rfBudget s (die * Config.coreKeys + core) quad
  | .plain .powerCap => s.regs.powerCap
  | .l2mode die => (tabGet 0 s.regs.l2mode die).toNat
  | .ridx ring => (ringCount s (ringIndex ring)).ridx.toNat
  | .deviceId => s.regs.deviceId.toNat
  | _ => 0

/-- WIDX, which a write does not reach, at its offset in feature 3 (Table 15.6). -/
def widxAt (fn : Writer) (off : Nat) : Option RingId :=
  match faultReg fn (off + 8) with
  | some (.ridx ring) => some ring
  | _ => none

/-- The word of an entry's body: part number and incarnation of feature 1, WIDX of feature 3, or a register. -/
def featureWord (s : State) (fn : Writer) (fid off : Nat) : Nat :=
  if fid = 1 ∧ off = 0x08 then Config.partNumber
  else if fid = 1 ∧ off = 0x10 then s.regs.incarnation.toNat
  else if fid = 1 ∧ off = 0x18 then s.regs.deviceId.toNat
  else
    match (if fid = 3 then widxAt fn off else none), windowReg fn fid off with
    | some ring, _ => (ringCount s (ringIndex ring)).widx.toNat
    | none, some r => readWindowReg s r
    | none, none => 0

/-- The 64-bit word that a function reads at an offset of its host register window: BOOTSTAT (Table 18.2), or what an entry of
the chain holds there. -/
def windowWord (s : State) (fn : Writer) (off : Nat) : Nat :=
  if off = 0 then s.regs.stage * 2 ^ 60 + s.regs.err * 2 ^ 52
  else
    match (featureChain fn).find? fun e => decide (e.2.1 ≤ off) && decide (off < e.2.1 + e.2.2) with
    | none => 0
    | some (fid, o, len) =>
      if off = o then featureHeader fid 1 len (((featureChain fn).find? fun e => decide (o < e.2.1)).elim 0 (·.2.1))
      else featureWord s fn fid (off - o)

/-- Software's walk over a chain: the features whose version it knows, each with its offset and the version it reads by. A NEXT
that is not above the entry's own offset ends it; each step goes up, so `fuel` bounds the entries. -/
def featureWalk (word : Nat → Nat) (known : Nat → Option Nat) (fuel off : Nat) : List (Nat × Nat × Nat) :=
  match fuel with
  | 0 => []
  | n + 1 =>
    let h := word off
    let here := match known (bits h 63 48) with | some v => [(bits h 63 48, off, Nat.min v (bits h 47 40))] | none => []
    here ++ (if bits h 23 0 ≤ off then [] else featureWalk word known n (bits h 23 0))

end Sys2Proof.Machine
end

