-- ==== Sys2Proof/Machine/HostPort.lean ====
section
/-! DEFINITION. The host mailbox engine (R226, R227, R388, R389). Function 0 is the physical function, n + 1 virtual
function n. -/
namespace Sys2Proof.Machine
open Sys2Proof

/-- STATUS of Table 18.6. -/
inductive MailEnd where
  /-- The slot waits, with every later slot of the function (R389). -/
  | later
  /-- It completes with this STATUS. -/
  | done (s : State) (status : Nat) (data : List Byte)

/-- The partition of a host function; the physical function has none. -/
def hostPart (s : State) (fn : Nat) : Option Nat :=
  ((List.range 16).filter fun j => (s.part j).function == some (fn - 1)).head?

/-- The requester of a slot: a virtual function runs under its partition's tenant, the physical function under the
capability's, without a tenant check. -/
def hostWho (s : State) (fn : Nat) (c : Cap) : Option Who :=
  if fn = 0 then some ⟨Config.meshCores, 0, c.tenant, 0, false⟩
  else (hostPart s fn).map fun p => ⟨Config.meshCores, (s.part p).context, (s.part p).tenant, p, false⟩

/-- Steps 1 to 3 of R194 as R389 changes them: STATUS 2, or 5 for a device that does not exist. -/
def hostCheck (s : State) (fn : Nat) (w : Who) (c : Cap) (off len mask : Nat) : Option Nat :=
  if !c.has mask then some 2
  else if c.device == 0xFFFFF#20 then some 2
  else if c.device != s.regs.deviceId && decide (0x80000 ≤ c.device.toNat) then some 5
  else if fn != 0 && c.device == s.regs.deviceId && c.tenant != w.tenant then some 2
  else if fn != 0 && c.device != s.regs.deviceId && !(s.part w.part).reach.contains c.device.toNat then some 2
  else if c.len < off + len || decide (2 ^ 57 < c.base.toNat + off + len) then some 2
  else none

/-- An access table's answer for a host function; the physical function belongs to no partition, so only the kind decides. -/
def hostMay (s : State) (fn : Nat) (w : Who) (mask target : Nat) : Bool :=
  if fn = 0 then Nat.land ((tabGet 0#32 s.regs.access (target * 4096 + 1024)).toNat % 16) mask == mask
  else accessOk s.regs target (1024 + fn) w.part mask

/-- The tables of the mailbox engine, the home slice and, where L2 does not hold the line, the memory controller. -/
def hostAllowed (s : State) (fn : Nat) (w : Who) (pa mask : Nat) : Bool :=
  hostMay s fn w mask 540 && hostMay s fn w mask (sliceOf s.regs w.part pa)
    && ((tabFind s.l2 (pa / 128)).isSome || hostMay s fn w mask (controllerOf pa))

/-- STATUS of a fault in translation; 0 is a wait. -/
def hostStatusOf (code : Nat) : Nat :=
  if code = fPageMigrating ∨ code = fSecondTier then 0
  else if code = fCapPerm ∨ code = fCapTenant then 2 else if code = fPeerLost then 5 else 4

/-- One byte's place, or the STATUS of its failure; 0 is a wait. -/
def hostByte (s : State) (fn : Nat) (w : Who) (c : Cap) (off mask : Nat) : Except Nat Place :=
  let va := c.base.toNat + off
  if c.device != s.regs.deviceId then
    if !(hostMay s fn w mask 540 && (upPorts s.regs).all fun p => hostMay s fn w mask (544 + p)) then .error 3
    else
      match farAnswer s c.device.toNat va with
      | some code => .error (hostStatusOf code)
      | none => .ok (.far c.device.toNat va)
  else
    match frontXlat s w.tenant va mask with
    | .error code => .error (hostStatusOf code)
    | .ok pa => if hostAllowed s fn w pa mask then .ok (.mem va w.tenant pa) else .error 3

/-- The places of a slot's bytes. -/
def hostBytes (s : State) (fn : Nat) (w : Who) (c : Cap) (off mask : Nat) : Nat → Except Nat (List Place)
  | 0 => .ok []
  | n + 1 =>
    match hostByte s fn w c off mask, hostBytes s fn w c (off + 1) mask n with
    | .ok p, .ok r => .ok (p :: r)
    | .error e, _ => .error e
    | _, .error e => .error e

/-- A slot after the checks of R389, on its bytes' places. -/
def hostAccess (s : State) (fn : Nat) (m : MailSlot) (mask : Nat) (act : Who → List Place → MailEnd) : MailEnd :=
  let len := m.len.toNat
  match tabFind s.regs.capTables (capTableKey fn m.cidx.toNat) with
  | none => .done s 2 []
  | some c =>
    if len = 0 ∨ 64 < len then .done s 2 []
    else
      match hostWho s fn c with
      | none => .done s 3 []
      | some w =>
        match hostCheck s fn w c m.off.toNat len mask with
        | some e => .done s e []
        | none =>
          match hostBytes s fn w c m.off.toNat mask len with
          | .error 0 => .later
          | .error e => .done s e []
          | .ok ps => act w ps

/-- The key of a slot in its function's window. -/
def slotKey (fn i : Nat) : Nat := fn * 8192 + i % 8192

/-- The host writes a slot of its function's window, with STATUS 0. -/
def postSlot (s : State) (fn : Nat) (m : MailSlot) : State :=
  let key := slotKey fn m.seq.toNat
  { s with hostSlots := tabPut s.hostSlots key m, hostStatus := tabSet 0 s.hostStatus key 0 }

/-- The slot that the engine takes next from a function's window: it is written, and its SEQ is its number (R388). -/
def nextSlot (s : State) (fn : Nat) : Option MailSlot :=
  let i := tabGet 0 s.hostNext fn
  match tabFind s.hostSlots (slotKey fn i) with
  | some m => if m.seq.toNat = i % 2 ^ 16 ∧ tabGet 0 s.hostStatus (slotKey fn i) = 0 then some m else none
  | none => none

/-- The host writes a slot, and the engine takes it if it is the next of its function. A slot that must wait, or that came before
its turn, stays in the window until the engine takes it. -/
def takeSlot (s : State) (fn : Nat) (m : MailSlot) (act : State → MailEnd) : State :=
  if 17 ≤ fn ∨ s.regs.pcie = false then s
  else
    let s := postSlot s fn m
    let i := tabGet 0 s.hostNext fn
    if nextSlot s fn != some m then s
    else
      match act s with
      | .later => s
      | .done t status data =>
        let t := t.tick
        { t with
          hostNext := tabSet 0 t.hostNext fn (i + 1)
          hostSlots := tabPut t.hostSlots (slotKey fn i) (if data.isEmpty then m else { m with data := data })
          hostStatus := tabSet 0 t.hostStatus (slotKey fn i) status }

/-- A fetch in progress of a packet that a host write covers whole reads it again, since that write is never seen in part (R286). -/
def wholePackets (s : State) (ps : List Place) : State :=
  let covers (q : Queue) (at_ : Option Nat × Nat) : Bool :=
    match at_.1, frontXlat s (s.queueTenant q) at_.2 permR with
    | none, .ok pa => (List.range 32).all fun i => ps.any fun p => placePa p == some (pa + i)
    | _, _ => false
  { s with queues := s.queues.map fun e =>
      (e.1, match e.2.peek with | some (a, _) => if covers e.2 a then { e.2 with peek := none } else e.2 | none => e.2) }

/-- HOST_MAILBOX_WRITE: a slot with RD 0 and CUT 0. -/
def execHostMailboxWrite (fn : Nat) (slot : MailSlot) (s : State) : Host.Outcome State Fault Refusal := keep s <|
  if slot.rd || slot.cut then .next s
  else .next (takeSlot s fn slot fun s => hostAccess s fn slot permW fun w ps =>
    .done (wholePackets (writePlaces s w (ps.zip (slot.data ++ List.replicate 64 0#8))) ps) 1 [])

/-- HOST_MAILBOX_READ: served at the home slice, never from an L1. -/
def execHostMailboxRead (fn : Nat) (slot : MailSlot) (s : State) : Host.Outcome State Fault Refusal := keep s <|
  if !slot.rd || slot.cut then .next s
  else .next (takeSlot s fn slot fun s => hostAccess s fn slot permR fun w ps =>
    let data := ps.map fun p => BitVec.ofNat 8 (loadAt s p 1)
    .done (touchSources s w (ps.map fun p => (p, p))) 1 data)

/-! ### Host cut writes (R227) -/

/-- The address of a slot's first byte. -/
def slotVa (s : State) (fn : Nat) (m : MailSlot) : Nat :=
  match tabFind s.regs.capTables (capTableKey fn m.cidx.toNat) with
  | some c => c.base.toNat + m.off.toNat
  | none => 0

def publicationForm (s : State) (fn : Nat) (m : MailSlot) : Bool := !m.rd && m.len.toNat == 4 && slotVa s fn m % 8 == 4
def finishForm (s : State) (fn : Nat) (m : MailSlot) : Bool :=
  !m.rd && m.len.toNat == 1 && slotVa s fn m % 8 == 3 && m.data.head? == some 0x40#8

/-- A cut word's update: STATUS 1, or 6 where the word is unchanged. `back` bytes lie between the word and the slot's first. -/
def hostCut (s : State) (w : Who) (ps : List Place) (bs : List Byte) (back : Nat) (act : Nat → Nat → Option State) : MailEnd :=
  match ps with
  | .mem _ _ pa :: _ =>
    match act (pa - back) (s.num (pa - back) 8) with
    | some t => .done t 1 []
    | none => .done s 6 []
  | .far d va :: _ => .done (sendOut s w d va bs) 1 []  -- the target's home slice decides
  | _ => .done s 2 []

/-- HOST_PUBLICATION: the four bytes of VERSION. -/
def execHostPublication (fn : Nat) (slot : MailSlot) (s : State) : Host.Outcome State Fault Refusal := keep s <|
  if !slot.cut || finishForm s fn slot then .next s
  else .next (takeSlot s fn slot fun s =>
    if !publicationForm s fn slot then .done s 2 []
    else hostAccess s fn slot permW fun w ps =>
      let v := ofLeBytes (slot.data.take 4)
      hostCut s w ps (slot.data.take 4) 4 fun pa old =>
        if cutState old = cutOpen ∧ cutVersion old < v then some (cutWrite s w pa v cutOpen) else none)

/-- HOST_FINISH: byte 3 alone, with the value 0x40. -/
def execHostFinish (fn : Nat) (slot : MailSlot) (s : State) : Host.Outcome State Fault Refusal := keep s <|
  if !slot.cut || publicationForm s fn slot then .next s
  else .next (takeSlot s fn slot fun s =>
    if !finishForm s fn slot then .done s 2 []
    else hostAccess s fn slot permW fun w ps =>
      hostCut s w ps [0x40#8] 3 fun pa old =>
        if cutState old = cutOpen then some (cutWrite s w pa (cutVersion old) cutFinished) else none)

end Sys2Proof.Machine
end

