-- ==== Sys2Proof/Machine/Fabric.lean ====
section
/-! DEFINITION. Requests of other modules, the loss of peers and the Torwen ports (R369, R371 to R373, R380, R386). -/
namespace Sys2Proof.Machine
open Sys2Proof

/-- A request of another module has come in through some port that is up, whose master id the tables let through (log 21). -/
def fabricMay (s : State) (part pa mask : Nat) : Bool := (upPorts s.regs).any fun p => memAllows s (2048 + p) part pa mask

/-- The partition of a tenant. -/
def tenantPart (s : State) (t : BitVec 12) : Option Nat :=
  ((List.range 16).filter fun j => (s.part j).present && (s.part j).tenant == t).head?

/-- Why a byte of a request is not performed, or its physical address. A page of another tenant gives CAP_TENANT (R369). -/
def remoteByte (s : State) (w : Who) (va mask : Nat) : Except Nat Nat :=
  match frontXlat s w.tenant va mask with
  | .error code =>
    let other := s.regs.ipt.any fun e => pteState e.2 == 1 && pteVpn e.2 == va / 2 ^ 16 && pteTenant e.2 != w.tenant.toNat
    .error (if code = fPageAbsent ∧ other = true then fCapTenant else code)
  | .ok pa => if fabricMay s w.part pa mask then .ok pa else .error fCapTenant

def remoteBytes (s : State) (w : Who) (va mask : Nat) : Nat → Except Nat (List Place)
  | 0 => .ok []
  | n + 1 =>
    match remoteByte s w va mask, remoteBytes s w (va + 1) mask n with
    | .ok pa, .ok r => .ok (.mem va w.tenant pa :: r)
    | .error e, _ => .error e
    | _, .error e => .error e

def remoteLen : RemoteKind → Nat
  | .load n => n
  | .store bs => bs.length
  | .atomic _ ty _ => atomSize ty
  | .cas ty _ _ => atomSize ty
  | .cut _ => 8
/-- The permissions that it needs (R239, R245, R247, R253, R256). -/
def remoteMask : RemoteKind → Nat
  | .load _ => permR
  | .store _ => permW
  | .atomic _ _ _ => permA
  | .cas _ _ _ => permA
  | .cut kind => if kind = 0 then permR else permR + permW

/-- The stub of the page that a write goes to (R380). -/
def stubOf (s : State) (t : BitVec 12) (va : Nat) : Option Stub :=
  (s.regs.stubs.filter fun x => x.tenant == t && x.page == va / 2 ^ 16).head?

def reply (s : State) (q : RemoteReq) (code : Nat) (data : List Byte) : State :=
  { s with replies := s.replies ++ [⟨q.device, q.addr, code, data, none⟩] }

/-- A stub acknowledges a request, forwards it to the destination, and redirects the writer's port there (R380). -/
def forward (s : State) (q : RemoteReq) (dest : BitVec 20) : State :=
  { s with
    outbox := s.outbox ++ [⟨dest.toNat, q.addr, q.kind, (tabGet Peer.init s.regs.peers dest.toNat).incarnation⟩]
    replies := s.replies ++ [⟨q.device, q.addr, 0, [], some dest⟩] }

/-- The access at its home slice, on path CL. -/
def performRemote (s : State) (w : Who) (q : RemoteReq) (ps : List Place) : State :=
  match q.kind with
  | .load _ => reply (touchSources s w (ps.map fun p => (p, p))) q 0 (ps.map fun p => BitVec.ofNat 8 (loadAt s p 1))
  | .store bs => reply (writePlaces s w (ps.zip bs)) q 0 []
  | .atomic op ty c => update fun p =>
      let (old, s) := atomAt s w 0 op.toNat ty p c.toNat 0
      reply s q 0 (leBytes old (atomSize ty))
  | .cas ty c new => update fun p =>
      let (old, s) := atomAt s w 1 0 ty p c.toNat new.toNat
      reply s q 0 (leBytes old (atomSize ty))
  -- the answer carries the flags that the issuing split receives (R230)
  | .cut kind => update fun p =>
      let (s, ex) := cutAt s w kind.toNat p
      reply s q 0 (leBytes ex 4)
where
  /-- An update of the one word at the first place. -/
  update (f : Place → State) : State := match ps with | p :: _ => f p | [] => s

/-- REMOTE_REQUEST: it comes in through a port that is up (R386). It is refused with PEER_LOST when it carries an older incarnation (R372); forwarded by a stub (R380);
otherwise translated here and performed, or answered with its fault (R369). -/
def execRemoteRequest (req : RemoteReq) (s : State) : Host.Outcome State Fault Refusal := keep s <|
  let part := (tenantPart s req.tenant).getD 0
  let w : Who := ⟨Config.meshCores, (s.part part).context, req.tenant, part, false⟩
  if s.regs.torwen == 0#32 then .next s
  else if req.incarnation.toNat < s.regs.incarnation.toNat then .next (reply s req fPeerLost [])
  else
    match stubOf s req.tenant req.addr, remoteMask req.kind != permR with
    | some x, true => .next (forward s req x.dest)
    | _, _ =>
      match tenantPart s req.tenant, remoteBytes s w req.addr (remoteMask req.kind) (remoteLen req.kind) with
      | none, _ => .next (reply s req fCapTenant [])
      | _, .error code => .next (reply s req code [])
      | _, .ok ps => .next (performRemote s w req ps).tick

/-! ### Peers (R372, R373) -/

/-- A lost-write notice: code 0x02, the write's address in INFO. -/
def lostWrite (s : State) (ctx va : Nat) : Record :=
  let c := s.context (BitVec.ofNat 12 ctx)
  { info := va, lmask := 0, pc := 0, context := BitVec.ofNat 12 ctx, tenant := c.tenant, part := c.part,
    queue := Config.freeNat s.free 9 % 4096, srck := 6, core := 0xFF, die := 0, gslot := 0, split := 0, code := 0x02, kind := 2 }

/-- Report unacknowledged writes of a context to a device, as far as the port has room; the others stay listed. Each of them may
have been acknowledged before the loss, and is not reported then. -/
def reportLost (s : State) (ctx device : Nat) : List (Nat × Nat × Nat) → State
  | [] => s
  | (core, d, va) :: r =>
    if d == device && reportRoom s (s.context (BitVec.ofNat 12 ctx)).part 0 2 then
      let s := s.modContext (BitVec.ofNat 12 ctx) fun c => { c with unacked := dropFirst (core, d, va) c.unacked }
      let s := if Config.freeBit s.free (50000 + va) then s else pushRecord s (lostWrite s ctx va)
      reportLost s.tick ctx device r
    else reportLost s ctx device r

/-- PEER_LOST: accesses through the old incarnation fail from now on, those that are parked on the peer's answers among them, and
each write that was not acknowledged is reported once. Writes that found no room in the port are reported when the step is taken
again. -/
def execPeerLost (device : BitVec 20) (s : State) : Host.Outcome State Fault Refusal :=
  let p := tabGet Peer.init s.regs.peers device.toNat
  let s := s.modRegs fun r => { r with peers := tabPut r.peers device.toNat { p with lost := true, answers := [] } }
  let s := s.contexts.foldl (fun s e => reportLost s e.1 device.toNat e.2.unacked) s
  .next (replayParks s fun _ k => tabFind p.answers (k.info % 2 ^ 57 / 2 ^ 16) == some k.code)

/-! ### Ports (R386) -/

/-- What a port and its partner agree on: 8, 4 or 2 lanes, a speed and a FEC mode, the highest that both support. The partner is
outside the module, so they are free. -/
def linkTerms (free port : Nat) : Link :=
  ⟨[8, 4, 2].getD (Config.freeNat free (30 + 4 * port) % 3) 8, Config.freeNat free (31 + 4 * port), Config.freeNat free (32 + 4 * port)⟩

/-- TORWEN_RETRAIN: a device that comes back to the fabric after 500 µs without a port, in which its peers have declared it lost,
has a new incarnation (R372). A port that is down trains again, once a device id has been written; `ok` is what the link partner gives. -/
def execTorwenRetrain (port : Nat) (ok : Bool) (s : State) : Host.Outcome State Fault Refusal :=
  if port < 32 ∧ ok = true ∧ s.regs.deviceIdWritten = true then
    let back := match s.regs.downSince with | some t => decide (s.after t 500 ≤ s.cycle) | none => false
    .next (s.modRegs fun r =>
      { r with torwen := r.torwen ||| BitVec.ofNat 32 (2 ^ port), downSince := none, ports := tabPut r.ports port (linkTerms s.free port)
               incarnation := if back then r.incarnation + 1 else r.incarnation }).tick
  else .next s

/-- TORWEN_PORT_DOWN: the port carries no traffic until it is trained again. -/
def execTorwenPortDown (port : Nat) (s : State) : Host.Outcome State Fault Refusal :=
  if port < 32 then
    .next (s.modRegs fun r =>
      let up := r.torwen &&& ~~~ BitVec.ofNat 32 (2 ^ port)
      { r with torwen := up, ports := tabErase r.ports port
               downSince := if up == 0#32 && r.torwen != 0#32 then some s.cycle else r.downSince })
  else .next s

end Sys2Proof.Machine
end

