-- ==== Sys2Proof/Machine/GrainArith.lean ====
section
/-! DEFINITION. Grain codes and the arithmetic of R56, R57, R173, R174 and R180 to R191 on one span, as lists of
components and norm codes. -/
namespace Sys2Proof.Machine
open Sys2Proof

/-- RNE of num / den to an integer (Table 2.1). -/
def rneDiv (num : Int) (den : Nat) : Int :=
  let q := num / (den : Int)
  let r := num % (den : Int)
  if 2 * r < den then q else if (den : Int) < 2 * r then q + 1 else if q % 2 = 0 then q else q + 1

/-- 16384 * log2(num) in units of 2^-96, from below by less than 2^15. -/
def log2Scaled (m : Nat) : Int := 16384 * ((log2Fixed 96 m).1 : Int)

/-- x^(2^n). -/
def squares (x : Nat) : Nat → Nat
  | 0 => x
  | n + 1 => squares (x * x) n

/-- RNE(16384 * log2(s) - 32768 * log2(q)) of the exact real. It is never a tie: s^32768 = 2^(2k+1) * q^65536 has no solution.
Where the bracket does not decide, the powers do. -/
def rneLog (s q : Nat) : Int :=
  let v := log2Scaled s - 2 * log2Scaled q
  let lo := rneDiv (v - 2 ^ 20) (2 ^ 96)
  let hi := rneDiv (v + 2 ^ 20) (2 ^ 96)
  if lo = hi then lo
  else
    let k := 2 * lo + 1
    let above := if 0 ≤ k then decide (2 ^ k.toNat * squares q 16 < squares s 15) else decide (squares q 16 < squares s 15 * 2 ^ (-k).toNat)
    if above then hi else lo

/-- The zero code and the saturated-large code (R56). -/
def gZero : Nat := 0x800000
def gLarge : Nat := 0x7FFFFF

/-- NORMENC for a norm code number n = 32768 * λ already rounded (R57). -/
def normEnc (n : Int) : Nat :=
  if 8388607 ≤ n then gLarge else if n ≤ -8388608 then gZero else wrap n 24

/-- Exceptions of R175 for the exact norm code of a nonzero vector. DESIGN CHOICE (log 82): it is the integer given to NORMENC,
already rounded and folded. -/
def normEx (n : Int) : Nat :=
  if 8388607 ≤ n then exOF else if n ≤ -8388608 then exUF else 0

/-- SEXT(N, 24). -/
def normVal (n : Nat) : Int := sext n 24

/-- The grain value of one span: components and norm code. -/
structure GVec where
  c : List Int
  n : Nat
  ex : Nat := 0
  deriving DecidableEq, Repr

def gzeroVec (len : Nat) (ex : Nat := 0) : GVec := ⟨List.replicate len 0, gZero, ex⟩

/-- TGT of R174. -/
def tgt (y : List Int) (m : Int) (q : Nat) : Int :=
  let s := sumNat (y.map fun x => x.natAbs * x.natAbs)
  m + rneLog s q

/-- GRNORM of R174, with R175's exceptions. -/
def grnorm (y : List Int) (ntgt : Int) : GVec :=
  let s := sumNat (y.map fun x => x.natAbs * x.natAbs)
  let m := s.log2 / 2
  let big := 2 ^ (2 * m + 48)
  let q := isqrt (big / s)
  let twice := (2 * q + 1) * (2 * q + 1) * s
  let rho : Nat := if twice < 4 * big then q + 1 else if twice = 4 * big then q + q % 2 else q
  let c := y.map fun x => rneDiv (x * rho) (2 ^ (m + 10))
  let s' := sumNat (c.map fun x => x.natAbs * x.natAbs)
  let n := ntgt + (16384 * 28 - rneLog s' 1)
  if normEnc n = gZero then gzeroVec y.length exUF else ⟨c, normEnc n, normEx n⟩

/-- GCVT (R180) on the values of one span. -/
def gcvtVec (xs : List FVal) : GVec :=
  let bad := xs.any fun x => match x with | .fin _ _ _ => false | _ => true
  if bad then gzeroVec xs.length exNV
  else if xs.all FVal.isZero then gzeroVec xs.length
  else
    let tops := xs.filterMap fun x => match x with
      | .fin _ m e => if m = 0 then none else some ((m.log2 : Int) + e)
      | _ => none
    let e := tops.foldl max (tops.headD 0)
    let y := xs.map fun x => match x with
      | .fin n m ex =>
        let sh := ex + 38 - e
        let v : Int := if n then -(m : Int) else m
        if 0 ≤ sh then v * (2 ^ sh.toNat : Nat) else rneDiv v (2 ^ (-sh).toNat)
      | _ => 0
    grnorm y (tgt y ((e - 38) * 32768) 1)

/-- GADD and GADD.sub (R182). -/
def gaddVec (sub : Bool) (a b : GVec) : GVec :=
  let sg : Int := if sub then -1 else 1
  if b.n = gZero then ⟨a.c, a.n, 0⟩
  else if a.n = gZero then ⟨b.c.map (sg * ·), b.n, 0⟩
  else
    let na := normVal a.n
    let nb := normVal b.n
    let (u, w, nu, nw, su, sw) :=
      if nb ≤ na then (a, b, na, nb, (1 : Int), sg) else (b, a, nb, na, sg, (1 : Int))
    let d := (nu - nw).toNat
    -- RNE(2^30 * 2^(-d/32768)); an irrational power is never a tie
    let r : Int :=
      if d % 32768 = 0 then rneDiv (2 ^ 30 : Nat) (2 ^ (d / 32768))
      else
        let n := d / 32768 + 1
        rneDiv (exp2Fixed (32768 - d % 32768) 15 : Nat) (2 ^ (trP + n - min 30 (trP + n)))
    let y := List.zipWith (fun uj wj => su * uj * (2 ^ 30 : Nat) + sw * wj * r) u.c w.c
    if y.all (· == 0) then gzeroVec y.length else grnorm y (tgt y (nu - 44 * 32768) 1)

/-- GSCL (R184). -/
def gsclVec (a : GVec) (b : Int) : GVec :=
  if a.n = gZero then gzeroVec a.c.length
  else
    let n := normVal a.n + b
    if normEnc n = gZero then gzeroVec a.c.length exUF else ⟨a.c, normEnc n, normEx n⟩

/-- GSETN (R185). -/
def gsetnVec (a : GVec) (code : Nat) : GVec :=
  if a.n = gZero ∨ code % 2 ^ 24 = gZero then gzeroVec a.c.length else ⟨a.c, code % 2 ^ 24, 0⟩

/-- The inner product of two component lists. -/
def gdotInt (a b : List Int) : Int := sumInt (List.zipWith (· * ·) a b)

/-- GPROJ (R186). -/
def gprojVec (a b : GVec) : GVec :=
  if a.n = gZero then gzeroVec a.c.length
  else if b.n = gZero then ⟨a.c, a.n, 0⟩
  else
    let t := gdotInt a.c b.c
    let sb := gdotInt b.c b.c
    let y := List.zipWith (fun x z => x * sb - t * z) a.c b.c
    if y.all (· == 0) then gzeroVec y.length else grnorm y (tgt y (normVal a.n - 14 * 32768) sb.toNat)

/-- The weight of GLERP as W (R187), and NV for a NaN. -/
def glerpWeight (b : Nat) : Nat × Nat :=
  match fval .f32 b with
  | .nan _ => (0, exNV)
  | .inf n => (if n then 0 else 2 ^ 24, 0)
  | .fin n m e =>
    if n then (0, 0)
    else
      let (w, _) := roundGrid 0 false m (e + 24) 0 false
      (min w (2 ^ 24), 0)

/-- GLERP (R187) with the weight W. -/
def glerpVec (a b : GVec) (w : Nat) (ex : Nat) : GVec :=
  if w = 0 then ⟨a.c, a.n, ex⟩
  else if w = 2 ^ 24 then ⟨b.c, b.n, ex⟩
  else if b.n = gZero then ⟨a.c, a.n, ex⟩
  else if a.n = gZero then ⟨b.c, b.n, ex⟩
  else
    let v : Int := (2 ^ 24 : Nat) - w
    let y := List.zipWith (fun x z => v * x + w * z) a.c b.c
    if y.all (· == 0) then gzeroVec y.length ex
    else
      let r := grnorm y (rneDiv (v * normVal a.n + w * normVal b.n) (2 ^ 24))
      ⟨r.c, r.n, Nat.lor r.ex ex⟩

/-- ROUND(t * 2^s * 2^(n/32768), T, rn) for an integer t, with one rounding (R181, R188, R189). -/
def roundPow (f : Fmt) (t : Int) (s : Int) (n : Int) : Rounded :=
  if t = 0 then ⟨0, 0⟩
  else
    let neg := decide (t < 0)
    let e := n / 32768
    let fr := (n % 32768).toNat
    if fr = 0 then roundMag f 0 false neg t.natAbs (s + e)
    else roundMag f 0 false neg (t.natAbs * exp2Fixed fr 15 / 2 ^ 128) (s + e - (trP - 128 : Nat)) true

/-- The unit-length test of R173 for a span of len lanes: |s * 2^-28 - 1| ≤ sqrt(L) * 2^-12 + 2^-20, scaled by 2^28. -/
def unitLength (s : Nat) (lanes : Nat) : Bool :=
  let d := ((s : Int) - (2 ^ 28 : Nat)).natAbs
  -- d ≤ sqrt(L) * 2^16 + 2^8
  decide (d ≤ 256) || decide ((d - 256) * (d - 256) ≤ lanes * 2 ^ 32)

/-- GLD's result on one span (R191). -/
def gldVec (c : List Int) (code lanes : Nat) : GVec :=
  let s := sumNat (c.map fun x => x.natAbs * x.natAbs)
  if code % 2 ^ 24 = gZero ∨ s = 0 then gzeroVec c.length
  else if unitLength s lanes then ⟨c, code % 2 ^ 24, 0⟩
  else grnorm c (tgt c (normVal (code % 2 ^ 24) - 14 * 32768) 1)

end Sys2Proof.Machine
end

