-- ==== Sys2Proof/Machine/GrainOps.lean ====
section
/-! DEFINITION. Grain instructions (R170 to R191): acting spans, well-formed sources, the two-stage write, and memory forms. -/
namespace Sys2Proof.Machine
open Sys2Proof

/-- One acting span: its lanes in the order of virtual lanes. -/
abbrev GSpan := List Nat

/-- The acting threads of the aligned block of the instruction's span in which a lane lies. -/
def Ctx.block (c : Ctx) (l : Nat) : GSpan :=
  let L := spanLanes c.w
  (List.range 32).filterMap fun (v : Nat) =>
    if v / L = c.vlane l / L then c.peerAt l (v : Int) else none

/-- R171: the acting spans, or none where a span acts in part. When a TRET re-executes the instruction, lanes outside TRAP_MASK
do not act (log 81). -/
def Ctx.spans (c : Ctx) : Option (List GSpan) :=
  let heads := c.lanes.filter fun l => (c.block l).head? == some l
  if c.lanes.all fun l => (c.block l).length == spanLanes c.w then some (heads.map c.block) else none

/-- A source as one span reads it: components, the common norm, and whether it is the zero code. -/
structure GSrc where
  c : List Int
  n : Nat
  zero : Bool

def GSrc.vec (x : GSrc) : GVec := ⟨x.c, if x.zero then gZero else x.n, 0⟩

/-- The components of a direction. -/
def dirComps (d : Nat) : List Int := (elemsOf 16 16 d).map fun x => sext x 16

/-- R31, R177: the part of a grain register that one lane of a span reads; the choice of an early read is the span's. -/
def Ctx.readG (c : Ctx) (loc : Loc) (lane head : Nat) : Nat := readAtCycle c.s c.g c.sp c.now loc lane (head + 32)

def sameNat : List Nat → Bool
  | [] => true
  | a :: r => r.all (· == a)

/-- A grain source under the span (R172); none is not well formed. `full` also reads the norm. A zero code has zero
components, whatever direction an early read meets (R173). An early read that pairs a set zero mark with another norm reads a
zero code (log 8). -/
def Ctx.gsrc (c : Ctx) (full : Bool) (o : Opnd) (sp : GSpan) : Option GSrc :=
  match o with
  | .g n =>
    let dirs := sp.map fun l => c.readG (.g n.toNat) l (sp.headD 0)
    let norms := if full then sp.map fun l => c.readG (.gn n.toNat) l (sp.headD 0) else []
    let zero (d : Nat) : Bool := decide (2 ^ 259 ≤ d)
    let comps := dirs.flatMap fun d => dirComps d
    if dirs.all zero then some ⟨comps, gZero, true⟩
    else if dirs.any zero then none
    else if dirs.all fun d => d / 2 ^ 256 % 8 == spanCode c.w then
      if sameNat norms then
        if full && norms.headD 0 == gZero then some ⟨List.replicate (16 * sp.length) 0, gZero, true⟩
        else some ⟨comps, norms.headD 0, false⟩
      else none
    else none
  | _ => some ⟨List.replicate (16 * sp.length) 0, gZero, true⟩

/-- The grain register cells of one span's result. -/
def gCells (c : Ctx) (n : Nat) (sp : GSpan) (v : GVec) : List RegCell × List RegCell :=
  let parts := chunks 16 sp.length v.c
  let dir (i : Nat) : Nat :=
    grainDir ⟨BitVec.ofNat 256 (packElems 16 ((parts.getD i []).map fun x => wrap x 16)), BitVec.ofNat 24 v.n,
      BitVec.ofNat 3 (spanCode c.w)⟩
  let pair (i : Nat × Nat) : RegCell × RegCell := (⟨.g n, i.1, dir i.2⟩, ⟨.gn n, i.1, v.n % 2 ^ 24⟩)
  let cells := (sp.zip (List.range sp.length)).map pair
  (cells.map (·.1), cells.map (·.2))

/-- Every acting span's sources, or GRAIN_SPAN. -/
def Ctx.withSpans (c : Ctx) (f : List GSpan → Eff) : Eff :=
  match c.spans with
  | some l => f l
  | none => c.trap fGrainSpan

def Ctx.withSrc (c : Ctx) (full : Bool) (o : Opnd) (l : List GSpan) (f : (GSpan → GSrc) → Eff) : Eff :=
  if l.all fun sp => (c.gsrc full o sp).isSome then f fun sp => (c.gsrc full o sp).getD ⟨[], gZero, true⟩
  else c.trap fGrainSpan

/-- The two-stage write of R176. -/
def Ctx.writeGrain (c : Ctx) (l : List GSpan) (val : GSpan → GVec) : Eff :=
  let s := match c.w.d with
    | .g n =>
      let cells := l.map fun sp => gCells c n.toNat sp (val sp)
      let s := c.fixed 10 (cells.flatMap (·.1))
      writeFixed s c.ag (c.now + c.x + 12) (cells.flatMap (·.2))
    | _ => c.s
  .done (setFlags s c.ag (exUnion (l.map fun sp => (val sp).ex)))

/-- A grain result from one and from two grain sources. -/
def Ctx.grain1 (c : Ctx) (f : GSpan → GSrc → GVec) : Eff :=
  c.withSpans fun l => c.withSrc true c.w.a l fun a => c.writeGrain l fun sp => f sp (a sp)
def Ctx.grain2 (c : Ctx) (f : GSpan → GVec → GVec → GVec) : Eff :=
  c.withSpans fun l => c.withSrc true c.w.a l fun a => c.withSrc true c.w.b l fun b =>
    c.writeGrain l fun sp => f sp (a sp).vec (b sp).vec

/-- The 16 components of a lane's component group (R179). -/
def Ctx.components (c : Ctx) (o : Opnd) (l : Nat) : List FVal :=
  let e := tyElems c.w.ty
  (List.range 16).map fun k => match o with
    | .v n => fval (fmtOf c.w.ty) (c.read (.v (n.toNat + k / e)) l / 2 ^ (tyWidth c.w.ty * (k % e)) % 2 ^ tyWidth c.w.ty)
    | _ => .fin false 0 0

/-- R180. -/
def execGcvt (w : Fields) (s : State) : Host.Outcome State Fault Refusal :=
  runInstr (.gcvt w) (fun c => c.withSpans fun l => c.writeGrain l fun sp => gcvtVec (sp.flatMap (c.components c.w.a))) s

/-- R181: component values of the acting lanes, given the conversion of one component. -/
def Ctx.gexp (c : Ctx) (full : Bool) (f : GSrc → Int → Rounded) : Eff :=
  c.withSpans fun l => c.withSrc full c.w.a l fun a =>
    let t := c.w.ty
    let regs := 16 / tyElems t
    let lane (sp : GSpan) (x : Nat) : Rounded := packRounded t (((chunks 16 sp.length (a sp).c).getD x []).map (f (a sp)))
    let of_ (x : Nat) : Rounded := match l.filter fun sp => sp.contains x with
      | sp :: _ => lane sp (sp.idxOf x)
      | [] => ⟨0, 0⟩
    .done (setFlags (c.fixed 10 (destCells c t regs fun x => (of_ x).bits)) c.ag (exUnion (c.lanes.map fun x => (of_ x).ex)))

def execGexpDir (w : Fields) (s : State) : Host.Outcome State Fault Refusal :=
  runInstr (.gexpDir w) (fun c => c.gexp false fun _ x => roundPow (fmtOf c.w.ty) x (-14) 0) s
def execGexpVal (w : Fields) (s : State) : Host.Outcome State Fault Refusal :=
  runInstr (.gexpVal w) (fun c => c.gexp true fun a x =>
    if a.zero then ⟨0, 0⟩ else roundPow (fmtOf c.w.ty) x (-14) (normVal a.n)) s

/-- A value of every lane of each acting span, latency 10. -/
def Ctx.spanValue (c : Ctx) (l : List GSpan) (val : GSpan → Rounded) (flags : List RegCell) : Eff :=
  let of_ (x : Nat) : Nat := match l.filter fun sp => sp.contains x with
    | sp :: _ => (val sp).bits
    | [] => 0
  .done (setFlags (c.fixed 10 (destCells c .f32 1 of_ ++ flags)) c.ag (exUnion (l.map fun sp => (val sp).ex)))

/-- R188. -/
def Ctx.gdot (c : Ctx) (full : Bool) : Eff :=
  c.withSpans fun l => c.withSrc full c.w.a l fun a => c.withSrc full c.w.b l fun b =>
    let zero (sp : GSpan) : Bool := (a sp).zero || (b sp).zero
    let val (sp : GSpan) : Rounded :=
      if zero sp then ⟨0, 0⟩
      else roundPow .f32 (gdotInt (a sp).c (b sp).c) (-28) (if full then normVal (a sp).n + normVal (b sp).n else 0)
    c.spanValue l val (flagCells (fpCode c.w) (l.flatMap fun sp => sp.map fun x => (x, zero sp)))

def execGdotCos (w : Fields) (s : State) : Host.Outcome State Fault Refusal := runInstr (.gdotCos w) (fun c => c.gdot false) s
def execGdotFull (w : Fields) (s : State) : Host.Outcome State Fault Refusal := runInstr (.gdotFull w) (fun c => c.gdot true) s

/-- R184: B in the span's lowest lane. -/
def execGscl (w : Fields) (s : State) : Host.Outcome State Fault Refusal :=
  runInstr (.gscl w) (fun c => c.grain1 fun sp a => gsclVec a.vec (sext (c.b (sp.headD 0)) 32)) s

/-- R182. -/
def execGadd (w : Fields) (s : State) : Host.Outcome State Fault Refusal :=
  runInstr (.gadd w) (fun c => c.grain2 fun _ a b => gaddVec false a b) s
def execGaddSub (w : Fields) (s : State) : Host.Outcome State Fault Refusal :=
  runInstr (.gaddSub w) (fun c => c.grain2 fun _ a b => gaddVec true a b) s

/-- R183. -/
def execGneg (w : Fields) (s : State) : Host.Outcome State Fault Refusal :=
  runInstr (.gneg w) (fun c => c.grain1 fun _ a => { a.vec with c := a.c.map fun x => -x }) s
def execGmov (w : Fields) (s : State) : Host.Outcome State Fault Refusal :=
  runInstr (.gmov w) (fun c => c.grain1 fun _ a => a.vec) s

/-- Table 8.4. GNRM.f32 of a norm below 2^-126 sets UF as R45 says of every result, though the table names OF and NX (log 82). -/
def gnrmVal (form : Nat) (n : Nat) : Rounded :=
  match form with
  | 0 => ⟨wrap (normVal n) 32, 0⟩
  | 1 => if n = gZero then ⟨0, 0⟩ else roundPow .f32 1 0 (normVal n)
  | _ =>
    if n = gZero then ⟨0xFF800000, 0⟩
    else if normVal n = 0 then ⟨0, 0⟩
    else roundMag .f32 0 false (decide (normVal n < 0)) (normVal n).natAbs (-15)

/-- R189. -/
def execGnrm (w : Fields) (s : State) : Host.Outcome State Fault Refusal :=
  runInstr (.gnrm w) (fun c => c.withSpans fun l => c.withSrc true c.w.a l fun a =>
    c.spanValue l (fun sp => gnrmVal (fpCode c.w) (a sp).vec.n) []) s

/-- R185. -/
def execGsetn (w : Fields) (s : State) : Host.Outcome State Fault Refusal :=
  runInstr (.gsetn w) (fun c => c.grain1 fun sp a => gsetnVec a.vec (c.b (sp.headD 0))) s

/-- R186. -/
def execGproj (w : Fields) (s : State) : Host.Outcome State Fault Refusal :=
  runInstr (.gproj w) (fun c => c.grain2 fun _ a b => gprojVec a b) s

/-- R187. -/
def execGlerp (w : Fields) (s : State) : Host.Outcome State Fault Refusal :=
  runInstr (.glerp w) (fun c => c.grain2 fun sp a b =>
    let k := glerpWeight (c.c' (sp.headD 0))
    glerpVec a b k.1 k.2) s

/-! ### Memory forms -/

/-- The parks of GLD by span (R190): lanes that faulted, and the other lanes of their spans. -/
def gldParks (c : Ctx) (l : List GSpan) (bad : List (Nat × Nat × Nat)) : List Park :=
  (parksOf c c.lanes.length bad).map fun p =>
    let whole := maskOf ((l.filter fun sp => sp.any fun x => p.lanes.getLsbD x).flatten)
    { p with also := whole &&& ~~~p.lanes }

/-- R190, R191. -/
def Ctx.gld (c : Ctx) : Eff :=
  c.withSpans fun l => c.global (c.capAt c.w.a) 32 32 permR fun s acc =>
    let s := drainCommitted s c.ag.core c.ag.slot
    let bad := badOf acc
    let whole := l.filter fun sp => !sp.any fun x => bad.any fun b => b.1 == x
    let (vals, s) := c.loadLanes 32 s ((goodOf acc).filter fun e => whole.any fun sp => sp.contains e.1)
    let res (sp : GSpan) : GVec := gldVec (sp.flatMap fun x => dirComps (valueIn vals x)) (c.c' (sp.headD 0)) sp.length
    let cells := match c.w.d with
      | .g n => whole.flatMap fun sp => (gCells c n.toNat sp (res sp)).1 ++ (gCells c n.toNat sp (res sp)).2
      | _ => []
    let s := setFlags (writeLong s c.ag cells) c.ag (exUnion (whole.map fun sp => (res sp).ex))
    match c.endLanes s acc with
    | .park s _ => .park s (gldParks c l bad)
    | e => e

def execGld (w : Fields) (s : State) : Host.Outcome State Fault Refusal := runInstr (.gld w) (fun c => c.gld) s

/-- The instruction over every lane in which it acts, also those that a replay or a re-execution is not for: a GST that stores
in some lanes of a span still has the span's other threads (R190, R334, log 81). -/
def Ctx.whole (c : Ctx) : Ctx :=
  if c.sp.only.isSome then { c with lanes := actingLanes { c with sp := { c.sp with only := none } } } else c

/-- R190, R191: the components of each lane. -/
def Ctx.gst (c : Ctx) : Eff :=
  c.whole.withSpans fun l => c.whole.withSrc false c.w.d l fun a =>
    c.global (c.capAt c.w.a) 32 32 permW fun s acc =>
      c.storeOver s acc fun x => match l.filter fun sp => sp.contains x with
        | sp :: _ => leBytes (packElems 16 (((chunks 16 sp.length (a sp).c).getD (sp.idxOf x) []).map fun y => wrap y 16)) 32
        | [] => []

def execGst (w : Fields) (s : State) : Host.Outcome State Fault Refusal := runInstr (.gst w) (fun c => c.regional c.gst) s

end Sys2Proof.Machine
end

