-- ==== Sys2Proof/Machine/Memory.lean ====
section
/-! DEFINITION. Capabilities, loads and stores, prefetch and AXL (R97 to R104, R249, R250). -/
namespace Sys2Proof.Machine
open Sys2Proof

/-- CAPSET's result or CAP_BOUNDS with the address it concerns (R102, R193, R197). -/
def capsetVal (p : CapReg) (off : Nat) (len : Option Nat) (perms : Nat) : Option CapReg :=
  let base := p.cap.base.toNat + off
  if 2 ^ 57 ≤ base then none
  else
    let ok : Option (Nat × Nat) :=
      match len with
      | some n =>
        let (m, e) := lenCeil n
        if p.cap.len < off + m * 2 ^ e ∨ 2 ^ 57 < base + m * 2 ^ e then none else some (m, e)
      | none => if p.cap.len < off then none else some (lenFloor (Nat.min (p.cap.len - off) (2 ^ 57 - base)))
    match ok with
    | none => none
    | some (m, e) =>
      let c := { p.cap with base := BitVec.ofNat 57 base, lenM := BitVec.ofNat 18 m, lenE := BitVec.ofNat 6 e,
                            pr := p.cap.pr && perms.testBit 3, pw := p.cap.pw && perms.testBit 2,
                            px := p.cap.px && perms.testBit 1, pa := p.cap.pa && perms.testBit 0 }
      if p.tv && decide (off < p.tlim.toNat) then
        some ⟨c, true, BitVec.ofNat 48 (p.tpa.toNat + off), BitVec.ofNat 40 (Nat.min (p.tlim.toNat - off) (m * 2 ^ e))⟩
      else some ⟨c, false, 0, 0⟩

/-- R102. -/
def execCapset (w : Fields) (s : State) : Host.Outcome State Fault Refusal :=
  runInstr (.capset w) (fun c =>
    if c.lanes.isEmpty then .done c.s
    else
      let p := c.cap c.w.a
      let off := c.b64 c.lane0
      match capsetVal p off (if cimm c.w then some (c.c64 c.lane0) else none) (vr c.w) with
      | some r => c.alu fun _ => capRegBits r
      | none => .fault c.s fCapBounds (infoVa p off) c.amask) s

/-- R103. -/
def execCapchk (w : Fields) (s : State) : Host.Outcome State Fault Refusal :=
  runInstr (.capchk w) (fun c => c.alu fun l =>
    ((c.capAt c.w.a l).cap.has (vr c.w) && decide (c.b l + c.c' l ≤ (c.capAt c.w.a l).cap.len)).toNat) s

/-- The tag that held stores of the region give a granule (R337). -/
def Ctx.heldTag (c : Ctx) (p : Place) (tag : Bool) : Bool :=
  match c.g.region with
  | none => tag
  | some r => if c.sp.inHandler then tag else r.held.foldl (fun t h =>
      match h with
      | .capStore q _ => if overlaySame p q = some 0 then true else t
      | .store q bs =>
        match overlaySame p q with
        | some d => if d < 16 ∧ -(bs.length : Int) < d then false else t
        | none => t
      | _ => t) tag

/-- The sixteen bytes and the tag that CAPLD reads. CXL memory and other devices' tags: R195, log 13. -/
def Ctx.readCap (c : Ctx) (s : State) (p : Place) : Nat × Bool × State :=
  let (bs, t) := c.loadPlace s p 16
  let tag := match p with
    | .mem _ _ pa =>
      let (_, tags, _) := l1Load s c.who pa 16
      tags.getLsbD (pa % 128 / 16) && !isCxl pa
    | .sp _ _ _ => false
    | .far d va => Config.freeBit s.free (d * 2 ^ 57 + va)
  (ofLeBytes bs, c.heldTag p tag, t)

/-- R370: memory of the host holds no validity tags, so a CAPLD through its capability raises CAP_TAG, once its other checks pass. -/
def Ctx.hostTag (c : Ctx) (e : Eff) : Eff :=
  match c.accessLanes with
  | [] => e
  | l :: _ =>
    let r := c.capAt c.w.a l
    if r.cap.device != 0xFFFFF#20 then e
    else .fault c.s ((capCheck c.s c.who r.cap (c.offset l) 16 16 permR true).getD fCapTag) (infoVa r (c.offset l)) c.amask

/-- R104, R195. -/
def execCapld (w : Fields) (s : State) : Host.Outcome State Fault Refusal :=
  runInstr (.capld w) (fun c => c.hostTag <| c.global (c.capAt c.w.a) 16 16 permR fun s acc =>
    match goodOf acc with
    | [] => c.endLanes s acc
    | e :: _ =>
      let (v, tag, s) := c.readCap (drainCommitted s c.ag.core c.ag.slot) e.2
      if tag then .done (writeLong s c.ag (destCells c c.w.ty 4 fun _ => capRegBits ⟨capOfBits v, false, 0, 0⟩))
      else .fault s fCapTag (match acc with | a :: _ => a.va | [] => 0) c.amask) s

/-- R104, R195. -/
def execCapst (w : Fields) (s : State) : Host.Outcome State Fault Refusal :=
  runInstr (.capst w) (fun c => c.regional (c.global (c.capAt c.w.a) 16 16 permW fun s acc =>
    match goodOf acc with
    | (_, .mem va t pa) :: _ =>
      if isCxl pa then .fault s fCapTag va c.amask
      else c.emit s [.capStore (.mem va t pa) (c.cap c.w.d).cap] fun s => .done s
    | e :: _ => c.emit s [.capStore e.2 (c.cap c.w.d).cap] fun s => .done s
    | [] => c.endLanes s acc)) s

/-- R99. -/
def execLd (w : Fields) (s : State) : Host.Outcome State Fault Refusal :=
  runInstr (.ld w) (fun c => c.global (c.capAt c.w.a) (accessSize c.w) (accessSize c.w) permR fun s acc => c.loadOver s acc) s

/-- Side bytes 16q to 16q + 15 of the line at an address (R211). -/
def sideBytes (s : State) (pa : Nat) : List Byte :=
  let side := match tabFind s.l2 (pa / 128) with
    | some l => if l.ftag = 0 then [] else l.side
    | none => if (sideFill s pa).1 = 0 then [] else (sideFill s pa).2
  let q := bits pa 6 5
  (padTo 64 side).drop (16 * q) |>.take 16

def Ctx.sideLanes (c : Ctx) : State → List (Nat × Place) → List (Nat × Nat) × State
  | s, [] => ([], s)
  | s, (l, p) :: rest =>
    let (bs, s) : List Byte × State := match p with
      | .mem _ _ pa => let s := l2Touch s c.who pa false; (sideBytes s pa, s)
      | .far d va => ((List.range 16).map fun i => Config.freeByte s.free (d * 2 ^ 57 + va + i), countFar s c.who.part d 16)
      | .sp _ _ _ => ([], s)
    let (vs, s) := c.sideLanes s rest
    ((l, ofLeBytes bs) :: vs, s)

/-- R100, R211. -/
def execLdSide (w : Fields) (s : State) : Host.Outcome State Fault Refusal :=
  runInstr (.ldSide w) (fun c => c.global (c.capAt c.w.a) 16 16 permR fun s acc =>
    let s := drainCommitted s c.ag.core c.ag.slot
    let good := goodOf acc
    let (vs, s) := c.sideLanes s good
    let cells := destCells { c with lanes := good.map (·.1) } c.w.ty 4 fun l => valueIn vs l
    c.endLanes (writeLong s c.ag cells) acc) s

/-- R99. -/
def execSt (w : Fields) (s : State) : Host.Outcome State Fault Refusal :=
  runInstr (.st w) (fun c => c.regional
    (c.globalAll (c.capAt c.w.a) (accessSize c.w) (accessSize c.w) permW fun s acc => c.storeOver s acc c.storeData)) s

/-- One lane of a prefetch: it goes ahead only if every step of R194 would pass (R249). -/
def Ctx.prefetch (c : Ctx) (s : State) (r : CapReg) (lane : Nat) : State :=
  let o := c.offset lane
  match capCheck s c.who r.cap o 1 1 permR with
  | some _ => s
  | none =>
    match reach s c.who c.ag.core r o.toNat 1 permR with
    | .ok (.mem pa) =>
      let s := reached s c.who r o.toNat 1
      if vr c.w = 0 then (l1Load s c.who pa 1).2.2 else l2Touch s c.who pa false
    | _ => s

def execPref (w : Fields) (s : State) : Host.Outcome State Fault Refusal :=
  runInstr (.pref w) (fun c => .done (c.lanes.foldl (fun s l => c.prefetch s (c.capAt c.w.a l) l) c.s)) s

/-- Bytes from an address to the end of an entry's extent. -/
def extentLeft (e : TlbEntry) (va : Nat) : Nat := (e.vpn + 2 ^ e.extent) * 2 ^ 16 - va

/-- R250. -/
def execAxl (w : Fields) (s : State) : Host.Outcome State Fault Refusal :=
  runInstr (.axl w) (fun c =>
    let r := c.cap c.w.d
    let va := r.cap.base.toNat
    let put (s : State) (x : CapReg) : Eff := .done (writeNow s c.ag (destCells c c.w.ty 4 fun _ => capRegBits x))
    let bad (code : Nat) : Eff := c.endLanes c.s [⟨c.lane0, va, .error code⟩]
    if r.cap.len = 0 ∨ r.cap.device ≠ c.s.regs.deviceId ∨ r.cap.perms = 0 then put c.s ⟨r.cap, false, 0, 0⟩
    else
      match xlatEntry c.s c.who va with
      | .error code => bad code
      | .ok e =>
        match physCheck c.s c.who c.ag.core (tlbPa e va) 0 with
        | some code => bad code
        | none =>
          put (tlbFill c.s c.ag.core e)
            ⟨r.cap, true, BitVec.ofNat 48 (tlbPa e va), BitVec.ofNat 40 (Nat.min r.cap.len (extentLeft e va))⟩) s

end Sys2Proof.Machine
end

