-- ==== Sys2Proof/Machine/System.lean ====
section
/-! DEFINITION. Regions, traps, control and status registers, events, counters, and translation invalidation as instructions
(R336 to R338, R353 to R366). -/
namespace Sys2Proof.Machine
open Sys2Proof

/-! ### Regions -/

/-- The live-in set of RGNB's mask (R353). -/
def Ctx.liveMask (c : Ctx) : List Nat :=
  (List.range 256).filter fun n => (c.kAt c.w.a (n / 64)).testBit (n % 64)

/-- Bytes of a snapshot in the checkpoint banks (R392). -/
def snapshotBytes (live : List Nat) : Nat := 1280 + 128 * live.length

/-- Whether a snapshot of the group finds space (R336). -/
def Ctx.banksFree (c : Ctx) (live : List Nat) : Bool :=
  decide (banksUsed (c.s.core c.ag.core) c.ag.slot + snapshotBytes live ≤ bankBytes)

/-- R336, R353: take a snapshot whose marker is the next instruction; it supersedes an earlier one. -/
def Ctx.snapshot (c : Ctx) (s : State) (live : List Nat) (opens : Bool) : State :=
  let keep (t : Tab Word) : Tab Word := t.filter fun e => live.contains (e.1 / 32)
  let s := s.modGroup c.ag.core c.ag.slot fun g =>
    match tabFind g.splits c.ag.split with
    | none => g
    | some sp =>
      let marker : Split :=
        { sp.next with
          run := 0, flight := [], pending := [], unawaited := [], latch := [], readyAt := 0, cut := false, wait := none
          parked := [], only := none, pkHold := none, counted := false, resumed := false }
      let snap : Snapshot :=
        { opens := opens, live := live, bytes := snapshotBytes live, phase := 1, due := c.now + 1, v := keep g.v, p := g.p, sr := g.sr, pk := g.pk,
          split := marker, slot := c.ag.split, stack := g.stack, exited := g.exited, arrivals := g.arrivals }
      { g with snapshot := some snap }
  s.modCore c.ag.core fun k => { k with banks := tabPut k.banks c.ag.slot (snapshotBytes live) }

/-- R336, R353. -/
def execRgnb (w : Fields) (s : State) : Host.Outcome State Fault Refusal :=
  runInstr (.rgnb w) (fun c =>
    if c.g.region.isSome || c.g.splits.length != 1 then c.trap fRegionNest
    else if !(match c.s.launch? c.g.launch with | some l => l.hasSave | none => false) then c.trap fIllegalOp
    else
      let live := c.liveMask
      if 32 < live.length || live.any (fun n => decide (c.g.vregs ≤ n)) then c.trap fIllegalOperand
      else if !c.g.committed.isEmpty then .wait c.s .drain
      else if !c.banksFree live then .wait c.s (.snapshot (snapshotBytes live))
      else
        let s := c.s.modGroup c.ag.core c.ag.slot fun g =>
          { g with region := some ⟨live, g.stack.length, []⟩, evictions := 0 }
        let s := c.snapshot s live true
        .done (s.modSplit c.ag fun sp => { sp with readyAt := c.now + (128 * live.length + 255) / 256 + 2 })) s

/-- REGION_NEST of RGNE and RGNX. -/
def Ctx.inRegion (c : Ctx) (f : Region → Eff) : Eff :=
  match c.g.region with
  | none => c.trap fRegionNest
  | some r => if c.g.splits.length != 1 || c.g.stack.length != r.depth then c.trap fRegionNest else f r

/-- R337, R338, R354: the entries are committed, and in a harvest group a snapshot is taken. -/
def execRgne (w : Fields) (s : State) : Host.Outcome State Fault Refusal :=
  runInstr (.rgne w) (fun c => c.inRegion fun r =>
    if c.who.cls && !c.banksFree r.live then .wait c.s (.snapshot (snapshotBytes r.live))
    else
      let s := c.s.modGroup c.ag.core c.ag.slot fun g =>
        { g with region := none, committed := g.committed ++ r.held, evictions := if c.who.cls then 0 else g.evictions }
      let s := countPrivate s c.who 5
      .done (if c.who.cls then c.snapshot s r.live false else s)) s

/-- R355. -/
def execRgnx (w : Fields) (s : State) : Host.Outcome State Fault Refusal :=
  runInstr (.rgnx w) (fun c => c.inRegion fun _ =>
    .done (countPrivate (c.s.modGroup c.ag.core c.ag.slot fun g => { g with region := none }) c.who 6)) s

/-! ### Traps -/

/-- R326, R356. TRAP is not executed again by TRET, whatever TRAP_PC then holds. -/
def execTrap (w : Fields) (s : State) : Host.Outcome State Fault Refusal :=
  runInstr (.trap w) (fun c =>
    let value := c.w.imm.toNat % 2 ^ 16
    if c.stream || c.sp.tvec == 0 then .done c.s
    else if c.sp.inHandler then .fault c.s fTrapSw value c.sp.mask
    else .settled (enterTrap (freeQuad c.s c.ag) c.ag fTrapSw value c.sp.mask (c.sp.pc + 12) 1)) s

/-- R329, R357. -/
def execTret (w : Fields) (s : State) : Host.Outcome State Fault Refusal :=
  runInstr (.tret w) (fun c =>
    if !c.sp.inHandler then c.trap fIllegalOp
    else
      let s := (freeQuad c.s c.ag).modSplit c.ag fun sp => sp.endRun 7
      .settled ((leaveTrap s c.ag).modSplit c.ag fun sp => { sp with readyAt := c.nextCycle })) s

/-- R358. -/
def execHalt (w : Fields) (s : State) : Host.Outcome State Fault Refusal :=
  runInstr (.halt w) (fun c =>
    if isHeadstock c.ag.core then .done (c.s.modCore c.ag.core fun k => { k with halted := true })
    else if portFull c.s (dieOf c.ag.core) (faultClass c.s c.ag c.g 1) then .wait c.s (.port (faultClass c.s c.ag c.g 1))
    else
      let code := c.sp.trapCode.toNat
      .settled (endLaunch c.s c.g.launch code
        { splitRecord c.s c.ag c.g c.sp code 1 c.sp.trapInfo.toNat c.sp.trapEntry with pc := c.sp.trapPc })) s

/-! ### Control and status registers (R359 to R361) -/

/-- A region entry as the region CSRs show it: kind, address, and for a line its bytes. -/
structure RgnEntry where
  kind : Nat
  addr : Nat
  line : Option (Nat × Nat × Nat)

/-- The address by which a place's line is shown. -/
def Place.show (p : Place) : Nat :=
  match p with
  | .mem va _ _ => va
  | .sp _ _ addr => addr
  | .far _ va => va

def lineEntry (p : Place) : RgnEntry :=
  ⟨match p with | .sp _ _ _ => 1 | _ => 0, p.show / 128 * 128, some p.line⟩

/-- The destination offset of a copy. -/
def CopyShape.doff : CopyShape → Nat
  | .linear d _ _ => d
  | .strided d _ _ _ _ _ _ _ _ _ _ _ => d
  | .gather d _ _ _ _ _ => d
  | .shard _ _ _ _ _ => 0

/-- The entries of held operations in order of first use (R337, Table 16.3). -/
def rgnEntries (held : List Held) : List RgnEntry :=
  let addLine (l : List RgnEntry) (p : Place) : List RgnEntry :=
    if l.any fun e => e.line == some p.line then l else l ++ [lineEntry p]
  held.foldl (fun l h => match h with
    | .store p _ => addLine l p
    | .capStore p _ => addLine l p
    | .atomic kind _ _ lanes =>
      let firsts := lanes.foldl (fun (a : List Place) x => if a.any fun q => q.line == x.1.line then a else a ++ [x.1]) []
      l ++ firsts.map fun p => ⟨if kind = 2 then 2 else 3, p.show, none⟩
    | .copy _ dst _ _ shape =>
      l ++ [⟨match shape with | .shard _ _ _ _ _ => 6 | _ => 4, wrap ((dst.base.toNat : Int) + shape.doff) 57, none⟩]
    | .cut _ p => l ++ [⟨5, p.show, none⟩]
    | .bind b => l ++ [⟨5, b.base, none⟩]
    | .unbind _ base _ => l ++ [⟨5, base, none⟩]
    | .unbindWord _ word => l ++ [⟨5, word, none⟩]) []

/-- The bytes that held stores give a line: per byte, whether written and the value. -/
def lineBytes (held : List Held) (line : Nat × Nat × Nat) (part : Nat) : List (Option Byte) :=
  let offset (p : Place) : Nat := match p with | .mem va _ _ => va % 128 | .sp _ off _ => off % 128 | .far _ va => va % 128
  let put (l : List (Option Byte)) (p : Place) (bs : List Byte) : List (Option Byte) :=
    if p.line = line then
      (List.range 8).map fun i =>
        let at_ := part * 8 + i
        if offset p ≤ at_ ∧ at_ < offset p + bs.length then some (bs.getD (at_ - offset p) 0) else l.getD i none
    else l
  held.foldl (fun l h => match h with
    | .store p bs => put l p bs
    | .capStore p c => put l p (leBytes (capBits c) 16)
    | _ => l) (List.replicate 8 none)

/-- The entries in the region store buffer: committed ones that are still to be performed, and those of the open region. -/
def Group.held (g : Group) : List Held := g.committed ++ (match g.region with | some r => r.held | none => [])

/-- The entry that RGN_SEL names. -/
def Group.shown (g : Group) : Option RgnEntry := (rgnEntries g.held)[g.rgnSel.toNat % 64]?

/-- RGN_DATA and RGN_BYTES; a byte of the part that no store wrote is a free value. -/
def Ctx.rgnPart (c : Ctx) : List (Option Byte) :=
  match c.g.shown with
  | some ⟨_, _, some l⟩ => lineBytes c.g.held l (c.g.rgnSel.toNat / 64)
  | _ => List.replicate 8 (some 0)

/-- A CSR's value for a vector split (Table 16.2); none where the number is not of its set. -/
def Ctx.csrSplit (c : Ctx) (n : Nat) : Option Nat :=
  let trap (v : Nat) : Nat := if c.sp.inHandler then v else 0
  match n with
  | 0x000 => some c.sp.ctl.toNat
  | 0x001 => some c.sp.status.toNat
  | 0x002 => some c.sp.srseed.toNat
  | 0x010 => some (tabGet 0#32 c.g.pk 0).toNat
  | 0x011 => some (tabGet 0#32 c.g.pk 1).toNat
  | 0x012 => some (tabGet 0#32 c.g.pk 2).toNat
  | 0x013 => some (tabGet 0#32 c.g.pk 3).toNat
  | 0x020 => some c.sp.tvec.toNat
  | 0x021 => some (trap c.sp.trapCode.toNat)
  | 0x022 => some (trap c.sp.trapPc.toNat)
  | 0x023 => some (trap c.sp.trapMask.toNat)
  | 0x024 => some (trap c.sp.trapInfo.toNat)
  | 0x030 =>
    let snap := match c.g.snapshot with | some x => x.phase | none => 0
    some ((if c.g.region.isSome then 2 ^ 63 else 0) + snap * 2 ^ 61 + (if c.g.committed.isEmpty then 0 else 2 ^ 60)
      + entriesUsed c.g.held)
  | 0x031 => some c.g.rgnSel.toNat
  | 0x032 => some (match c.g.shown with | some e => e.kind * 2 ^ 60 + e.addr % 2 ^ 57 | none => 15 * 2 ^ 60)
  | 0x033 => some (ofLeBytes ((c.rgnPart.zip (List.range 8)).map fun b => b.1.getD (Config.freeByte c.s.free b.2)))
  | 0x034 =>
    some (match c.g.shown with
      | some ⟨_, _, some _⟩ => ((c.rgnPart.zip (List.range 8)).foldl (fun m b => if b.1.isSome then m + 2 ^ b.2 else m) 0)
      | _ => 0)
  | 0x050 => some (c.now % 2 ^ 64)
  | _ => none

/-- A CSR's value for the executing agent. -/
def Ctx.csr (c : Ctx) (n : Nat) : Option Nat :=
  if c.stream then
    match n with
    | 0x040 => some (mxStatusVal c.s c.ag.core c.g)
    | 0x050 => some (c.now % 2 ^ 64)
    | _ => none
  else c.csrSplit n

/-- The context once the group's committed entries have been performed: cut-word operations among them set flags (R256). -/
def Ctx.drained (c : Ctx) : Ctx :=
  let s := drainCommitted c.s c.ag.core c.ag.slot
  { c with s := s, sp := (s.split? c.ag).getD c.sp }

/-- R359. Flags and peak registers are updated at issue but for those of committed entries, which SPLIT_STATUS waits for, and
of matrix operations, which MXSTATUS waits for. -/
def execCsrr (w : Fields) (s : State) : Host.Outcome State Fault Refusal :=
  runInstr (.csrr w) (fun c =>
    let n := c.w.imm.toNat % 2 ^ 12
    let c := if n = 0x001 && !c.g.committed.isEmpty then c.drained else c
    match c.csr n with
    | none => c.trap fIllegalOperand
    | some v =>
      if n = 0x040 && !(flagOps c.s c.ag.core c.g).isEmpty then .wait c.s .flags
      else .done (c.fixed 4 (destCells c c.w.ty (tyRegs c.w.ty) fun _ => v))) s

/-- A write of SRSEED sets the states of the split's lanes (R50). -/
def Ctx.seed (c : Ctx) (v : Nat) : State :=
  let s := c.s.modGroup c.ag.core c.ag.slot fun g =>
    { g with sr := c.act.foldl (fun t l => tabPut t l (BitVec.ofNat 32 (srSeed v (g.vlane c.ag.slot l)))) g.sr }
  s.modSplit c.ag fun sp => { sp with srseed := BitVec.ofNat 32 v }

def setPk (s : State) (ag : Agent) (n v : Nat) : State :=
  s.modGroup ag.core ag.slot fun g => { g with pk := tabSet 0 g.pk n (BitVec.ofNat 32 (v % 2 ^ 31)) }

/-- An offset with bits [1:0] cleared (R360). -/
def alignedOff (v : Nat) : BitVec 57 := BitVec.ofNat 57 (v / 4 * 4)

/-- R359, R360: CSRW in a vector split; none raises ILLEGAL_OPERAND. -/
def Ctx.csrwSplit (c : Ctx) (n v : Nat) : Option State :=
  let put (f : Split → Split) : Option State := some (c.s.modSplit c.ag f)
  match n with
  | 0x000 => put fun sp => { sp with ctl := BitVec.ofNat 32 (v % 4) }
  | 0x001 => put fun sp => { sp with status := sp.status &&& ~~~(BitVec.ofNat 32 v) }
  | 0x002 => some (c.seed (v % 2 ^ 32))
  | 0x010 => some (setPk c.s c.ag 0 v)
  | 0x011 => some (setPk c.s c.ag 1 v)
  | 0x012 => some (setPk c.s c.ag 2 v)
  | 0x013 => some (setPk c.s c.ag 3 v)
  | 0x020 => put fun sp => { sp with tvec := alignedOff v }
  | 0x022 => if c.sp.inHandler then put fun sp => { sp with trapPc := alignedOff v } else none
  | 0x023 => if c.sp.inHandler then put fun sp => { sp with trapMask := BitVec.ofNat 32 v &&& sp.trapEntry } else none
  | 0x031 => some (c.s.modGroup c.ag.core c.ag.slot fun g => { g with rgnSel := BitVec.ofNat 10 v })
  | _ => none

/-- CSRW for the executing agent. -/
def Ctx.csrw (c : Ctx) (n v : Nat) : Option State :=
  if c.stream then
    match n with
    | 0x040 => some (c.s.modGroup c.ag.core c.ag.slot fun g =>
        { g with mxstatus := g.mxstatus &&& ~~~(BitVec.ofNat 32 (Nat.land v (stCutLate + stCutWrap))) })
    | _ => none
  else c.csrwSplit n v

def execCsrw (w : Fields) (s : State) : Host.Outcome State Fault Refusal :=
  runInstr (.csrw w) (fun c =>
    match c.csrw (c.w.imm.toNat % 2 ^ 12) (c.a64 c.lane0) with
    | none => c.trap fIllegalOperand
    | some s => .done s) s

/-- CSRW.code: TVEC receives the target's offset. -/
def execCsrwCode (w : Fields) (s : State) : Host.Outcome State Fault Refusal :=
  runInstr (.csrwCode w) (fun c =>
    if c.stream then c.trap fIllegalOperand
    else .done (c.s.modSplit c.ag fun sp =>
      { sp with tvec := alignedOff (wrap ((c.codeTarget : Int) - c.a0.cap.base.toNat) 57) })) s

/-! ### Events (R362) -/

def execWfe (w : Fields) (s : State) : Host.Outcome State Fault Refusal :=
  runInstr (.wfe w) (fun c =>
    let n := c.w.imm.toNat % 2 ^ 16
    let clear (s : State) : State := s.modSplit c.ag fun sp => { sp with ev := false }
    match c.sp.wait with
    | some (.event t) => if c.sp.ev || decide (t ≤ c.now) then .done (clear c.s) else .wait c.s (.event t)
    | _ => if c.sp.ev then .done (clear c.s) else if n = 0 then .done c.s else .wait (c.stalled c.s) (.event (c.now + 16 * n))) s

/-- Set EV in every split and stream of a context on some cores; waiting ones are ready at a cycle. -/
def sendEvent (s : State) (ctx : BitVec 12) (cores : List Nat) (t : Nat) : State :=
  { s with groups := s.groups.map fun e =>
      if e.2.context == ctx && cores.contains (e.1 / 65) then
        (e.1, { e.2 with splits := e.2.splits.map fun x =>
          let woken := match x.2.wait with | some (.event _) => true | _ => false
          (x.1, { x.2 with ev := true, readyAt := if woken then Nat.max x.2.readyAt t else x.2.readyAt }) })
      else e }

/-- The cores of a group's cluster. -/
def clusterCores (s : State) (core : Nat) (g : Group) : List Nat :=
  match s.launch? g.launch with
  | some l => core :: (l.teams.filter fun t => t.1 == g.cluster).map fun t => t.2.2.1
  | none => [core]

def execSevCore (w : Fields) (s : State) : Host.Outcome State Fault Refusal :=
  runInstr (.sevCore w) (fun c => .done (sendEvent c.s c.g.context [c.ag.core] (c.now + 8))) s
def execSevCluster (w : Fields) (s : State) : Host.Outcome State Fault Refusal :=
  runInstr (.sevCluster w) (fun c => .done (sendEvent c.s c.g.context (clusterCores c.s c.ag.core c.g) (c.now + 24))) s

/-! ### Counters and meters -/

/-- R379: a shared counter as a context reads it at a cycle. -/
def sharedCounter (x : Context) (no t : Nat) : Nat :=
  let c := sumNat ((x.shared.filter fun e => e.1 == no && decide (e.2.1 + Config.sharedDelay ≤ t)).map fun e => e.2.2)
  (tabGet 0 x.sharedBase no + 1024 * (c / 1024)) % 2 ^ 64

/-- A private counter of a context as a core reads it: counter 0 counts that core's splits alone. -/
def privateCounter (x : Context) (core no : Nat) : Nat :=
  if no = 0 then (tabGet 0#64 x.counters (core * 8)).toNat
  else sumNat ((x.counters.filter fun e => e.1 % 8 == no).map fun e => e.2.toNat) % 2 ^ 64

/-- R363. -/
def execPerfr (w : Fields) (s : State) : Host.Outcome State Fault Refusal :=
  runInstr (.perfr w) (fun c =>
    let a := c.a64 c.lane0
    let x := c.s.context c.who.context
    if a ≤ 7 then .done (c.fixed 4 (c.cells64 (privateCounter x c.ag.core a)))
    else if 16 ≤ a ∧ a ≤ 19 then .done (c.fixed 4 (c.cells64 (sharedCounter x a c.now)))
    else c.trap fIllegalOperand) s

/-- R364. -/
def execMetr (w : Fields) (s : State) : Host.Outcome State Fault Refusal :=
  runInstr (.metr w) (fun c =>
    let n := c.a64 c.lane0 % 256
    if n ≤ 3 ∨ (8 ≤ n ∧ n ≤ 11) then
      .done (writeLong c.s c.ag (c.cells64 (tabGet 0#64 c.s.meters (c.who.part * 16 + n)).toNat))
    else c.trap fIllegalOperand) s

/-! ### Translation invalidation (R366) -/

/-- A handler names only its own tenant. The invalidation completes when no access translated before is in flight (R201). -/
def Ctx.tlbiTenant (c : Ctx) (t : BitVec 12) (s : State → State) : Eff :=
  if !isHeadstock c.ag.core && t != c.who.tenant then c.trap fCapTenant else .done (s (settleFlight c.s (· == t)))

def execTlbiPage (w : Fields) (s : State) : Host.Outcome State Fault Refusal :=
  runInstr (.tlbiPage w) (fun c =>
    let t := BitVec.ofNat 12 (c.a64 c.lane0)
    c.tlbiTenant t fun s => shootPage s t (bits (c.b64 c.lane0) 56 16)) s
def execTlbiTenant (w : Fields) (s : State) : Host.Outcome State Fault Refusal :=
  runInstr (.tlbiTenant w) (fun c =>
    let t := BitVec.ofNat 12 (c.a64 c.lane0)
    c.tlbiTenant t fun s => shootTenant s t) s
def execTlbiAll (w : Fields) (s : State) : Host.Outcome State Fault Refusal :=
  runInstr (.tlbiAll w) (fun c => .done (shootAll (settleFlight c.s fun _ => true))) s

end Sys2Proof.Machine
end

