-- ==== Sys2Proof/Machine/Module.lean ====
section
/-! DEFINITION. Bring-up and recovery (R385, R386), power and junction (R390), firmware interrupts (R358), meter snapshots and
attestation (R377, R378), checkpoint restore (R381, R382) and live migration (R380). -/
namespace Sys2Proof.Machine
open Sys2Proof

/-! ### Bring-up (Tables 18.1 to 18.3) -/

/-- The largest firmware image: 64 MiB. -/
def imageLimit : Nat := 64 * 2 ^ 20

/-- Steps 2 and 3 of Table 18.1: the error that leads to recovery. -/
def imageError (run : BringUp) (len : Nat) : Option Nat :=
  if !run.flashOk then some 1
  else if imageLimit < len then some 5
  else if !run.signatureOk then some 2
  else if !run.versionOk then some 3
  else none

/-- The host port after its training: of x16 down to x1, and at a speed, as the PCIe specification gives. -/
def hostLink (r : Regs) (run : BringUp) (free : Nat) : Regs :=
  { r with pcie := run.pcieOk
           pcieLink := if run.pcieOk then some ⟨[16, 8, 4, 2, 1].getD (Config.freeNat free 26 % 5) 16, Config.freeNat free 27, Config.freeNat free 28⟩
             else none }

/-- Steps 4 to 6: the links that trained are in use, and the service controller runs. The Torwen ports are held down. -/
def startModule (r : Regs) (run : BringUp) (free : Nat) : Regs :=
  { hostLink r run free with
    stage := 6, err := if run.leushOk then 0 else 4, die1 := run.leushOk, stackUp := run.stacksOk, cxl := run.cxlOk, torwen := 0, shutDown := false }

/-- Recovery: only the host port trains, and STAGE is 15. -/
def enterRecovery (r : Regs) (run : BringUp) (free err : Nat) : Regs :=
  { hostLink r run free with
    stage := 15, err := err, die1 := false, stackUp := 0, cxl := false, torwen := 0, image := [], shutDown := false }

/-- POWER_ON_RESET: every register at its reset value, the incarnation one higher (R372), and the sequence of Table 18.1.
Without input power the reset is held. -/
def execPowerOnReset (run : BringUp) (s : State) : Host.Outcome State Fault Refusal :=
  let base : State := { State.reset with free := s.free, agenda := s.agenda }
  let r := { Regs.reset with incarnation := s.regs.incarnation + 1 }
  let regs :=
    if !run.inputOk then { r with stage := 1, shutDown := true }
    else
      match imageError run run.imageLen with
      | some e => enterRecovery r run s.free e
      | none => startModule r run s.free
  .next { base with regs := regs }.tick

/-- RECOVERY_CHUNK: a chunk of at most 1 MiB joins the image. -/
def execRecoveryChunk (data : List Byte) (s : State) : Host.Outcome State Fault Refusal :=
  if s.regs.stage = 15 ∧ data.length ≤ 2 ^ 20 then .next (s.modRegs fun r => { r with image := r.image ++ data }) else .next s

/-- RECOVERY_END: bring-up goes on from step 3 with the reloaded image. -/
def execRecoveryEnd (run : BringUp) (s : State) : Host.Outcome State Fault Refusal :=
  if s.regs.stage != 15 then .next s
  else
    .next (s.modRegs fun r =>
      match imageError { run with flashOk := true } r.image.length with
      | some e => enterRecovery r run s.free e
      | none => startModule r run s.free).tick

/-! ### Power and junction (R390) -/

/-- CLOCK_THROTTLE: the core clock moves in steps of 25 MHz, up to its nominal 1,750 MHz. Bounds in µs stay fixed in µs, so
the model keeps the clocks that have been (R3). -/
def execClockThrottle (mhz : Nat) (s : State) : Host.Outcome State Fault Refusal :=
  if mhz % 25 = 0 ∧ 25 ≤ mhz ∧ mhz ≤ 1750 then .next (s.modRegs fun r => { r with clockMhz := mhz, clockLog := r.clockLog ++ [(s.cycle, r.clockMhz)] }) else .next s

/-- The notice before a shutdown. The manual gives it no code, so CODE is open. -/
def shutdownNotice (s : State) : Record :=
  { info := noInfo s, lmask := 0, pc := 0, context := 0, tenant := (s.part 0).tenant, part := 0, queue := Config.freeNat s.free 9 % 4096,
    srck := 7, core := 0xFF, die := 0, gslot := 0, split := 0, code := Config.freeNat s.free 10 % 256, kind := 2 }

/-- THERMAL_SHUTDOWN: nothing runs after it. -/
def execThermalShutdown (notice : Bool) (s : State) : Host.Outcome State Fault Refusal :=
  let r := shutdownNotice s
  let t := if notice then (writeRecord s (ringOf s 0 0 2) r).getD (pushRecord s r) else s
  .next (t.modRegs fun x => { x with shutDown := true }).tick

/-- FIRMWARE_INTERRUPT: the die's headstock core issues again after a HALT (R358). -/
def execFirmwareInterrupt (die : Nat) (s : State) : Host.Outcome State Fault Refusal := keep s <|
  .next (s.modCore (die * Config.coreKeys + Config.meshCores) fun c => { c with halted := false })

/-! ### Meter snapshots (R377) -/

/-- The meters of Table 17.4 in their positions. -/
def meterList : List Nat := [0, 1, 2, 3, 8, 9, 10, 11]

/-- Bytes 0 to 159 of Table 17.4. -/
def snapshotBody (s : State) (part life seq prev : Nat) : List Byte :=
  leBytes seq 8 ++ leBytes life 8 ++ leBytes s.cycle 8 ++ leBytes (part % 16) 8
    ++ (meterList.flatMap fun m => leBytes (tabGet 0 s.meters (part * 16 + m)).toNat 8)
    ++ leBytes prev 48 ++ leBytes 0 16

/-- The 256 bytes with their signature over bytes 0 to 159. -/
def snapshotOf (s : State) (part life seq prev : Nat) : List Byte :=
  let b := snapshotBody s part life seq prev
  b ++ leBytes (Config.signature (ofLeBytes (sha384 b))).toNat 96

/-- The chain of a partition: life, next SEQ and the digest of the last snapshot. A partition that is there from reset has
its number as its life. -/
def chainOf (s : State) (part : Nat) : Nat × Nat × Nat := tabGet (part, 0, 0) s.chain part

/-- Put bytes at a physical address without translation. -/
def putBytes (s : State) (w : Who) (pa : Nat) (bs : List Byte) : State :=
  (chunks 128 (bs.length / 128 + 1) bs).zipIdx.foldl (fun s x => physWrite s w (pa + 128 * x.2) x.1) s

/-- A snapshot goes to memory and to the chain. -/
def takeSnapshot (s : State) (part dest : Nat) : State :=
  let (life, seq, prev) := chainOf s part
  let bs := snapshotOf s part life seq prev
  let w : Who := ⟨Config.meshCores, (s.part part).context, (s.part part).tenant, part, false⟩
  let s := putBytes s w dest bs
  { s with chain := tabPut s.chain part (life, (seq + 1) % 2 ^ 64, ofLeBytes (sha384 bs)), snapshots := tabPut s.snapshots part bs }

/-- METER_SNAPSHOT. `dest` is a physical address. -/
def execMeterSnapshot (part : Nat) (dest : Nat) (s : State) : Host.Outcome State Fault Refusal := keep s <|
  if part < 16 ∧ (s.part part).present = true ∧ (homeDie s.regs dest).isSome = true then .next (takeSnapshot s part dest)
  else .next s

/-! ### Attestation (R378) -/

/-- A response: version, code, and what the SPDM standard puts into it. -/
def respond (s : State) (code : Nat) (body : List Byte) : State :=
  ({ s with spdm := s.spdm ++ [0x13#8 :: BitVec.ofNat 8 code :: body ++ Config.spdmBody code s.free] }).tick

def execGetVersion (s : State) : Host.Outcome State Fault Refusal := keep s <| .next (respond s 0x04 [])
def execGetCapabilities (s : State) : Host.Outcome State Fault Refusal := keep s <| .next (respond s 0x61 [])
/-- The selections of the ALGORITHMS response, four bytes each: TPM_ALG_ECDSA_ECC_NIST_P384 and SHA-384. Their codes, 0x80 and
0x02, are the SPDM standard's, as are the fields that stand before and after them (log 18). -/
def algorithmSelections : List Byte := leBytes 0x80 4 ++ leBytes 0x02 4

/-- NEGOTIATE_ALGORITHMS: P-384 and SHA-384 only. -/
def execNegotiateAlgorithms (s : State) : Host.Outcome State Fault Refusal := keep s <| .next (respond s 0x63 algorithmSelections)
def execGetDigests (s : State) : Host.Outcome State Fault Refusal := keep s <| .next (respond s 0x01 [])
def execGetCertificate (s : State) : Host.Outcome State Fault Refusal := keep s <| .next (respond s 0x02 [])
def execChallenge (s : State) : Host.Outcome State Fault Refusal := keep s <| .next (respond s 0x03 [])

/-- GET_MEASUREMENTS: index 1 is the firmware image, 2 the configuration, 16 to 31 the latest snapshots in raw form; another
index is an error. -/
def execGetMeasurements (index : Nat) (s : State) : Host.Outcome State Fault Refusal := keep s <|
  if 16 ≤ index ∧ index ≤ 31 then .next (respond s 0x60 (tabGet [] s.snapshots (index - 16)))
  else if index = 1 then .next (respond s 0x60 (Config.imageMeasure s.regs.image))
  else if index = 2 then .next (respond s 0x60 (Config.configMeasure s.regs.parts s.coreOwner s.regs.access s.regs.vdcfg))
  else .next (respond s 0x7F [])

/-! ### Checkpoint restore (R382) -/

/-- A committed manifest slot: STEP and NSHARD (Table 17.6). -/
def manifestSlot (s : State) (pa : Nat) : Option (Nat × Nat) :=
  let v := s.num pa 64
  if v.testBit 0 then some (bits v 447 384, bits v 383 352) else none

/-- A shard of a job's step at an address, whose digest matches its data (Table 16.6). -/
def shardAt (s : State) (job step i pa : Nat) : Bool :=
  let v := s.num pa 64
  bits v 511 448 == job && bits v 447 384 == step && bits v 383 352 == i
    && sha256 (s.bytes (pa + 64) (bits v 319 256)) == s.bytes pa 32

/-- Where each shard of a step is found. -/
def findShards (s : State) (req : RestoreReq) (step : Nat) : Nat → Option (List Nat)
  | 0 => some []
  | n + 1 =>
    match findShards s req step n, (req.shards.filter fun pa => shardAt s req.job.toNat step n pa).head? with
    | some l, some pa => some (l ++ [pa])
    | _, _ => none

/-- The newest committed step whose shards are all there. -/
def restorable (s : State) (req : RestoreReq) : Option (Nat × List Nat) :=
  let slots := [req.manifest, req.manifest + 64].filterMap (manifestSlot s)
  let order := match slots with
    | [a, b] => if a.1 < b.1 then [b, a] else [a, b]
    | l => l
  (order.filterMap fun x => (findShards s req x.1 x.2).map fun l => (x.1, l)).head?

/-- A restore's notice. It names the context that asked. -/
def restoreNotice (s : State) (req : RestoreReq) (code info : Nat) : Record :=
  { info := info, lmask := 0, pc := 0, context := req.context, tenant := (s.context req.context).tenant, part := (s.context req.context).part,
    queue := Config.freeNat s.free 9 % 4096, srck := 7, core := 0xFF, die := 0, gslot := 0, split := 0, code := code, kind := 2 }

/-- It goes to the ring of the job's partition. -/
def reportRestore (s : State) (req : RestoreReq) (code info : Nat) : State :=
  { s with port := s.port ++ [(ringOf s req.part 0 2, restoreNotice s req code info)] }

/-- The devices of a job that have not been lost (R383). -/
def jobDevices (s : State) (req : RestoreReq) : List (BitVec 20) :=
  req.devices.filter fun d => d == s.regs.deviceId || !(tabGet Peer.init s.regs.peers d.toNat).lost

/-- Shard i is loaded onto device i mod n of those that remain. -/
def loadShard (s : State) (req : RestoreReq) (w : Who) (i dest : Nat) (bs : List Byte) : State :=
  match (jobDevices s req)[i % (jobDevices s req).length]? with
  | none => s
  | some d => if d = s.regs.deviceId then putBytes s w dest bs else sendOut s w d.toNat dest bs

/-- CHECKPOINT_RESTORE: the shards of that step are loaded and RESTORE_DONE is reported, or nothing is loaded and
RESTORE_INCONSISTENT is. A request without a place for each shard, or without a device that remains, is none that can be
performed. -/
def execCheckpointRestore (req : RestoreReq) (s : State) : Host.Outcome State Fault Refusal := keep s <|
  if !reportRoom s req.part 0 2 || (jobDevices s req).isEmpty then .next s
  else
    match restorable s req with
    | none => .next (reportRestore s req 0x04 req.job.toNat).tick
    | some (step, l) =>
      if req.dest.length < l.length then .next s
      else
        let w : Who := ⟨Config.meshCores, req.context, (s.part req.part).tenant, req.part, false⟩
        let t := ((l.zip req.dest).zip (List.range l.length)).foldl (fun t x =>
          loadShard t req w x.2 x.1.2 (s.bytes (x.1.1 + 64) (bits (s.num x.1.1 64) 319 256))) s
        .next (reportRestore t req 0x03 step).tick

/-! ### Live migration (R380) -/

/-- The pages of a context's tenant, as they leave for the destination. -/
def pagesOut (s : State) (ctx : BitVec 12) (dest : BitVec 20) : List Sent :=
  let t := (s.context ctx).tenant
  (s.regs.ipt.filter fun e => pteState e.2 == 1 && pteTenant e.2 == t.toNat).map fun e =>
    ⟨dest.toNat, pteVpn e.2 * 2 ^ 16, .store (s.bytes (e.1 * 2 ^ 16) (2 ^ 16)), (tabGet Peer.init s.regs.peers dest.toNat).incarnation⟩

/-- The context stops and quiesces as at a quantum's end. -/
def stopForMove (s : State) (ctx : BitVec 12) : State :=
  match (s.context ctx).phase with
  | .running =>
    let t := (performOutstanding s ctx).modContext ctx fun c => { c with phase := .quiescing s.cycle }
    if outstanding t ctx then t else saveContext t ctx
  | .quiescing _ => if outstanding s ctx then s else saveContext s ctx
  | _ => s

/-- The shared counters as a context can read them now (R379). -/
def readableCounters (s : State) (c : Context) : Tab Nat := [16, 17, 18, 19].map fun n => (n, sharedCounter c n s.cycle)

/-- What leaves with a context that is saved. -/
def departure (s : State) (ctx : BitVec 12) (dest : BitVec 20) : Departure :=
  let c := s.context ctx
  { dest := dest, context := { c with sharedBase := readableCounters s c, shared := [] }
    queues := s.queues.filter fun q => q.2.context == ctx && q.2.qstate != 0
    launches := s.launches.filter fun l => l.2.context == ctx
    tasks := s.tasks.filter fun t => t.2.context == ctx }

/-- A queue whose context has left is disabled here and holds nothing. -/
def leaveQueue (ctx : BitVec 12) (q : Queue) : Queue :=
  if q.context == ctx && q.qstate != 0 then
    { q with qstate := 0, frames := [], packets := [], nodes := [], opened := [], words := [], owed := [], cancelled := [] }
  else q

/-- A saved context leaves: its pages, its state with a meter snapshot, and forward stubs for the pages that peers will write. Its
queues are disabled here, and its launches and tasks are gone. -/
def leaveModule (s : State) (ctx : BitVec 12) (dest : BitVec 20) (snapshotAt : Nat) (stubs : List Nat) : State :=
  match (s.context ctx).phase, (s.context ctx).saved with
  | .out, some _ =>
    let c := s.context ctx
    let s := takeSnapshot { s with outbox := s.outbox ++ pagesOut s ctx dest, departed := s.departed ++ [departure s ctx dest] } c.part snapshotAt
    let s := s.modRegs fun r => { r with stubs := r.stubs ++ stubs.map fun p => ⟨ctx, c.tenant, p, dest⟩ }
    let s := { s with
      queues := s.queues.map fun (q : Nat × Queue) => (q.1, leaveQueue ctx q.2)
      launches := s.launches.filter fun l => l.2.context != ctx
      tasks := s.tasks.filter fun t => t.2.context != ctx
      watches := s.watches.filter fun w => match s.queue? w.queue with | some q => q.context != ctx | none => true }
    settleMoves (s.modContext ctx fun c => { c with saved := none, enabled := false, shared := [], counters := [], replay := [], bindings := [] })
  | _, _ => s

/-- The meters that a context brings. -/
def setMeters (s : State) (part : Nat) (l : List DWord) : State :=
  { s with meters := (meterList.zip l).foldl (fun t x => tabSet 0 t (part * 16 + x.1) x.2) s.meters }

/-- What arrives takes numbers of this module: launches and tasks follow those that are there, and everything belongs to the
context and partition that receive it. -/
def renumber (d : Departure) (ctx : BitVec 12) (part : Nat) (tenant : BitVec 12) (nl nt : Nat) : Departure :=
  let launch (l : Launch) : Launch := { l with context := ctx, part := part, tenant := tenant, task := l.task.map (· + nt) }
  let op (o : MatOp) : MatOp := { o with owner := (o.owner.1 + nl, o.owner.2) }
  let saved (v : Saved) : Saved :=
    { groups := v.groups.map fun e => (e.1, { e.2 with context := ctx, launch := e.2.launch + nl, withdrawn := e.2.withdrawn.map fun w => (w.1 + nl, w.2) })
      cores := v.cores.map fun e => (e.1, { e.2 with mq := e.2.mq.map op, copies := e.2.copies.map fun c => { c with launch := c.launch + nl } }) }
  { d with
    context := { d.context with tenant := tenant, part := part, saved := d.context.saved.map saved }
    queues := d.queues.map fun q => (q.1, { q.2 with context := ctx, part := part, nodes := q.2.nodes.map fun n => (n.1, { n.2 with template := launch n.2.template }) })
    launches := d.launches.map fun l => (l.1 + nl, launch l.2)
    tasks := d.tasks.map fun t => (t.1 + nt, { t.2 with
      context := ctx, tenant := tenant, template := launch t.2.template, launch := t.2.launch.map (· + nl),
      inputs := t.2.inputs.map (fun i => (i.1 + nt, i.2)), after_ := t.2.after_.map (· + nt) }) }

/-- Copies that arrive keep their numbers, so later ones on their cores take higher ones. -/
def raiseCopies (s : State) (v : Saved) : State :=
  v.cores.foldl (fun s e => s.modCore e.1 fun k => { k with nextCopy := Nat.max k.nextCopy (maxNat (e.2.copies.map (·.id)) + 1) }) s

/-- The context at its destination, switched out until it is given a quantum, with its queues, launches and tasks. -/
def arriveContext (s : State) (ctx : BitVec 12) (part : Nat) (d : Departure) : State :=
  let d := renumber d ctx part (s.part part).tenant s.nextLaunch s.nextTask
  let v := d.context.saved.getD ⟨[], []⟩
  let s := raiseCopies { s with
    queues := d.queues.foldl (fun t q => tabPut t q.1 q.2) s.queues
    launches := d.launches.foldl (fun t l => tabPut t l.1 l.2) s.launches
    nextLaunch := maxNat (s.nextLaunch :: d.launches.map fun l => l.1 + 1)
    tasks := d.tasks.foldl (fun t k => tabPut t k.1 k.2) s.tasks
    nextTask := maxNat (s.nextTask :: d.tasks.map fun k => k.1 + 1) } v
  s.modContext ctx fun _ => { d.context with enabled := true, since := s.cycle, used := 0, phase := .out, saved := some v }

/-- The queues that a context brings take numbers that are not in use here. -/
def queuesFree (s : State) (d : Departure) : Bool :=
  d.queues.all fun q => decide (q.1 < 4096) && match s.queue? q.1 with | some h => h.qstate == 0 | none => true

/-- LIVE_MIGRATION. -/
def execLiveMigration (phase : MigrationPhase) (s : State) : Host.Outcome State Fault Refusal :=
  match phase with
  | .copyPages ctx dest => .next { s with outbox := s.outbox ++ pagesOut s ctx dest }
  | .stop ctx dest snapshotAt stubs => .next (leaveModule (stopForMove s ctx) ctx dest snapshotAt stubs).tick
  | .confirmed ctx =>
    -- the destination has confirmed the forwarding, and the migration is complete
    .next (s.modRegs fun r => { r with stubs := r.stubs.filter fun x => x.context != ctx })
  | .arrive ctx part meters prev life seq snapshotAt =>
    if !queuesFree s (Config.arriving s.free) then .next s.tick
    else
      let s := arriveContext s ctx part (Config.arriving s.free)
      let s := setMeters { s with chain := tabPut s.chain part (life.toNat, seq.toNat, prev.toNat) } part meters
      .next (takeSnapshot s part snapshotAt).tick

end Sys2Proof.Machine
end

