-- ==== Sys2Proof/Machine/Scratch.lean ====
section
/-! DEFINITION. Scratchpad loads and stores, atomics, compare and swap, and bank operations (R242 to R248). -/
namespace Sys2Proof.Machine
open Sys2Proof

/-- R242. -/
def execLds (w : Fields) (s : State) : Host.Outcome State Fault Refusal :=
  runInstr (.lds w) (fun c => c.scratch (accessSize c.w) (accessSize c.w) fun s acc => c.loadOver s acc) s
def execSts (w : Fields) (s : State) : Host.Outcome State Fault Refusal :=
  runInstr (.sts w) (fun c => c.regional
    (c.scratchOn c.lanes (accessSize c.w) (accessSize c.w) fun s acc => c.storeOver s acc c.storeData)) s

/-- The passing lanes of an atomic in ascending order: each step's old value (R245). -/
def atomLanes (c : Ctx) (kind op : Nat) (arg second : Nat → Nat) : State → List (Nat × Place) → List (Nat × Nat) × State
  | s, [] => ([], s)
  | s, (l, p) :: rest =>
    let (old, s) := atomAt s c.who kind op c.w.ty p (arg l) (second l)
    let (vs, s) := atomLanes c kind op arg second s rest
    ((l, old) :: vs, s)

/-- An atomic over accesses whose checks are made: held in a region, else performed with its old values as result. -/
def Ctx.atomOver (c : Ctx) (kind op : Nat) (arg second : Nat → Nat) (result : Bool) (s : State) (acc : List Access) : Eff :=
  let good := goodOf acc
  match c.g.region with
  | some _ =>
    c.emit s (if good.isEmpty then [] else [.atomic kind op c.w.ty (good.map fun e => (e.2, arg e.1, second e.1))]) fun s =>
      let cells : List RegCell := []
      c.endLanes (if result then writeLong s c.ag cells else s) acc
  | none =>
    let s := drainCommitted s c.ag.core c.ag.slot
    let (vs, s) := atomLanes c kind op arg second s good
    let cells := destCells { c with lanes := good.map (·.1) } c.w.ty (tyRegs c.w.ty) fun l => valueIn vs l
    c.endLanes (if result then writeLong s c.ag cells else s) acc

/-- R241: inside a region an atomic names the zero class as its destination. -/
def Ctx.atomRegion (c : Ctx) (e : Eff) : Eff :=
  if c.outsideHarvest then c.trap fIllegalOp
  else if c.g.region.isSome && opndCls c.w.d != .zero then c.trap fIllegalOperand
  else e

/-- R244, R245. -/
def execAtom (w : Fields) (s : State) : Host.Outcome State Fault Refusal :=
  runInstr (.atom w) (fun c => c.atomRegion (c.global (c.capAt c.w.a) (atomSize c.w.ty) (atomSize c.w.ty) permA
    (c.atomOver 0 (vr c.w) c.c' (fun _ => 0) true))) s
def execAtoms (w : Fields) (s : State) : Host.Outcome State Fault Refusal :=
  runInstr (.atoms w) (fun c => c.atomRegion (c.scratch (atomSize c.w.ty) (atomSize c.w.ty)
    (c.atomOver 0 (vr c.w) c.c' (fun _ => 0) true))) s

/-- The pair group of R247: compare value and swap value. -/
def Ctx.casPair (c : Ctx) (lane : Nat) : Nat × Nat :=
  match opC c.w with
  | .v n =>
    if tyRegs c.w.ty = 2 then (readV c n.toNat lane 2, readV c (n.toNat + 2) lane 2)
    else (readV c n.toNat lane 1, readV c (n.toNat + 1) lane 1)
  | .k n =>
    let k (i : Nat) : Nat := c.readSplit (.k (n.toNat + i)) lane
    if tyRegs c.w.ty = 2 then (k 0, k 1) else (k 0 % 2 ^ 32, k 0 / 2 ^ 32)
  | _ => (0, 0)

/-- R247. -/
def execCas (w : Fields) (s : State) : Host.Outcome State Fault Refusal :=
  runInstr (.cas w) (fun c => c.atomRegion (c.global (c.capAt c.w.a) (atomSize c.w.ty) (atomSize c.w.ty) permA
    (c.atomOver 1 0 (fun l => (c.casPair l).1) (fun l => (c.casPair l).2) true))) s
def execCass (w : Fields) (s : State) : Host.Outcome State Fault Refusal :=
  runInstr (.cass w) (fun c => c.atomRegion (c.scratch (atomSize c.w.ty) (atomSize c.w.ty)
    (c.atomOver 1 0 (fun l => (c.casPair l).1) (fun l => (c.casPair l).2) true))) s

/-- R248. -/
def execBankop (w : Fields) (s : State) : Host.Outcome State Fault Refusal :=
  runInstr (.bankop w) (fun c => c.regional (c.scratchOn c.lanes 4 4 (c.atomOver 2 (vr c.w) c.a (fun _ => 0) false))) s
def execBankopSadd (w : Fields) (s : State) : Host.Outcome State Fault Refusal :=
  runInstr (.bankopSadd w) (fun c => c.regional (c.scratchOn c.lanes 4 4 (c.atomOver 2 0 c.a c.c' false))) s

end Sys2Proof.Machine
end

