-- ==== Sys2Proof/Machine/Tasks.lean ====
section
/-! DEFINITION. Tasks and the dependence matcher (R234 to R236, R293 to R296). -/
namespace Sys2Proof.Machine
open Sys2Proof

/-! ### Regions (R293, R294) -/

/-- The first covered byte and one past the last. -/
def TaskRegion.hull (r : TaskRegion) : Nat × Nat :=
  (r.base + r.row0 * r.stride + r.col0, r.base + (r.row0 + r.rows - 1) * r.stride + r.col0 + r.cols)

def spansMeet (a n b m : Nat) : Bool := decide (a < b + m) && decide (b < a + n)

/-- R294. -/
def regionsOverlap (a b : TaskRegion) : Bool :=
  if a.base = b.base ∧ a.stride = b.stride ∧ a.col0 + a.cols ≤ a.stride ∧ b.col0 + b.cols ≤ b.stride then
    spansMeet a.row0 a.rows b.row0 b.rows && spansMeet a.col0 a.cols b.col0 b.cols
  else
    let (p, q) := a.hull
    let (r, t) := b.hull
    decide (p < t) && decide (r < q)

def anyOverlap (a b : List TaskRegion) (aw bw : Bool) : Bool :=
  a.any fun x => x.write == aw && b.any fun y => y.write == bw && regionsOverlap x y

/-- Region j of a task descriptor (Table 13.6). -/
def taskRegion (s : State) (q : Queue) (d j : Nat) : Got TaskRegion :=
  let r := d / 2 ^ (8 * (80 + 24 * j)) % 2 ^ 192
  Got.need (bits r 15 1 == 0 && bits r 63 48 != 0 && bits r 47 32 != 0) <|
    (capEntry s q (bits r 31 16)).bind fun c =>
      .ok ⟨bits r 0 0 == 1, c.base.toNat, bits r 191 128, bits r 95 64, bits r 47 32, bits r 127 96, bits r 63 48⟩

def taskRegions (s : State) (q : Queue) (d : Nat) : List Nat → Got (List TaskRegion)
  | [] => .ok []
  | j :: r => (taskRegion s q d j).bind fun x => (taskRegions s q d r).bind fun l => .ok (x :: l)

/-! ### Entering the window (R295) -/

def TaskRec.inWindow (t : TaskRec) : Bool := t.phase != .done && t.phase != .cancelled

/-- The earlier tasks of a queue whose writes the new task reads. -/
def rawOn (s : State) (qi : Nat) (regions : List TaskRegion) : List (Nat × Nat × Nat) :=
  (s.tasks.filter fun e => e.2.queue == qi && e.2.inWindow && anyOverlap regions e.2.regions false true).map fun e =>
    (e.1, e.2.wordPa, 0)

/-- Its WAR and WAW dependences. -/
def writesAfter (s : State) (qi : Nat) (regions : List TaskRegion) : List Nat :=
  (s.tasks.filter fun e => e.2.queue == qi && e.2.inWindow
    && (anyOverlap regions e.2.regions true false || anyOverlap regions e.2.regions true true)).map (·.1)

def wordVersion (s : State) (pa : Nat) : Nat := cutVersion (wordNum s pa)
def wordState (s : State) (pa : Nat) : Nat := cutState (wordNum s pa)

/-- The address by which a task's word is known. -/
def Place.word : Place → Nat
  | .mem _ _ pa => pa
  | .far d va => farKey d va
  | .sp _ off _ => off

/-- TASK: enters the dependence window and is matched. -/
def execTaskPacket (queue : Nat) (s : State) : Host.Outcome State Fault Refusal :=
  packetStep s queue 2 fun q p =>
    match windowDie s q.part with
    | none => .later
    | some die =>
      (capEntry s q (bits p.bytes 63 48)).bind fun c =>
      (frontRead s q c (bits p.bytes 127 64) 256).bind fun d =>
        let h := d / 2 ^ 512 % 2 ^ 128
        let nreg := bits h 47 44
        let refire := bits h 43 42
        Got.need (bits h 41 32 == 0 && decide (1 ≤ nreg) && decide (nreg ≤ 7) && refire != 3 && bits h 127 64 % 8 == 0) <|
          (mkLaunch s queue q (d % 2 ^ 512) (bits h 31 16) (bits h 15 0) p.graph (packetPassK p) none).bind fun l =>
          (taskRegions s q d (List.range nreg)).bind fun regions =>
          (capEntry s q (bits h 63 48)).bind fun wc =>
          (frontWord s q wc (bits h 127 64) (permR + permW)).bind fun w =>
            let pa := w.word
            let inputs := rawOn s queue regions
            if 8 < inputs.length then .invalid
            else
              let t : TaskRec :=
                { queue := queue, packet := p.id, graph := p.graph, tenant := l.tenant, context := q.context
                  template := { l with task := some s.nextTask, ring := p.ring }, wordPa := pa, refire := refire, regions := regions
                  inputs := inputs, after_ := writesAfter s queue regions, phase := .held, die := die, launch := none, stale := false
                  countedOn := none, dropped := inputs.any fun i => wordState s i.2.1 == cutCancelled }
              let s := { s with tasks := tabPut s.tasks s.nextTask t, nextTask := s.nextTask + 1 }
              let s := if p.graph = 0 then s
                else s.modQueue queue fun q => { q with words := if q.words.contains (p.graph, pa) then q.words else q.words ++ [(p.graph, pa)] }
              let s := if p.graph != 0 && wordState s pa == cutCancelled then graphCancel s queue p.graph else s
              .ok (markExecuted s queue p)

/-! ### Dispatch and relaunch -/

/-- An input has been cancelled: the cancellation is remembered, whatever its word holds by now. -/
def inputCancelled (s : State) (t : TaskRec) : Bool := t.dropped || t.inputs.any fun i => wordState s i.2.1 == cutCancelled
def inputsReady (s : State) (t : TaskRec) : Bool :=
  t.inputs.all fun i => decide (1 ≤ wordVersion s i.2.1) || wordState s i.2.1 != cutOpen

/-- Nothing of a launch that has ended writes any more: no group of it stands, and none of its copies and matrix operations
is to be performed. -/
def instanceQuiet (s : State) (li : Nat) : Bool :=
  !((allGroups s).any fun g => g.launch == li)
    && !(s.cores.any fun c => c.2.copies.any (fun x => x.launch == li) || c.2.mq.any fun o => o.owner.1 == li)

/-- WAR and WAW (R295, R296): the earlier task has completed, or was cancelled and its groups have stopped. -/
def dependenceOver (s : State) (e : Nat) : Bool :=
  match s.task? e with
  | none => true
  | some t => t.phase == .done || (t.phase == .cancelled && match t.launch with
      | some l => instanceQuiet s l
      | none => true)

def taskRuns (s : State) (t : TaskRec) : Bool := !(s.context t.context).stopped

/-- A task is dispatched with its launch versions (R234): an acquire on each input for the context, and no L1 copy of its
regions remains. -/
def dispatchTask (s : State) (ti : Nat) (t : TaskRec) : State :=
  let s := dropContextL1 s t.context
  let (s, li) := addLaunch s t.template
  s.modTask ti fun t =>
    { t with phase := .dispatched, launch := some li, stale := false, countedOn := none,
             inputs := t.inputs.map fun i => (i.1, i.2.1, wordVersion s i.2.1) }

/-- TASK_DISPATCH. -/
def execTaskDispatch (task : Nat) (s : State) : Host.Outcome State Fault Refusal := keep s <|
  match s.task? task with
  | some t =>
    if t.phase != .held || inputCancelled s t || !inputsReady s t || !(t.after_.all (dependenceOver s)) || !taskRuns s t then .next s
    else .next (dispatchTask s task t).tick
  | none => .next s

/-- The present instance has stopped (restart) or completed (follow). -/
def instanceOver (s : State) (t : TaskRec) : Bool :=
  match t.launch with
  | none => true
  | some li =>
    match s.launch? li with
    | none => true
    | some l => l.done || (t.phase == .stopping || launchOver s li l)

/-- The matrix operations of a launch that stops leave the queue, and their pins are given back (log 25). -/
def dropOps (s : State) (li : Nat) : State :=
  let s := unpinLines s (s.cores.flatMap fun e => (e.2.mq.filter fun o => o.owner.1 == li).flatMap (·.pinned))
  { s with cores := s.cores.map fun e => (e.1, { e.2 with mq := e.2.mq.filter fun o => o.owner.1 != li }) }

/-- The present instance's launch ends. One that has not completed stops: open regions are abandoned (Table 10.5), and what its
stream has queued is not performed. -/
def endInstance (s : State) (t : TaskRec) : State :=
  match t.launch with
  | none => s
  | some li =>
    let ended := match s.launch? li with | some l => launchOver s li l | none => true
    let s := stopGroups s li
    (if ended then s else dropOps s li).modLaunch li fun l => { l with done := true, stopping := true }

/-- TASK_RELAUNCH: with new launch versions; only then does REFIRE_PENDING fall (R236). The copies of regions that the stopped
instance had committed, and the matrix operations of one that completed, are performed first, so that the relaunched task writes
over their results (R235, R399). -/
def execTaskRelaunch (task : Nat) (s : State) : Host.Outcome State Fault Refusal := keep s <|
  match s.task? task with
  | some t =>
    if !t.stale || !(t.phase == .dispatched || t.phase == .stopping) || !instanceOver s t || inputCancelled s t || t.dropped
        || !taskRuns s t then .next s
    else
      let s := endInstance s t
      if (match t.launch with | some li => !instanceQuiet s li | none => false) then .next s
      else
        let s := dispatchTask s task t
        .next (match t.countedOn with
          | some pa => refireDone s (s.frontWho t.queue) pa
          | none => s).tick
  | none => .next s

/-! ### Completion and cancellation -/

/-- A task leaves the window as cancelled: its groups stop, its word and a pending re-fire are settled, and its packet
completes without error (R296). -/
def dropTask (s : State) (ti : Nat) (t : TaskRec) : State :=
  finishPacket (endInstance (cancelTask s ti) t) t.queue t.packet t.graph

/-- TASK_COMPLETE: an instance has completed and no relaunch is due. -/
def execTaskComplete (task : Nat) (s : State) : Host.Outcome State Fault Refusal := keep s <|
  match s.task? task with
  | some t =>
    let ended := match t.launch with
      | some li => (match s.launch? li with | some l => !l.done && launchOver s li l | none => false)
      | none => false
    if t.phase != .dispatched || !ended then .next s
    else if t.dropped || (t.refire != 0 && inputCancelled s t) then .next (dropTask s task t).tick
    else if t.stale then .next s
    else
      let s := (endInstance s t).modTask task fun t => { t with phase := .done }
      let open_ := wordState s t.wordPa == cutOpen
      let s := if open_ && wordVersion s t.wordPa == 0 then cutCancel s (s.frontWho t.queue) t.wordPa
        else if open_ && t.graph != 0 then graphSet s t.queue t.graph 61 else s
      .next (finishPacket s t.queue t.packet t.graph).tick
  | none => .next s

/-- TASK_CANCEL: an input was cancelled. A task not dispatched, or of policy restart, is cancelled at once; one of policy
follow at its completion; one of policy none runs on. -/
def execTaskCancel (task : Nat) (s : State) : Host.Outcome State Fault Refusal := keep s <|
  match s.task? task with
  | some t =>
    if !inputCancelled s t then .next s
    else
      match t.phase with
      | .held => .next (dropTask s task t).tick
      | .stopping => .next (dropTask s task t).tick
      | .dispatched =>
        if t.refire = 1 then .next (dropTask s task t).tick
        else if t.refire = 2 then .next (s.modTask task fun t => { t with dropped := true }).tick
        else .next s
      | _ => .next s
  | none => .next s

end Sys2Proof.Machine
end

