-- ==== Sys2Proof/Machine/Dispatch.lean ====
section
/-! DEFINITION. The meaning of every row of the opcode table: one arm per constructor. -/
namespace Sys2Proof.Machine
open Sys2Proof

def exec (i : Instr) (s : State) : Host.Outcome State Fault Refusal :=
  match i with
  | .nop w => Sys2Proof.Machine.execNop w s
  | .runend w => Sys2Proof.Machine.execRunend w s
  | .mov w => Sys2Proof.Machine.execMov w s
  | .movi w => Sys2Proof.Machine.execMovi w s
  | .movh w => Sys2Proof.Machine.execMovh w s
  | .sel w => Sys2Proof.Machine.execSel w s
  | .iadd w => Sys2Proof.Machine.execIadd w s
  | .isub w => Sys2Proof.Machine.execIsub w s
  | .imul w => Sys2Proof.Machine.execImul w s
  | .imulh w => Sys2Proof.Machine.execImulh w s
  | .imad w => Sys2Proof.Machine.execImad w s
  | .idiv w => Sys2Proof.Machine.execIdiv w s
  | .irem w => Sys2Proof.Machine.execIrem w s
  | .imin w => Sys2Proof.Machine.execImin w s
  | .imax w => Sys2Proof.Machine.execImax w s
  | .iabs w => Sys2Proof.Machine.execIabs w s
  | .ineg w => Sys2Proof.Machine.execIneg w s
  | .andb w => Sys2Proof.Machine.execAndb w s
  | .orb w => Sys2Proof.Machine.execOrb w s
  | .xorb w => Sys2Proof.Machine.execXorb w s
  | .andn w => Sys2Proof.Machine.execAndn w s
  | .shl w => Sys2Proof.Machine.execShl w s
  | .shr w => Sys2Proof.Machine.execShr w s
  | .sar w => Sys2Proof.Machine.execSar w s
  | .rot w => Sys2Proof.Machine.execRot w s
  | .bfx w => Sys2Proof.Machine.execBfx w s
  | .bfi w => Sys2Proof.Machine.execBfi w s
  | .popc w => Sys2Proof.Machine.execPopc w s
  | .clz w => Sys2Proof.Machine.execClz w s
  | .brev w => Sys2Proof.Machine.execBrev w s
  | .icmp w => Sys2Proof.Machine.execIcmp w s
  | .isat w => Sys2Proof.Machine.execIsat w s
  | .lea w => Sys2Proof.Machine.execLea w s
  | .capset w => Sys2Proof.Machine.execCapset w s
  | .capchk w => Sys2Proof.Machine.execCapchk w s
  | .capld w => Sys2Proof.Machine.execCapld w s
  | .capst w => Sys2Proof.Machine.execCapst w s
  | .ld w => Sys2Proof.Machine.execLd w s
  | .ldSide w => Sys2Proof.Machine.execLdSide w s
  | .st w => Sys2Proof.Machine.execSt w s
  | .bra w => Sys2Proof.Machine.execBra w s
  | .braCond w => Sys2Proof.Machine.execBraCond w s
  | .brc w => Sys2Proof.Machine.execBrc w s
  | .brcPk w => Sys2Proof.Machine.execBrcPk w s
  | .brx w => Sys2Proof.Machine.execBrx w s
  | .call w => Sys2Proof.Machine.execCall w s
  | .callInd w => Sys2Proof.Machine.execCallInd w s
  | .ret w => Sys2Proof.Machine.execRet w s
  | .join w => Sys2Proof.Machine.execJoin w s
  | .joinTeam w => Sys2Proof.Machine.execJoinTeam w s
  | .exit w => Sys2Proof.Machine.execExit w s
  | .clk w => Sys2Proof.Machine.execClk w s
  | .fadd w => Sys2Proof.Machine.execFadd w s
  | .fsub w => Sys2Proof.Machine.execFsub w s
  | .fmul w => Sys2Proof.Machine.execFmul w s
  | .ffma w => Sys2Proof.Machine.execFfma w s
  | .fmin w => Sys2Proof.Machine.execFmin w s
  | .fmax w => Sys2Proof.Machine.execFmax w s
  | .fcmp w => Sys2Proof.Machine.execFcmp w s
  | .fclass w => Sys2Proof.Machine.execFclass w s
  | .fclassTest w => Sys2Proof.Machine.execFclassTest w s
  | .frcp w => Sys2Proof.Machine.execFrcp w s
  | .frsq w => Sys2Proof.Machine.execFrsq w s
  | .fsqrt w => Sys2Proof.Machine.execFsqrt w s
  | .fdiv w => Sys2Proof.Machine.execFdiv w s
  | .exp2s w => Sys2Proof.Machine.execExp2s w s
  | .log2 w => Sys2Proof.Machine.execLog2 w s
  | .sin w => Sys2Proof.Machine.execSin w s
  | .cos w => Sys2Proof.Machine.execCos w s
  | .fcvt w => Sys2Proof.Machine.execFcvt w s
  | .qcvt w => Sys2Proof.Machine.execQcvt w s
  | .dqcvt w => Sys2Proof.Machine.execDqcvt w s
  | .pkrd w => Sys2Proof.Machine.execPkrd w s
  | .pkrdClr w => Sys2Proof.Machine.execPkrdClr w s
  | .fdot w => Sys2Proof.Machine.execFdot w s
  | .frnd w => Sys2Proof.Machine.execFrnd w s
  | .lread w => Sys2Proof.Machine.execLread w s
  | .lpush w => Sys2Proof.Machine.execLpush w s
  | .lbcast w => Sys2Proof.Machine.execLbcast w s
  | .red w => Sys2Proof.Machine.execRed w s
  | .scan w => Sys2Proof.Machine.execScan w s
  | .vote w => Sys2Proof.Machine.execVote w s
  | .ballot w => Sys2Proof.Machine.execBallot w s
  | .vlane w => Sys2Proof.Machine.execVlane w s
  | .bar w => Sys2Proof.Machine.execBar w s
  | .arrive w => Sys2Proof.Machine.execArrive w s
  | .bwait w => Sys2Proof.Machine.execBwait w s
  | .matchLanes w => Sys2Proof.Machine.execMatchLanes w s
  | .gcvt w => Sys2Proof.Machine.execGcvt w s
  | .gexpDir w => Sys2Proof.Machine.execGexpDir w s
  | .gexpVal w => Sys2Proof.Machine.execGexpVal w s
  | .gdotCos w => Sys2Proof.Machine.execGdotCos w s
  | .gdotFull w => Sys2Proof.Machine.execGdotFull w s
  | .gscl w => Sys2Proof.Machine.execGscl w s
  | .gadd w => Sys2Proof.Machine.execGadd w s
  | .gaddSub w => Sys2Proof.Machine.execGaddSub w s
  | .gneg w => Sys2Proof.Machine.execGneg w s
  | .gnrm w => Sys2Proof.Machine.execGnrm w s
  | .gsetn w => Sys2Proof.Machine.execGsetn w s
  | .gmov w => Sys2Proof.Machine.execGmov w s
  | .gproj w => Sys2Proof.Machine.execGproj w s
  | .glerp w => Sys2Proof.Machine.execGlerp w s
  | .gld w => Sys2Proof.Machine.execGld w s
  | .gst w => Sys2Proof.Machine.execGst w s
  | .lds w => Sys2Proof.Machine.execLds w s
  | .sts w => Sys2Proof.Machine.execSts w s
  | .atom w => Sys2Proof.Machine.execAtom w s
  | .atoms w => Sys2Proof.Machine.execAtoms w s
  | .cas w => Sys2Proof.Machine.execCas w s
  | .cass w => Sys2Proof.Machine.execCass w s
  | .bankop w => Sys2Proof.Machine.execBankop w s
  | .bankopSadd w => Sys2Proof.Machine.execBankopSadd w s
  | .pref w => Sys2Proof.Machine.execPref w s
  | .axl w => Sys2Proof.Machine.execAxl w s
  | .bind w => Sys2Proof.Machine.execBind w s
  | .unbind w => Sys2Proof.Machine.execUnbind w s
  | .unbindWord w => Sys2Proof.Machine.execUnbindWord w s
  | .acq w => Sys2Proof.Machine.execAcq w s
  | .rel w => Sys2Proof.Machine.execRel w s
  | .fence w => Sys2Proof.Machine.execFence w s
  | .xfence w => Sys2Proof.Machine.execXfence w s
  | .cutinit w => Sys2Proof.Machine.execCutinit w s
  | .pubcut w => Sys2Proof.Machine.execPubcut w s
  | .fincut w => Sys2Proof.Machine.execFincut w s
  | .waitcut w => Sys2Proof.Machine.execWaitcut w s
  | .cutchk w => Sys2Proof.Machine.execCutchk w s
  | .stale w => Sys2Proof.Machine.execStale w s
  | .cpy w => Sys2Proof.Machine.execCpy w s
  | .cpys w => Sys2Proof.Machine.execCpys w s
  | .cpyg w => Sys2Proof.Machine.execCpyg w s
  | .cbatch w => Sys2Proof.Machine.execCbatch w s
  | .cwait w => Sys2Proof.Machine.execCwait w s
  | .mput w => Sys2Proof.Machine.execMput w s
  | .mget w => Sys2Proof.Machine.execMget w s
  | .mgetZ w => Sys2Proof.Machine.execMgetZ w s
  | .mtry w => Sys2Proof.Machine.execMtry w s
  | .mbind w => Sys2Proof.Machine.execMbind w s
  | .mbindRst w => Sys2Proof.Machine.execMbindRst w s
  | .mma w => Sys2Proof.Machine.execMma w s
  | .mmas w => Sys2Proof.Machine.execMmas w s
  | .mzero w => Sys2Proof.Machine.execMzero w s
  | .mdrain w => Sys2Proof.Machine.execMdrain w s
  | .mdrainZ w => Sys2Proof.Machine.execMdrainZ w s
  | .mscl w => Sys2Proof.Machine.execMscl w s
  | .mwait w => Sys2Proof.Machine.execMwait w s
  | .mwit w => Sys2Proof.Machine.execMwit w s
  | .mring w => Sys2Proof.Machine.execMring w s
  | .enq w => Sys2Proof.Machine.execEnq w s
  | .enqNb w => Sys2Proof.Machine.execEnqNb w s
  | .fetchw w => Sys2Proof.Machine.execFetchw w s
  | .recSend w => Sys2Proof.Machine.execRecSend w s
  | .rgnb w => Sys2Proof.Machine.execRgnb w s
  | .rgne w => Sys2Proof.Machine.execRgne w s
  | .rgnx w => Sys2Proof.Machine.execRgnx w s
  | .trap w => Sys2Proof.Machine.execTrap w s
  | .tret w => Sys2Proof.Machine.execTret w s
  | .csrr w => Sys2Proof.Machine.execCsrr w s
  | .csrw w => Sys2Proof.Machine.execCsrw w s
  | .csrwCode w => Sys2Proof.Machine.execCsrwCode w s
  | .wfe w => Sys2Proof.Machine.execWfe w s
  | .sevCore w => Sys2Proof.Machine.execSevCore w s
  | .sevCluster w => Sys2Proof.Machine.execSevCluster w s
  | .perfr w => Sys2Proof.Machine.execPerfr w s
  | .metr w => Sys2Proof.Machine.execMetr w s
  | .ckpt w => Sys2Proof.Machine.execCkpt w s
  | .halt w => Sys2Proof.Machine.execHalt w s
  | .tlbiPage w => Sys2Proof.Machine.execTlbiPage w s
  | .tlbiTenant w => Sys2Proof.Machine.execTlbiTenant w s
  | .tlbiAll w => Sys2Proof.Machine.execTlbiAll w s
  | .longLatencyWriteback ag idx => Sys2Proof.Machine.execLongLatencyWriteback ag idx s
  | .runCut ag => Sys2Proof.Machine.execRunCut ag s
  | .repack core fresh splits => Sys2Proof.Machine.execRepack core fresh splits s
  | .waitcutWake ag => Sys2Proof.Machine.execWaitcutWake ag s
  | .matrixOpStart core => Sys2Proof.Machine.execMatrixOpStart core s
  | .steadyRestStep die => Sys2Proof.Machine.execSteadyRestStep die s
  | .matrixOpComplete core sub upsets => Sys2Proof.Machine.execMatrixOpComplete core sub upsets s
  | .mmasPut core => Sys2Proof.Machine.execMmasPut core s
  | .ringSlotConsume core opB => Sys2Proof.Machine.execRingSlotConsume core opB s
  | .copyComplete core slot pos => Sys2Proof.Machine.execCopyComplete core slot pos s
  | .packetFetch queue => Sys2Proof.Machine.execPacketFetch queue s
  | .launchPacket queue => Sys2Proof.Machine.execLaunchPacket queue s
  | .nodePacket queue => Sys2Proof.Machine.execNodePacket queue s
  | .taskPacket queue => Sys2Proof.Machine.execTaskPacket queue s
  | .waitPacket queue => Sys2Proof.Machine.execWaitPacket queue s
  | .signalPacket queue => Sys2Proof.Machine.execSignalPacket queue s
  | .ibPacket queue => Sys2Proof.Machine.execIbPacket queue s
  | .predPacket queue => Sys2Proof.Machine.execPredPacket queue s
  | .loopPacket queue => Sys2Proof.Machine.execLoopPacket queue s
  | .ffencePacket queue => Sys2Proof.Machine.execFfencePacket queue s
  | .burnwaitPacket queue => Sys2Proof.Machine.execBurnwaitPacket queue s
  | .groupPlace launch places => Sys2Proof.Machine.execGroupPlace launch places s
  | .launchComplete launch => Sys2Proof.Machine.execLaunchComplete launch s
  | .nodeTimerExpiry queue node => Sys2Proof.Machine.execNodeTimerExpiry queue node s
  | .fetchwAnswer core slot => Sys2Proof.Machine.execFetchwAnswer core slot s
  | .taskDispatch task => Sys2Proof.Machine.execTaskDispatch task s
  | .taskRelaunch task => Sys2Proof.Machine.execTaskRelaunch task s
  | .taskComplete task => Sys2Proof.Machine.execTaskComplete task s
  | .taskCancel task => Sys2Proof.Machine.execTaskCancel task s
  | .qfullTimeout ag => Sys2Proof.Machine.execQfullTimeout ag s
  | .queueWptrWrite queue value => Sys2Proof.Machine.execQueueWptrWrite queue value s
  | .queueEnable queue writer => Sys2Proof.Machine.execQueueEnable queue writer s
  | .queueReset queue => Sys2Proof.Machine.execQueueReset queue s
  | .faultRecordWrite die => Sys2Proof.Machine.execFaultRecordWrite die s
  | .replay who context => Sys2Proof.Machine.execReplay who context s
  | .replayTerminate who context => Sys2Proof.Machine.execReplayTerminate who context s
  | .ringEnable ring => Sys2Proof.Machine.execRingEnable ring s
  | .ringRidxWrite ring value => Sys2Proof.Machine.execRingRidxWrite ring value s
  | .snapshotDrain core slot => Sys2Proof.Machine.execSnapshotDrain core slot s
  | .commitDrainComplete core slot => Sys2Proof.Machine.execCommitDrainComplete core slot s
  | .harvestRestart core slot site => Sys2Proof.Machine.execHarvestRestart core slot site s
  | .protectedWindowEnd core slot => Sys2Proof.Machine.execProtectedWindowEnd core slot s
  | .quantumEnd outgoing => Sys2Proof.Machine.execQuantumEnd outgoing s
  | .quiescenceTimeout context => Sys2Proof.Machine.execQuiescenceTimeout context s
  | .contextRestore context => Sys2Proof.Machine.execContextRestore context s
  | .pageMigration tenant page dest => Sys2Proof.Machine.execPageMigration tenant page dest s
  | .migrationComplete tenant page => Sys2Proof.Machine.execMigrationComplete tenant page s
  | .secondTierResume controller => Sys2Proof.Machine.execSecondTierResume controller s
  | .l2EccUncorr die slice line => Sys2Proof.Machine.execL2EccUncorr die slice line s
  | .memoryEccUncorr ag lane addr => Sys2Proof.Machine.execMemoryEccUncorr ag lane addr s
  | .storageEccUncorr core slot kind => Sys2Proof.Machine.execStorageEccUncorr core slot kind s
  | .failureWarning unit => Sys2Proof.Machine.execFailureWarning unit s
  | .watchdog core slot => Sys2Proof.Machine.execWatchdog core slot s
  | .wfeTimeout ag => Sys2Proof.Machine.execWfeTimeout ag s
  | .l2ModeChange die mode => Sys2Proof.Machine.execL2ModeChange die mode s
  | .fmtwinEnable die n => Sys2Proof.Machine.execFmtwinEnable die n s
  | .fmtwinDisable die n => Sys2Proof.Machine.execFmtwinDisable die n s
  | .vdcfgWrite vdev value => Sys2Proof.Machine.execVdcfgWrite vdev value s
  | .registerWrite place value => Sys2Proof.Machine.execRegisterWrite place value s
  | .hostMailboxWrite fn slot => Sys2Proof.Machine.execHostMailboxWrite fn slot s
  | .hostMailboxRead fn slot => Sys2Proof.Machine.execHostMailboxRead fn slot s
  | .hostPublication fn slot => Sys2Proof.Machine.execHostPublication fn slot s
  | .hostFinish fn slot => Sys2Proof.Machine.execHostFinish fn slot s
  | .remoteRequest req => Sys2Proof.Machine.execRemoteRequest req s
  | .peerLost device => Sys2Proof.Machine.execPeerLost device s
  | .torwenRetrain port ok => Sys2Proof.Machine.execTorwenRetrain port ok s
  | .deviceIdWrite value => Sys2Proof.Machine.execDeviceIdWrite value s
  | .powerOnReset run => Sys2Proof.Machine.execPowerOnReset run s
  | .recoveryChunk data => Sys2Proof.Machine.execRecoveryChunk data s
  | .recoveryEnd run => Sys2Proof.Machine.execRecoveryEnd run s
  | .clockThrottle mhz => Sys2Proof.Machine.execClockThrottle mhz s
  | .meterSnapshot part dest => Sys2Proof.Machine.execMeterSnapshot part dest s
  | .getVersion => Sys2Proof.Machine.execGetVersion s
  | .getCapabilities => Sys2Proof.Machine.execGetCapabilities s
  | .negotiateAlgorithms => Sys2Proof.Machine.execNegotiateAlgorithms s
  | .getDigests => Sys2Proof.Machine.execGetDigests s
  | .getCertificate => Sys2Proof.Machine.execGetCertificate s
  | .challenge => Sys2Proof.Machine.execChallenge s
  | .getMeasurements index => Sys2Proof.Machine.execGetMeasurements index s
  | .checkpointRestore req => Sys2Proof.Machine.execCheckpointRestore req s
  | .liveMigration phase => Sys2Proof.Machine.execLiveMigration phase s
  | .torwenPortDown port => Sys2Proof.Machine.execTorwenPortDown port s
  | .secondTierPowerDown controller => Sys2Proof.Machine.execSecondTierPowerDown controller s
  | .thermalShutdown notice => Sys2Proof.Machine.execThermalShutdown notice s
  | .firmwareInterrupt die => Sys2Proof.Machine.execFirmwareInterrupt die s

end Sys2Proof.Machine
end

