-- ==== Sys2Proof/Machine/Auto.lean ====
section
/-! DEFINITION. The steps that the module's engines take by themselves: those that may come at any time, of which a free value
chooses one, and those that come at a cycle of their own. Steps that depend on the world outside the module (host writes,
upsets, links, firmware's decisions) come only from the agenda (log 12). -/
namespace Sys2Proof.Machine
open Sys2Proof

/-! ### Sites (R131 to R135) -/

/-- A list rotated by a free value. -/
def rotated {α : Type} (free salt : Nat) (l : List α) : List α :=
  let k := Config.freeNat free salt % (l.length + 1)
  l.drop k ++ l.take k

/-- Take away from a list the elements of another, one for one. -/
def without (l : List Nat) : List Nat → List Nat
  | [] => l
  | x :: r => without (dropFirst x l) r

/-- A site for one group of a launch on a core: some quadrant with room, the lowest free slot, free granules. -/
def chooseSite (s : State) (l : Launch) (evicted : List (Nat × Nat)) (earlier : List GroupSite) (core sp salt : Nat) : Option GroupSite :=
  let free := s.free
  let slots := (List.range 64).filter fun k =>
    (s.group? core k).isNone && !(earlier.any fun y => y.core == core && y.slot == k)
  let site (q : Nat) : GroupSite :=
    let gs := residents s core q evicted
    let mine := earlier.filter fun y => y.core == core && y.quad == q
    let banks := ((List.range 16).filter (bankAllowed s core q l.cls)).flatMap fun b => List.replicate (8 - bankUsed gs b) b
    let grains := (List.range 8).filter fun j => grainAllowed s core q l.cls j && !grainUsed gs j
    { core := core, quad := q, slot := slots.headD 64
      banks := (rotated free (salt + 1) (without banks (mine.flatMap (·.banks)))).take (l.vregs / 8)
      grains := (rotated free (salt + 2) (without grains (mine.flatMap (·.grains)))).take (l.grain / 8), spBase := sp }
  ((rotated free salt [0, 1, 2, 3]).map site).find? (siteOk s l evicted earlier)

/-- Sites for groups in order. -/
def chooseGo (s : State) (l : Launch) (evicted : List (Nat × Nat)) (cores : List Nat) : List Nat → List GroupSite → Option (List GroupSite)
  | [], got => some got.reverse
  | id :: r, got =>
    let core := cores.getD (idTeam l id) 0
    let sp := ((rotated s.free 400 (List.range 65)).find? fun b => scratchFree s core b l.spblk).getD 65
    -- the groups of one team share its scratchpad
    let sp := match got.find? fun y => y.core == core with | some y => y.spBase | none => sp
    match chooseSite s l evicted got core sp (500 + 8 * got.length) with
    | some x => chooseGo s l evicted cores r (x :: got)
    | none => none

/-- Sites for the next cluster of a launch on a die. -/
def chooseSites (s : State) (l : Launch) (die : Nat) : Option (List GroupSite) :=
  match evictionFor s l die with
  | none => none
  | some d =>
    match (rotated s.free 399 (placePositions s l die d)).find? (fitsAt s l d) with
    | some cores => chooseGo s l d cores (nextIds l) []
    | none => none

/-- Placements that may come next: the launches of the queue that R290 serves, on each die. -/
def autoPlace (s : State) : List Instr :=
  [0, 1].flatMap fun die => [false, true].flatMap fun cls =>
    match servedQueue s die cls with
    | some (q, _) =>
      (s.launches.filter fun e => e.2.queue == q && e.2.cls == cls && placeable s e.2 die).filterMap fun e =>
        (chooseSites s e.2 die).map fun p => .groupPlace e.1 p
    | none => []

/-- Evicted groups that may be placed again. -/
def autoRestart (s : State) : List Instr :=
  (s.groups.filter fun e => e.2.evicted && e.2.committed.isEmpty).filterMap fun e =>
    match s.launch? e.2.launch with
    | some l =>
      -- its own slot is not free, so the site keeps it
      ((chooseSite { s with groups := tabErase s.groups e.1 } l [] [] (e.1 / 65) 0 300)).map fun x =>
        .harvestRestart (e.1 / 65) (e.1 % 65) x
    | none => none

/-! ### Steps at any time -/

def autoWriteback (s : State) : List Instr :=
  s.groups.flatMap fun e => e.2.splits.flatMap fun p =>
    (List.range p.2.pending.length).map fun i => .longLatencyWriteback ⟨e.1 / 65, e.1 % 65, p.1⟩ i

/-- Steps of groups' engines: committed entries, FETCHW answers. -/
def autoGroups (s : State) : List Instr :=
  s.groups.flatMap fun e =>
    let core := e.1 / 65
    let slot := e.1 % 65
    (if e.2.committed.isEmpty then [] else [.commitDrainComplete core slot])
      ++ (if e.2.fetching.isSome && !(s.context e.2.context).stopped then [.fetchwAnswer core slot] else [])

/-- Steps of a core's engines. -/
def autoCores (s : State) : List Instr :=
  s.cores.flatMap fun e =>
    (if (slotNext s e.1 false).isSome then [.ringSlotConsume e.1 false] else [])
      ++ (if (slotNext s e.1 true).isSome then [.ringSlotConsume e.1 true] else [])
      ++ (if (putDue s e.1).isSome then [.mmasPut e.1] else [])
      ++ (e.2.copies.foldl (fun l c => natInsert c.slot l) []).flatMap fun k =>
        (List.range (runnableCopies s e.1 k).length).map fun i => .copyComplete e.1 k i

/-- The step that executes a packet of a type. -/
def packetInstr (q ty : Nat) : Instr :=
  match ty with
  | 1 => .nodePacket q
  | 2 => .taskPacket q
  | 3 => .waitPacket q
  | 4 => .signalPacket q
  | 5 => .ibPacket q
  | 6 => .predPacket q
  | 7 => .loopPacket q
  | 8 => .ffencePacket q
  | 9 => .burnwaitPacket q
  | _ => .launchPacket q

/-- The step that takes a slot of a host window. -/
def slotInstr (s : State) (fn : Nat) (m : MailSlot) : Instr :=
  if m.cut then (if finishForm s fn m then .hostFinish fn m else .hostPublication fn m)
  else if m.rd then .hostMailboxRead fn m else .hostMailboxWrite fn m

/-- Slots whose turn has come. -/
def autoHost (s : State) : List Instr :=
  if s.regs.pcie then (List.range 17).filterMap fun fn => (nextSlot s fn).map (slotInstr s fn) else []

/-- Steps of the front end. -/
def autoFront (s : State) : List Instr :=
  (s.queues.flatMap fun e =>
    (if frontRuns s e.2 then
      .packetFetch e.1 :: ((e.2.packets.filter fun p => !p.executed).map Packet.ptype).eraseDups.map (packetInstr e.1)
     else [])
      ++ (if e.2.resetting then [.queueReset e.1] else []))
    ++ ((s.launches.filter fun e => !e.2.done && e.2.task.isNone && launchOver s e.1 e.2).map fun e => .launchComplete e.1)
    ++ (s.tasks.filter fun e => e.2.phase != .done && e.2.phase != .cancelled).flatMap fun e =>
      [.taskDispatch e.1, .taskRelaunch e.1, .taskComplete e.1, .taskCancel e.1]

/-- Steps of a context switch that may come at any time (R344). -/
def autoContexts (s : State) : List Instr :=
  s.contexts.flatMap fun e =>
    let c := BitVec.ofNat 12 e.1
    match e.2.phase with
    | .running => []
    | .quiescing _ => if outstanding s c then [] else [.quantumEnd c]
    | .out => if (nextQuantum s c).isSome then [.contextRestore c] else []
    | .restoring => if replaysLeft s c then [] else [.contextRestore c]

/-- The steps of the engines that may come next. -/
def enabledEvents (s : State) : List Instr :=
  autoWriteback s ++ autoGroups s ++ autoCores s ++ autoFront s ++ autoPlace s ++ autoRestart s ++ autoContexts s ++ autoHost s

/-- The choice among them. -/
def autoEvent (s : State) : Option Instr :=
  let l := enabledEvents s
  l[Config.freeNat s.free 12 % l.length]?

/-! ### Steps at a cycle of their own -/

/-- A step and the cycle in which it is due. -/
structure Due where
  at_ : Nat
  what : Instr

def dueGroups (s : State) : List Due :=
  s.groups.flatMap fun e =>
    let core := e.1 / 65
    let slot := e.1 % 65
    let limit := (s.part (s.whoOf core e.2).part).wdlimit
    (if e.2.protectedUntil = 0 then [] else [⟨e.2.protectedUntil, .protectedWindowEnd core slot⟩])
      ++ (match e.2.snapshot with | some n => if n.phase < 3 then [⟨n.due, .snapshotDrain core slot⟩] else [] | none => [])
      ++ (if watchdogDue { s with cycle := s.after e.2.lastIssue limit } core e.2
            && !(match watched e.2 with | some (i, sp) => terminalWaits s ⟨core, slot, i⟩ e.2 sp | none => true) then
            [⟨s.after e.2.lastIssue limit, .watchdog core slot⟩] else [])
      ++ e.2.splits.filterMap fun p =>
        match p.2.wait with
        | some (.queue q t) =>
          if timeoutReports s ⟨core, slot, p.1⟩ then
            (s.queue? q).map fun qu => ⟨s.after t qu.etime, .qfullTimeout ⟨core, slot, p.1⟩⟩
          else none
        | _ => none

def dueCores (s : State) : List Due :=
  s.cores.flatMap fun e => (if startDue s e.1 then [⟨s.cycle, .matrixOpStart e.1⟩] else []) ++ e.2.mq.flatMap fun o =>
    (o.subs.filterMap fun x => if x.done then none else x.writeAt.map fun t => ⟨t, .matrixOpComplete e.1 x.sub 0⟩)
      ++ (if o.subs.isEmpty && o.started.isSome && !o.completed then [⟨o.computeAt, .matrixOpComplete e.1 16 0⟩] else [])

def dueDies (s : State) : List Due :=
  [0, 1].flatMap fun d =>
    (match restDue s d (2 ^ 64) with | some b => [⟨b, .steadyRestStep d⟩] | none => [])
      ++ (if (servedClass s d).isSome then [⟨tabGet 0 s.turns (portKey d), .faultRecordWrite d⟩] else [])

def dueQueues (s : State) : List Due :=
  s.queues.flatMap fun e => (e.2.nodes.filter fun n => n.2.filling != 0).map fun n =>
    ⟨s.after n.2.since (n.2.timer + 1), .nodeTimerExpiry e.1 n.1⟩

def dueContexts (s : State) : List Due :=
  s.contexts.filterMap fun e =>
    let c := BitVec.ofNat 12 e.1
    match e.2.phase with
    | .running => if e.2.enabled then some ⟨s.after e.2.since (vdQuantum s.regs e.2.vdev), .quantumEnd c⟩ else none
    | .quiescing t => some ⟨s.after t 15, .quiescenceTimeout c⟩
    | _ => none

/-- The earliest of them. -/
def nextDue (s : State) : Option Due :=
  leastBy (fun d => d.at_) (dueGroups s ++ dueCores s ++ dueDies s ++ dueQueues s ++ dueContexts s)

end Sys2Proof.Machine
end

