-- ==== Sys2Proof/Machine/Run.lean ====
section
/-! DEFINITION. What stands before an instruction's own meaning: fetch (R34, step 1 of R69), the run length (R19, step 2)
and decoding (steps 3 and 4). Step.lean calls these. -/
namespace Sys2Proof.Machine
open Sys2Proof

/-- What the step does for an agent. -/
inductive Front where
  /-- Run this instruction in this state. -/
  | run (i : Instr) (s : State)
  /-- Nothing issues; the state after. -/
  | settled (s : State)

/-- A fault before the instruction's meaning, of the lanes that would have executed it; the cycle passes. -/
def frontFault (s : State) (ag : Agent) (code info : Nat) (lanes : BitVec 32) : State :=
  let s := { s with turn := none, free := s.free + 1, ecc := none }
  match s.group? ag.core ag.slot, s.split? ag with
  | some g, some sp =>
    -- one that parks is counted when it goes on
    if isRetryable code then raiseParks s s ag [⟨code, sp.confined lanes, info, 0, sp.pc, false⟩]
    else
      let s := countFaulted s ag g sp
      raiseTerminal s s ag code info (sp.confined lanes)
  | _, _ => s

/-- Fetch, check and decode for the agent whose turn it is. -/
def front (s : State) (ag : Agent) (g : Group) (sp : Split) : Front :=
  if !canIssue s ag g sp then .settled { s with turn := none, free := s.free + 1, cycle := s.cycle + 1, ecc := none }
  else
    match fetchBytes s ag g sp with
    | .error e => .settled (frontFault (fetched s ag g sp) ag e.1 e.2 sp.mask)
    | .ok l =>
      let s := fetched s ag g sp
      if Config.runLimit ≤ sp.run then .settled (frontFault s ag fIllegalOp (noInfo s) sp.mask)
      else
        match decodeBytes l with
        | .error _ => .settled (frontFault s ag fIllegalOp (noInfo s) sp.mask)
        | .ok (i, _) => .run i s

/-! ### Placing an instruction where the next step fetches (State.withFetchWord) -/

/-- The physical and virtual place of code that withFetchWord uses: the second 64 KiB frame. -/
def homeCode : Nat := 0x10000
/-- A capability over all of that frame. -/
def homeCap : Cap := ⟨0, 1, false, false, true, false, 0x10000#18, 0#6, 0x10000#57⟩

/-- The page table entry, anchor and access rights under which a core of die 0 fetches the frame. -/
def homeRegs (core : Nat) (r : Regs) : Regs :=
  let pte : BitVec 128 := BitVec.ofNat 128 (2 ^ 126 + 1 * 2 ^ 114 + 1 * 2 ^ 73 + 15 * 2 ^ 69 + 0xFFFFFFFF)
  { r with ipt := tabPut r.ipt 1 pte, anchors := tabPut r.anchors (anchorHash 1 1) 1#32,
           access := tabPut (tabPut r.access (sliceOf r 0 0x10000 * 4096 + core) (BitVec.ofNat 32 (2 ^ 16 + 15)))
             (controllerOf 0x10000 * 4096 + core) (BitVec.ofNat 32 (2 ^ 16 + 15)) }

/-- The split that runs it. -/
def homeSplit (stream handler : Bool) (lanes : BitVec 32) : Split :=
  { freshSplit 0x10000 (if stream then 1 else lanes) [] [(0, ⟨homeCap, false, 0, 0⟩)] 0 with inHandler := handler }

def freshLaunch (queue : Nat) (context tenant : BitVec 12) : Launch where
  queue := queue
  packet := none
  ring := 0
  task := none
  node := none
  nodeGen := 0
  nodeSlot := 0
  records := 0
  graph := 0
  cls := false
  tenant := tenant
  part := 0
  context := context
  entry := 0
  mentry := none
  argLen := 0
  code := homeCap
  arg := Cap.null
  argReg := Cap.null
  caps := []
  save := Cap.null
  hasSave := false
  vregs := 256
  grain := 32
  team := 1
  cw := 1
  ch := 1
  spblk := 64
  region := false
  fetch := false
  gx := 1
  gy := 1
  passK := none
  placed := 1
  ended := 0
  streams := 0
  withdrawnIds := []
  teams := [(0, 0, 0, 0)]
  bars := []
  endedIds := []
  stopping := false
  failed := none
  done := false

/-- Stand in for the load of a program: the instruction's bytes in memory, the page, launch and agent that run it. A matrix
stream runs engine-only opcodes, the headstock core of die 0 the privileged ones, and TRET runs in a handler. -/
def placeProgram (s : State) (bytes : List Byte) (op : Nat) : State :=
  let stream := engineOp op
  let core := if privilegedOp op then Config.meshCores else 0
  let slot := if stream then Config.streamSlot else 0
  let s := { s with agenda := [], turn := some ⟨core, slot, 0⟩, regs := homeRegs core s.regs }
  let s := s.setBytes homeCode bytes
  let l := s.nextLaunch
  let s := { s with launches := tabPut s.launches l { freshLaunch 0 1 1 with teams := [(0, 0, core, 0)] }, nextLaunch := l + 1 }
  s.putGroup core slot (freshGroup l 1 stream 256 32 (homeSplit stream (op == 0xCC) 0xFFFFFFFF))

end Sys2Proof.Machine
end

