-- ==== Sys2Proof/Machine/Step.lean ====
section
/-! DEFINITION. One step of the module. The agenda's next step comes first; then the agent whose turn it is issues. Otherwise
an engine's step comes, or the earlier of a ready split and a step that is due; where both kinds can come, which of them
does is a free value. Where none can, a cycle passes. -/
namespace Sys2Proof.Machine
open Sys2Proof

/-- The agent issues its next instruction. -/
def stepAgent (s : State) (ag : Agent) : Host.Outcome State Fault Refusal :=
  match s.group? ag.core ag.slot, s.split? ag with
  | some g, some sp =>
    match front s ag g sp with
    | .run i t => exec i t
    | .settled t => .next (t.keepRegs s)
  | _, _ => .fault .noAgent

/-- The scheduler gives a split its turn and it issues. -/
def stepChosen (s : State) (c : Cand × Nat) : Host.Outcome State Fault Refusal :=
  stepAgent (giveTurn s c.1 c.2) c.1.ag

/-- A step of an engine, which takes a fresh free value. -/
def stepEvent (s : State) (i : Instr) : Host.Outcome State Fault Refusal := exec i s.tick

/-- A step that is due, in its cycle. -/
def stepDue (s : State) (d : Due) : Host.Outcome State Fault Refusal := stepEvent { s with cycle := Nat.max s.cycle d.at_ } d.what

/-- The earlier of what is due and what issues. -/
def stepTimed (s : State) : Option (Host.Outcome State Fault Refusal) :=
  match chooseNext s, nextDue s with
  | some c, some d => some (if d.at_ ≤ c.2 then stepDue s d else stepChosen s c)
  | some c, none => some (stepChosen s c)
  | none, some d => some (stepDue s d)
  | none, none => none

/-- A module that is shut down (R390), or whose reset is held (Table 18.1): nothing runs and no other agent reaches it until
a power-on reset. -/
def stepOff (s : State) : Host.Outcome State Fault Refusal :=
  match s.agenda with
  | .powerOnReset run :: rest => exec (.powerOnReset run) { s with agenda := rest }
  | _ :: rest => .next { s with agenda := rest }
  | [] => .next { s with cycle := s.cycle + 1 }

/-- A module in recovery (Table 18.1): only the ROM of die 0 runs and the host port is up, so that nothing comes but a chunk of an
image, its end, a reset, and what power and heat do. -/
def stepRecovery (s : State) : Host.Outcome State Fault Refusal :=
  match s.agenda with
  | .powerOnReset run :: rest => exec (.powerOnReset run) { s with agenda := rest }
  | .recoveryChunk bs :: rest => exec (.recoveryChunk bs) { s with agenda := rest }
  | .recoveryEnd run :: rest => exec (.recoveryEnd run) { s with agenda := rest }
  | .clockThrottle mhz :: rest => exec (.clockThrottle mhz) { s with agenda := rest }
  | .thermalShutdown n :: rest => exec (.thermalShutdown n) { s with agenda := rest }
  | _ :: rest => .next { s with agenda := rest }
  | [] => .next { s with cycle := s.cycle + 1 }

/-- What a running module does next. -/
def stepOnce (s : State) : Host.Outcome State Fault Refusal :=
  match s.agenda with
  | i :: rest => exec i { s with agenda := rest }
  | [] =>
    match s.turn with
    | some ag => stepAgent s ag
    | none =>
      match stepTimed s, autoEvent s with
      | some t, none => t
      | none, some i => stepEvent s i
      | some t, some i => if Config.freeBit s.free 13 then t else stepEvent s i
      | none, none => .next { s with cycle := s.cycle + 1 }

/-- One step; splits whose wait it ended are ready from its cycle (R147). -/
def step (s : State) : Host.Outcome State Fault Refusal :=
  if s.regs.shutDown then stepOff s
  else if s.regs.stage = 15 then stepRecovery s
  else wokenBy s (stepOnce s)

/-- The state in which the next step fetches this instruction. A program is loaded from outside the module, so this stands
for the load (log 7). -/
def State.withFetchWord (s : State) (nbits w : Nat) : State :=
  placeProgram s (leBytes (w % 2 ^ nbits) 12) (bits (w % 2 ^ nbits) 95 88)

end Sys2Proof.Machine
end

