-- ==== Sys2Proof/Safety.lean ====
section
/-! DEFINITION. The terms in which statements about runs are made: which instruction issues and what it finds, what a reader
sees of registers, splits and memory, and when two states differ only in the bookkeeping that every issue touches. -/
namespace Sys2Proof.Machine
open Sys2Proof

/-! ### Issue -/

/-- What i finds when the agent whose turn it is issues it now: its group is resident and runs, no lane of its split is
parked, no tag it awaits is outstanding nor a result that CLK waits for, R69's checks pass, and its guard is not one that R18 skips. -/
def issuing (i : Instr) (s : State) : Option Ctx :=
  match s.turn with
  | none => none
  | some ag =>
    match s.group? ag.core ag.slot, s.split? ag, formOf i, fieldsOf i with
    | some g, some sp, some f, some w =>
      let s1 := { s with turn := none, free := s.free + 1 }
      let c := issueView f w s1 ag g sp
      if canIssue s1 ag g sp && sp.parked.isEmpty && !launchStops s1 g && !awaits w sp && !holdsForResults f s1 ag g sp && s.ecc.isNone
          && (precheck i f w ag.core c.g c.sp c.now c.x).isNone && !(f.splitWide && w.gn) then some c
      else none
    | _, _, _, _ => none

/-- As `issuing`, of a split-wide form whose guard R18 skips: it has no effect (R83). -/
def skipping (i : Instr) (s : State) : Option Ctx :=
  match s.turn with
  | none => none
  | some ag =>
    match s.group? ag.core ag.slot, s.split? ag, formOf i, fieldsOf i with
    | some g, some sp, some f, some w =>
      let s1 := { s with turn := none, free := s.free + 1 }
      let c := issueView f w s1 ag g sp
      if canIssue s1 ag g sp && sp.parked.isEmpty && !launchStops s1 g && !awaits w sp && !holdsForResults f s1 ag g sp && s.ecc.isNone
          && (precheck i f w ag.core c.g c.sp c.now c.x).isNone && f.splitWide && w.gn then some c
      else none
    | _, _, _, _ => none

/-! ### What a reader sees -/

/-- The register file's value of a register of the agent in a lane. -/
def State.reg (s : State) (ag : Agent) (loc : Loc) (lane : Nat) : Nat :=
  match s.group? ag.core ag.slot, s.split? ag with
  | some g, some sp => rawCell g sp loc lane
  | _, _ => 0

/-- The lanes in which a register exists: per-split registers have one value, under lane 0. -/
def Loc.inLane (loc : Loc) (lane : Nat) : Bool :=
  match loc with
  | .k _ | .a _ => lane == 0
  | _ => decide (lane < 32)

/-- The registers that the agent's next instruction finds: R23 clears the t registers of its lanes at the start of a run. -/
def State.regAtIssue (s : State) (ag : Agent) (loc : Loc) (lane : Nat) : Nat :=
  match loc, s.split? ag with
  | .t n, some sp => if sp.run = 0 && sp.mask.getLsbD lane then 0 else s.reg ag (.t n) lane
  | _, _ => s.reg ag loc lane

def State.pcOf (s : State) (ag : Agent) : Option (BitVec 57) := (s.split? ag).map (·.pc)
def State.statusOf (s : State) (ag : Agent) : Option Word := (s.split? ag).map (·.status)
def State.pendingOf (s : State) (ag : Agent) : Option (List Pending) := (s.split? ag).map (·.pending)
/-- The outstanding results once an instruction has issued more: at the start of a run those to t registers of the last run are
lost (R23), and an instruction that TRET resumed ends a run, with its results on w7 (R357, log 63). -/
def State.heldResults (s : State) (ag : Agent) (new : List Pending) : Option (List Pending) :=
  (s.split? ag).map fun sp =>
    let l := (if sp.run = 0 then sp.pending.map dropT else sp.pending) ++ new
    if sp.resumed then tagPending 7 l else l
def State.waitOf (s : State) (ag : Agent) : Option (Option Wait) := (s.split? ag).map (·.wait)

/-! ### The bookkeeping of issue -/

/-- A split without what the quadrant's scheduler changes (R146): its latch, the cut mark and the earliest issue. -/
def Split.still (sp : Split) : Split := { sp with latch := [], cut := false, readyAt := 0 }
/-- A split without what the issue of its own instructions changes. Each field left out here has its own statement. -/
def Split.body (sp : Split) : Split :=
  { sp.still with pc := 0, run := 0, flight := [], pending := [], unawaited := [], wait := none, only := none,
                  counted := false, pcOver := false, resumed := false, pkHold := none, k := [], a := [], status := 0 }
def Group.still (g : Group) : Group := { g with splits := g.splits.map fun e => (e.1, e.2.still) }
/-- A group without its register file and its splits. -/
def Group.body (g : Group) : Group := { g with v := [], p := [], t := [], g := [], lastIssue := 0, splits := [] }
def Core.still (c : Core) : Core := { c with quads := [] }
def Context.still (c : Context) : Context := { c with counters := [] }
/-- The state without the turn, the free counter, the cycle, and the tables that `Steady` speaks of entry by entry. -/
def State.rest (s : State) : State := { s with turn := none, free := 0, cycle := 0, groups := [], cores := [], contexts := [] }

/-- Nothing changes but the agent's own registers, its split's progress, the scheduler's bookkeeping and the performance
counters: memory, tags, special registers, other groups, other splits, mailboxes, queues and all tables stay. -/
structure Steady (s t : State) (ag : Agent) : Prop where
  rest : t.rest = s.rest
  bytes : ∀ a, t.byte a = s.byte a
  cores : ∀ k, (t.core k).still = (s.core k).still
  contexts : ∀ x, (t.context x).still = (s.context x).still
  groups : ∀ core slot, groupKey core slot ≠ groupKey ag.core ag.slot →
    (t.group? core slot).map Group.still = (s.group? core slot).map Group.still
  group : (t.group? ag.core ag.slot).map Group.body = (s.group? ag.core ag.slot).map Group.body
  splits : ∀ n, n ≠ ag.split → (t.split? ⟨ag.core, ag.slot, n⟩).map Split.still = (s.split? ⟨ag.core, ag.slot, n⟩).map Split.still
  split : (t.split? ag).map Split.body = (s.split? ag).map Split.body

/-! ### Results -/

/-- What an instruction writes to its destination D of `regs` registers, given its value in each lane: v, t and p registers in
the lanes of T alone, k and a registers once; a write to p7 is discarded (R11, R65, R99). -/
def destValue (c : Ctx) (t : Ty) (regs : Nat) (val : Nat → Nat) (loc : Loc) (lane : Nat) : Option Nat :=
  match c.w.d, loc with
  | .v n, .v m =>
    if n.toNat ≤ m ∧ m < n.toNat + regs ∧ lane ∈ c.lanes then some (val lane / 2 ^ (32 * (m - n.toNat)) % 2 ^ 32) else none
  | .t n, .t m => if m = n.toNat ∧ lane ∈ c.lanes then some (val lane % 2 ^ 32) else none
  | .k n, .k m =>
    if m = n.toNat ∧ c.lanes ≠ [] then
      some (if regs = 1 then (if t = .s32 then wrap (sext (val c.lane0) 32) 64 else val c.lane0 % 2 ^ 32) else val c.lane0 % 2 ^ 64)
    else none
  | .p n, .p m => if m = n.toNat ∧ m ≠ 7 ∧ lane ∈ c.lanes then some (val lane % 2) else none
  | .a n, .a m => if m = n.toNat ∧ c.lanes ≠ [] then some (capRegBits (capRegOfBits (val c.lane0))) else none
  | _, _ => none

/-- No register is written. -/
def noValue (_ : Loc) (_ : Nat) : Option Nat := none

/-- The registers afterwards: what `dst` gives, and elsewhere what the instruction found. -/
def Writes (s t : State) (ag : Agent) (dst : Loc → Nat → Option Nat) : Prop :=
  ∀ loc lane, loc.inLane lane = true → t.reg ag loc lane = (dst loc lane).getD (s.regAtIssue ag loc lane)

/-- The instruction took effect and the next one follows (R25): registers, flags and the address, and nothing else. -/
structure Retired (s t : State) (c : Ctx) (dst : Loc → Nat → Option Nat) (ex : Nat) : Prop where
  steady : Steady s t c.ag
  regs : Writes s t c.ag dst
  status : t.statusOf c.ag = (s.statusOf c.ag).map fun x => x ||| BitVec.ofNat 32 ex
  pc : t.pcOf c.ag = (s.pcOf c.ag).map fun x => x + 12

/-- The instruction took effect and control goes to another address (R106). Outside the 57-bit address space it is outside a0,
which the split remembers: the fetch there raises CAP_BOUNDS (R34, R193). -/
structure Jumped (s t : State) (c : Ctx) (dst : Loc → Nat → Option Nat) (target : Int) : Prop where
  steady : Steady s t c.ag
  regs : Writes s t c.ag dst
  status : t.statusOf c.ag = s.statusOf c.ag
  pc : t.pcOf c.ag = some (BitVec.ofInt 57 target)
  outside : (t.split? c.ag).map (·.pcOver) = some (decide (target < 0 ∨ 2 ^ 57 ≤ target))

/-! ### Instructions that access memory -/

/-- What is left of a core, a context and the state when caches, translation buffers, shared counters and meters are set
aside (R198, R202, R206, Table 16.4, R376), and the registers of Regs, which no instruction writes. Memory and its tags
stay. -/
def Core.calm (c : Core) : Core := { c with tlb := [], l1 := [] }
def Context.calm (c : Context) : Context := { c with counters := [], shared := [] }
def State.calm (s : State) : State :=
  { s with cores := s.cores.map (fun e => (e.1, e.2.calm)), contexts := s.contexts.map (fun e => (e.1, e.2.calm)), l2 := []
           meters := [], regs := Regs.reset }

/-- The same without memory, tags, the earlier code bytes of R34, the tests of WAIT packets that a write repeats (R289) and
writes that left the module, whose own statements say what a store does there. -/
def State.calmStore (s : State) : State :=
  { s.calm with mem := [], tags := [], codeShadow := [], watches := [], outbox := []
                contexts := s.contexts.map (fun e => (e.1, { e.2.calm with unacked := [] })) }

/-- The same as `calm` without the scratchpads' bytes. -/
def State.calmScratch (s : State) : State := { s.calm with cores := s.cores.map (fun e => (e.1, { e.2.calm with sp := [] })) }

/-- As `Retired`, with the states compared under a view. -/
structure RetiredUnder (view : State → State) (s t : State) (c : Ctx) (dst : Loc → Nat → Option Nat) (ex : Nat) : Prop where
  steady : Steady (view s) (view t) c.ag
  regs : Writes s t c.ag dst
  status : t.statusOf c.ag = (s.statusOf c.ag).map fun x => x ||| BitVec.ofNat 32 ex
  pc : t.pcOf c.ag = (s.pcOf c.ag).map fun x => x + 12

/-- What a register holds once a value has been written to it. -/
def Loc.holds (loc : Loc) (x : Nat) : Nat :=
  match loc with
  | .v _ | .t _ => x % 2 ^ 32
  | .k _ => x % 2 ^ 64
  | .p _ => x % 2
  | .a _ => capRegBits (capRegOfBits x)
  | .g _ | .gn _ => 0

/-- A long-latency result of these registers has been issued (R20): untagged while its run goes on, and no register written yet.
An instruction without a lane to act in has no result. -/
def IssuesCells (s t : State) (ag : Agent) (cells : List RegCell) : Prop :=
  ∃ id, t.pendingOf ag = s.heldResults ag (if cells.isEmpty then [] else [⟨none, id, cells⟩])

/-- The same, by the values of the registers. -/
def Issues (s t : State) (ag : Agent) (dst : Loc → Nat → Option Nat) : Prop :=
  ∃ cells, IssuesCells s t ag cells
    ∧ ∀ loc lane, loc.inLane lane = true → (cellIn cells loc lane).map loc.holds = dst loc lane

/-! ### Invariants -/

/-- Memory and its tags are in their canonical form. -/
def State.MemoryOk (s : State) : Prop := Memory.wf s.mem = true ∧ tagsWf s.tags = true

/-- What the tables of the manual say that a register may hold, whatever is written to it. -/
structure Regs.Ok (r : Regs) : Prop where
  /-- Table 9.6: GWAYS from 4 to 16. -/
  gways : ∀ k, 4 ≤ bits (tabGet 12#32 r.slicecfg k).toNat 4 0 ∧ bits (tabGet 12#32 r.slicecfg k).toNat 4 0 ≤ 16
  /-- Table 9.9 and Table 17.1. -/
  shares : ∀ k, tabGet 90 r.regcfg k ≤ 120 ∧ tabGet 75 r.allowcfg k ≤ 100
  /-- R134: PROT within SPARE, GPROT within GSPARE. -/
  budget : ∀ k b, (b < 16 → (tabGet rfBudgetReset r.rfbudget k).getLsbD (16 + b) = true → (tabGet rfBudgetReset r.rfbudget k).getLsbD b = true) ∧
    (b < 8 → (tabGet rfBudgetReset r.rfbudget k).getLsbD (40 + b) = true → (tabGet rfBudgetReset r.rfbudget k).getLsbD (32 + b) = true)
  /-- R207: MODE alone is stored in L2MODE. -/
  mode : ∀ k, (tabGet 0 r.l2mode k).toNat ≤ 1
  /-- Table 15.7: arbitration weights from 1 to 15, rings of 2^6 to 2^16 records. -/
  port : ∀ die i, i < 3 → 1 ≤ portWeight r die i ∧ portWeight r die i ≤ 15
  rings : ∀ k, 6 ≤ ringLog2 r k ∧ ringLog2 r k ≤ 16
  /-- R375: no quantum below the worst-case save time. -/
  quantum : ∀ v, 40 ≤ vdQuantum r v
  /-- R390. -/
  power : 2000 ≤ r.powerCap ∧ r.powerCap ≤ 7800
  clock : 25 ≤ r.clockMhz ∧ r.clockMhz ≤ 1750 ∧ r.clockMhz % 25 = 0
  /-- R386: no Torwen port has trained before a device id was written. -/
  torwen : r.deviceIdWritten = false → r.torwen = 0

/-- The registers and the format windows hold what their tables say. -/
structure State.RegsOk (s : State) : Prop where
  regs : s.regs.Ok
  /-- R209: enabled windows never overlap, and each has a listed form. -/
  windows : ∀ d e n m, n < 64 → m < 64 → (d, n) ≠ (e, m) → winEn (winOf s d n) = true → winEn (winOf s e m) = true →
    winOverlap (winOf s d n) (winOf s e m) = false
  forms : ∀ die n, n < 64 → winEn (winOf s die n) = true → windowForm (winOf s die n) = true

/-! ### Rounding -/

/-- 2^g as a rational. -/
def pow2 (g : Int) : ℚ := (2 : ℚ) ^ g

/-- The integer nearest to a number, the even one of two (RNE of Table 2.1). -/
structure Nearest (x : ℚ) (n : ℤ) : Prop where
  near : |(n : ℚ) - x| * 2 ≤ 1
  even : |(n : ℚ) - x| * 2 = 1 → n % 2 = 0

/-- q * 2^g is the magnitude x rounded to a multiple of 2^g in a mode (Table 2.4). -/
structure RoundAt (rm : Nat) (neg : Bool) (x : ℚ) (q : Nat) (g : Int) : Prop where
  nearest : rm = 0 → Nearest (x / pow2 g) q
  down : (rm = 1 ∨ rm = 2 ∧ neg = true ∨ rm = 3 ∧ neg = false) → (q : ℚ) * pow2 g ≤ x ∧ x < ((q : ℚ) + 1) * pow2 g
  up : (rm = 2 ∧ neg = false ∨ rm = 3 ∧ neg = true) → x ≤ (q : ℚ) * pow2 g ∧ ((q : ℚ) - 1) * pow2 g < x

/-- The same on the delivery grid of a format (R42). The grid's spacing 2^g is that of the mantissas at x, and nowhere below that
of the subnormals. -/
structure OnGrid (f : Fmt) (rm : Nat) (neg : Bool) (x : ℚ) (q : Nat) (g : Int) : Prop where
  low : f.emin - f.mb ≤ g
  top : x < pow2 (g + f.mb + 1)
  fine : g = f.emin - f.mb ∨ pow2 (g + f.mb) ≤ x
  round : RoundAt rm neg x q g

/-- Tiny (R45): the magnitude lies below the smallest normal number once it is rounded to the format's precision, with no bound on
the exponent. -/
def Tiny (f : Fmt) (rm : Nat) (neg : Bool) (x : ℚ) : Prop :=
  ∃ q g, x < pow2 (g + f.mb + 1) ∧ pow2 (g + f.mb) ≤ x ∧ RoundAt rm neg x q g ∧ (q : ℚ) * pow2 g < pow2 f.emin

/-- The largest finite magnitude of a format (Table 2.3). -/
def Fmt.limit (f : Fmt) : ℚ := (if f = .e4m3 then 2 ^ (f.mb + 1) - 2 else 2 ^ (f.mb + 1) - 1 : ℚ) *
  pow2 ((2 ^ f.eb : Nat) - (if f.ieee then 2 else 1) - f.bias - f.mb)

/-- r is the number x, not 0, rounded to a format in a mode, with the exceptions of R45: the neighbour on the delivery grid that
the mode names, or R43's value where that lies beyond the largest; under FLUSH a zero where x is tiny (R46). -/
structure RoundsTo (f : Fmt) (rm : Nat) (fl : Bool) (x : ℚ) (r : Rounded) : Prop where
  flushed : fl = true → Tiny f rm (decide (x < 0)) |x| → r = ⟨f.withSign (decide (x < 0)) 0, exUF + exNX⟩
  kept : ¬(fl = true ∧ Tiny f rm (decide (x < 0)) |x|) → ∃ q g, OnGrid f rm (decide (x < 0)) |x| q g ∧
    ((q : ℚ) * pow2 g ≤ f.limit →
      (∃ k d, fval f r.bits = .fin (decide (x < 0)) k d ∧ (k : ℚ) * pow2 d = (q : ℚ) * pow2 g) ∧
      ((q : ℚ) * pow2 g = |x| → r.ex = 0) ∧
      ((q : ℚ) * pow2 g ≠ |x| → (Tiny f rm (decide (x < 0)) |x| → r.ex = exUF + exNX) ∧
        (¬Tiny f rm (decide (x < 0)) |x| → r.ex = exNX))) ∧
    (f.limit < (q : ℚ) * pow2 g → r.ex = exOF + exNX ∧ r.bits = f.withSign (decide (x < 0))
      (if f.saturates = true ∨ rm = 1 ∨ rm = 2 ∧ x < 0 ∨ rm = 3 ∧ 0 < x then f.largest else f.infBits))

/-- A finite value, and its number. -/
def FVal.finite : FVal → Bool
  | .fin _ _ _ => true
  | _ => false
def FVal.rat : FVal → ℚ
  | .fin neg m e => (if neg then -1 else 1) * m * pow2 e
  | _ => 0

/-- r is the number x rounded, where a zero takes a sign of its own (R42). -/
def Delivers0 (f : Fmt) (rm : Nat) (fl zeroNeg : Bool) (x : ℚ) (r : Rounded) : Prop :=
  (x ≠ 0 → RoundsTo f rm fl x r) ∧ (x = 0 → r = ⟨f.withSign zeroNeg 0, 0⟩)

end Sys2Proof.Machine
end

