-- ==== Sys2Proof/Expected.lean ====
section
/-! DEFINITION. What the manual says an instruction's result is, by constructor, written from its tables: relations between
the operands as the instruction reads them in a lane and the value in that lane. -/
namespace Sys2Proof.Machine
open Sys2Proof

/-- A relation between what an instruction finds, a lane, and its value there. -/
abbrev Says := Ctx → Nat → Nat → Prop

/-- Element e of a pattern, and its value under TYPE (R37, R80). -/
def elemAt (t : Ty) (v e : Nat) : Nat := v / 2 ^ (tyWidth t * e) % 2 ^ tyWidth t
def elemInt (t : Ty) (v e : Nat) : Int :=
  let x := elemAt t v e
  if tySigned t ∧ 2 ^ (tyWidth t - 1) ≤ x then (x : Int) - (2 ^ tyWidth t : Nat) else (x : Int)

/-- The value is the pattern whose elements are these integers, wrapped, or saturated to the type's range (R38, R88). -/
def Elements (t : Ty) (saturate : Bool) (x : Nat → Int) (v : Nat) : Prop :=
  v < 2 ^ (32 * tyRegs t) ∧ ∀ e, e < tyElems t →
    (elemAt t v e : Int) = (if saturate then sat (x e) (tyLo t) (tyHi t) else x e) % (2 ^ tyWidth t : Nat)

/-- Two-operand arithmetic of Table 4.3. -/
def says2 (f : Int → Int → Int) : Says := fun c l v =>
  Elements c.w.ty (bit78 c.w) (fun e => f (elemInt c.w.ty (c.a l) e) (elemInt c.w.ty (c.b l) e)) v
def says1 (f : Int → Int) : Says := fun c l v =>
  Elements c.w.ty (bit78 c.w) (fun e => f (elemInt c.w.ty (c.a l) e)) v

/-- Bit by bit over the w bits of TYPE; no bit above them is set. -/
def saysBits (f : Ctx → Nat → Nat → Bool) : Says := fun c l v =>
  v < 2 ^ tyWidth c.w.ty ∧ ∀ j, j < tyWidth c.w.ty → v.testBit j = f c l j

/-- The value is that of a formula of the operands. -/
def saysIs (f : Ctx → Nat → Nat) : Says := fun c l v => v = f c l

/-- The conditions of Table 4.5. -/
def condHolds (code : Nat) (x y : Int) : Prop :=
  match code with
  | 1 => x = y
  | 2 => x ≠ y
  | 3 => x < y
  | 4 => x ≤ y
  | 5 => x > y
  | 6 => x ≥ y
  | _ => True

/-- A predicate result. -/
def saysPred (p : Ctx → Nat → Prop) : Says := fun c l v => v ≤ 1 ∧ (v = 1 ↔ p c l)

/-- The length of the field that a control word selects (R92). -/
def fieldLen (w ctl : Nat) : Nat := if w ≤ ctl % 256 then 0 else min (ctl / 256 % 256) (w - ctl % 256)

/-- The results of fixed latency of chapter 4 that are written under TYPE (Tables 4.2 to 4.4, R84 to R96). -/
def intSays : Instr → Option Says
  | .mov _ => some (saysIs fun c l => c.a l)
  | .movi _ => some fun c _ v => v < 2 ^ tyWidth c.w.ty ∧ (v : Int) = simm c.w % (2 ^ tyWidth c.w.ty : Nat)
  | .movh _ => some (saysBits fun c l j =>
      let n := 16 * c.w.var.toNat
      if n ≤ j ∧ j < n + 16 then c.w.imm.getLsbD (j - n) else (c.a l).testBit j)
  | .sel _ => some (saysIs fun c l => if c.pred (opC c.w) l then c.a l else c.b l)
  | .iadd _ => some (says2 fun x y => x + y)
  | .isub _ => some (says2 fun x y => x - y)
  | .imul _ => some (says2 fun x y => x * y)
  | .imulh _ => some fun c l v =>
      says2 (fun x y => (x * y).fdiv (2 ^ tyWidth c.w.ty : Nat)) c l v
  | .imad _ => some fun c l v => Elements c.w.ty (bit78 c.w)
      (fun e => elemInt c.w.ty (c.a l) e * elemInt c.w.ty (c.b l) e + elemInt c.w.ty (c.c' l) e) v
  | .imin _ => some (says2 fun x y => if x ≤ y then x else y)
  | .imax _ => some (says2 fun x y => if x ≤ y then y else x)
  | .iabs _ => some (says1 fun x => if x < 0 then -x else x)
  | .ineg _ => some (says1 fun x => -x)
  | .andb _ => some (saysBits fun c l j => (c.a l).testBit j && (c.b l).testBit j)
  | .orb _ => some (saysBits fun c l j => (c.a l).testBit j || (c.b l).testBit j)
  | .xorb _ => some (saysBits fun c l j => (c.a l).testBit j != (c.b l).testBit j)
  | .andn _ => some (saysBits fun c l j => (c.a l).testBit j && !(c.b l).testBit j)
  | .shl _ => some (saysBits fun c l j => decide (c.b32 l ≤ j) && (c.a l).testBit (j - c.b32 l))
  | .shr _ => some (saysBits fun c l j => decide (j + c.b32 l < tyWidth c.w.ty) && (c.a l).testBit (j + c.b32 l))
  | .sar _ => some (saysBits fun c l j =>
      (c.a l).testBit (if j + c.b32 l < tyWidth c.w.ty then j + c.b32 l else tyWidth c.w.ty - 1))
  | .rot _ => some (saysBits fun c l j =>
      (c.a l).testBit ((j + (tyWidth c.w.ty - c.b32 l % tyWidth c.w.ty)) % tyWidth c.w.ty))
  | .bfx _ => some (saysBits fun c l j =>
      let pos := c.b32 l % 256
      let n := fieldLen (tyWidth c.w.ty) (c.b32 l)
      if j < n then (c.a l).testBit (pos + j) else decide (0 < n) && tySigned c.w.ty && (c.a l).testBit (pos + n - 1))
  | .bfi _ => some (saysBits fun c l j =>
      let pos := c.c32 l % 256
      if pos ≤ j ∧ j < pos + fieldLen (tyWidth c.w.ty) (c.c32 l) then (c.b l).testBit (j - pos) else (c.a l).testBit j)
  | .popc _ => some (saysIs fun c l => ((List.range (tyWidth c.w.ty)).map fun j => ((c.a l).testBit j).toNat).sum)
  | .clz _ => some fun c l v =>
      v ≤ tyWidth c.w.ty ∧ (∀ j, tyWidth c.w.ty - v ≤ j → (c.a l).testBit j = false)
        ∧ (v < tyWidth c.w.ty → (c.a l).testBit (tyWidth c.w.ty - 1 - v) = true)
  | .brev _ => some (saysBits fun c l j => (c.a l).testBit (tyWidth c.w.ty - 1 - j))
  | .icmp _ => some (saysPred fun c l =>
      condHolds c.w.var.toNat (elemInt c.w.ty (c.a l) 0) (elemInt c.w.ty (c.b l) 0)
        ∧ (c.w.flags.getLsbD 3 = true → c.pred (opC c.w) l = true))
  | .isat _ => some fun c l v =>
      let w := tyWidth c.w.ty
      let x : Int := if 2 ^ (w - 1) ≤ c.a l then (c.a l : Int) - (2 ^ w : Nat) else (c.a l : Int)
      let n := c.b l % 2 ^ 32
      v < 2 ^ w ∧ (v : Int) =
        (if n = 0 then 0
         else if tySigned c.w.ty then (if w ≤ n then x else sat x (-(2 ^ (n - 1) : Nat)) ((2 ^ (n - 1) : Nat) - 1))
         else sat x 0 ((min (2 ^ n) (2 ^ (w - 1)) : Nat) - 1)) % (2 ^ w : Nat)
  | .lea _ => some fun c l v =>
      v < 2 ^ tyWidth c.w.ty ∧
        (v : Int) = ((c.a l : Int) + c.b l * 2 ^ c.w.var.toNat + simm c.w) % (2 ^ tyWidth c.w.ty : Nat)
  | _ => none

/-- The long-latency results of R89, per lane. -/
def divSays : Instr → Option Says
  | .idiv _ => some fun c l v =>
      let w := tyWidth c.w.ty
      let a := elemInt c.w.ty (c.a l) 0
      let b := elemInt c.w.ty (c.b l) 0
      v < 2 ^ w ∧ (b = 0 → v = 2 ^ w - 1) ∧ (b ≠ 0 → ∃ q m : Int, a = q * b + m ∧ m.natAbs < b.natAbs ∧ 0 ≤ m * a
        ∧ (v : Int) = q % (2 ^ w : Nat))
  | .irem _ => some fun c l v =>
      let w := tyWidth c.w.ty
      let a := elemInt c.w.ty (c.a l) 0
      let b := elemInt c.w.ty (c.b l) 0
      v < 2 ^ w ∧ (b = 0 → (v : Int) = a % (2 ^ w : Nat)) ∧ (b ≠ 0 → ∃ q m : Int, a = q * b + m ∧ m.natAbs < b.natAbs ∧ 0 ≤ m * a
        ∧ (v : Int) = m % (2 ^ w : Nat))
  | _ => none

/-! ### Cross-lane instructions (chapter 7) -/

/-- The destination and the flag predicate of FP (R152), both in the lanes of T; p7 discards. -/
def withFlag (c : Ctx) (dst : Loc → Nat → Option Nat) (flag : Nat → Bool) (loc : Loc) (lane : Nat) : Option Nat :=
  if loc = .p (fpCode c.w) ∧ fpCode c.w ≠ 7 ∧ lane ∈ c.lanes then some (flag lane).toNat else dst loc lane

/-- The name s of a source lane: some participant of the reader's virtual group stands there and gives A, or none does and
the fill is taken with the flag set (R158). -/
def ReadsLane (c : Ctx) (src : Int) (l v : Nat) (flag : Bool) : Prop :=
  (∃ q ∈ c.lanes, c.vgroup q = c.vgroup l ∧ (c.vlane q : Int) = src ∧ v = c.a q ∧ flag = false) ∨
  ((∀ q ∈ c.lanes, c.vgroup q = c.vgroup l → (c.vlane q : Int) ≠ src) ∧ v = (if c.w.flags.getLsbD 3 then c.c' l else 0)
    ∧ flag = true)

/-- R158 and R160: the value and the flag of each participant. -/
def crossSays : Instr → Option (Ctx → Nat → Nat → Bool → Prop)
  | .lread _ => some fun c l v flag =>
      ReadsLane c
        (match c.w.var.toNat with
          | 0 => (c.b32 l : Int)
          | 1 => (c.vlane l : Int) - c.b32 l
          | 2 => (c.vlane l : Int) + c.b32 l
          | _ => ((c.vlane l ^^^ c.b32 l : Nat) : Int)) l v flag
  | .lbcast _ => some fun c l v flag => ReadsLane c (c.b32 l) l v flag
  | .matchLanes _ => some fun c l v flag =>
      v < 2 ^ 32 ∧ (∀ i, i < 32 → (v.testBit i = true ↔ ∃ q ∈ c.lanes, c.vgroup q = c.vgroup l ∧ c.vlane q = i ∧ c.a q = c.a l))
        ∧ (flag = true ↔ ∀ q ∈ c.lanes, c.vgroup q = c.vgroup l → c.a q = c.a l)
  | _ => none

/-- A participant at virtual lane v of l's virtual group sends to l (R159). -/
def SendsFrom (c : Ctx) (l v : Nat) : Prop := ∃ q, c.peerAt l (v : Int) = some q ∧ c.b32 q = c.vlane l

/-- R163's tree, node by node. -/
def treeNode (f : Part → Part → Part) (leaf : Nat → Option Part) : Nat → Nat → Option Part
  | 0, i => leaf i
  | j + 1, i =>
    match treeNode f leaf j (2 * i), treeNode f leaf j (2 * i + 1) with
    | none, none => none
    | some x, none => some x
    | none, some y => some y
    | some x, some y => some (f x y)

/-- The leaf of a virtual lane: A of the thread of Q that stands there, where FLUSH reads a subnormal f32 as zero (R46). -/
def treeLeaf (c : Ctx) (q : List Nat) (v : Nat) : Option Part :=
  (q.find? fun l => c.vlane l == v).map fun l =>
    ⟨if c.w.ty = .f32 then (if c.fflush = true ∧ c.a l / 2 ^ 23 % 256 = 0 then c.a l / 2 ^ 31 * 2 ^ 31 else c.a l : Nat) else elemVal c.w.ty (c.a l), 0⟩

/-- R163 over Q, with the identity of Table 7.3 where Q is empty. -/
def treeValue (c : Ctx) (q : List Nat) : Part := (treeNode c.combine (treeLeaf c q) 5 0).getD ⟨c.identity, 0⟩

/-- The participants of l's virtual group. -/
def participants (c : Ctx) (l : Nat) : List Nat := c.lanes.filter fun x => c.vgroup x == c.vgroup l

/-- The set Q of SCAN (R165). -/
def scanSet (c : Ctx) (l : Nat) : List Nat :=
  (participants c l).filter fun x => decide (c.vlane x < c.vlane l) || (!c.w.var.getLsbD 3 && c.vlane x == c.vlane l)

/-- A predicate operand's participants, as the mask of their virtual lanes (Table 7.4). -/
def BallotMask (c : Ctx) (q : List Nat) (v : Nat) : Prop :=
  v < 2 ^ 32 ∧ ∀ i, i < 32 → (v.testBit i = true ↔ ∃ x ∈ q, c.pred c.w.a x = true ∧ c.vlane x = i)

/-- VOTE's predicate (Table 7.4). -/
def VoteHolds (c : Ctx) (l : Nat) : Prop :=
  match c.w.var.toNat with
  | 0 => ∀ q ∈ participants c l, c.pred c.w.a q = true
  | 1 => ∃ q ∈ participants c l, c.pred c.w.a q = true
  | _ => ∀ q ∈ participants c l, ∀ r ∈ participants c l, c.pred c.w.a q = c.pred c.w.a r

/-! ### Floating point (chapter 5) -/

/-- The pattern whose elements are these rounded results, with the union of their exceptions (R45). -/
def FloatElements (t : Ty) (n : Nat) (f : Nat → Rounded) (r : Rounded) : Prop :=
  r.bits < 2 ^ (tyWidth t * n) ∧ (∀ e, e < n → elemAt t r.bits e = (f e).bits % 2 ^ tyWidth t)
    ∧ ∀ i, r.ex.testBit i = true ↔ ∃ e, e < n ∧ (f e).ex.testBit i = true

/-- Element e of an operand as f32 arithmetic reads it: FLUSH acts on TYPE f32 alone (R46). -/
def floatIn (c : Ctx) (v e : Nat) : FVal := flushIn (fmtOf c.w.ty) c.fflush (elemAt c.w.ty v e)

/-- A relation between what a floating-point instruction finds, a lane, and its result there. -/
abbrev SaysF := Ctx → Nat → Rounded → Prop

def saysF (f : Ctx → Nat → Nat → Rounded) : SaysF := fun c l r => FloatElements c.w.ty (tyElems c.w.ty) (f c l) r

/-- The results of latency 6 of R115 to R120, and the type under which D is written. -/
def floatSays : Instr → Option (Ty × SaysF)
  | .fadd w => some (w.ty, saysF fun c l e => faddV (fmtOf c.w.ty) (rmCode c.w) c.fflush (floatIn c (c.a l) e) (floatIn c (c.b l) e))
  | .fsub w => some (w.ty, saysF fun c l e =>
      faddV (fmtOf c.w.ty) (rmCode c.w) c.fflush (floatIn c (c.a l) e) (floatIn c (c.b l) e).negate)
  | .fmul w => some (w.ty, saysF fun c l e => fmulV (fmtOf c.w.ty) (rmCode c.w) c.fflush (floatIn c (c.a l) e) (floatIn c (c.b l) e))
  | .ffma w => some (w.ty, saysF fun c l e =>
      ffmaV (fmtOf c.w.ty) (rmCode c.w) c.fflush (floatIn c (c.a l) e) (floatIn c (c.b l) e) (floatIn c (c.c' l) e))
  | .fmin w => some (w.ty, saysF fun c l e =>
      fminmax (fmtOf c.w.ty) false c.fflush (elemAt c.w.ty (c.a l) e) (elemAt c.w.ty (c.b l) e))
  | .fmax w => some (w.ty, saysF fun c l e =>
      fminmax (fmtOf c.w.ty) true c.fflush (elemAt c.w.ty (c.a l) e) (elemAt c.w.ty (c.b l) e))
  | .fcmp w => some (w.ty, fun c l r =>
      let x := flushIn .f32 c.fflush (c.a l)
      let y := flushIn .f32 c.fflush (c.b l)
      r.bits ≤ 1 ∧ (r.bits = 1 ↔ fcond c.w.var.toNat x y = true ∧ (c.w.flags.getLsbD 3 = true → c.pred (opC c.w) l = true))
        ∧ r.ex = if x.isSig || y.isSig then exNV else 0)
  | .fclass _ => some (.n32, fun c l r => r.bits = fclassMask (c.a l) ∧ r.ex = 0)
  | .fclassTest w => some (w.ty, fun c l r =>
      r.bits ≤ 1 ∧ (r.bits = 1 ↔ ∃ i, i < 10 ∧ (fclassMask (c.a l)).testBit i = true ∧ c.w.imm.getLsbD i = true) ∧ r.ex = 0)
  | .frnd w => some (w.ty, saysF fun c l e => frndV (fmtOf c.w.ty) (rmCode c.w) c.fflush (elemAt c.w.ty (c.a l) e))
  | .fdot _ => some (.f32, fun c l r =>
      r = fdotV (fmtOf c.w.ty) (rmCode c.w) ((List.range (tyElems c.w.ty)).map (elemAt c.w.ty (c.a l)))
        ((List.range (tyElems c.w.ty)).map (elemAt c.w.ty (c.b l))) (c.cF l))
  | _ => none

/-- The long-latency results of Table 5.5. -/
def specialSays : Instr → Option (Ctx → Nat → Rounded)
  | .frcp _ => some fun c l => special1 0x48 0 c.flush (c.a l)
  | .frsq _ => some fun c l => special1 0x49 0 c.flush (c.a l)
  | .fsqrt _ => some fun c l => special1 0x4A (rmCode c.w) c.flush (c.a l)
  | .fdiv _ => some fun c l => fdivV (rmCode c.w) c.flush (c.a l) (c.b l)
  | .exp2s _ => some fun c l =>
      let k := if c.w.flags.getLsbD 3 then c.c' l else 0x3F800000
      exp2sV c.flush (c.a l + c.b l * 2 ^ 32 + k * 2 ^ 64) (c.a l) (c.b l) k
  | .log2 _ => some fun c l => special1 0x4D 0 c.flush (c.a l)
  | .sin _ => some fun c l => special1 0x4E 0 c.flush (c.a l)
  | .cos _ => some fun c l => special1 0x4F 0 c.flush (c.a l)
  | _ => none

/-- The values that a conversion converts, and the exceptions of forming them (R126 to R128): the source elements, times the
scale of B for QCVT and DQCVT. -/
def convertSays : Instr → Option (Ctx → Nat → List FVal × Nat)
  | .fcvt _ => some fun c l => ((c.cvtSource l).map (srcVal (srcTy c.w)), 0)
  | .qcvt _ | .dqcvt _ => some fun c l => (c.scaled l, c.scaledNV l)
  | _ => none

/-- The stochastic-rounding state of a lane after n elements (R50). -/
def srAfter (st : Nat) : Nat → Nat
  | 0 => st
  | n + 1 => srStep (srAfter st n)

/-- A conversion's result in a lane (R47 to R50): each element rounded in the mode of RM, or stochastically with the low
16 bits of the state after its step. -/
def ConvertsTo (c : Ctx) (vals : Nat → List FVal) (l : Nat) (r : Rounded) : Prop :=
  FloatElements c.w.ty (vals l).length (fun e =>
    let x := (vals l).getD e (.fin false 0 0)
    if bit78 c.w then stochTo c.w.ty (srAfter (srOf c c.g l) (e + 1) % 2 ^ 16) x else cvtTo c.w.ty (rmCode c.w) x) r

/-- p is the f32 pattern of a number's magnitude (R129). -/
def MagBits (v : FVal) (p : Nat) : Prop :=
  match v with
  | .nan _ => False
  | .inf _ => p = 0x7F800000
  | .fin _ m e => p < 2 ^ 31 ∧ ∃ k d, fval .f32 p = .fin false k d ∧ (k : ℚ) * pow2 d = (m : ℚ) * pow2 e

/-- The greatest of a pattern and the magnitudes of some elements of a type. -/
def PeakOf (t : Ty) (els : List Nat) (old new : Nat) : Prop :=
  old ≤ new ∧ (∀ e ∈ els, ∀ p, MagBits (fval (fmtOf t) e) p → p ≤ new) ∧ (new = old ∨ ∃ e ∈ els, MagBits (fval (fmtOf t) e) new)

/-- The state t with the stochastic-rounding states and the peak registers that the agent's group has in s. -/
def State.likePeaks (t s : State) (ag : Agent) : State :=
  match s.group? ag.core ag.slot with
  | some g => t.modGroup ag.core ag.slot fun h => { h with sr := g.sr, pk := g.pk }
  | none => t

def State.srOf (s : State) (ag : Agent) (lane : Nat) : Option (Option Word) :=
  (s.group? ag.core ag.slot).map fun g => tabFind g.sr lane
def State.peakOf (s : State) (ag : Agent) (n : Nat) : Option Word := (s.group? ag.core ag.slot).map fun g => tabGet 0#32 g.pk n

/-! ### Memory accesses (chapters 4, 9 and 11) -/

/-- Bytes by address, and the map after a write of bytes from an address. -/
abbrev ByteMap := Nat → Byte
def ByteMap.write (m : ByteMap) (pa : Nat) (bs : List Byte) : ByteMap := fun a =>
  if pa ≤ a ∧ a < pa + bs.length then bs.getD (a - pa) 0 else m a
def ByteMap.num (m : ByteMap) (pa n : Nat) : Nat := ofLeBytes ((List.range n).map fun i => m (pa + i))

/-- Where the lanes of a memory operand go, if all of R194's checks pass in every lane. -/
def passGlobal (c : Ctx) (lanes : List Nat) (r : Nat → CapReg) (size mask : Nat) : Option (List (Nat × Place)) :=
  let offs := lanes.map fun l => (l, c.offset l)
  match checkLanes c.s c.who r size size mask offs with
  | some _ => none
  | none =>
    let acc := (resolveLanes c.s c.who r size mask offs).1
    if (badOf acc).isEmpty then some (goodOf acc) else none

/-- The same of a scratchpad operand (R241). -/
def passScratch (c : Ctx) (lanes : List Nat) (size : Nat) : Option (List (Nat × Place)) :=
  match checkSp c.s c.ag.core c.g size size (lanes.map fun l => (l, c.spAddr l)) with
  | .error _ => none
  | .ok acc => some (goodOf acc)

/-- The bytes that a load of n bytes may find at a place: memory's, or those of a line that the core's L1 holds for the
context (R202, R217), under the stores that the open region holds (R337); another device's are open. -/
def LoadFinds (s : State) (c : Ctx) (p : Place) (n : Nat) (bs : List Byte) : Prop :=
  match p with
  | .mem _ _ pa => bs = c.overlaid p (((s.bytes (pa / 128 * 128) 128).drop (pa % 128)).take n) ∨
      ∃ line ∈ (s.core c.who.core).l1, line.line = pa / 128 ∧ line.owner = c.who.context
        ∧ bs = c.overlaid p ((line.data.drop (pa % 128)).take n)
  | .sp core off _ => bs = c.overlaid p (spBytes s core off n)
  | .far _ _ => ∃ xs : List Byte, xs.length = n ∧ bs = c.overlaid p xs

/-- What a load delivers in a lane (Table 4.7): the bytes little-endian, sign-extended to 32 bits for .s8 and .s16. -/
def Delivers (w : Fields) (bs : List Byte) (v : Nat) : Prop :=
  v = if tySigned w.ty ∧ w.var.toNat ≤ 1 then wrap (sext (ofLeBytes bs) (8 * 2 ^ w.var.toNat)) 32 else ofLeBytes bs

/-- The translation buffers once every lane's address is translated. -/
def resolved (c : Ctx) (lanes : List Nat) (r : Nat → CapReg) (size mask : Nat) : State :=
  (resolveLanes c.s c.who r size mask (lanes.map fun l => (l, c.offset l))).2

/-- Where a store at a place of memory writes. -/
def storeAddr : Place → Option Nat
  | .mem _ _ pa => some pa
  | _ => none

/-- Memory after the lanes' stores, in ascending order (R99, R33). -/
def memAfter (s : State) (data : Nat → List Byte) (l : List (Nat × Place)) : ByteMap :=
  l.foldl (fun m e => match storeAddr e.2 with | some pa => m.write pa (data e.1) | none => m) s.byte

/-- A core's scratchpad after the lanes' stores. -/
def spAfter (s : State) (data : Nat → List Byte) (l : List (Nat × Place)) (core : Nat) : ByteMap :=
  l.foldl (fun m e => match e.2 with
    | .sp k off _ => if k = core then m.write off (data e.1) else m
    | _ => m) (spByte s core)

/-- An atomic's steps over lanes at addresses of one space, in ascending lane order: each step's old value and the bytes
afterwards (R245). -/
def atomSteps (n : Nat) (new : Nat → Nat → Nat) : ByteMap → List (Nat × Nat) → List (Nat × Nat) × ByteMap
  | m, [] => ([], m)
  | m, (l, pa) :: rest =>
    let old := m.num pa n
    let r := atomSteps n new (m.write pa (leBytes (new l old) n)) rest
    ((l, old) :: r.1, r.2)

/-- The new value of a word under an atomic (Table 11.2), a compare and swap (R247) or a bank operation (Table 11.3). -/
def atomOf : Instr → Option (Ctx → Nat → Nat → Nat)
  | .atom _ | .atoms _ => some fun c l old => atomNew 0 c.w.var.toNat c.w.ty old (c.c' l) 0
  | .cas _ | .cass _ => some fun c l old => if old = (c.casPair l).1 then (c.casPair l).2 else old
  | .bankop _ => some fun c l old => atomNew 2 c.w.var.toNat c.w.ty old (c.a l) 0
  | .bankopSadd _ => some fun c l old => atomNew 2 0 c.w.ty old (c.a l) (c.c' l)
  | _ => none

/-! ### Grain vectors (chapter 8) -/

/-- The grain register of a lane. -/
def State.grain (s : State) (ag : Agent) (n lane : Nat) : Option Grain :=
  (s.group? ag.core ag.slot).map fun g => tabGet Grain.zero g.g (n * 32 + lane)

/-- What a span's lane at position j holds of a result (Table 8.1, R176). -/
def grainPart (c : Ctx) (v : GVec) (j : Nat) : Grain :=
  ⟨BitVec.ofNat 256 (packElems 16 (((v.c.drop (16 * j)).take 16).map fun x => wrap x 16)), BitVec.ofNat 24 v.n,
    BitVec.ofNat 3 (spanCode c.w)⟩

/-- The acting span in which a lane lies. -/
def spanOf (l : List GSpan) (lane : Nat) : Option GSpan := l.find? fun sp => sp.contains lane

/-- What GST stores of each lane: its part of the components of its span (R191). -/
def gstData (l : List GSpan) (a : GSpan → GSrc) (lane : Nat) : List Byte :=
  match spanOf l lane with
  | some y => leBytes (packElems 16 ((((a y).c.drop (16 * y.idxOf lane)).take 16).map fun z => wrap z 16)) 32
  | none => []

/-- The grain registers after a result in register D for each acting span: the lanes of a span take its parts. -/
def GrainWritten (s t : State) (c : Ctx) (l : List GSpan) (val : GSpan → GVec) : Prop :=
  ∀ n lane, lane < 32 → t.grain c.ag n lane =
    match c.w.d, spanOf l lane with
    | .g d, some sp => if n = d.toNat then some (grainPart c (val sp) (sp.idxOf lane)) else s.grain c.ag n lane
    | _, _ => s.grain c.ag n lane

/-- The same registers but grain registers: these stay as they are. -/
def OtherRegs (s t : State) (ag : Agent) : Prop :=
  ∀ loc lane, loc.inLane lane = true → (∀ n, loc ≠ .g n ∧ loc ≠ .gn n) → t.reg ag loc lane = s.regAtIssue ag loc lane

/-- The result of an acting span from its sources A and B (R180 to R187). -/
def grainSays : Instr → Option (Ctx → GSpan → GSrc → GSrc → GVec)
  | .gcvt _ => some fun c sp _ _ => gcvtVec (sp.flatMap (c.components c.w.a))
  | .gadd _ => some fun _ _ a b => gaddVec false a.vec b.vec
  | .gaddSub _ => some fun _ _ a b => gaddVec true a.vec b.vec
  | .gneg _ => some fun _ _ a _ => { a.vec with c := a.c.map fun x => -x }
  | .gmov _ => some fun _ _ a _ => a.vec
  | .gscl _ => some fun c sp a _ => gsclVec a.vec (sext (c.b (sp.headD 0)) 32)
  | .gsetn _ => some fun c sp a _ => gsetnVec a.vec (c.b (sp.headD 0))
  | .gproj _ => some fun _ _ a b => gprojVec a.vec b.vec
  | .glerp _ => some fun c sp a b => glerpVec a.vec b.vec (glerpWeight (c.c' (sp.headD 0))).1 (glerpWeight (c.c' (sp.headD 0))).2
  | _ => none

/-- The value of each lane x, at position j of a span with source A (and B), of the forms that leave grain form (R181,
R188, R189); the flag of GDOT's FP; and the exceptions of a span. -/
def grainOut : Instr → Option (Ctx → GSrc → GSrc → Nat → Rounded × Bool)
  | .gexpDir _ => some fun c a _ j =>
      (packRounded c.w.ty (((a.c.drop (16 * j)).take 16).map fun x => roundPow (fmtOf c.w.ty) x (-14) 0), false)
  | .gexpVal _ => some fun c a _ j =>
      (packRounded c.w.ty (((a.c.drop (16 * j)).take 16).map fun x =>
        if a.zero then ⟨0, 0⟩ else roundPow (fmtOf c.w.ty) x (-14) (normVal a.n)), false)
  | .gdotCos _ => some fun _ a b _ =>
      (if a.zero || b.zero then ⟨0, 0⟩ else roundPow .f32 (gdotInt a.c b.c) (-28) 0, a.zero || b.zero)
  | .gdotFull _ => some fun _ a b _ =>
      (if a.zero || b.zero then ⟨0, 0⟩ else roundPow .f32 (gdotInt a.c b.c) (-28) (normVal a.n + normVal b.n), a.zero || b.zero)
  | .gnrm _ => some fun c a _ _ => (gnrmVal (fpCode c.w) a.vec.n, false)
  | _ => none

/-- The instructions that read the norm of their sources as well as the direction (Table 8.2). -/
def readsNorm : Instr → Bool
  | .gexpDir _ | .gdotCos _ => false
  | _ => true

/-- The registers and the type of D in the forms that leave grain form. -/
def grainOutRegs : Instr → Ctx → Ty × Nat
  | .gexpDir _, c | .gexpVal _, c => (c.w.ty, 16 / tyElems c.w.ty)
  | _, _ => (.f32, 1)

/-- Whether the form has the flag predicate of R152. -/
def hasZeroFlag : Instr → Bool
  | .gdotCos _ | .gdotFull _ => true
  | _ => false

end Sys2Proof.Machine
end

