-- ==== Sys2Proof/Effects.lean ====
section
/-! DEFINITION. The terms for what control, engine and system instructions do: steps that advance, jump or wait under a view,
handlers entered, divided splits, derived capabilities, cut words, copies and the other places that an instruction writes. -/
namespace Sys2Proof.Machine
open Sys2Proof

/-! ### Shapes of a step -/

/-- As `RetiredUnder`, with the status left to its own statement. -/
structure Advanced (view : State → State) (s t : State) (c : Ctx) (dst : Loc → Nat → Option Nat) : Prop where
  steady : Steady (view s) (view t) c.ag
  regs : Writes s t c.ag dst
  pc : t.pcOf c.ag = (s.pcOf c.ag).map fun x => x + 12

/-- A state without what a split records when it begins to wait. -/
def noWait (ag : Agent) (u : State) : State := u.modSplit ag fun sp => { sp with waitFrom := 0 }

/-- The instruction waits (R145, R304): its split holds what it waits for, and nothing else changes. -/
structure Waits (s t : State) (c : Ctx) (w : Wait) : Prop where
  steady : Steady (noWait c.ag s) (noWait c.ag t) c.ag
  regs : Writes s t c.ag noValue
  status : t.statusOf c.ag = s.statusOf c.ag
  pc : t.pcOf c.ag = s.pcOf c.ag
  wait : t.waitOf c.ag = some (some w)

/-- The agent's group and split are there and satisfy a predicate. -/
def State.At (t : State) (ag : Agent) (p : Group → Split → Prop) : Prop :=
  ∃ g sp, t.group? ag.core ag.slot = some g ∧ tabFind g.splits ag.split = some sp ∧ p g sp

/-- Views of a state without a part of the agent's own split, group or core. -/
def State.lessSplit (ag : Agent) (f : Split → Split) (u : State) : State := u.modSplit ag f
def State.lessGroup (ag : Agent) (f : Group → Group) (u : State) : State := u.modGroup ag.core ag.slot f
def State.lessCore (ag : Agent) (f : Core → Core) (u : State) : State := u.modCore ag.core f

/-- A mask of the lanes that satisfy a predicate. -/
def MaskOf (m : BitVec 32) (p : Nat → Prop) : Prop := ∀ l, l < 32 → (m.getLsbD l = true ↔ p l)

/-! ### Transfers and divergence -/

/-- The target of a code offset (R61). -/
def branchTarget (c : Ctx) : Int := (c.sp.pc.toNat : Int) + 12 + 4 * simm c.w

/-- The base of a0 as the instruction reads it (R102). -/
def codeBase (c : Ctx) : Nat := (capRegOfBits (c.readSplit (.a 0) c.lane0)).cap.base.toNat

/-- A CALL's link (R109). -/
def linkOf (c : Ctx) : Nat := (((c.sp.pc.toNat : Int) + 12 - codeBase c) % (2 ^ 64 : Nat)).toNat

/-- The deferral stack and the innermost entry of a BRC (steps 1 and 2 of R137). -/
def EntryFor (c : Ctx) (stack : List Deferral) (i : Nat) : Prop :=
  (c.sp.inner = some i ∧ stack = c.g.stack ∧ ∃ e, stack[i]? = some e ∧ e.brc = c.sp.pc.toNat) ∨
  ((∀ j e, c.sp.inner = some j → c.g.stack[j]? = some e → e.brc ≠ c.sp.pc.toNat) ∧ c.g.stack.length < 8
    ∧ stack = c.g.stack ++ [⟨c.sp.pc.toNat, c.sp.mask, none, none⟩] ∧ i = c.g.stack.length)

/-- The lowest free split slot. -/
def LowestFree (g : Group) (k : Nat) : Prop := k < 4 ∧ tabFind g.splits k = none ∧ ∀ j, j < k → tabFind g.splits j ≠ none

/-- A state without the group's deferral stack and its split's place in it. -/
def branchView (ag : Agent) (u : State) : State :=
  (u.lessGroup ag fun g => { g with stack := [] }).lessSplit ag fun sp => { sp with inner := none, pkHold := none }

/-- A state without the group's deferral stack and splits. -/
def dividedView (ag : Agent) (u : State) : State := u.lessGroup ag fun g => { g with stack := [], splits := [] }

/-- Every other split of the group but those of a list is as before, its entry number aside. -/
def OtherSplits (s t : State) (ag : Agent) (but : List Nat) : Prop :=
  ∀ n, n ≠ ag.split → n ∉ but →
    (t.split? ⟨ag.core, ag.slot, n⟩).map (fun sp => { sp.still with inner := none })
      = (s.split? ⟨ag.core, ag.slot, n⟩).map (fun sp => { sp.still with inner := none })

/-- A split that starts a new run at an address with some lanes, with the registers of the split that executed. -/
structure StartsAt (s t : State) (c : Ctx) (slot : Nat) (pc : Int) (mask : BitVec 32) (inner : Option Nat) : Prop where
  place : t.At ⟨c.ag.core, c.ag.slot, slot⟩ fun _ sp =>
    sp.pc = BitVec.ofInt 57 pc ∧ (sp.pcOver = true ↔ pc < 0 ∨ 2 ^ 57 ≤ pc) ∧ sp.mask = mask ∧ sp.inner = inner ∧ sp.run = 0 ∧ sp.latch = [] ∧ sp.wait = none
  regs : ∀ loc lane, loc.inLane lane = true → t.reg ⟨c.ag.core, c.ag.slot, slot⟩ loc lane = s.regAtIssue c.ag loc lane
  status : t.statusOf ⟨c.ag.core, c.ag.slot, slot⟩ = s.statusOf c.ag

/-- No other split of the group waits at a JOIN under entry i. -/
def AloneUnder (c : Ctx) (i : Nat) : Prop :=
  ∀ x ∈ c.g.splits, x.1 ≠ c.ag.split → x.2.inner = some i → ∀ a, x.2.wait ≠ some (.join a)

/-- Lanes of an entry that are in neither its waiting record nor the waiting split, that have not exited, and whose deferred
path has started. -/
def stillOut (c : Ctx) (e : Deferral) : BitVec 32 := e.parent &&& ~~~c.g.exited &&& ~~~(pathMask e) &&& ~~~(c.sp.mask ||| waitMask e)

/-! ### Capabilities -/

/-- Lengths of R101. -/
def Representable (n : Nat) : Prop := ∃ m e, m < 2 ^ 18 ∧ e ≤ 63 ∧ n = m * 2 ^ e
def LeastLength (n len : Nat) : Prop := Representable len ∧ n ≤ len ∧ ∀ k, Representable k → n ≤ k → len ≤ k
def GreatestLength (n len : Nat) : Prop := Representable len ∧ len ≤ n ∧ ∀ k, Representable k → k ≤ n → k ≤ len

/-- What CAPSET derives from a parent (R102), with its translation part (R197). -/
structure Derives (p : CapReg) (off perms len : Nat) (r : CapReg) : Prop where
  base : r.cap.base.toNat = p.cap.base.toNat + off
  size : r.cap.len = len
  read : r.cap.pr = (p.cap.pr && perms.testBit 3)
  write : r.cap.pw = (p.cap.pw && perms.testBit 2)
  execute : r.cap.px = (p.cap.px && perms.testBit 1)
  atomic : r.cap.pa = (p.cap.pa && perms.testBit 0)
  tenant : r.cap.tenant = p.cap.tenant
  device : r.cap.device = p.cap.device
  part : r.tv = (p.tv && decide (off < p.tlim.toNat))
  reach : r.tv = true → r.tpa = p.tpa + BitVec.ofNat 48 off ∧ r.tlim.toNat = min (p.tlim.toNat - off) len

/-- R102's length and its checks. -/
def CapsetLength (c : Ctx) (p : CapReg) (off len : Nat) : Prop :=
  if cimm c.w then
    LeastLength (c.c64 c.lane0) len ∧ off + len ≤ p.cap.len ∧ p.cap.base.toNat + off + len ≤ 2 ^ 57
  else
    off ≤ p.cap.len ∧ GreatestLength (min (p.cap.len - off) (2 ^ 57 - (p.cap.base.toNat + off))) len

/-! ### Handlers -/

/-- A state without a split's trap registers. -/
def trapView (ag : Agent) (u : State) : State := u.lessSplit ag fun sp =>
  { sp with trapCode := 0, trapPc := 0, trapMask := 0, trapEntry := 0, trapInfo := 0, trapFrom := 0, inHandler := false }

/-- The split enters its handler (R327, R328): the trap registers hold the fault, the run ends, and issue goes on at
a0.base + TVEC. Its other registers, its flags and memory stay. -/
structure EntersHandler (s t : State) (c : Ctx) (code : Nat) (info : Nat → Prop) (lanes : BitVec 32) (resume : BitVec 57) : Prop where
  steady : Steady (trapView c.ag s) (trapView c.ag t) c.ag
  regs : Writes s t c.ag noValue
  status : t.statusOf c.ag = s.statusOf c.ag
  trap : t.At c.ag fun _ sp => sp.inHandler = true ∧ sp.trapCode = BitVec.ofNat 8 code ∧ sp.trapPc = resume
    ∧ sp.trapMask = lanes ∧ (∃ x, info x ∧ sp.trapInfo = BitVec.ofNat 64 x) ∧ sp.run = 0 ∧ sp.latch = [] ∧ sp.wait = none
    ∧ sp.pc = BitVec.ofNat 57 ((tabGet CapReg.null c.sp.a 0).cap.base.toNat + c.sp.tvec.toNat)

/-- A vector split outside a handler, with a handler set, and with nothing outstanding. -/
def trapsFreely (c : Ctx) : Prop :=
  c.g.stream = false ∧ c.sp.inHandler = false ∧ c.sp.tvec ≠ 0 ∧ c.g.committed = [] ∧ c.sp.pending = []

/-- As `issuing`, of an instruction that one of R69's checks stops, with the code. -/
def stopsAtIssue (i : Instr) (s : State) : Option (Ctx × Nat) :=
  match s.turn with
  | none => none
  | some ag =>
    match s.group? ag.core ag.slot, s.split? ag, formOf i, fieldsOf i with
    | some g, some sp, some f, some w =>
      let s1 := { s with turn := none, free := s.free + 1 }
      let c := issueView f w s1 ag g sp
      if canIssue s1 ag g sp && sp.parked.isEmpty && !launchStops s1 g && !awaits w sp && !holdsForResults f s1 ag g sp
          && s.ecc.isNone then
        (precheck i f w ag.core c.g c.sp c.now c.x).map fun code => (c, code)
      else none
    | _, _, _, _ => none

/-! ### Barriers and events -/

/-- Arrivals of a lane's thread at the barrier that an instruction names, in a group that was not repacked (R168). -/
def arrivalsOf (g : Group) (c : Ctx) (l : Nat) : Nat := tabGet 0 g.arrivals (arrivalKey (vr c.w == 1) (c.w.imm.toNat % 16) l)

/-- The instance of an arrival: the highest of its threads' next instances. -/
def ArrivalInstance (c : Ctx) (n : Nat) : Prop :=
  (∀ l ∈ c.act, arrivalsOf c.g c l ≤ n) ∧ (c.act = [] → n = 0) ∧ (c.act ≠ [] → ∃ l ∈ c.act, arrivalsOf c.g c l = n)

/-- A state without arrivals of the agent's group and without its launches' completion counts. -/
def barrierView (ag : Agent) (u : State) : State :=
  { (u.lessGroup ag fun g => { g with arrivals := [] }) with
    launches := u.launches.map fun e => (e.1, { e.2 with bars := [] }) }

/-- Every active thread has arrived once more, and no other has. -/
def Arrived (t : State) (c : Ctx) : Prop :=
  t.At c.ag fun g _ => (∀ l, l < 32 → arrivalsOf g c l = arrivalsOf c.g c l + (if l ∈ c.act then 1 else 0)) ∧
    ∀ k, (∀ l ∈ c.act, k ≠ arrivalKey (vr c.w == 1) (c.w.imm.toNat % 16) l) → tabGet 0 g.arrivals k = tabGet 0 c.g.arrivals k

/-- The completion count of the barrier has passed instance n, counted modulo 2^32. -/
def instancePassed (u : State) (c : Ctx) (n : Nat) : Bool :=
  match u.launch? c.g.launch with
  | some l => instanceDone (tabGet 0 l.bars (barKey c.g (vr c.w == 1) (c.w.imm.toNat % 16))) n
  | none => true

/-- A state without event bits. -/
def eventView (u : State) : State :=
  { u with groups := u.groups.map fun e => (e.1, { e.2 with splits := e.2.splits.map fun x => (x.1, { x.2 with ev := false }) }) }

/-! ### Bindings and cut words -/

/-- A state without caches and without a context's bindings. -/
def bindView (ctx : BitVec 12) (u : State) : State := u.calm.modContext ctx fun x => { x with bindings := [] }

/-- A state without caches and without the writes that await an acknowledgement. -/
def ackView (u : State) : State := { u.calm with contexts := u.contexts.map fun e => (e.1, { e.2.calm with unacked := [] }) }

/-- A state as `calmStore` without the agent's MXSTATUS. -/
def cutView (ag : Agent) (u : State) : State := u.calmStore.lessGroup ag fun g => { g with mxstatus := 0 }

/-- The one access of a cut-word operand passes its checks (R239), at a place, or in this module's memory. -/
def cutReaches (c : Ctx) (mask : Nat) (l : Nat) (p : Place) : Prop :=
  passGlobal c (c.lanes.take 1) (c.capAt c.w.a) 8 mask = some [(l, p)]
def cutPlace (c : Ctx) (mask : Nat) (l va : Nat) (tn : BitVec 12) (pa : Nat) : Prop := cutReaches c mask l (.mem va tn pa)

/-- VERSION and STATE after the operations of Table 10.3 (1 CUTINIT, 2 PUBCUT, 3 FINCUT), and the flag that they set. -/
def cutAfter (kind v st : Nat) : Nat × Nat × Nat :=
  if kind = 1 then (0, 0, 0)
  else if st ≠ 0 then (v, st, stCutLate)
  else if v = 2 ^ 32 - 1 then (v, 1, stCutWrap)
  else (v + 1, if kind = 3 then 1 else 0, 0)

/-! ### Copies -/

/-- What a copy instruction asks of the engine. -/
structure CopyPlan where
  ok : Bool
  spans : List CopySpan
  dst : Cap
  src : Cap
  idx : Cap
  shape : CopyShape

/-- R306 to R308 and R365: operands, checks and geometry, by instruction. -/
def copySays : Instr → Option (Ctx → CopyPlan)
  | .cpy _ => some fun c =>
      let k := c.kAt c.w.b
      { ok := true, dst := (c.cap c.w.d).cap, src := (c.cap c.w.a).cap, idx := Cap.null, shape := .linear (k 0) (k 1) (k 2)
        spans := [⟨(c.cap c.w.a).cap, permR, k 1, k 2, 1⟩, ⟨(c.cap c.w.d).cap, permW, k 0, k 2, 1⟩] }
  | .cpys _ => some fun c =>
      let k := c.kAt c.w.b
      let e := bits (k 2) 15 0
      let n := [bits (k 2) 31 16, bits (k 2) 47 32, bits (k 2) 63 48]
      let st (i : Nat) : Int := sext (k i) 64
      let size (h : Int × Nat) : Nat := if n.contains 0 then 0 else h.2
      let from_ := hullOf n [st 3, st 4, st 5] e
      let to_ := hullOf n [st 6, st 7, st 8] e
      { ok := decide (1 ≤ e) && decide (e ≤ 4096), dst := (c.cap c.w.d).cap, src := (c.cap c.w.a).cap, idx := Cap.null
        shape := .strided (k 0) (k 1) e (bits (k 2) 31 16) (bits (k 2) 47 32) (bits (k 2) 63 48) (st 3) (st 4) (st 5) (st 6) (st 7) (st 8)
        spans := [⟨(c.cap c.w.a).cap, permR, (k 1 : Int) + from_.1, size from_, 1⟩,
                  ⟨(c.cap c.w.d).cap, permW, (k 0 : Int) + to_.1, size to_, 1⟩] }
  | .cpyg _ => some fun c =>
      let k := c.kAt c.w.b
      let e := bits (k 2) 47 32
      let nel := bits (k 2) 31 0
      let wd := if c.w.var.toNat = 0 then 4 else 8
      let idx := (c.cap (opC c.w)).cap
      { ok := bits (k 2) 63 48 == 0 && decide (1 ≤ e) && decide (e ≤ 4096), dst := (c.cap c.w.d).cap, src := (c.cap c.w.a).cap, idx := idx
        shape := .gather (k 0) (k 1) e nel (k 3) wd
        spans := [⟨(c.cap c.w.a).cap, permR, k 1, 0, 1⟩, ⟨idx, indexPerm idx, k 3, nel * wd, wd⟩, ⟨(c.cap c.w.d).cap, permW, k 0, nel * e, 1⟩] }
  | .ckpt _ => some fun c =>
      let k := c.kAt c.w.b
      { ok := bits (k 2) 31 0 != 0 && decide (bits (k 2) 63 32 < bits (k 2) 31 0) && k 3 != 0
        dst := (c.cap c.w.d).cap, src := (c.cap c.w.a).cap, idx := Cap.null
        shape := .shard (k 0) (k 1) (bits (k 2) 63 32) (bits (k 2) 31 0) (k 3)
        spans := [⟨(c.cap c.w.a).cap, permR, 0, k 3, 1⟩, ⟨(c.cap c.w.d).cap, permW, 0, 64 + k 3, 1⟩] }
  | _ => none

/-- A state without the copies of the agent's core and group. -/
def copyView (ag : Agent) (u : State) : State :=
  (u.lessCore ag fun k => { k with copies := [], nextCopy := 0 }).lessGroup ag fun g =>
    { g with openCopies := [], batches := [], closed := 0, completed := 0 }

/-! ### Mailboxes, the matrix queue and queues -/

/-- A put that waits at a mailbox, asleep or not (R312). -/
def Wait.awake : Wait → Wait
  | .mailboxOff m => .mailbox m true
  | w => w

/-- A state without the agent's core's mailboxes, and without which of the puts that wait at them are asleep. -/
def mailboxView (ag : Agent) (u : State) : State :=
  { u.lessCore ag fun k => { k with mbx := [], mq := k.mq.map fun o => { o with asleep := false } } with
    groups := u.groups.map fun e => (e.1, { e.2 with splits := e.2.splits.map fun p => (p.1, { p.2 with wait := p.2.wait.map Wait.awake }) }) }
/-- Every other mailbox is as before. -/
def OtherMailboxes (s t : State) (c : Ctx) (m : Nat) : Prop :=
  ∀ n, n ≠ m → t.mailbox c.ag.core n = s.mailbox c.ag.core n

/-- Outside an open region, and not in a harvest group (R305, R338). -/
def worksHere (c : Ctx) : Prop := c.g.region = none ∧ c.outsideHarvest = false

def matrixView (ag : Agent) (u : State) : State :=
  (u.lessCore ag fun k => { k with mq := [] }).lessGroup ag fun g => { g with sclA := none, sclB := none, ringA := none, ringB := none }

/-- One operation of the executing stream joins the matrix queue (R262); scales and rings stay. -/
structure Enqueued (s t : State) (c : Ctx) (kind : MatKind) (subs : List (Nat × Nat)) (put : Option (Nat × DWord)) : Prop where
  retired : RetiredUnder (matrixView c.ag) s t c noValue 0
  queue : ∃ o : MatOp, (t.core c.ag.core).mq = (s.core c.ag.core).mq ++ [o] ∧ o.owner = (c.g.launch, c.g.groupId) ∧ o.pc = c.sp.pc
    ∧ o.kind = kind ∧ o.put = put ∧ o.started = none ∧ o.completed = false ∧ o.failed = false
    ∧ o.subs.map (fun x => (x.sub, x.block)) = subs ∧ ∀ x ∈ o.subs, x.done = false ∧ x.progress = 0

/-- The operands of an MMA in L2 (R263, R264): readable, and aligned to lines. -/
def MatRows (c : Ctx) (o : Opnd) (off stride : Nat) : Prop :=
  capCheck c.s c.who (c.cap o).cap 0 0 1 permR = none ∧ ((c.cap o).cap.base.toNat + off) % 128 = 0 ∧ stride % 128 = 0

/-- The source of an operand of MMA: rows in L2, or the ring bound to it. -/
def MatOperand (c : Ctx) (ring : Bool) (o : Opnd) (bound : Option RingBind) (scale : Option Nat) (rows off stride : Nat) (m : MatSource) : Prop :=
  if ring then ∃ r, bound = some r ∧ r.rows = rows ∧ m = .ring r scale
  else MatRows c o off stride ∧ m = .l2 (c.cap o).cap off stride

/-- A state as `calmStore` without queues. -/
def queueView (u : State) : State := { u.calmStore with queues := [], enqWait := [] }

/-! ### Control and status registers -/

/-- The CSRs that CSRW writes in a vector split (Table 16.2). -/
def csrWritable (c : Ctx) (n : Nat) : Prop :=
  n ∈ [0x000, 0x001, 0x002, 0x010, 0x011, 0x012, 0x013, 0x020, 0x031] ∨ c.sp.inHandler = true ∧ (n = 0x022 ∨ n = 0x023)

/-- A state without one CSR of the agent. -/
def csrView (ag : Agent) (n : Nat) (u : State) : State :=
  if n = 0x000 then u.lessSplit ag fun sp => { sp with ctl := 0 }
  else if n = 0x002 then (u.lessSplit ag fun sp => { sp with srseed := 0 }).lessGroup ag fun g => { g with sr := [] }
  else if 0x010 ≤ n ∧ n ≤ 0x013 then u.lessGroup ag fun g => { g with pk := [] }
  else if n = 0x020 then u.lessSplit ag fun sp => { sp with tvec := 0 }
  else if n = 0x022 then u.lessSplit ag fun sp => { sp with trapPc := 0 }
  else if n = 0x023 then u.lessSplit ag fun sp => { sp with trapMask := 0 }
  else if n = 0x031 then u.lessGroup ag fun g => { g with rgnSel := 0 }
  else u

/-- What a CSRW of v leaves in the register (R50, R359, R360). -/
def CsrHolds (c : Ctx) (n v : Nat) (g : Group) (sp : Split) : Prop :=
  (n = 0x000 → sp.ctl = BitVec.ofNat 32 (v % 4)) ∧
  (n = 0x001 → sp.status = c.sp.status &&& ~~~(BitVec.ofNat 32 v)) ∧ (n ≠ 0x001 → sp.status = c.sp.status) ∧
  (n = 0x002 → sp.srseed = BitVec.ofNat 32 v ∧
    ∀ l, l < 32 → tabFind g.sr l =
      if l ∈ c.act then some (BitVec.ofNat 32 (srSeed (v % 2 ^ 32) (c.g.vlane c.ag.slot l))) else tabFind c.g.sr l) ∧
  (0x010 ≤ n ∧ n ≤ 0x013 → ∀ j, tabGet 0#32 g.pk j = if j = n - 0x010 then BitVec.ofNat 32 (v % 2 ^ 31) else tabGet 0#32 c.g.pk j) ∧
  (n = 0x020 → sp.tvec = BitVec.ofNat 57 (v / 4 * 4)) ∧
  (n = 0x022 → sp.trapPc = BitVec.ofNat 57 (v / 4 * 4)) ∧
  (n = 0x023 → sp.trapMask = BitVec.ofNat 32 v &&& c.sp.trapEntry) ∧
  (n = 0x031 → g.rgnSel = BitVec.ofNat 10 v)

/-! ### Regions and shootdowns -/

def regionView (ag : Agent) (u : State) : State :=
  (u.lessCore ag fun k => { k with banks := [] }).lessGroup ag fun g =>
    { g with region := none, committed := [], snapshot := none, evictions := 0 }

/-- A core without what the chuck unit has read for started matrix operations. -/
def Core.unread (k : Core) : Core := { k with mq := k.mq.map fun o => { o with rowsA := [], rowsB := [] } }

/-- A split without the translation of the word that it waits on. -/
def Split.noCut (p : Split) : Split := { p with wait := match p.wait with | some (.cut _ _) => none | w => w }

/-- A state without translation buffers, without what capability registers hold, those of snapshots and of contexts that are
switched out among them, and without the accesses in flight that a shootdown waits for (R201). -/
def shotView (u : State) : State :=
  let blank (g : Group) : Group :=
    shootdown.dropCaps (fun _ => CapReg.null) { g with splits := g.splits.map fun p => (p.1, p.2.noCut) }
  { u with
    cores := u.cores.map fun e => (e.1, { e.2.unread with tlb := [] })
    groups := u.groups.map fun e => (e.1, blank e.2)
    contexts := u.contexts.map fun e =>
      (e.1, { e.2 with saved := e.2.saved.map fun v =>
        { v with groups := v.groups.map (fun x => (x.1, blank x.2)), cores := v.cores.map fun x => (x.1, x.2.unread) } }) }

/-- Every read of a started matrix operation of some tenants has been made (R201). -/
def ReadsMade (s t : State) (hit : BitVec 12 → Prop) : Prop :=
  ∀ k, ∀ o ∈ (t.core k).mq, ∀ l, s.launch? o.owner.1 = some l → hit l.tenant → ∀ r ∈ o.rowsA ++ o.rowsB, ∀ x ∈ r, x.read = true

/-- No core holds an entry that was hit, every other entry stays, and a capability register that was hit has lost its
translation part (R197, R201), in a snapshot too. -/
def Shot (s t : State) (hitsEntry : TlbEntry → Prop) (hitsCap : Cap → Prop) : Prop :=
  (∀ k x, x ∈ (t.core k).tlb ↔ x ∈ (s.core k).tlb ∧ ¬hitsEntry x) ∧
  (∀ core slot g n, s.group? core slot = some g → g.snapshot = some n → ∃ h m, t.group? core slot = some h ∧ h.snapshot = some m ∧
    ∀ i, (tabGet CapReg.null n.split.a i).tv = true → hitsCap (tabGet CapReg.null n.split.a i).cap →
      tabGet CapReg.null m.split.a i = ⟨(tabGet CapReg.null n.split.a i).cap, false, 0, 0⟩) ∧
  ∀ ag sp sp', s.split? ag = some sp → t.split? ag = some sp' → ∀ n,
    ((tabGet CapReg.null sp.a n).tv = true → hitsCap (tabGet CapReg.null sp.a n).cap →
      tabGet CapReg.null sp'.a n = ⟨(tabGet CapReg.null sp.a n).cap, false, 0, 0⟩) ∧
    (¬((tabGet CapReg.null sp.a n).tv = true ∧ hitsCap (tabGet CapReg.null sp.a n).cap) →
      tabGet CapReg.null sp'.a n = tabGet CapReg.null sp.a n)

end Sys2Proof.Machine
end

