-- ==== Sys2Proof/Occurs.lean ====
section
/-! DEFINITION. The terms for the steps that no instruction takes: engines, the front end, queues, contexts, pages, links and
the module. -/
namespace Sys2Proof.Machine
open Sys2Proof

/-! ### Splits and cores -/

/-- The value that the last cell for a register and lane gives. -/
def lastCell (l : List RegCell) (loc : Loc) (lane : Nat) : Option Nat :=
  ((l.filter fun c => c.loc == loc && c.lane == lane).getLast?).map (·.val)

/-- Whether a location is a part of a grain register, and the part of a value that such a location holds by itself. -/
def Loc.isGrain : Loc → Bool
  | .g _ | .gn _ => true
  | _ => false
def Loc.grainPart (loc : Loc) (x : Nat) : Nat :=
  match loc with
  | .gn _ => x % 2 ^ 24
  | _ => x % 2 ^ 259

/-- Nothing of the split changes but bookkeeping and what its own statement says. -/
structure SplitStep (s t : State) (ag : Agent) : Prop where
  steady : Steady s t ag
  regs : ∀ loc lane, t.reg ag loc lane = s.reg ag loc lane
  status : t.statusOf ag = s.statusOf ag
  pending : t.pendingOf ag = s.pendingOf ag

/-- The two states differ in the group of one slot alone. -/
def OneGroup (s t : State) (core slot : Nat) (g : Group) : Prop :=
  t.group? core slot = some g ∧ (∀ k n, groupKey k n ≠ groupKey core slot → t.group? k n = s.group? k n)
    ∧ { t with groups := [] } = { s with groups := [] }

/-- A record of this code and kind joins the reporting port. -/
def PortGets (s t : State) (code kind : Nat) (p : Record → Prop) : Prop :=
  ∃ ring r, t.port = s.port ++ [(ring, r)] ∧ r.code = code ∧ r.kind = kind ∧ p r

/-- The mailboxes of a core but one are as before. -/
def OtherBoxes (s t : State) (core m : Nat) : Prop := ∀ k n, (k ≠ core ∨ n ≠ m) → t.mailbox k n = s.mailbox k n

/-! ### The matrix engine -/

/-- A queue without the operation at a position. -/
def withoutOp (l : List MatOp) (i : Nat) : List MatOp := l.take i ++ l.drop (i + 1)

/-- An accumulator word of a core: block, row and column (R268). -/
def accWord (s : State) (core block r j : Nat) : Nat := (tabGet 0#32 (s.core core).acc (block * 4096 + 64 * r + j)).toNat
/-- Every accumulator block but those that satisfy a predicate is as before. -/
def OtherBlocks (s t : State) (core : Nat) (p : Nat → Prop) : Prop :=
  ∀ k n, (k ≠ core ∨ ¬p (n / 4096)) → tabGet 0#32 (t.core k).acc n = tabGet 0#32 (s.core k).acc n

/-- Activity of a sub-array in AU (R272). -/
def auOf (s : State) (core k : Nat) : Nat := tabGet 0 (s.core core).activity k

/-- Everything but the core table, the steady rest's bookkeeping, what a read of L2 touches, and windows whose EN was cleared
stays. -/
def restView (u : State) : State := { u.calm with cores := [], contexts := [], rotation := [], restNext := [], fmtwin := [], closing := [] }

/-- The scales of an operation's rings lie within its team's allocation (R318). -/
def scalesFit (s : State) (core : Nat) (o : MatOp) : Prop :=
  ∀ (opB : Bool) (r : RingBind) (a k x n : Nat), opRing o opB = some (r, some a, k) → a ≤ x → 0 < n →
    x + n ≤ a + (scaleShape r opB).1 * (scaleShape r opB).2 * (k / chunkOf o.fmtB) → opSp s core o x n ≠ none

/-- A matrix operation without what the steps of its computation change. -/
def MatOp.plan (o : MatOp) : MatOp := { o with subs := [], scaleA := [], scaleB := [], pinned := [], readK := 0 }

/-- A launch is what its packet describes now, or its packet has executed (R283, Table 13.3). -/
def Settled (s : State) (l : Launch) : Prop :=
  ∀ id q p, l.packet = some id → s.queue? l.queue = some q → l.placed = 0 →
    (q.packets.find? fun p => p.id == id && !p.executed) = some p → packetLaunch s l.queue q p = .ok l

/-! ### Copies -/

/-- A destination offset of a copy receives the byte of a source offset (Table 14.2, R307, R365). `idx` gives the numbers of the
index list. -/
def CopyPair (shape : CopyShape) (idx : Nat → Nat) (d a : Nat) : Prop :=
  match shape with
  | .linear doff soff n => ∃ x, x < n ∧ d = doff + x ∧ a = soff + x
  | .strided doff soff e n0 n1 n2 ss0 ss1 ss2 ds0 ds1 ds2 => ∃ i0 i1 i2 x : Nat, i0 < n0 ∧ i1 < n1 ∧ i2 < n2 ∧ x < e ∧
      d = ((doff : Int) + i0 * ds0 + i1 * ds1 + i2 * ds2 + x).toNat ∧ a = ((soff : Int) + i0 * ss0 + i1 * ss1 + i2 * ss2 + x).toNat
  | .gather doff soff e n _ _ => ∃ j x, j < n ∧ x < e ∧ d = doff + j * e + x ∧ a = soff + idx j * e + x
  | .shard _ _ _ _ n => ∃ x, x < n ∧ d = 64 + x ∧ a = x

/-- An offset of a capability lies at an address of this module, where the copy engine may access it. -/
def LiesAt (s : State) (w : Who) (c : Cap) (off mask pa : Nat) : Prop := ∃ va tn, copyByte s w c off mask = .ok (.mem va tn pa)

/-- The numbers of a gather's index list, within its source (R307). -/
def Indexed (s : State) (w : Who) (c : Copy) (idx : Nat → Nat) : Prop :=
  ∀ doff soff e n ioff wd, c.shape = .gather doff soff e n ioff wd → ∀ j, j < n → ∃ pa, LiesAt s w c.idx (ioff + j * wd) permR pa ∧
    idx j = s.num pa wd ∧ soff + idx j * e + e ≤ c.src.len ∧ c.src.base.toNat + soff + idx j * e + e ≤ 2 ^ 57

/-! ### The front end -/

/-- The packet at the head of a queue, of a type, that may execute now (R281, R282). -/
structure HeadIs (s : State) (qi : Nat) (q : Queue) (p : Packet) (ty : Nat) : Prop where
  queue : s.queue? qi = some q
  runs : frontRuns s q = true
  head : headPacket q = some p
  type : p.ptype = ty
  sound : packetLimits q p = true
  order : bits p.bytes 27 27 = 1 → earlierDone q p = true

/-- An IB or LOOP at which fetch stands and which it has not gone into, with none at the head that waits to execute (R285,
R288). -/
structure LevelIs (s : State) (qi : Nat) (q : Queue) (p : Packet) (ty : Nat) (f : Frame) (rest : List Frame) : Prop where
  queue : s.queue? qi = some q
  runs : frontRuns s q = true
  ahead : ∀ h, headPacket q = some h → h.ptype = ty → h.entered = none
  last : (q.packets.filter fun x => !x.executed && x.ptype == ty && x.entered.isNone).getLast? = some p
  sound : packetLimits q p = true
  frames : q.frames = f :: rest

/-- A packet is listed no longer: it has completed (R279, Table 13.3). -/
def PacketGone (t : State) (qi id : Nat) : Prop := ∃ q, t.queue? qi = some q ∧ ∀ x ∈ q.packets, x.id ≠ id

/-- The test of WAIT and PRED on a word (Table 13.4). -/
def TestHolds (v w : Nat) : Prop :=
  let m := Nat.land w (bits v 191 128)
  match bits v 47 44 with
  | 0 => m = bits v 255 192
  | 1 => m ≠ bits v 255 192
  | 2 => bits v 255 192 ≤ m
  | _ => m < bits v 255 192

/-- Every other queue is as before. -/
def OtherQueues (s t : State) (qi : Nat) : Prop := ∀ n, n ≠ qi → t.queue? n = s.queue? n

/-- No core's L1 keeps a line of a context. -/
def L1Without (t : State) (ctx : BitVec 12) : Prop := ∀ k, ∀ x ∈ (t.core k).l1, x.owner ≠ ctx

/-- A launch descriptor's fields (Table 13.5). -/
def Describes (d : Nat) (l : Launch) : Prop :=
  l.entry = bits d 511 480 ∧ l.argLen = bits d 447 416 ∧ l.vregs = (if bits d 271 264 = 0 then 256 else bits d 271 264)
    ∧ l.grain = bits d 263 256 ∧ l.team = bits d 255 251 ∧ l.cw = bits d 250 247 ∧ l.ch = bits d 246 243 ∧ l.spblk = bits d 242 236
    ∧ (l.region = true ↔ bits d 235 235 = 1) ∧ (l.fetch = true ↔ bits d 234 234 = 1)
    ∧ l.mentry = (if bits d 479 448 = 0xFFFFFFFF then none else some (bits d 479 448))

/-- A launch at its start. -/
def NotStarted (l : Launch) : Prop :=
  l.placed = 0 ∧ l.ended = 0 ∧ l.streams = 0 ∧ l.teams = [] ∧ l.bars = [] ∧ l.failed = none ∧ l.done = false

/-! ### Host and fabric -/

/-- The local place of each byte of a slot's range, and of a request's. -/
def placesAt (t : BitVec 12) (va : Nat) (pas : List Nat) : List Place := pas.zipIdx.map fun x => .mem (va + x.2) t x.1

/-- A slot of function `fn` is the engine's next, and its checks of R389 pass with its bytes at local addresses. -/
structure SlotReady (s : State) (fn : Nat) (m : MailSlot) (mask : Nat) (c : Cap) (w : Who) (pas : List Nat) : Prop where
  next : m.seq.toNat = tabGet 0 s.hostNext fn % 2 ^ 16
  func : fn < 17
  host : s.regs.pcie = true
  cap : tabFind s.regs.capTables (capTableKey fn m.cidx.toNat) = some c
  size : 1 ≤ m.len.toNat ∧ m.len.toNat ≤ 64
  who : hostWho s fn c = some w
  checks : hostCheck s fn w c m.off.toNat m.len.toNat mask = none
  places : hostBytes s fn w c m.off.toNat mask m.len.toNat = .ok (placesAt w.tenant (c.base.toNat + m.off.toNat) pas)

/-- The engine has taken a function's slot and reported a STATUS (R388). -/
def SlotDone (s t : State) (fn status : Nat) : Prop :=
  tabGet 0 t.hostNext fn = tabGet 0 s.hostNext fn + 1
    ∧ tabGet 0 t.hostStatus (slotKey fn (tabGet 0 s.hostNext fn)) = status

/-- A request's bytes each stand at a local address that it may reach. -/
structure RequestLocal (s : State) (q : RemoteReq) (part : Nat) (w : Who) (pas : List Nat) : Prop where
  link : s.regs.torwen ≠ 0
  fresh : s.regs.incarnation.toNat ≤ q.incarnation.toNat
  stub : stubOf s q.tenant q.addr = none
  tenant : tenantPart s q.tenant = some part
  who : w = ⟨Config.meshCores, (s.part part).context, q.tenant, part, false⟩
  places : remoteBytes s w q.addr (remoteMask q.kind) (remoteLen q.kind) = .ok (placesAt q.tenant q.addr pas)

/-- A response has joined those given (R378). -/
def Responds (s t : State) (code : Nat) (body : List Byte) : Prop :=
  (∃ rest, t.spdm = s.spdm ++ [0x13#8 :: BitVec.ofNat 8 code :: body ++ rest]) ∧ { t with spdm := [], free := 0 } = { s with spdm := [], free := 0 }

end Sys2Proof.Machine
end

