-- ==== Sys2Proof/Certificates/Slice0/Obligations.lean ====
section
/-! DEFINITION. The statements for the provers. Each docstring names the rules that it formalises. -/
open Sys2Proof Sys2Proof.Machine

/-! ### Results and frames of the scalar instructions -/

/-- R84 to R96 (Tables 4.2 to 4.4), R20: the moves, integer arithmetic, logic, shifts, bit fields, comparison, ISAT
and LEA complete; D receives the value that the table gives in the lanes of T, in the type's registers, and nothing
else changes but the address. IDIV and IREM complete with a long-latency result: no register changes until it is
written, and division by zero is no fault. The width of ISAT's B is the model's reading (log 22). -/
def Obligations.IntegerResults : Prop :=
  (∀ (i : Instr) (tells : Says) (s : State) (c : Ctx), intSays i = some tells → issuing i s = some c →
    ∃ val : Nat → Nat, (∀ l ∈ c.lanes, tells c l (val l)) ∧
      ∃ t, exec i s = .next t ∧ Retired s t c (destValue c c.w.ty (tyRegs c.w.ty) val) 0) ∧
  ∀ (i : Instr) (tells : Says) (s : State) (c : Ctx), divSays i = some tells → issuing i s = some c →
    ∃ val : Nat → Nat, (∀ l ∈ c.lanes, tells c l (val l)) ∧
      ∃ t, exec i s = .next t ∧ Retired s t c noValue 0
        ∧ Issues s t c.ag (destValue c c.w.ty (tyRegs c.w.ty) val)

/-- R115 to R123, R45, R16, R20: the floating-point instructions of latency 6 complete; D receives the rounded result of
each lane, and SPLIT_STATUS collects the union of the exceptions of the lanes of T. The special functions complete
with a long-latency result, and set their flags as they issue. That the sums, products and quotients here are the exact
ones rounded once is ExactArithmetic. -/
def Obligations.FloatResults : Prop :=
  (∀ (i : Instr) (ty : Ty) (tells : SaysF) (s : State) (c : Ctx), floatSays i = some (ty, tells) → issuing i s = some c →
    ∃ r : Nat → Rounded, (∀ l ∈ c.lanes, tells c l (r l)) ∧
      ∃ t, exec i s = .next t ∧
        Retired s t c (destValue c ty 1 fun l => (r l).bits) (exUnion (c.lanes.map fun l => (r l).ex))) ∧
  ∀ (i : Instr) (r : Ctx → Nat → Rounded) (s : State) (c : Ctx), specialSays i = some r → issuing i s = some c →
    ∃ t, exec i s = .next t ∧ Retired s t c noValue (exUnion (c.lanes.map fun l => (r c l).ex))
      ∧ Issues s t c.ag (destValue c c.w.ty 1 fun l => (r c l).bits)

/-- R126 to R129, R47 to R50: FCVT, QCVT and DQCVT complete. Each element is rounded in the mode of RM, or
stochastically; the lanes of T that round stochastically step their states once for each element, no other state
steps, and QCVT alone raises a peak register: to the greatest of its old value and the magnitudes that were converted, unless it
holds a NaN's pattern; that case, and which lane's rounding a stochastic result in a k register is, is free, both the model's choice
(logs 65 and 66). R130: PKRD and PKRD.CLR complete with the peak
register's value in D; PKRD.CLR clears it to +0 and PKRD keeps it. The type of a literal source is the model's reading
(log 58). -/
def Obligations.ConversionResults : Prop :=
  (∀ (i : Instr) (vals : Ctx → Nat → List FVal × Nat) (s : State) (c : Ctx),
    convertSays i = some vals → issuing i s = some c →
    ∃ (r : Nat → Rounded) (from_ : Nat → Nat), (∀ l ∈ c.lanes, ConvertsTo c (fun l => (vals c l).1) l (r l)) ∧
      (∀ l ∈ c.lanes, if bit78 c.w = true ∧ opndCls c.w.d = .k then from_ l ∈ c.lanes else from_ l = l) ∧
      ∃ t, exec i s = .next t ∧
        Retired s (t.likePeaks s c.ag) c
          (destValue c c.w.ty (cvtRegs (cvtCount (srcTy c.w) c.w.ty) c.w.ty) fun l => (r (from_ l)).bits)
          (exUnion (c.lanes.map fun l => (vals c l).2 ||| (r (from_ l)).ex)) ∧
        (∀ l, t.srOf c.ag l =
          if bit78 c.w = true ∧ l ∈ c.lanes then
            some (some (BitVec.ofNat 32 (srAfter (srOf c c.g l) (vals c l).1.length))) else s.srOf c.ag l) ∧
        ∀ n, ∃ x y, s.peakOf c.ag n = some x ∧ t.peakOf c.ag n = some y ∧ (x.toNat ≤ 0x7F800000 → x.toNat ≤ y.toNat)
          ∧ (x ≠ y → n = c.w.imm.toNat % 4 ∧ ∃ f, i = .qcvt f)
          ∧ (n = c.w.imm.toNat % 4 → (∃ f, i = .qcvt f) → x.toNat ≤ 0x7F800000 →
              PeakOf (srcTy c.w) (c.lanes.flatMap c.cvtSource) x.toNat y.toNat)) ∧
  ∀ (i : Instr) (w : Fields) (s : State) (c : Ctx), i = .pkrd w ∨ i = .pkrdClr w → issuing i s = some c →
    ∃ x, s.peakOf c.ag (c.w.imm.toNat % 4) = some x ∧
      ∃ t, exec i s = .next t ∧ Retired s (t.likePeaks s c.ag) c (destValue c c.w.ty 1 fun _ => x.toNat) 0 ∧
        (∀ l, t.srOf c.ag l = s.srOf c.ag l) ∧
        ∀ n, t.peakOf c.ag n =
          if i = .pkrdClr w ∧ n = c.w.imm.toNat % 4 then some 0#32 else s.peakOf c.ag n

/-! ### Cross-lane instructions -/

/-- R151, R152, R158, R160: LREAD, LBCAST and MATCH complete; every participant receives its value in D and its flag in
FP. R159: LPUSH completes; a participant that receives sends takes the value of the sender with the highest virtual
lane, one that receives none keeps D, and the flag tells two sends or more. R161, R166: VLANE, VOTE and BALLOT
complete. BALLOT to a k register needs participants of one virtual group (R153). -/
def Obligations.CrossLanes : Prop :=
  (∀ (i : Instr) (tells : Ctx → Nat → Nat → Bool → Prop) (s : State) (c : Ctx), crossSays i = some tells →
    issuing i s = some c →
    ∃ (val : Nat → Nat) (flag : Nat → Bool), (∀ l ∈ c.lanes, tells c l (val l) (flag l)) ∧
      ∃ t, exec i s = .next t ∧ Retired s t c (withFlag c (destValue c c.w.ty (tyRegs c.w.ty) val) flag) 0) ∧
  (∀ (w : Fields) (s : State) (c : Ctx), issuing (.lpush w) s = some c →
    ∃ (val : Nat → Nat) (flag : Nat → Bool),
      (∀ l ∈ c.lanes, (flag l = true ↔ ∃ u v, u < v ∧ v < 32 ∧ SendsFrom c l u ∧ SendsFrom c l v) ∧
        ∀ v, v < 32 → SendsFrom c l v → (∀ u, v < u → u < 32 → ¬SendsFrom c l u) →
          ∃ q, c.peerAt l (v : Int) = some q ∧ val l = c.a q) ∧
      ∃ t, exec (.lpush w) s = .next t ∧
        ∃ dst : Loc → Nat → Option Nat,
          (∀ loc lane, (∃ v, v < 32 ∧ SendsFrom c lane v) → dst loc lane = destValue c c.w.ty (tyRegs c.w.ty) val loc lane) ∧
          (∀ loc lane, (¬∃ v, v < 32 ∧ SendsFrom c lane v) → dst loc lane = none) ∧
          Retired s t c (withFlag c dst flag) 0) ∧
  (∀ (w : Fields) (s : State) (c : Ctx), issuing (.vlane w) s = some c →
    ∃ t, exec (.vlane w) s = .next t ∧ Retired s t c (destValue c .n32 1 fun l =>
      if c.a32 l < 32 then (remapEntry c.s c.ag.core (c.vgroup l * 32 + c.a32 l)).toNat else 0) 0) ∧
  (∀ (w : Fields) (s : State) (c : Ctx), issuing (.vote w) s = some c →
    ∃ val : Nat → Nat, (∀ l ∈ c.lanes, val l ≤ 1 ∧ (val l = 1 ↔ VoteHolds c l)) ∧
      ∃ t, exec (.vote w) s = .next t ∧ Retired s t c (destValue c .b32 1 val) 0) ∧
  (∀ (w : Fields) (s : State) (c : Ctx), issuing (.ballot w) s = some c → opndCls c.w.d ≠ .k →
    ∃ val : Nat → Nat, (∀ l ∈ c.lanes, BallotMask c (participants c l) (val l)) ∧
      ∃ t, exec (.ballot w) s = .next t ∧ Retired s t c (destValue c .b32 1 val) 0) ∧
  (∀ (w : Fields) (n : BitVec 6) (s : State) (c : Ctx), issuing (.ballot w) s = some c → c.w.d = .k n → c.oneGroup = true →
    ∃ v, BallotMask c c.lanes v ∧ ∃ t, exec (.ballot w) s = .next t ∧
      Retired s t c (fun loc _ => if loc = .k n.toNat then some v else none) 0)

/-- R163 to R165, R45: RED and SCAN complete with the reduction in the fixed tree over each participant's set Q, and
collect the exceptions of every combination they deliver; RED's count goes to the next register. -/
def Obligations.Reductions : Prop :=
  (∀ (w : Fields) (s : State) (c : Ctx), issuing (.scan w) s = some c →
    ∃ t, exec (.scan w) s = .next t ∧
      Retired s t c (destValue c c.w.ty (tyRegs c.w.ty) fun l => c.reduced (treeValue c (scanSet c l)))
        (exUnion (c.lanes.map fun l => (treeValue c (scanSet c l)).ex))) ∧
  (∀ (w : Fields) (n : BitVec 8) (s : State) (c : Ctx), issuing (.red w) s = some c → c.w.d = .v n →
    ∃ t, exec (.red w) s = .next t ∧
      Retired s t c (fun loc lane =>
          if c.w.var.getLsbD 3 = true ∧ loc = .v (n.toNat + tyRegs c.w.ty) ∧ lane ∈ c.lanes then
            some (participants c lane).length
          else destValue c c.w.ty (tyRegs c.w.ty) (fun l => c.reduced (treeValue c (participants c l))) loc lane)
        (exUnion (c.lanes.map fun l => (treeValue c (participants c l)).ex))) ∧
  (∀ (w : Fields) (n : BitVec 6) (s : State) (c : Ctx), issuing (.red w) s = some c → c.w.d = .k n → c.oneGroup = true →
    ∃ t, exec (.red w) s = .next t ∧
      Retired s t c (fun loc _ =>
          if loc = .k n.toNat then some (extK c.w.ty (tyRegs c.w.ty) (c.reduced (treeValue c c.lanes)))
          else if c.w.var.getLsbD 3 = true ∧ loc = .k (n.toNat + 1) then some c.lanes.length else none)
        (treeValue c c.lanes).ex) ∧
  (∀ (w : Fields) (s : State) (c : Ctx), issuing (.red w) s = some c → c.w.d = .zero →
    ∃ t, exec (.red w) s = .next t ∧ Retired s t c noValue (exUnion (c.lanes.map fun l => (treeValue c (participants c l)).ex)))

/-! ### Grain vectors -/

/-- R171, R172, R176, R180 to R187: where every acting span is whole and its sources are well formed, the grain
instructions complete; each acting lane of D receives its part of the span's result, and no other register changes.
R181, R188, R189: GEXP, GDOT and GNRM complete; each lane of an acting span receives its components' values, or the
span's value, and GDOT's flag tells a zero operand. What exact numbers these results round is ExactArithmetic. R190, R191: GST of
a well-formed D completes and changes no register; what it stores is the concern of Stores. -/
def Obligations.GrainResults : Prop :=
  (∀ (w : Fields) (s : State) (c : Ctx) (l : List GSpan) (q : List (Nat × Place)), issuing (.gst w) s = some c →
    c.outsideHarvest = false → c.g.region = none → c.whole.spans = some l → (∀ x ∈ l, (c.whole.gsrc false c.w.d x).isSome = true) →
    passGlobal c c.accessLanes (c.capAt c.w.a) 32 permW = some q → c.g.committed = [] →
    ∃ t, exec (.gst w) s = .next t ∧ RetiredUnder State.calmStore s t c noValue 0) ∧
  (∀ (i : Instr) (f : Ctx → GSpan → GSrc → GSrc → GVec) (s : State) (c : Ctx) (l : List GSpan) (a b : GSpan → GSrc),
    grainSays i = some f → issuing i s = some c → c.spans = some l →
    (∀ sp ∈ l, c.gsrc true c.w.a sp = some (a sp) ∧ c.gsrc true c.w.b sp = some (b sp)) →
    ∃ t, exec i s = .next t ∧ Steady s t c.ag ∧ OtherRegs s t c.ag ∧ t.pcOf c.ag = (s.pcOf c.ag).map (· + 12) ∧
      GrainWritten s t c l (fun sp => f c sp (a sp) (b sp)) ∧
      t.statusOf c.ag = (s.statusOf c.ag).map fun x =>
        x ||| BitVec.ofNat 32 (exUnion (l.map fun sp => (f c sp (a sp) (b sp)).ex))) ∧
  ∀ (i : Instr) (f : Ctx → GSrc → GSrc → Nat → Rounded × Bool) (s : State) (c : Ctx) (l : List GSpan) (a b : GSpan → GSrc),
    grainOut i = some f → issuing i s = some c → c.spans = some l → (∀ x ∈ c.lanes, (spanOf l x).isSome = true) →
    (∀ sp ∈ l, c.gsrc (readsNorm i) c.w.a sp = some (a sp) ∧ (hasZeroFlag i = true → c.gsrc (readsNorm i) c.w.b sp = some (b sp))) →
    ∃ r : Nat → Rounded × Bool,
      (∀ sp ∈ l, ∀ j x, sp[j]? = some x → spanOf l x = some sp → sp.idxOf x = j → r x = f c (a sp) (b sp) j) ∧
      ∃ t ex, exec i s = .next t ∧
        (∀ n, ex.testBit n = true ↔ ∃ x ∈ l.flatten, (r x).1.ex.testBit n = true) ∧
        Retired s t c
          (if hasZeroFlag i then withFlag c (destValue c (grainOutRegs i c).1 (grainOutRegs i c).2 fun x => (r x).1.bits) fun x => (r x).2
            else destValue c (grainOutRegs i c).1 (grainOutRegs i c).2 fun x => (r x).1.bits) ex

/-! ### Loads and stores

A group with committed entries that are not yet performed (R354) performs them first; these statements are about groups
without. -/

/-- R99, R242, R20: where every lane passes its checks, LD and LDS complete with a long-latency result of what the
lanes find at their places; no memory, tag, scratchpad byte or register changes. R104, R195: CAPLD of a granule whose
tag the read finds set completes, with the capability of its sixteen bytes as a long-latency result and no translation
part. R370: memory of the host holds no tags, so a CAPLD through its capability whose other checks pass raises CAP_TAG.
R100, R211: LD.side completes. A line that the L2 does not hold gives the sixteen side bytes that its window
supplies, by bits [6:5] of the address, and zero where no window covers it. No memory, tag or register changes. R191,
R190: where every acting span is whole and every lane passes its checks, GLD completes. Each span's components, as its
lanes find them, and its norm code C make a grain value, a long-latency result for D. That a handler's loads see no
held entry is the model's reading (log 60), as is the order of accesses (log 9). -/
def Obligations.Loads : Prop :=
  (∀ (i : Instr) (w : Fields) (s : State) (c : Ctx) (l : List (Nat × Place)), issuing i s = some c → c.g.committed = [] →
    (i = .ld w ∧ passGlobal c c.accessLanes (c.capAt c.w.a) (accessSize c.w) permR = some l ∨
      i = .lds w ∧ passScratch c c.accessLanes (accessSize c.w) = some l) →
    ∃ val : Nat → Nat,
      (∀ e ∈ l, ∃ bs, LoadFinds s c e.2 (accessSize c.w) bs ∧ Delivers c.w bs (val e.1)) ∧
      ∃ t, exec i s = .next t ∧ RetiredUnder State.calm s t c noValue 0 ∧
        Issues s t c.ag (destValue { c with lanes := l.map (·.1) } c.w.ty (accessRegs c.w) val)) ∧
  (∀ (w : Fields) (s : State) (c : Ctx) (l : Nat) (p : Place) (v : Nat) (u : State), issuing (.capld w) s = some c →
    c.g.committed = [] → passGlobal c c.accessLanes (c.capAt c.w.a) 16 permR = some [(l, p)] →
    c.readCap (resolved c c.accessLanes (c.capAt c.w.a) 16 permR) p = (v, true, u) →
    (∃ bs, LoadFinds s c p 16 bs ∧ v = ofLeBytes bs) ∧
    ∃ t, exec (.capld w) s = .next t ∧ RetiredUnder State.calm s t c noValue 0 ∧
      Issues s t c.ag (destValue c c.w.ty 4 fun _ => capRegBits ⟨capOfBits v, false, 0, 0⟩)) ∧
  (∀ (w : Fields) (s : State) (c : Ctx) (l : Nat), issuing (.capld w) s = some c → trapsFreely c → c.accessLanes = [l] →
    (c.capAt c.w.a l).cap.device = 0xFFFFF#20 → capCheck s c.who (c.capAt c.w.a l).cap (c.offset l) 16 16 permR true = none →
    ∃ t, exec (.capld w) s = .next t ∧
      EntersHandler s t c fCapTag (fun x => x = infoVa (c.capAt c.w.a l) (c.offset l)) (c.sp.confined c.sp.mask) c.sp.pc) ∧
  (∀ (w : Fields) (s : State) (c : Ctx) (l : List (Nat × Place)), issuing (.ldSide w) s = some c → c.g.committed = [] →
    passGlobal c c.accessLanes (c.capAt c.w.a) 16 permR = some l →
    ∃ val : Nat → Nat,
      (∀ e ∈ l, ∀ va t pa, e.2 = .mem va t pa → tabFind s.l2 (pa / 128) = none →
        val e.1 = ofLeBytes (((padTo 64 (if (sideFill s pa).1 = 0 then [] else (sideFill s pa).2)).drop (16 * (pa / 32 % 4))).take 16)) ∧
      ∃ t, exec (.ldSide w) s = .next t ∧ RetiredUnder State.calm s t c noValue 0 ∧
        Issues s t c.ag (destValue { c with lanes := l.map (·.1) } c.w.ty 4 val)) ∧
  ∀ (w : Fields) (s : State) (c : Ctx) (sp : List GSpan) (l : List (Nat × Place)), issuing (.gld w) s = some c →
    c.g.committed = [] → c.spans = some sp → passGlobal c c.accessLanes (c.capAt c.w.a) 32 permR = some l →
    ∃ val : Nat → List Byte, (∀ e ∈ l, LoadFinds s c e.2 32 (val e.1)) ∧
      let v (x : GSpan) : GVec := gldVec (x.flatMap fun y => dirComps (ofLeBytes (val y))) (c.c' (x.headD 0)) x.length
      ∃ t, exec (.gld w) s = .next t ∧ RetiredUnder State.calm s t c noValue (exUnion (sp.map fun x => (v x).ex)) ∧
        IssuesCells s t c.ag (match c.w.d with
          | .g n => sp.flatMap fun x => (gCells c n.toNat x (v x)).1 ++ (gCells c n.toNat x (v x)).2
          | _ => [])

/-- R99, R33, R195, R191: outside a region, ST, GST and STS whose lanes all pass complete. Memory holds each lane's bytes
at its address, written in ascending lane order, and every other byte is as before; after ST and GST a granule keeps its tag only
where no byte of it was written, and a scratchpad has none. No register, flag or other state changes. R104, R195: outside a region CAPST completes: the
sixteen bytes of the capability stand at its address and the granule's tag is set; every other byte and tag is as
before. -/
def Obligations.Stores : Prop :=
  ((∀ (w : Fields) (s : State) (c : Ctx) (l : List (Nat × Place)), issuing (.st w) s = some c → c.g.region = none →
    c.outsideHarvest = false → c.g.committed = [] →
    passGlobal c c.lanes (c.capAt c.w.a) (accessSize c.w) permW = some l →
    ∃ t, exec (.st w) s = .next t ∧ RetiredUnder State.calmStore s t c noValue 0 ∧
      (∀ a, t.byte a = memAfter s c.storeData l a) ∧
      ∀ a, t.tagged a = (s.tagged a && l.all fun e => match storeAddr e.2 with
        | some pa => decide (a / 16 < pa / 16 ∨ (pa + accessSize c.w - 1) / 16 < a / 16)
        | none => true)) ∧
  (∀ (w : Fields) (s : State) (c : Ctx) (l : List (Nat × Place)), issuing (.sts w) s = some c → c.g.region = none →
    c.outsideHarvest = false → c.g.committed = [] → passScratch c c.lanes (accessSize c.w) = some l →
    ∃ t, exec (.sts w) s = .next t ∧ RetiredUnder State.calmScratch s t c noValue 0 ∧
      ∀ core off, spByte t core off = spAfter s c.storeData l core off) ∧
  (∀ (w : Fields) (s : State) (c : Ctx) (sp : List GSpan) (a : GSpan → GSrc) (l : List (Nat × Place)),
    issuing (.gst w) s = some c → c.g.region = none → c.outsideHarvest = false → c.g.committed = [] → c.whole.spans = some sp →
    (∀ x ∈ sp, c.whole.gsrc false c.w.d x = some (a x)) →
    passGlobal c c.accessLanes (c.capAt c.w.a) 32 permW = some l →
    ∃ t, exec (.gst w) s = .next t ∧ RetiredUnder State.calmStore s t c noValue 0 ∧
      (∀ adr, t.byte adr = memAfter s (gstData sp a) l adr) ∧
      ∀ adr, t.tagged adr = (s.tagged adr && l.all fun e => match storeAddr e.2 with
        | some pa => decide (adr / 16 < pa / 16 ∨ (pa + 31) / 16 < adr / 16)
        | none => true))) ∧
  ∀ (w : Fields) (s : State) (c : Ctx) (lane va pa : Nat) (tenant : BitVec 12), issuing (.capst w) s = some c →
    c.g.region = none → c.outsideHarvest = false → c.g.committed = [] →
    passGlobal c c.accessLanes (c.capAt c.w.a) 16 permW = some [(lane, .mem va tenant pa)] → isCxl pa = false →
    ∃ t, exec (.capst w) s = .next t ∧ RetiredUnder State.calmStore s t c noValue 0 ∧
      (∀ a, t.byte a = ByteMap.write s.byte pa (leBytes (capBits (c.cap c.w.d).cap) 16) a) ∧
      ∀ a, t.tagged a = (s.tagged a || a / 16 == pa / 16)

/-- R337, R228, R305, R241, R245: in an open region a store of ST, STS, GST or CAPST, an atomic without a destination, a compare
and swap, a bank operation, a cut-word operation, a binding or a copy completes without its effect: its entries are held, in
program order behind those already there, and no byte of memory or of a scratchpad, no tag, binding or copy and no register changes
until the region commits. A BIND of length 0 holds nothing. -/
def Obligations.HeldWork : Prop :=
  ∀ (i : Instr) (w : Fields) (s : State) (c : Ctx) (r : Region) (hs : List Held), issuing i s = some c → c.g.region = some r →
    ((∃ l, i = .st w ∧ passGlobal c c.lanes (c.capAt c.w.a) (accessSize c.w) permW = some l ∧
        hs = l.map (fun e => .store e.2 (c.storeData e.1))) ∨
      (∃ l, i = .sts w ∧ passScratch c c.lanes (accessSize c.w) = some l ∧ hs = l.map (fun e => .store e.2 (c.storeData e.1))) ∨
      (∃ sp a l, i = .gst w ∧ c.whole.spans = some sp ∧ (∀ x ∈ sp, c.whole.gsrc false c.w.d x = some (a x)) ∧
        passGlobal c c.accessLanes (c.capAt c.w.a) 32 permW = some l ∧ hs = l.map (fun e => .store e.2 (gstData sp a e.1))) ∨
      (∃ l, i = .capst w ∧ passGlobal c c.accessLanes (c.capAt c.w.a) 16 permW = some l ∧
        (∀ e ∈ l, ∀ va t pa, e.2 = .mem va t pa → isCxl pa = false) ∧ hs = (l.take 1).map (fun e => .capStore e.2 (c.cap c.w.d).cap)) ∨
      (∃ l kind op arg second, opndCls c.w.d = .zero ∧
        (i = .atom w ∧ passGlobal c c.accessLanes (c.capAt c.w.a) (atomSize c.w.ty) permA = some l ∧
            kind = 0 ∧ op = vr c.w ∧ arg = c.c' ∧ second = (fun _ => 0) ∨
          i = .atoms w ∧ passScratch c c.accessLanes (atomSize c.w.ty) = some l ∧
            kind = 0 ∧ op = vr c.w ∧ arg = c.c' ∧ second = (fun _ => 0) ∨
          i = .cas w ∧ passGlobal c c.accessLanes (c.capAt c.w.a) (atomSize c.w.ty) permA = some l ∧
            kind = 1 ∧ op = 0 ∧ arg = (fun x => (c.casPair x).1) ∧ second = (fun x => (c.casPair x).2) ∨
          i = .cass w ∧ passScratch c c.accessLanes (atomSize c.w.ty) = some l ∧
            kind = 1 ∧ op = 0 ∧ arg = (fun x => (c.casPair x).1) ∧ second = (fun x => (c.casPair x).2)) ∧
        hs = if l = [] then [] else [.atomic kind op c.w.ty (l.map fun e => (e.2, arg e.1, second e.1))]) ∨
      (∃ l op second, passScratch c c.lanes 4 = some l ∧
        (i = .bankop w ∧ op = vr c.w ∧ second = (fun _ => 0) ∨ i = .bankopSadd w ∧ op = 0 ∧ second = c.c') ∧
        hs = if l = [] then [] else [.atomic 2 op c.w.ty (l.map fun e => (e.2, c.a e.1, second e.1))]) ∨
      (∃ kind mask l p, (i = .rel w ∧ kind = 0 ∧ mask = permR ∨ i = .cutinit w ∧ kind = 1 ∧ mask = permR + permW ∨
          i = .pubcut w ∧ kind = 2 ∧ mask = permR + permW ∨ i = .fincut w ∧ kind = 3 ∧ mask = permR + permW) ∧
        cutReaches c mask l p ∧ hs = [.cut kind p]) ∨
      (∃ l p b, i = .bind w ∧ cutReaches c permR l p ∧ rangeCheck s c.who (c.cap c.w.d).cap = none ∧
        b = (⟨(c.cap c.w.d).cap.device.toNat, (c.cap c.w.d).cap.base.toNat, (c.cap c.w.d).cap.len, (cutName s p).1, (cutName s p).2⟩ : Binding) ∧
        (b.len = 0 ∧ hs = [] ∨
          b.len ≠ 0 ∧ (∀ x ∈ c.bindingsSeen, bindOverlaps x b.dev b.base b.len = false) ∧ c.bindingsSeen.length < Config.bindingLimit ∧
            hs = [.bind b])) ∨
      (∃ l p, i = .unbindWord w ∧ cutReaches c permR l p ∧ hs = [.unbindWord (cutName s p).1 (cutName s p).2]) ∨
      (i = .unbind w ∧ hs = [.unbind (c.cap c.w.d).cap.device.toNat (c.cap c.w.d).cap.base.toNat (c.cap c.w.d).cap.len]) ∨
      (∃ f, copySays i = some f ∧ (f c).ok = true ∧ copyFault c.s c.who (f c).spans = none ∧
        hs = [.copy c.sp.pc (f c).dst (f c).src (f c).idx (f c).shape])) →
    entriesUsed (r.held ++ hs) ≤ 64 →
    ∃ t, exec i s = .next t ∧ RetiredUnder (fun u => u.calm.lessGroup c.ag fun g => { g with region := none }) s t c noValue 0 ∧
      t.At c.ag fun g _ => g.region = some { r with held := r.held ++ hs }

/-- R245, R247: outside a region, ATOM and CAS on this module's memory, whose lanes all pass, complete. The lanes update
their words one after the other in ascending order, each lane's result is the word it found, and every other byte is
as before. R245, R247, R248: outside a region, ATOMS, CASS, BANKOP and BANKOP.sadd on one core's scratchpad, whose
lanes all pass, complete in the same way; a bank operation delivers no result. The sums are the concern of ExactArithmetic. -/
def Obligations.Atomics : Prop :=
  (∀ (i : Instr) (w : Fields) (f : Ctx → Nat → Nat → Nat) (s : State) (c : Ctx) (l : List (Nat × Place)) (steps : List (Nat × Nat)),
    (i = .atom w ∨ i = .cas w) → atomOf i = some f → issuing i s = some c → c.g.region = none → c.outsideHarvest = false →
    c.g.committed = [] → passGlobal c c.accessLanes (c.capAt c.w.a) (atomSize c.w.ty) permA = some l →
    l.map (fun e => (e.1, storeAddr e.2)) = steps.map (fun e => (e.1, some e.2)) →
    ∃ t, exec i s = .next t ∧ RetiredUnder State.calmStore s t c noValue 0 ∧
      (∀ a, t.byte a = (atomSteps (atomSize c.w.ty) (f c) s.byte steps).2 a) ∧
      ∃ val : Nat → Nat, (∀ x ∈ (atomSteps (atomSize c.w.ty) (f c) s.byte steps).1, val x.1 = x.2) ∧
        Issues s t c.ag (destValue { c with lanes := l.map (·.1) } c.w.ty (tyRegs c.w.ty) val)) ∧
  ∀ (i : Instr) (w : Fields) (f : Ctx → Nat → Nat → Nat) (s : State) (c : Ctx) (l : List (Nat × Place)) (k n : Nat)
    (lanes : List Nat) (steps : List (Nat × Nat)),
    ((i = .atoms w ∨ i = .cass w) ∧ n = atomSize c.w.ty ∧ lanes = c.accessLanes ∨
      (i = .bankop w ∨ i = .bankopSadd w) ∧ n = 4 ∧ lanes = c.lanes) →
    atomOf i = some f → issuing i s = some c → c.g.region = none → c.outsideHarvest = false → c.g.committed = [] →
    passScratch c lanes n = some l → l = steps.map (fun e => (e.1, Place.sp k e.2 (c.spAddr e.1).toNat)) →
    ∃ t, exec i s = .next t ∧ RetiredUnder State.calmScratch s t c noValue 0 ∧
      (∀ off, spByte t k off = (atomSteps n (f c) (spByte s k) steps).2 off) ∧
      (∀ core off, core ≠ k → spByte t core off = spByte s core off) ∧
      ((i = .atoms w ∨ i = .cass w) → ∃ val : Nat → Nat,
        (∀ x ∈ (atomSteps n (f c) (spByte s k) steps).1, val x.1 = x.2) ∧
        Issues s t c.ag (destValue { c with lanes := l.map (·.1) } c.w.ty (tyRegs c.w.ty) val))

/-! ### Instructions without a result, capabilities and registers of the system -/

/-- R81, R249, R254, R255: NOP, PREF, FENCE and XFENCE complete and change no register and no memory. PREF changes caches
and translation buffers alone, and faults in no case; XFENCE leaves the core's L1 no line of the context where it orders
copies or the chuck unit's reads before loads or before those reads (R225); FENCE completes at once but in a stream, where beyond split scope it waits for the operations in
the matrix queue (R223). R83: a split-wide form whose GN is 1 has no effect: the next instruction follows, and no register, no
memory and no other state changes. -/
def Obligations.PlainSteps : Prop :=
  (∀ (i : Instr) (s : State) (c : Ctx), skipping i s = some c → ∃ t, exec i s = .next t ∧ Retired s t c noValue 0) ∧
  (∀ (w : Fields) (s : State) (c : Ctx), issuing (.nop w) s = some c → ∃ t, exec (.nop w) s = .next t ∧ Retired s t c noValue 0) ∧
  (∀ (w : Fields) (s : State) (c : Ctx), issuing (.xfence w) s = some c → c.g.committed = [] →
    ∃ t, exec (.xfence w) s = .next t ∧ RetiredUnder State.calm s t c noValue 0 ∧
      (2 ≤ vr c.w / 4 → vr c.w % 4 = 0 ∨ vr c.w % 4 = 3 → ∀ x ∈ (t.core c.ag.core).l1, x.owner ≠ c.who.context)) ∧
  (∀ (w : Fields) (s : State) (c : Ctx), issuing (.fence w) s = some c → c.g.committed = [] →
    ∃ t, exec (.fence w) s = .next t ∧
      (c.g.stream = false ∨ vr c.w = 0 ∨ streamOps s c.ag.core c.g = [] → RetiredUnder ackView s t c noValue 0) ∧
      (c.g.stream = true → vr c.w ≠ 0 → streamOps s c.ag.core c.g ≠ [] → Waits s t c .matrix)) ∧
  ∀ (w : Fields) (s : State) (c : Ctx), issuing (.pref w) s = some c →
    ∃ t, exec (.pref w) s = .next t ∧ RetiredUnder State.calm s t c noValue 0

/-- R102, R197: where its checks pass, CAPSET completes with a capability that R102 derives from its parent, of the least
representable length at or above C, or the greatest that fits. R103, R250: CAPCHK completes with 1 where A holds the
permissions of VARIANT and b + c is at most its length. AXL completes with the capability and the translation of its
base; without one where its length or permissions are none, or it names another device. -/
def Obligations.Capabilities : Prop :=
  (∀ (w : Fields) (s : State) (c : Ctx) (p : CapReg) (off len : Nat), issuing (.capset w) s = some c →
    p = c.cap c.w.a → off = c.b64 c.lane0 → p.cap.base.toNat + off < 2 ^ 57 → CapsetLength c p off len →
    ∃ r, Derives p off (vr c.w) len r ∧
      ∃ t, exec (.capset w) s = .next t ∧ Retired s t c (destValue c c.w.ty (tyRegs c.w.ty) fun _ => capRegBits r) 0) ∧
  (∀ (w : Fields) (s : State) (c : Ctx), issuing (.capchk w) s = some c →
    ∃ val : Nat → Nat,
      (∀ l ∈ c.lanes, val l ≤ 1 ∧ (val l = 1 ↔ c.b l + c.c' l ≤ (c.capAt c.w.a l).cap.len ∧
        ((vr c.w).testBit 3 = true → (c.capAt c.w.a l).cap.pr = true) ∧ ((vr c.w).testBit 2 = true → (c.capAt c.w.a l).cap.pw = true) ∧
        ((vr c.w).testBit 1 = true → (c.capAt c.w.a l).cap.px = true) ∧ ((vr c.w).testBit 0 = true → (c.capAt c.w.a l).cap.pa = true))) ∧
      ∃ t, exec (.capchk w) s = .next t ∧ Retired s t c (destValue c c.w.ty (tyRegs c.w.ty) val) 0) ∧
  (∀ (w : Fields) (s : State) (c : Ctx) (x : Cap), issuing (.axl w) s = some c → x = (c.cap c.w.d).cap →
    x.len = 0 ∨ x.device ≠ s.regs.deviceId ∨ (x.pr = false ∧ x.pw = false ∧ x.px = false ∧ x.pa = false) →
    ∃ t, exec (.axl w) s = .next t ∧ Retired s t c (destValue c c.w.ty 4 fun _ => capRegBits ⟨x, false, 0, 0⟩) 0) ∧
  ∀ (w : Fields) (s : State) (c : Ctx) (x : Cap) (e : TlbEntry), issuing (.axl w) s = some c → x = (c.cap c.w.d).cap →
    x.len ≠ 0 → x.device = s.regs.deviceId → x.perms ≠ 0 → xlatEntry c.s c.who x.base.toNat = .ok e →
    physCheck c.s c.who c.ag.core (tlbPa e x.base.toNat) 0 = none →
    ∃ t, exec (.axl w) s = .next t ∧
      RetiredUnder State.calm s t c (destValue c c.w.ty 4 fun _ => capRegBits
        ⟨x, true, BitVec.ofNat 48 (tlbPa e x.base.toNat),
          BitVec.ofNat 40 (min x.len ((e.vpn + 2 ^ e.extent) * 2 ^ 16 - x.base.toNat))⟩) 0

/-- R111, R359, R363, R364: CLK with every earlier result written, CSRR of a register that the agent has, PERFR and
METR complete with the cycle counter, the register, the counter or the meter; METR's result is long-latency. R359,
Table 16.2: what CSRR finds in a vector split, and that the trap registers read 0 outside a handler. A 64-bit special
source under a 32-bit TYPE is the model's reading (log 27). -/
def Obligations.SystemReads : Prop :=
  ((∀ (w : Fields) (s : State) (c : Ctx), issuing (.clk w) s = some c →
    ∃ t, exec (.clk w) s = .next t ∧
      Retired s t c (destValue c c.w.ty (tyRegs c.w.ty) fun _ => c.now % 2 ^ (32 * tyRegs c.w.ty)) 0) ∧
  (∀ (w : Fields) (s : State) (c : Ctx) (v : Nat), issuing (.csrr w) s = some c → c.csr (c.w.imm.toNat % 2 ^ 12) = some v →
    c.g.committed = [] →
    ∃ t, exec (.csrr w) s = .next t ∧
      ((c.w.imm.toNat % 2 ^ 12 = 0x040 → flagOps c.s c.ag.core c.g = []) →
        Retired s t c (destValue c c.w.ty (tyRegs c.w.ty) fun _ => v) 0) ∧
      (c.w.imm.toNat % 2 ^ 12 = 0x040 → flagOps c.s c.ag.core c.g ≠ [] → Waits s t c .flags)) ∧
  (∀ (w : Fields) (s : State) (c : Ctx) (n : Nat), issuing (.perfr w) s = some c → n = c.a64 c.lane0 → (n ≤ 7 ∨ 16 ≤ n ∧ n ≤ 19) →
    ∃ t, exec (.perfr w) s = .next t ∧ Retired s t c (destValue c .n64 2 fun _ =>
      if n ≤ 7 then privateCounter (c.s.context c.who.context) c.ag.core n
      else sharedCounter (c.s.context c.who.context) n c.now) 0) ∧
  ∀ (w : Fields) (s : State) (c : Ctx) (n : Nat), issuing (.metr w) s = some c → n = c.a64 c.lane0 % 256 →
    (n ≤ 3 ∨ 8 ≤ n ∧ n ≤ 11) →
    ∃ t, exec (.metr w) s = .next t ∧ Retired s t c noValue 0 ∧
      Issues s t c.ag (destValue c .n64 2 fun _ => (tabGet 0#64 s.meters (c.who.part * 16 + n)).toNat)) ∧
  ∀ (c : Ctx), c.g.stream = false →
    c.csr 0x000 = some c.sp.ctl.toNat ∧ c.csr 0x001 = some c.sp.status.toNat ∧ c.csr 0x002 = some c.sp.srseed.toNat ∧
    (∀ n, n < 4 → c.csr (0x010 + n) = some (tabGet 0#32 c.g.pk n).toNat) ∧ c.csr 0x020 = some c.sp.tvec.toNat ∧
    c.csr 0x031 = some c.g.rgnSel.toNat ∧ c.csr 0x050 = some (c.now % 2 ^ 64) ∧ c.csr 0x040 = none ∧
    (c.sp.inHandler = false → ∀ n, 0x021 ≤ n → n ≤ 0x024 → c.csr n = some 0) ∧
    (c.sp.inHandler = true → c.csr 0x021 = some c.sp.trapCode.toNat ∧ c.csr 0x022 = some c.sp.trapPc.toNat
      ∧ c.csr 0x023 = some c.sp.trapMask.toNat ∧ c.csr 0x024 = some c.sp.trapInfo.toNat) ∧
    ∀ n, 0x051 ≤ n → c.csr n = none

/-- R359, R360, R50: CSRW and CSRW.code complete; the register they name receives the value as its layout stores it, and
nothing else changes. In a stream, CSRW clears the cut flags of MXSTATUS. -/
def Obligations.SystemWrites : Prop :=
  (∀ (w : Fields) (s : State) (c : Ctx) (n : Nat), issuing (.csrw w) s = some c → c.g.stream = false →
    n = c.w.imm.toNat % 2 ^ 12 → csrWritable c n →
    ∃ t, exec (.csrw w) s = .next t ∧ Advanced (csrView c.ag n) s t c noValue ∧ t.At c.ag (CsrHolds c n (c.a64 c.lane0))) ∧
  (∀ (w : Fields) (s : State) (c : Ctx), issuing (.csrwCode w) s = some c → c.g.stream = false →
    ∃ t, exec (.csrwCode w) s = .next t ∧ Advanced (csrView c.ag 0x020) s t c noValue ∧ t.At c.ag fun _ sp =>
      sp.status = c.sp.status ∧
      sp.tvec = BitVec.ofNat 57 (((branchTarget c - codeBase c) % (2 ^ 57 : Nat)).toNat / 4 * 4)) ∧
  ∀ (w : Fields) (s : State) (c : Ctx), issuing (.csrw w) s = some c → c.g.stream = true → c.w.imm.toNat % 2 ^ 12 = 0x040 →
    ∃ t, exec (.csrw w) s = .next t ∧ RetiredUnder (State.lessGroup c.ag fun g => { g with mxstatus := 0 }) s t c noValue 0 ∧
      t.At c.ag fun g _ => ∀ b, b < 32 → g.mxstatus.getLsbD b =
        (c.g.mxstatus.getLsbD b && !((c.a64 c.lane0).testBit b && (stCutLate + stCutWrap).testBit b))

/-! ### Control -/

/-- R106 to R109: the transfers complete. BRA goes to its target, or only where its condition holds; BRX, RET and CALL.ind
go to a0.base + a where that is a multiple of 4; CALL writes its link, which CALL.ind does after it has read A. R20,
R23, R105: RUNEND completes. The run and its latch slots end, and each result of the run that is not yet written and has no tag receives the tag of RUNEND. What a target outside the 57-bit address space leaves is the model's choice (log
64). -/
def Obligations.Transfers : Prop :=
  ((∀ (w : Fields) (s : State) (c : Ctx), issuing (.bra w) s = some c →
    ∃ t, exec (.bra w) s = .next t ∧ Jumped s t c noValue (branchTarget c)) ∧
  (∀ (w : Fields) (s : State) (c : Ctx), issuing (.braCond w) s = some c →
    ∃ t, exec (.braCond w) s = .next t ∧
      (condHolds (vr c.w) (elemInt c.w.ty (c.a c.lane0) 0) (elemInt c.w.ty (c.b c.lane0) 0) → Jumped s t c noValue (branchTarget c)) ∧
      (¬condHolds (vr c.w) (elemInt c.w.ty (c.a c.lane0) 0) (elemInt c.w.ty (c.b c.lane0) 0) → Retired s t c noValue 0)) ∧
  (∀ (w : Fields) (s : State) (c : Ctx), issuing (.call w) s = some c →
    ∃ t, exec (.call w) s = .next t ∧ Jumped s t c (destValue c .n64 2 fun _ => linkOf c) (branchTarget c)) ∧
  ∀ (i : Instr) (w : Fields) (s : State) (c : Ctx) (dst : Loc → Nat → Option Nat), issuing i s = some c →
    ((i = .brx w ∨ i = .ret w) ∧ dst = noValue ∨ i = .callInd w ∧ dst = destValue c .n64 2 fun _ => linkOf c) →
    (codeBase c + c.a64 c.lane0) % 4 = 0 →
    ∃ t, exec i s = .next t ∧ Jumped s t c dst ((codeBase c + c.a64 c.lane0 : Nat) : Int)) ∧
  ∀ (w : Fields) (s : State) (c : Ctx), issuing (.runend w) s = some c →
    ∃ t, exec (.runend w) s = .next t ∧ Retired s t c noValue 0 ∧ t.At c.ag fun _ sp =>
      sp.run = 0 ∧ sp.latch = [] ∧
      sp.pending = c.sp.pending.map fun p => { p with tag := some (p.tag.getD (c.w.imm.toNat % 8)) }

/-- R137, R154, R155: BRC and BRC.pk complete. A split whose lanes agree goes on undivided. One whose lanes disagree
divides, the taken lanes in its own slot and the others in the lowest free slot; with four splits, the path of fewer
lanes, or the taken one of two equal paths, becomes the entry's deferred path. -/
def Obligations.Branches : Prop :=
  ∀ (i : Instr) (w : Fields) (s : State) (c : Ctx) (m : BitVec 32) (stack : List Deferral) (j : Nat),
    (i = .brc w ∨ i = .brcPk w) → issuing i s = some c → MaskOf m (fun l => l ∈ c.lanes ∧ c.pred c.w.a l = true) →
    EntryFor c stack j →
    ∃ t, exec i s = .next t ∧
      (m = 0 → RetiredUnder (branchView c.ag) s t c noValue 0 ∧
        t.At c.ag fun g sp => g.stack = stack ∧ sp.inner = some j ∧ sp.mask = c.sp.mask) ∧
      (m ≠ 0 → c.sp.mask &&& ~~~m = 0 →
        Steady (branchView c.ag s) (branchView c.ag t) c.ag ∧ Writes s t c.ag noValue ∧ t.statusOf c.ag = s.statusOf c.ag ∧
        t.pcOf c.ag = some (BitVec.ofInt 57 (branchTarget c)) ∧
        t.At c.ag fun g sp => g.stack = stack ∧ sp.inner = some j ∧ sp.mask = c.sp.mask) ∧
      (m ≠ 0 → c.sp.mask &&& ~~~m ≠ 0 → c.g.committed = [] → ∀ k, LowestFree c.g k →
        Steady (dividedView c.ag s) (dividedView c.ag t) c.ag ∧ OtherSplits s t c.ag [k] ∧
        StartsAt s t c c.ag.split c.codeTarget m (some j) ∧
        StartsAt s t c k ((c.sp.pc.toNat : Int) + 12) (c.sp.mask &&& ~~~m) (some j) ∧ t.At c.ag fun g _ => g.stack = stack) ∧
      (m ≠ 0 → c.sp.mask &&& ~~~m ≠ 0 → (∀ k, k < 4 → tabFind c.g.splits k ≠ none) →
        ∀ (e : Deferral) (fewer : Bool) (off : BitVec 32) (pc : Nat), stack[j]? = some e →
          (fewer = true ↔ (lanesOf m).length ≤ (lanesOf (c.sp.mask &&& ~~~m)).length) →
          off = (if fewer then m else c.sp.mask &&& ~~~m) → pc = (if fewer then c.codeTarget else c.sp.pc.toNat + 12) →
          (e.path = none ∨ ∃ q, e.path = some (pc, q)) →
          Steady (dividedView c.ag s) (dividedView c.ag t) c.ag ∧ OtherSplits s t c.ag [] ∧
          StartsAt s t c c.ag.split (if fewer then (c.sp.pc.toNat : Int) + 12 else c.codeTarget) (c.sp.mask &&& ~~~off) (some j) ∧
          t.At c.ag fun g _ => g.stack[j]? = some { e with path := some (pc, off ||| pathMask e) } ∧
            ∀ n, n ≠ j → g.stack[n]? = stack[n]?)

/-- R138, R141, R156: JOIN, and JOIN.team of a group that was not repacked, complete. Without an innermost entry they only
end the run. Under one, the split waits until no lane that the entry counts is out; then the deferred path starts in
its slot, or its lanes go on after the JOIN as one split and the entry is gone. JOIN.team dissolves a repacked group when
its last lanes come: each thread goes on after it in its home group, in the lowest free split slot, with its registers. That slot,
what of the split's state the threads keep, and an address outside the address space are the model's choice (logs 24, 73 and 64). -/
def Obligations.Joins : Prop :=
  (∀ (w : Fields) (s : State) (c : Ctx) (e : Deferral), issuing (.joinTeam w) s = some c → c.g.repacked = true → c.g.stack = [e] →
    c.sp.inner = some 0 → c.g.splits.length = 1 → e.path = none → e.waiting = none → e.parent &&& ~~~c.g.exited = c.sp.mask →
    c.sp.mask ≠ 0 → (∀ l m, l < 32 → m < 32 → c.sp.mask.getLsbD l = true → c.sp.mask.getLsbD m = true →
      c.g.thread c.ag.slot l = c.g.thread c.ag.slot m → l = m) →
    (∀ l, l < 32 → c.sp.mask.getLsbD l = true → c.g.thread c.ag.slot l / 32 ≠ c.ag.slot ∧ c.g.thread c.ag.slot l / 32 < 64 ∧
      ∃ h n, c.s.group? c.ag.core (c.g.thread c.ag.slot l / 32) = some h ∧ LowestFree h n) → c.ag.slot < 64 →
    ∃ t, exec (.joinTeam w) s = .next t ∧ t.group? c.ag.core c.ag.slot = none ∧
      ∀ l th h n, l < 32 → c.sp.mask.getLsbD l = true → th = c.g.thread c.ag.slot l → c.s.group? c.ag.core (th / 32) = some h →
        LowestFree h n → remapEntry t c.ag.core th = BitVec.ofNat 12 (0x800 + th) ∧
        (t.At ⟨c.ag.core, th / 32, n⟩ fun f sp => f.absent.getLsbD (th % 32) = false ∧ sp.mask.getLsbD (th % 32) = true ∧
          sp.pc = c.sp.pc + 12 ∧ sp.run = 0 ∧ sp.wait = none) ∧
        ∀ m, m < 256 → t.reg ⟨c.ag.core, th / 32, n⟩ (.v m) (th % 32) = s.regAtIssue c.ag (.v m) l) ∧
  ∀ (i : Instr) (w : Fields) (s : State) (c : Ctx), issuing i s = some c →
    (i = .join w ∨ i = .joinTeam w ∧ c.g.repacked = false) → c.g.teamJoin = none →
    ∃ t, exec i s = .next t ∧
      (c.sp.inner = none → Retired s t c noValue 0 ∧ t.At c.ag fun _ sp => sp.run = 0 ∧ sp.latch = []) ∧
      ∀ j e, c.sp.inner = some j → c.g.stack[j]? = some e → AloneUnder c j → (∀ x, e.waiting = some x → x.1 = c.sp.pc.toNat) →
        c.sp.mask ≠ 0 →
        Steady (dividedView c.ag s) (dividedView c.ag t) c.ag ∧ OtherSplits s t c.ag [] ∧
        (stillOut c e ≠ 0 → Writes s t c.ag noValue ∧ t.pcOf c.ag = s.pcOf c.ag ∧
          t.waitOf c.ag = some (some (.join c.sp.pc.toNat)) ∧ t.At c.ag fun g _ => g.stack = c.g.stack) ∧
        (stillOut c e = 0 → e.path = none →
          StartsAt s t c c.ag.split ((c.sp.pc.toNat : Int) + 12) (e.parent &&& ~~~c.g.exited) (belowEntry c.g.stack j) ∧
          t.At c.ag fun g _ => g.stack = c.g.stack.eraseIdx j) ∧
        ∀ pc m, stillOut c e = 0 → e.path = some (pc, m) →
          StartsAt s t c c.ag.split pc m (some j) ∧
          t.At c.ag fun g _ =>
            g.stack[j]? = some { e with path := none, waiting := some (c.sp.pc.toNat, c.sp.mask ||| waitMask e) } ∧
            ∀ n, n ≠ j → g.stack[n]? = c.g.stack[n]?

/-- R110, R292, R143: EXIT completes. The lanes of T exit: those that remain go on in a new run, inside a divergence too, and with the
last lane of its last split the group, or the stream, ends. R138, R156: where the split of a divergence exits whole, its slot goes on
with the deferred path of its entry, or with the lanes that wait there, after their JOIN; and where its EXIT was all that a split
waiting at a JOIN was held for, that split goes on and the entry is gone. R139, R110: a thread of a repacked group exits in its home
group too, and is no longer PRESENT. The tag w7 at EXIT is the model's reading (log 28), and so is the moment at which a failed copy
that no CWAIT raised ends the launch: the EXIT that would end the group (log 69). -/
def Obligations.Exits : Prop :=
  ∀ (w : Fields) (s : State) (c : Ctx) (gone : BitVec 32), issuing (.exit w) s = some c → MaskOf gone (fun l => l ∈ c.lanes) →
    c.g.witnessFault = false → c.g.committed = [] →
    ∃ t, exec (.exit w) s = .next t ∧
      (c.g.repacked = false → (∀ x ∈ c.g.splits, x.1 ≠ c.ag.split → ∀ a, x.2.wait ≠ some (.join a)) → c.sp.mask &&& ~~~gone ≠ 0 →
        RetiredUnder (fun u => { ((u.lessCore c.ag fun k => { k with remap := [] }).lessGroup c.ag fun g => { g with exited := 0 }).lessSplit
            c.ag (fun sp => { sp with mask := 0 }) with launches := [] }) s t c noValue 0 ∧
        t.At c.ag fun g sp => g.exited = c.g.exited ||| gone ∧ sp.mask = c.sp.mask &&& ~~~gone ∧ sp.run = 0 ∧ sp.latch = []) ∧
      (c.g.repacked = false → ∀ j e, c.sp.mask &&& ~~~gone = 0 → c.sp.inner = some j → c.g.stack[j]? = some e → c.g.teamJoin = none →
        c.g.absent &&& e.parent = 0 → (∀ x ∈ c.g.splits, x.1 ≠ c.ag.split → x.2.mask &&& e.parent = 0 ∧ ∀ a, x.2.wait ≠ some (.join a)) →
        (∀ pc m, e.path = some (pc, m) → StartsAt s t c c.ag.split pc m (some j) ∧
          t.At c.ag fun g _ => g.exited = c.g.exited ||| gone ∧ g.stack[j]? = some { e with path := none } ∧
            ∀ n, n ≠ j → g.stack[n]? = c.g.stack[n]?) ∧
        ∀ a m, e.path = none → e.waiting = some (a, m) →
          StartsAt s t c c.ag.split ((a : Int) + 12) (e.parent &&& ~~~(c.g.exited ||| gone)) (belowEntry c.g.stack j) ∧
          t.At c.ag fun g _ => g.exited = c.g.exited ||| gone ∧ g.stack = c.g.stack.eraseIdx j) ∧
      (c.g.repacked = false → ∀ k sp a e, c.sp.mask &&& ~~~gone = 0 → c.g.splits.length = 2 → k ≠ c.ag.split →
        tabFind c.g.splits k = some sp → sp.wait = some (.join a) → sp.inner = some 0 → c.g.stack = [e] → c.sp.inner = some 0 → c.g.teamJoin = none → e.path = none → e.parent &&& ~~~(c.g.exited ||| gone) &&& ~~~(sp.mask ||| waitMask e) = 0 →
        sp.mask &&& e.parent ≠ 0 →
        t.At ⟨c.ag.core, c.ag.slot, k⟩ fun g x => g.exited = c.g.exited ||| gone ∧ g.stack = [] ∧ tabFind g.splits c.ag.split = none ∧
          x.pc = BitVec.ofNat 57 (a + 12) ∧ x.mask = e.parent &&& ~~~(c.g.exited ||| gone) ∧ x.wait = none ∧ x.run = 0) ∧
      (c.g.repacked = true → c.g.stack = [] → c.sp.mask &&& ~~~gone ≠ 0 →
        (∀ l ∈ c.lanes, c.g.thread c.ag.slot l / 32 ≠ c.ag.slot ∧
          ∃ h, c.s.group? c.ag.core (c.g.thread c.ag.slot l / 32) = some h ∧ h.splits ≠ []) →
        (t.At c.ag fun g sp => g.exited = c.g.exited ||| gone ∧ sp.mask = c.sp.mask &&& ~~~gone ∧ sp.pc = c.sp.pc + 12 ∧ sp.run = 0) ∧
        ∀ l ∈ c.lanes, (remapEntry t c.ag.core (c.g.thread c.ag.slot l)).getLsbD 11 = false ∧
          ∃ h, t.group? c.ag.core (c.g.thread c.ag.slot l / 32) = some h ∧
            h.exited.getLsbD (c.g.thread c.ag.slot l % 32) = true ∧ h.absent.getLsbD (c.g.thread c.ag.slot l % 32) = false) ∧
      (c.g.stack = [] → c.g.repacked = false → c.sp.mask &&& ~~~gone = 0 → (∀ x ∈ c.g.splits, x.1 = c.ag.split) → c.g.absent = 0 →
        (c.g.failed = [] → c.g.withdrawn = none →
          t.group? c.ag.core c.ag.slot = none ∧
          ∀ l, s.launch? c.g.launch = some l → ∃ l', t.launch? c.g.launch = some l' ∧
            (c.g.stream = true → l'.streams = l.streams - 1 ∧ l'.ended = l.ended) ∧
            (c.g.stream = false → l'.ended = l.ended + 1 ∧ c.g.groupId ∈ l'.endedIds ∧ l'.streams = l.streams)) ∧
        ∀ f l, c.g.failed = [f] → c.s.launch? c.g.launch = some l →
          portFull c.s (dieOf c.ag.core) (faultClass c.s c.ag c.g 1) = false →
          t.group? c.ag.core c.ag.slot = none ∧
          (t.launch? c.g.launch).map (fun x => (x.failed, x.done)) = some (some f.code, true))

/-- R168, R169, R143: ARRIVE, BAR and BWAIT complete in a group that was not repacked. ARRIVE and BAR are one arrival
of each active thread, and ARRIVE's D receives the instance of the arrival; BAR and BWAIT go on where the instance has
completed and wait otherwise, and a BAR that waited goes on once it has. R362: WFE completes where EV is 1, which it
clears, where its limit is 0 and where the limit of an earlier wait has passed; otherwise it waits. SEV completes and
sets EV in every split of the context on its core or its cluster's cores. Cycles are not part of this statement (logs
44 and 59). -/
def Obligations.BarriersAndEvents : Prop :=
  ((∀ (w : Fields) (s : State) (c : Ctx), issuing (.arrive w) s = some c → c.g.threads = [] →
    ∃ n, ArrivalInstance c n ∧ ∃ t, exec (.arrive w) s = .next t ∧ Arrived t c ∧
      RetiredUnder (barrierView c.ag) s t c (destValue c .n64 2 fun _ => n % 2 ^ 32) 0) ∧
  (∀ (w : Fields) (s : State) (c : Ctx), issuing (.bar w) s = some c → c.g.threads = [] → c.sp.wait = none →
    ∃ n, ArrivalInstance c n ∧ ∃ t, exec (.bar w) s = .next t ∧ Arrived t c ∧
      (instancePassed t c (n % 2 ^ 32) = true → RetiredUnder (barrierView c.ag) s t c noValue 0) ∧
      (instancePassed t c (n % 2 ^ 32) = false → t.pcOf c.ag = s.pcOf c.ag ∧
        t.waitOf c.ag = some (some (.barrier (vr c.w == 1) (c.w.imm.toNat % 16) (n % 2 ^ 32))))) ∧
  (∀ (w : Fields) (s : State) (c : Ctx) (cl : Bool) (b n : Nat), issuing (.bar w) s = some c → c.sp.wait = some (.barrier cl b n) →
    ∃ t, exec (.bar w) s = .next t ∧ (instancePassed s c n = true → Retired s t c noValue 0)) ∧
  ∀ (w : Fields) (s : State) (c : Ctx), issuing (.bwait w) s = some c →
    ∃ t, exec (.bwait w) s = .next t ∧
      (instancePassed s c (c.a32 c.lane0) = true → Retired s t c noValue 0) ∧
      (instancePassed s c (c.a32 c.lane0) = false →
        Waits s t c (.barrier (vr c.w == 1) (c.w.imm.toNat % 16) (c.a32 c.lane0)))) ∧
  (∀ (w : Fields) (s : State) (c : Ctx) (n : Nat), issuing (.wfe w) s = some c → n = c.w.imm.toNat % 2 ^ 16 →
    ∃ t, exec (.wfe w) s = .next t ∧
      (c.sp.ev = true ∨ (∃ d, c.sp.wait = some (.event d) ∧ d ≤ c.now) →
        RetiredUnder (State.lessSplit c.ag fun sp => { sp with ev := false }) s t c noValue 0 ∧ t.At c.ag fun _ sp => sp.ev = false) ∧
      (c.sp.ev = false → c.sp.wait = none → n = 0 → Retired s t c noValue 0) ∧
      (c.sp.ev = false → c.sp.wait = none → n ≠ 0 → Waits s t c (.event (c.now + 16 * n)))) ∧
  ∀ (i : Instr) (w : Fields) (s : State) (c : Ctx) (cores : List Nat), issuing i s = some c →
    (i = .sevCore w ∧ cores = [c.ag.core] ∨ i = .sevCluster w ∧ cores = clusterCores c.s c.ag.core c.g) →
    ∃ t, exec i s = .next t ∧ RetiredUnder eventView s t c noValue 0 ∧
      ∀ core slot n g sp, slot < 65 → c.s.group? core slot = some g → tabFind g.splits n = some sp →
        (t.split? ⟨core, slot, n⟩).map (·.ev) = some (sp.ev || (decide (core ∈ cores) && g.context == c.g.context))

/-! ### Handlers and the end of a launch -/

/-- R326, R327, R356: TRAP without a handler, or in a stream, does nothing; with one, the split enters it with
TRAP_SW, the value of IMM and the address after the TRAP; inside a handler it ends the launch with TRAP_SW and a
record. R329, R357: TRET resumes at TRAP_PC, and passes the faulting instruction where TRAP_MASK is empty; outside a
handler it is an ILLEGAL_OP. R358: HALT on a headstock core stops issue there; in a handler it ends the launch with
the code of TRAP_CODE, in a record of the trapped PC. What a headstock's HALT does in a handler, and TRAP_FROM, are
the model's choice (logs 34 and 35). -/
def Obligations.Handlers : Prop :=
  (∀ (w : Fields) (s : State) (c : Ctx), issuing (.trap w) s = some c → (c.g.stream = true ∨ c.sp.tvec = 0) →
    ∃ t, exec (.trap w) s = .next t ∧ Retired s t c noValue 0) ∧
  (∀ (w : Fields) (s : State) (c : Ctx), issuing (.trap w) s = some c → trapsFreely c →
    ∃ t, exec (.trap w) s = .next t ∧
      EntersHandler s t c fTrapSw (fun x => x = c.w.imm.toNat % 2 ^ 16) c.sp.mask (c.sp.pc + 12)) ∧
  (∀ (w : Fields) (s : State) (c : Ctx), issuing (.tret w) s = some c → c.sp.inHandler = true →
    ∃ t, exec (.tret w) s = .next t ∧ Steady (trapView c.ag s) (trapView c.ag t) c.ag ∧ Writes s t c.ag noValue ∧
      t.statusOf c.ag = s.statusOf c.ag ∧ t.At c.ag fun _ sp => sp.inHandler = false ∧ sp.run = 0 ∧ sp.latch = [] ∧
        sp.pc = (if c.sp.trapPc = c.sp.trapFrom ∧ c.sp.trapMask = 0 then c.sp.trapFrom + 12 else c.sp.trapPc) ∧
        sp.only = (if c.sp.trapPc = c.sp.trapFrom ∧ c.sp.trapMask ≠ 0 then some c.sp.trapMask else none)) ∧
  (∀ (w : Fields) (s : State) (c : Ctx), issuing (.tret w) s = some c → trapsFreely c →
    ∃ t, exec (.tret w) s = .next t ∧ EntersHandler s t c fIllegalOp (fun _ => True) (c.sp.confined c.sp.mask) c.sp.pc) ∧
  (∀ (w : Fields) (s : State) (c : Ctx), issuing (.halt w) s = some c → isHeadstock c.ag.core = true →
    ∃ t, exec (.halt w) s = .next t ∧ RetiredUnder (State.lessCore c.ag fun k => { k with halted := false }) s t c noValue 0 ∧
      (t.core c.ag.core).halted = true) ∧
  ∀ (i : Instr) (w : Fields) (s : State) (c : Ctx) (l : Launch) (code : Nat) (info : Nat) (pc : BitVec 57), issuing i s = some c →
    (i = .trap w ∧ c.sp.tvec ≠ 0 ∧ code = fTrapSw ∧ info = c.w.imm.toNat % 2 ^ 16 ∧ pc = c.sp.pc ∨
      i = .halt w ∧ isHeadstock c.ag.core = false ∧ code = c.sp.trapCode.toNat ∧ info = c.sp.trapInfo.toNat ∧ pc = c.sp.trapPc) →
    c.g.stream = false → c.sp.inHandler = true → c.s.launch? c.g.launch = some l →
    portFull c.s (dieOf c.ag.core) (faultClass c.s c.ag c.g 1) = false →
    ∃ t, exec i s = .next t ∧ t.group? c.ag.core c.ag.slot = none ∧
      (t.launch? c.g.launch).map (fun x => (x.failed, x.done)) = some (some code, true) ∧
      PortGets s t code 1 fun r => r.info = info ∧ r.pc = pc

/-- R69, R326, R327, R108: an instruction that one of R69's checks stops enters the split's handler before any effect,
with the code of the check and its own address; and so, with MISALIGNED, does a transfer whose target is no multiple
of 4. R67, R69: which code stops an instruction at issue. An opcode that the agent may not execute (engine-only in a
vector split, privileged outside a headstock core and a handler) or fields that its entry does not list give
ILLEGAL_OP; operands give ILLEGAL_OPERAND, and only with CHK = 1 does R30's check give STALL_SHORT. R326, R330: without a handler such
an instruction ends its launch: the launch fails with the code, the group is gone, and one terminal record of the split waits in the
die's reporting port. The lanes that a re-execution or a replay is for are those that fault (R329, R334). -/
def Obligations.FaultsAtIssue : Prop :=
  ((∀ (i : Instr) (s : State) (c : Ctx) (code : Nat), stopsAtIssue i s = some (c, code) → trapsFreely c →
    ∃ t, exec i s = .next t ∧ EntersHandler s t c code (fun _ => True) (c.sp.confined c.sp.mask) c.sp.pc) ∧
  ∀ (i : Instr) (w : Fields) (s : State) (c : Ctx), (i = .brx w ∨ i = .ret w ∨ i = .callInd w) → issuing i s = some c →
    (codeBase c + c.a64 c.lane0) % 4 ≠ 0 → trapsFreely c →
    ∃ t, exec i s = .next t ∧ EntersHandler s t c fMisaligned (fun _ => True) (c.sp.confined c.sp.mask) c.sp.pc) ∧
  (∀ (i : Instr) (s : State) (c : Ctx) (code : Nat) (f : Form), stopsAtIssue i s = some (c, code) → formOf i = some f →
    (code = fIllegalOp ∨ code = fIllegalOperand ∨ code = fStallShort) ∧
    (c.g.stream = false → engineOp f.op = true → code = fIllegalOp) ∧
    (c.g.stream = false → privilegedOp f.op = true → isHeadstock c.ag.core = false → c.sp.inHandler = false → code = fIllegalOp) ∧
    (fieldsOk i c.w = false → code = fIllegalOp) ∧
    (code = fStallShort → c.sp.ctl.getLsbD 0 = true)) ∧
  ∀ (i : Instr) (s : State) (c : Ctx) (code : Nat) (l : Launch), stopsAtIssue i s = some (c, code) →
    (c.sp.tvec = 0 ∨ c.sp.inHandler = true) → c.s.launch? c.g.launch = some l →
    portFull c.s (dieOf c.ag.core) (faultClass c.s c.ag c.g 1) = false →
    ∃ t, exec i s = .next t ∧ t.group? c.ag.core c.ag.slot = none ∧
      (t.launch? c.g.launch).map (fun x => (x.failed, x.done)) = some (some code, true) ∧
      ∃ ring r, t.port = s.port ++ [(ring, r)] ∧ r.code = code ∧ r.kind = 1 ∧ r.lmask = c.sp.confined c.sp.mask ∧ r.pc = c.sp.pc ∧
        r.core = c.ag.core % Config.coreKeys ∧ r.die = dieOf c.ag.core ∧ r.queue = l.queue ∧ r.tenant = l.tenant ∧ r.part = l.part

/-! ### Exact arithmetic -/

/-- R115, R117, R120, R121, R42, R43, R45, R46: of finite values FADD, FMUL, FFMA and FDIV give the exact sum, product, sum of
product and addend, and quotient, and FDOT the exact sum of its products and its accumulator, rounded once; the comparisons compare the
exact numbers; FRND gives the integer that its mode names. R245, R248: the sums of atomics and bank operations are these, element by
element in mode rn, or wrap. R174, R180, R182, R186, R187: GRNORM's direction is that of its integers to the nearest code, and GCVT, GADD,
GPROJ and GLERP give it the integers that their entries name; of GADD this is said where the norm codes differ by whole powers of
two. R181, R188: GEXP and GDOT round the exact product once, said where the norm is a whole power of two, and GDOT's sum is exact. -/
def Obligations.ExactArithmetic : Prop :=
  ((∀ (f : Fmt) (rm : Nat) (fl : Bool) (a b c : FVal), rm < 4 → a.finite = true → b.finite = true → c.finite = true →
      Delivers0 f rm fl (if a.neg? = b.neg? then a.neg? else rm == 3) (a.rat + b.rat) (faddV f rm fl a b) ∧
      Delivers0 f rm fl (a.neg? != b.neg?) (a.rat * b.rat) (fmulV f rm fl a b) ∧
      Delivers0 f rm fl (if (a.neg? != b.neg?) = c.neg? then c.neg? else rm == 3) (a.rat * b.rat + c.rat) (ffmaV f rm fl a b c) ∧
      (fcmpV a b = some .lt ↔ a.rat < b.rat) ∧ (fcmpV a b = some .eq ↔ a.rat = b.rat)) ∧
    (∀ (f : Fmt) (rm k : Nat) (as bs : List Nat) (x : ℚ), rm < 4 → (∀ y ∈ as ++ bs, (fval f y).finite = true) → (fval .f32 k).finite = true →
      x = (fval .f32 k).rat + (List.zipWith (fun y z => (fval f y).rat * (fval f z).rat) as bs).sum → x ≠ 0 →
      RoundsTo .f32 rm false x (fdotV f rm as bs k)) ∧
    (∀ (rm a b : Nat) (fl : Bool) (x y : FVal), rm < 4 → x = flushIn .f32 fl a → y = flushIn .f32 fl b → x.finite = true → y.finite = true →
      x.rat ≠ 0 → y.rat ≠ 0 → RoundsTo .f32 rm fl (x.rat / y.rat) (fdivV rm fl a b)) ∧
    ∀ (f : Fmt) (rm b : Nat) (fl : Bool) (x : FVal), rm < 4 → x = flushIn f fl b → x.finite = true →
      ∃ q k d, RoundAt rm x.neg? |x.rat| q 0 ∧ fval f (frndV f rm fl b).bits = .fin x.neg? k d ∧ (k : ℚ) * pow2 d = q) ∧
  (∀ (t : Ty) (x y z : Nat),
    (isFloatTy t = true → ∀ e, e < tyElems t →
      elemAt t (addBits t x y) e = (faddV (fmtOf t) 0 false (fval (fmtOf t) (elemAt t x e)) (fval (fmtOf t) (elemAt t y e))).bits ∧
      elemAt t (fmaBits t z x y) e =
        (ffmaV (fmtOf t) 0 false (fval (fmtOf t) (elemAt t x e)) (fval (fmtOf t) (elemAt t y e)) (fval (fmtOf t) (elemAt t z e))).bits) ∧
    (isFloatTy t = false → addBits t x y = (x + y) % 2 ^ tyWidth t ∧ fmaBits t z x y = (z + x * y) % 2 ^ tyWidth t)) ∧
  (∀ (y : List Int) (ntgt : Int) (v : GVec), (∃ x ∈ y, x ≠ 0) → v = grnorm y ntgt →
    ∃ m rho n : Nat, n = (y.map fun x => x.natAbs * x.natAbs).sum ∧ 4 ^ m ≤ n ∧ n < 4 ^ (m + 1) ∧
      (2 * (rho : ℚ) - 1) ^ 2 * n ≤ 4 ^ (m + 25) ∧ 4 ^ (m + 25) ≤ (2 * (rho : ℚ) + 1) ^ 2 * n ∧
      ((2 * (rho : ℚ) - 1) ^ 2 * n = 4 ^ (m + 25) ∨ 4 ^ (m + 25) = (2 * (rho : ℚ) + 1) ^ 2 * n → rho % 2 = 0) ∧
      (v.n = gZero → v.c = List.replicate y.length 0) ∧
      (v.n ≠ gZero → v.c.length = y.length ∧ ∀ j, j < y.length → Nearest ((y.getD j 0 : ℚ) * rho / 2 ^ (m + 10)) (v.c.getD j 0))) ∧
  (∀ xs : List FVal, (∀ x ∈ xs, x.finite = true) → (∃ x ∈ xs, x.rat ≠ 0) → ∃ (e : Int) (y : List Int),
    (∀ x ∈ xs, |x.rat| < pow2 (e + 1)) ∧ (∃ x ∈ xs, pow2 e ≤ |x.rat|) ∧ y.length = xs.length ∧
    (∀ j, j < xs.length → Nearest ((xs.getD j (.fin false 0 0)).rat * pow2 (38 - e)) (y.getD j 0)) ∧
    gcvtVec xs = grnorm y (tgt y ((e - 38) * 32768) 1)) ∧
  (∀ (sub : Bool) (a b : GVec) (na nb sg : Int), a.n ≠ gZero → b.n ≠ gZero → na = normVal a.n → nb = normVal b.n →
    sg = (if sub then -1 else 1) → (na - nb) % 32768 = 0 → ∃ r : Int, Nearest (pow2 (30 - (na - nb).natAbs / 32768)) r ∧
      ∀ y, y = (if nb ≤ na then List.zipWith (fun x z => x * 2 ^ 30 + sg * z * r) a.c b.c
          else List.zipWith (fun x z => sg * z * 2 ^ 30 + x * r) a.c b.c) → (∃ x ∈ y, x ≠ 0) →
        gaddVec sub a b = grnorm y (tgt y (max na nb - 44 * 32768) 1)) ∧
  (∀ a b : GVec, a.n ≠ gZero → b.n ≠ gZero → a.c.length = b.c.length →
    (∀ y, y = List.zipWith (fun x z => x * (b.c.map fun k => k * k).sum - (List.zipWith (· * ·) a.c b.c).sum * z) a.c b.c → (∃ x ∈ y, x ≠ 0) →
      gprojVec a b = grnorm y (tgt y (normVal a.n - 14 * 32768) (b.c.map fun k => k * k).sum.toNat)) ∧
    (∀ (w ex : Nat) (y : List Int), 0 < w → w < 2 ^ 24 → y = List.zipWith (fun x z => (2 ^ 24 - (w : Int)) * x + w * z) a.c b.c →
      (∃ x ∈ y, x ≠ 0) → ∃ n : Int, Nearest (((2 ^ 24 - (w : ℚ)) * normVal a.n + w * normVal b.n) / 2 ^ 24) n ∧
        (glerpVec a b w ex).c = (grnorm y n).c ∧ (glerpVec a b w ex).n = (grnorm y n).n) ∧
    gdotInt a.c b.c = (List.zipWith (· * ·) a.c b.c).sum) ∧
  (∀ b : Nat, (fval .f32 b).finite = true → 0 ≤ (fval .f32 b).rat → ∃ k : Nat, Nearest ((fval .f32 b).rat * 2 ^ 24) k ∧
    (glerpWeight b).1 = min k (2 ^ 24)) ∧
  (∀ (f : Fmt) (t s n : Int), n % 32768 = 0 → Delivers0 f 0 false false (t * pow2 (s + n / 32768)) (roundPow f t s n)) ∧
  ∀ n : Int, normVal (normEnc n) = max (-8388608) (min 8388607 n)

/-! ### Bindings, cut words and fences -/

/-- R251, R252: outside a region, BIND, UNBIND and UNBIND.word complete: BIND adds its binding to the context unless
its length is 0, and UNBIND removes exactly those of its range, or of its word; device and address name both. R253,
R257 to R259: ACQ and CUTCHK complete on a word of this or another device, WAITCUT on one that satisfies it, and STALE
always; what they deliver is the concern of CutReads. The order of BIND's checks is the model's (log 57), and so is what happens on
a word of another device: the operation completes at the requester, where R369 parks it on a fault of the target that is not an input
(logs 13 and 85). -/
def Obligations.Bindings : Prop :=
  (∀ (i : Instr) (w : Fields) (s : State) (c : Ctx) (new : List Binding), issuing i s = some c → c.g.region = none →
    c.outsideHarvest = false → c.g.committed = [] →
    ((∃ l p, i = .bind w ∧ cutReaches c permR l p ∧
        rangeCheck s c.who (c.cap c.w.d).cap = none ∧
        (((c.cap c.w.d).cap.len = 0 ∧ new = (s.context c.who.context).bindings) ∨
          ((c.cap c.w.d).cap.len ≠ 0 ∧
            (∀ b ∈ c.bindingsSeen, bindOverlaps b (c.cap c.w.d).cap.device.toNat (c.cap c.w.d).cap.base.toNat (c.cap c.w.d).cap.len = false) ∧
            c.bindingsSeen.length < Config.bindingLimit ∧
            new = (s.context c.who.context).bindings ++ [⟨(c.cap c.w.d).cap.device.toNat, (c.cap c.w.d).cap.base.toNat, (c.cap c.w.d).cap.len,
              (cutName s p).1, (cutName s p).2⟩]))) ∨
      (i = .unbind w ∧ new = (s.context c.who.context).bindings.filter fun b =>
        !(b.dev == (c.cap c.w.d).cap.device.toNat && b.base == (c.cap c.w.d).cap.base.toNat && b.len == (c.cap c.w.d).cap.len)) ∨
      (∃ l p, i = .unbindWord w ∧ cutReaches c permR l p ∧
        new = (s.context c.who.context).bindings.filter fun b => !(b.wdev == (cutName s p).1 && b.word == (cutName s p).2))) →
    ∃ t, exec i s = .next t ∧ RetiredUnder (bindView c.who.context) s t c noValue 0 ∧
      (t.context c.who.context).bindings = new) ∧
  (∀ (i : Instr) (w : Fields) (s : State) (c : Ctx) (l : Nat) (p : Place), issuing i s = some c → c.g.committed = [] →
    cutReaches c permR l p →
    (i = .acq w ∨ i = .cutchk w ∨
      i = .waitcut w ∧ (c.c32 c.lane0 < cutVersion (cutWordAt c.s p) ∨ cutState (cutWordAt c.s p) ≠ cutOpen)) →
    ∃ t v, exec i s = .next t ∧ RetiredUnder State.calm s t c (if i = .waitcut w then destValue c .n64 2 fun _ => v else noValue) 0 ∧
      (i = .cutchk w → Issues s t c.ag (destValue c .n64 2 fun _ => v))) ∧
  ∀ (w : Fields) (s : State) (c : Ctx), issuing (.stale w) s = some c →
    ∃ t v, exec (.stale w) s = .next t ∧ RetiredUnder State.calm s t c noValue 0 ∧ v ≤ 1 ∧
      Issues s t c.ag (destValue { c with lanes := c.act } .b32 1 fun _ => v)

/-- R230, R256, Table 10.3: outside a region, CUTINIT, PUBCUT and FINCUT on this module's memory complete. The word
receives the version and state of the table, every byte outside it stays, and a late operation sets CUT_LATE and one
past the last version CUT_WRAP; this is of a word that no task counts on and no graph registers. On a word of another
device they complete too, and so does REL, with no change in this module; which flag they set is open. That is the model's choice
(log 13). -/
def Obligations.CutWrites : Prop :=
  (∀ (i : Instr) (w : Fields) (kind mask l d va : Nat) (s : State) (c : Ctx), issuing i s = some c → c.g.region = none →
    c.outsideHarvest = false → c.g.committed = [] →
    (i = .rel w ∧ kind = 0 ∧ mask = permR ∨ i = .cutinit w ∧ kind = 1 ∧ mask = permR + permW ∨
      i = .pubcut w ∧ kind = 2 ∧ mask = permR + permW ∨ i = .fincut w ∧ kind = 3 ∧ mask = permR + permW) →
    cutReaches c mask l (.far d va) →
    ∃ t ex, exec i s = .next t ∧ (ex = 0 ∨ 2 ≤ kind ∧ (ex = stCutLate ∨ ex = stCutWrap)) ∧
      RetiredUnder (cutView c.ag) s t c noValue (if c.ag.slot = Config.streamSlot then 0 else ex) ∧
      (∀ a, t.byte a = s.byte a) ∧ (kind = 0 → t.outbox = s.outbox)) ∧
  ∀ (i : Instr) (w : Fields) (kind : Nat) (s : State) (c : Ctx) (l va adr : Nat) (tn : BitVec 12), issuing i s = some c →
    (i = .cutinit w ∧ kind = 1 ∨ i = .pubcut w ∧ kind = 2 ∨ i = .fincut w ∧ kind = 3) → c.g.region = none →
    c.outsideHarvest = false → c.g.committed = [] → cutPlace c (permR + permW) l va tn adr → s.tasks = [] → graphsOfWord s adr = [] →
    let x := cutAfter kind (cutVersion (s.num adr 8)) (cutState (s.num adr 8))
    ∃ t, exec i s = .next t ∧
      RetiredUnder (cutView c.ag) s t c noValue (if c.ag.slot = Config.streamSlot then 0 else x.2.2) ∧
      cutVersion (t.num adr 8) = x.1 ∧ cutState (t.num adr 8) = x.2.1 ∧ cutRefire (t.num adr 8) = cutRefire (s.num adr 8) ∧
      (∀ a, a < adr ∨ adr + 8 ≤ a → t.byte a = s.byte a) ∧
      t.At c.ag fun g _ => g.mxstatus =
        c.g.mxstatus ||| (if c.ag.slot = Config.streamSlot then BitVec.ofNat 32 x.2.2 else 0)

/-- R253, R254, R257, R258: REL, ACQ, FENCE, CUTCHK and a WAITCUT that is satisfied complete. CUTCHK and WAITCUT deliver
the word; an acquire leaves the core's L1 no line of a range bound to the word, and a fence that acquires at cluster scope or wider none of the context. WAITCUT of an open word whose version has not passed n waits; on a word of another device
it tests again after a time that is the model's choice (log 78). R259: STALE
completes with a long-latency 1 where an input of the running task has a version above the task's own or is cancelled,
and 0 otherwise. -/
def Obligations.CutReads : Prop :=
  ((∀ (i : Instr) (w : Fields) (s : State) (c : Ctx) (l va pa v : Nat) (tn : BitVec 12), issuing i s = some c → c.g.committed = [] →
    (i = .rel w → c.g.region = none ∧ c.outsideHarvest = false) → cutPlace c permR l va tn pa →
    v = s.num pa 8 →
    (i = .acq w ∨ i = .rel w ∨ i = .cutchk w ∨
      i = .waitcut w ∧ (c.c32 c.lane0 < cutVersion v ∨ cutState v ≠ cutOpen)) →
    ∃ t, exec i s = .next t ∧
      RetiredUnder State.calm s t c (if i = .waitcut w then destValue c .n64 2 fun _ => v else noValue) 0 ∧
      (i = .cutchk w → Issues s t c.ag (destValue c .n64 2 fun _ => v)) ∧
      (i ≠ .rel w → ∀ x ∈ (t.core c.ag.core).l1, lineBound s c.who.context (some (s.regs.deviceId.toNat, va)) x = false)) ∧
  (∀ (w : Fields) (s : State) (c : Ctx) (l va pa : Nat) (tn : BitVec 12), issuing (.waitcut w) s = some c → c.g.committed = [] →
    cutPlace c permR l va tn pa → cutVersion (s.num pa 8) ≤ c.c32 c.lane0 → cutState (s.num pa 8) = cutOpen →
    ∃ t, exec (.waitcut w) s = .next t ∧ t.waitOf c.ag = some (some (.cut pa (c.c32 c.lane0))) ∧ t.pcOf c.ag = s.pcOf c.ag ∧
      Writes s t c.ag noValue) ∧
  (∀ (w : Fields) (s : State) (c : Ctx) (l d va : Nat), issuing (.waitcut w) s = some c → c.g.committed = [] →
    cutReaches c permR l (.far d va) →
    let v := cutWordAt c.s (.far d va)
    ∃ t, exec (.waitcut w) s = .next t ∧
      (cutVersion v ≤ c.c32 c.lane0 → cutState v = cutOpen → t.pcOf c.ag = s.pcOf c.ag ∧ Writes s t c.ag noValue ∧
        ∃ n, c.now < n ∧ t.waitOf c.ag = some (some (.farCut n))) ∧
      (c.c32 c.lane0 < cutVersion v ∨ cutState v ≠ cutOpen →
        RetiredUnder State.calm s t c (destValue c .n64 2 fun _ => v) 0)) ∧
  ∀ (w : Fields) (s : State) (c : Ctx), issuing (.fence w) s = some c → c.g.committed = [] →
    (c.g.stream = true → vr c.w ≠ 0 → streamOps s c.ag.core c.g = []) →
    ∃ t, exec (.fence w) s = .next t ∧ RetiredUnder ackView s t c noValue 0 ∧
      (c.w.flags.toNat % 4 ≠ 2 → 3 ≤ vr c.w → ∀ x ∈ (t.core c.ag.core).l1, x.owner ≠ c.who.context)) ∧
  ∀ (w : Fields) (s : State) (c : Ctx), issuing (.stale w) s = some c →
    ∃ v, v ≤ 1 ∧
      (v = 1 ↔ ∃ l n k, s.launch? c.g.launch = some l ∧ l.task = some n ∧ s.task? n = some k ∧
        ∃ x ∈ k.inputs, x.2.2 < cutVersion (wordNum c.s x.2.1) ∨ cutState (wordNum c.s x.2.1) = cutCancelled) ∧
      ∃ t, exec (.stale w) s = .next t ∧ RetiredUnder State.calm s t c noValue 0 ∧
        Issues s t c.ag (destValue { c with lanes := c.act } .b32 1 fun _ => v)

/-! ### Engines -/

/-- R274, R306 to R308, R365: outside a region, a copy whose checks pass enters the group's open batch and the core's copy
engine; no byte moves yet. R274, R309, R310: CBATCH with fewer than sixteen batches open completes: it closes the open
batch under the next number, modulo 2^32, which D receives; a batch without copies is complete at once. CWAIT goes on
where its batch has completed and none up to it failed, and waits where it has not; where one failed, it ends the launch whatever TVEC
holds, with a record of the copy, SRCK 2. That it passes the handler by is the model's choice (log 69). -/
def Obligations.CopiesAndBatches : Prop :=
  (∀ (i : Instr) (f : Ctx → CopyPlan) (s : State) (c : Ctx), copySays i = some f → issuing i s = some c → worksHere c →
    c.g.committed = [] → (f c).ok = true → copyFault c.s c.who (f c).spans = none → (s.core c.ag.core).copies.length < 64 →
    ∃ t, exec i s = .next t ∧ RetiredUnder (copyView c.ag) s t c noValue 0 ∧
      ∃ x : Copy, (t.core c.ag.core).copies = (s.core c.ag.core).copies ++ [x] ∧ x.id = (s.core c.ag.core).nextCopy ∧
        (t.core c.ag.core).nextCopy = x.id + 1 ∧ x.launch = c.g.launch ∧ x.group = c.g.groupId ∧ x.slot = c.ag.slot ∧
        x.batch = (c.g.closed + 1) % 2 ^ 32 ∧ x.dst = (f c).dst ∧ x.src = (f c).src ∧
        x.idx = (f c).idx ∧ x.shape = (f c).shape ∧ x.pc = c.sp.pc ∧ x.parked = none ∧
        t.At c.ag fun g _ => g.openCopies = c.g.openCopies ++ [x.id] ∧ g.batches = c.g.batches ∧ g.closed = c.g.closed
          ∧ g.completed = c.g.completed) ∧
  (∀ (w : Fields) (s : State) (c : Ctx) (n : Nat), issuing (.cbatch w) s = some c → c.g.region = none → c.g.committed = [] →
    c.g.batches.length < 16 → n = (c.g.closed + 1) % 2 ^ 32 →
    ∃ t, exec (.cbatch w) s = .next t ∧ RetiredUnder (copyView c.ag) s t c (destValue c .n64 2 fun _ => n) 0 ∧
      (t.core c.ag.core).copies = (s.core c.ag.core).copies ∧
      t.At c.ag fun g _ => g.closed = n ∧ g.openCopies = [] ∧
        (c.g.batches = [] → c.g.openCopies = [] → g.batches = [] ∧ g.completed = n) ∧
        ((∀ b ∈ c.g.batches, b.2 ≠ []) → c.g.openCopies ≠ [] →
          g.batches = c.g.batches ++ [(n, c.g.openCopies)] ∧ g.completed = c.g.completed)) ∧
  ∀ (w : Fields) (s : State) (c : Ctx) (n : Nat), issuing (.cwait w) s = some c → n = c.a32 c.lane0 →
    ∃ t, exec (.cwait w) s = .next t ∧
      (n = 0 ∨ batchDone c.g.completed n = true → (∀ f ∈ c.g.failed, batchDone n f.batch = false) → Retired s t c noValue 0) ∧
      (n ≠ 0 → batchDone c.g.completed n = false → Waits s t c (.batch n)) ∧
      ∀ f l, batchDone c.g.completed n = true → c.g.failed = [f] → batchDone n f.batch = true → c.s.launch? c.g.launch = some l →
        portFull c.s (dieOf c.ag.core) (faultClass c.s c.ag c.g 1) = false →
        t.group? c.ag.core c.ag.slot = none ∧
        (t.launch? c.g.launch).map (fun x => (x.failed, x.done)) = some (some f.code, true) ∧
        PortGets s t f.code 1 fun r => r.info = f.info ∧ r.pc = f.pc ∧ r.srck = 2

/-- R276, R311, R312: mailbox instructions complete. MPUT fills a mailbox that is not FULL; MGET takes the value of a FULL
one; MGET.z tells an ORPHAN in its flag, and MTRY one from which nothing can be taken. MBIND registers the group once,
and MBIND.rst clears the mailbox and wakes no one: a put that waited at a FULL one sleeps until a value is next taken from
it. Every other mailbox stays. -/
def Obligations.Mailboxes : Prop :=
  (∀ (w : Fields) (s : State) (c : Ctx) (m : Nat), issuing (.mput w) s = some c → worksHere c → m = mbxOf c.w.d →
    (s.mailbox c.ag.core m).state ≠ .full → c.firstHere m true = true →
    ∃ t, exec (.mput w) s = .next t ∧ RetiredUnder (mailboxView c.ag) s t c noValue 0 ∧ OtherMailboxes s t c m ∧
      t.mailbox c.ag.core m = { s.mailbox c.ag.core m with value := BitVec.ofNat 64 (c.a64 c.lane0), state := .full }) ∧
  (∀ (i : Instr) (w : Fields) (s : State) (c : Ctx) (m : Nat) (b : Mailbox), issuing i s = some c → worksHere c →
    m = mbxOf c.w.a → b = s.mailbox c.ag.core m → b.state = .full →
    ((i = .mget w ∨ i = .mgetZ w) ∧ c.firstHere m false = true ∨
      i = .mtry w ∧ firstAtMailbox c.s c.ag m false (c.s.cycle + 1) = true) →
    ∃ t, exec i s = .next t ∧ OtherMailboxes s t c m ∧
      RetiredUnder (mailboxView c.ag) s t c
        (if i = .mget w then destValue c .n64 2 fun _ => b.value.toNat
          else withFlag { c with lanes := c.act } (destValue c .n64 2 fun _ => b.value.toNat) fun _ => false) 0 ∧
      t.mailbox c.ag.core m = { b with state := if b.live = 0 ∧ b.bound = true then .orphan else .empty }) ∧
  (∀ (i : Instr) (w : Fields) (s : State) (c : Ctx) (m : Nat), issuing i s = some c → worksHere c → m = mbxOf c.w.a →
    (i = .mgetZ w ∧ (s.mailbox c.ag.core m).state = .orphan ∨ i = .mtry w ∧ (s.mailbox c.ag.core m).state ≠ .full) →
    ∃ t, exec i s = .next t ∧
      Retired s t c (withFlag { c with lanes := c.act } (destValue c .n64 2 fun _ => 0) fun _ => true) 0) ∧
  (∀ (i : Instr) (w : Fields) (s : State) (c : Ctx) (m : Nat), issuing i s = some c → worksHere c → m = mbxOf c.w.a →
    (i = .mget w ∨ i = .mgetZ w) → (s.mailbox c.ag.core m).state = .empty →
    ∃ t, exec i s = .next t ∧ Waits s t c (.mailbox m false)) ∧
  (∀ (w : Fields) (s : State) (c : Ctx) (m : Nat) (b : Mailbox), issuing (.mbind w) s = some c → worksHere c → m = mbxOf c.w.a →
    b = s.mailbox c.ag.core m →
    ∃ t, exec (.mbind w) s = .next t ∧ RetiredUnder (mailboxView c.ag) s t c noValue 0 ∧ OtherMailboxes s t c m ∧
      t.mailbox c.ag.core m = if c.ag.slot ∈ b.writers then b
        else { b with writers := natInsert c.ag.slot b.writers, live := b.live + 1, bound := true }) ∧
  ∀ (w : Fields) (s : State) (c : Ctx) (m : Nat), issuing (.mbindRst w) s = some c → worksHere c → m = mbxOf c.w.a →
    ∃ t, exec (.mbindRst w) s = .next t ∧ RetiredUnder (mailboxView c.ag) s t c noValue 0 ∧ OtherMailboxes s t c m ∧
      t.mailbox c.ag.core m = ⟨.empty, (s.mailbox c.ag.core m).value, [], 0, false⟩ ∧
      ∀ a : Agent, a.core = c.ag.core → a.slot < 65 → a ≠ c.ag → t.waitOf a = (s.waitOf a).map (Option.map fun x =>
        if (s.mailbox c.ag.core m).state = .full ∧ x = .mailbox m true then .mailboxOff m else x)

/-- R262, R314, R315: MMA and MMAS whose k group and operands pass their checks enter the matrix queue, where an entry is
free; no accumulator changes yet. R262, R316 to R318: MZERO, MDRAIN, MDRAIN.z and MSCL whose operands pass their
checks enter the matrix queue; MSCL sets or clears the scales of one operand for later operations. R319, R320, R271:
MRING binds a ring to an operand or unbinds it; MWIT delivers MXSTATUS; MWAIT goes on once the stream has no operation
in the queue and no witness fault to raise, and waits while it has one. -/
def Obligations.MatrixQueue : Prop :=
  (∀ (i : Instr) (w : Fields) (s : State) (c : Ctx) (k : Nat → Nat) (mn : Nat × Nat) (a b : MatSource) (subs : List (Nat × Nat)),
    (i = .mma w ∨ i = .mmas w) → issuing i s = some c → (s.core c.ag.core).mq.length < 8 → k = c.kAt c.w.d →
    mn = shapeMN (vr c.w % 4) → shapeBlocks (vr c.w % 4) (k 3 / 2 ^ 16 % 32) (k 3 / 2 ^ 24 % 4) = some subs →
    (vr c.w % 4 ≠ 0 → k 3 / 2 ^ 24 % 4 = 0) → k 3 < 2 ^ 26 → k 3 / 2 ^ 13 % 8 = 0 → k 3 / 2 ^ 21 % 8 = 0 →
    k 3 % 2 ^ 13 % 32 = 0 → 32 ≤ k 3 % 2 ^ 13 → k 3 % 2 ^ 13 ≤ 4096 →
    MatOperand c (c.w.var.getLsbD 3) c.w.a c.g.ringA c.g.sclA mn.1 (k 0) (k 2 % 2 ^ 32) a →
    MatOperand c (c.w.var.getLsbD 2) c.w.b c.g.ringB c.g.sclB mn.2 (k 1) (k 2 / 2 ^ 32 % 2 ^ 32) b →
    ∃ t, exec i s = .next t ∧
      Enqueued s t c (.mma mn.1 mn.2 (k 3 % 2 ^ 13) a b (bit78 c.w)) subs
        (if i = .mmas w then some (mbxOf (opC c.w), BitVec.ofNat 64 (k 4)) else none) ∧
      t.At c.ag fun g _ => g.ringA = c.g.ringA ∧ g.ringB = c.g.ringB ∧ g.sclA = c.g.sclA ∧ g.sclB = c.g.sclB) ∧
  ((∀ (w : Fields) (s : State) (c : Ctx) (a : Nat), issuing (.mzero w) s = some c → (s.core c.ag.core).mq.length < 8 →
    a = c.a64 c.lane0 → a < 2 ^ 10 → a % 32 + (a / 32 + 1) ≤ 32 →
    ∃ t, exec (.mzero w) s = .next t ∧ Enqueued s t c (.zero (a % 32) (a / 32 + 1)) [] none) ∧
  (∀ (i : Instr) (w : Fields) (clear : Bool) (s : State) (c : Ctx) (k row : Nat), issuing i s = some c →
    (i = .mdrain w ∧ clear = false ∨ i = .mdrainZ w ∧ clear = true) → (s.core c.ag.core).mq.length < 8 → k = c.kAt c.w.a 0 →
    row = (if c.w.ty = .bf16x2 then 128 else 256) → k < 2 ^ 48 → k / 2 ^ 29 % 8 = 0 → k / 2 ^ 32 % 2 ^ 16 % 16 = 0 →
    row ≤ k / 2 ^ 32 % 2 ^ 16 →
    (spResolve c.s c.ag.core c.g ((k % 2 ^ 24 : Nat) : Int) (63 * (k / 2 ^ 32 % 2 ^ 16) + row)).isSome = true →
    ∃ t, exec i s = .next t ∧
      Enqueued s t c (.drain c.w.ty (k % 2 ^ 24) (k / 2 ^ 32 % 2 ^ 16) (k / 2 ^ 24 % 32) clear) [] none) ∧
  ∀ (w : Fields) (s : State) (c : Ctx) (x : Option Nat), issuing (.mscl w) s = some c → (s.core c.ag.core).mq.length < 8 →
    x = (if vr c.w < 2 then some (c.a32 c.lane0 % 2 ^ 24) else none) → vr c.w < 4 →
    ∃ t, exec (.mscl w) s = .next t ∧ Enqueued s t c .scale [] none ∧
      t.At c.ag fun g _ => g.ringA = c.g.ringA ∧ g.ringB = c.g.ringB ∧
        (vr c.w % 2 = 0 → g.sclA = x ∧ g.sclB = c.g.sclB) ∧ (vr c.w % 2 = 1 → g.sclB = x ∧ g.sclA = c.g.sclA)) ∧
  (∀ (w : Fields) (s : State) (c : Ctx) (k : Nat → Nat) (r : Option RingBind), issuing (.mring w) s = some c → k = c.kAt c.w.a →
    (2 ≤ vr c.w ∧ r = none ∨
      vr c.w < 2 ∧ k 0 < 2 ^ 40 ∧ k 0 / 2 ^ 24 % 256 = 0 ∧ 1 ≤ k 0 / 2 ^ 32 % 256 ∧ k 0 / 2 ^ 32 % 256 ≤ 64 ∧
        k 0 % 2 ^ 24 % 128 = 0 ∧ k 1 / 2 ^ 48 % 2 ^ 16 ∈ [64, 128, 256] ∧ k 1 / 2 ^ 36 % 2 ^ 12 = 0 ∧
        1 ≤ k 1 / 2 ^ 32 % 16 ∧ k 1 / 2 ^ 32 % 16 ≤ 8 ∧ k 1 % 2 ^ 32 % 128 = 0 ∧
        (spResolve c.s c.ag.core c.g ((k 0 % 2 ^ 24 : Nat) : Int) (128 + k 0 / 2 ^ 32 % 256 * (k 1 % 2 ^ 32))).isSome = true ∧
        r = some ⟨k 0 % 2 ^ 24, k 0 / 2 ^ 32 % 256, k 1 % 2 ^ 32, k 1 / 2 ^ 32 % 16, k 1 / 2 ^ 48 % 2 ^ 16⟩) →
    ∃ t, exec (.mring w) s = .next t ∧ RetiredUnder (matrixView c.ag) s t c noValue 0 ∧
      (t.core c.ag.core).mq = (s.core c.ag.core).mq ∧
      t.At c.ag fun g _ => g.sclA = c.g.sclA ∧ g.sclB = c.g.sclB ∧
        (vr c.w % 2 = 0 → g.ringA = r ∧ g.ringB = c.g.ringB) ∧ (vr c.w % 2 = 1 → g.ringB = r ∧ g.ringA = c.g.ringA)) ∧
  (∀ (w : Fields) (s : State) (c : Ctx), issuing (.mwit w) s = some c →
    ∃ v, (∀ b, v.testBit b = (c.g.mxstatus.getLsbD b ||
          (Nat.min 8 (streamOps s c.ag.core c.g).length * 2 ^ 12).testBit b || (b == 11 && (s.core c.ag.core).suspect))) ∧
      ∃ t, exec (.mwit w) s = .next t ∧ Retired s t c (destValue c .n64 2 fun _ => v) 0) ∧
  ∀ (w : Fields) (s : State) (c : Ctx), issuing (.mwait w) s = some c →
    ∃ t, exec (.mwait w) s = .next t ∧
      (streamOps s c.ag.core c.g = [] → c.g.witnessFault = false → Retired s t c noValue 0) ∧
      (streamOps s c.ag.core c.g ≠ [] → Waits s t c .matrix)

/-- R300, R321, R322: ENQ and ENQ.nb to an enabled queue of the issuer's partition, with a slot for the issuer that no ENQ
that waited before can take, complete: the 32 bytes of the k group stand in the slot at WPTR, WPTR rises by one, and D
receives 0. ENQ.nb otherwise completes with 1 where no slot is left to it and 2 where the queue is not enabled. R323,
R324: FETCHW without an answer outstanding completes, and its answer is due at its scratchpad address. REC completes
where its node's batch has room for every lane of T: each lane's record stands behind those already gathered. Queues
without a descriptor are the model's choice (log 39). -/
def Obligations.Enqueues : Prop :=
  ((∀ (i : Instr) (w : Fields) (s : State) (c : Ctx) (q : Nat) (qu : Queue) (pa : Nat), issuing i s = some c → worksHere c →
    c.g.committed = [] → q = c.a64 c.lane0 → q < 2 ^ 12 → c.s.queue? q = some qu → qu.part = c.who.part → qu.qstate = 1 →
    canTake qu (issuerOf c.s c.g.launch) = true →
    (i = .enq w ∨ i = .enqNb w) → earlierEnq c.s c.ag q qu = false →
    frontXlat c.s (c.s.part qu.part).tenant (qu.ring.base.toNat + 32 * (qu.wptr.toNat % 2 ^ qu.log2n)) permR = .ok pa →
    ∃ t, exec i s = .next t ∧ RetiredUnder queueView s t c (destValue c .n64 2 fun _ => 0) 0 ∧
      (∀ a, t.byte a = ByteMap.write s.byte pa ((List.range 4).flatMap fun j => leBytes (c.kAt c.w.b j) 8) a) ∧
      (t.queue? q).map (fun x => { x with issuers := [] }) = some { qu with wptr := qu.wptr + 1, issuers := [] } ∧
      ∀ p, p ≠ q → t.queue? p = s.queue? p) ∧
  ∀ (w : Fields) (s : State) (c : Ctx) (q v : Nat) (qu : Queue), issuing (.enqNb w) s = some c → worksHere c → q = c.a64 c.lane0 →
    q < 2 ^ 12 → c.s.queue? q = some qu → qu.part = c.who.part →
    (qu.qstate ≠ 1 ∧ v = 2 ∨
      qu.qstate = 1 ∧ (canTake qu (issuerOf c.s c.g.launch) = false ∨ earlierEnq c.s c.ag q qu = true) ∧ v = 1) →
    ∃ t, exec (.enqNb w) s = .next t ∧ Retired s t c (destValue c .n64 2 fun _ => v) 0) ∧
  (∀ (w : Fields) (s : State) (c : Ctx) (l : List (Nat × Place)), issuing (.fetchw w) s = some c → worksHere c →
    c.g.fetching = none → c.g.withdrawn = none → passScratch c (c.act.take 1) 32 = some l →
    ∃ t, exec (.fetchw w) s = .next t ∧ RetiredUnder (State.lessGroup c.ag fun g => { g with fetching := none }) s t c noValue 0 ∧
      t.At c.ag fun g _ => g.fetching = some (c.spAddr c.lane0).toNat) ∧
  ∀ (w : Fields) (s : State) (c : Ctx) (l : Launch) (q : Queue) (n : Node) (id size base : Nat) (recs : List (Nat × Place))
    (pas : List Nat), issuing (.recSend w) s = some c → worksHere c → c.g.committed = [] → c.sp.wait = none → id = c.a64 c.lane0 → id < 2 ^ 12 →
    c.s.launch? c.g.launch = some l → c.s.queue? l.queue = some q → tabFind q.nodes id = some n → size = 16 * (n.rsize + 1) →
    n.filling ≠ 0 → n.filling + c.lanes.length < 32 →
    base = n.buf.base.toNat + n.boff + 512 * (n.rsize + 1) * n.slot + n.filling * size →
    checkSp c.s c.ag.core c.g size 16 (c.lanes.map fun x => (x, c.spAddr x)) =
      .ok (recs.map fun e => ⟨e.1, (match e.2 with | .sp _ _ a => a | _ => 0), .ok e.2⟩) →
    pas.length = c.lanes.length → n.buf.device = s.regs.deviceId →
    (∀ j pa, pas[j]? = some pa → ∀ b, b < size →
      frontXlat c.s (s.frontWho l.queue).tenant (base + j * size + b) permW = .ok (pa + b)) →
    ∃ t, exec (.recSend w) s = .next t ∧ RetiredUnder queueView s t c noValue 0 ∧
      (∀ a, t.byte a = (recs.zip pas).foldl (fun m e => match e.1.2 with
        | .sp k off _ => ByteMap.write m e.2 ((List.range size).map fun i => spByte s k (off + i))
        | _ => m) (s.byte : ByteMap) a) ∧
      (t.queue? l.queue).map (fun x => tabFind x.nodes id) = some (some { n with filling := n.filling + c.lanes.length }) ∧
      ∀ p, p ≠ l.queue → t.queue? p = s.queue? p

/-! ### Regions and shootdowns -/

/-- R336, R337, R338, R353 to R355: RGNB with one split, a save area, a live-in set within the allocation and space
completes, opens the region and takes a snapshot whose marker is the next instruction. RGNE commits the held entries
in program order, and in a harvest group takes a snapshot; RGNX drops them. No register and no memory changes. -/
def Obligations.Regions : Prop :=
  (∀ (w : Fields) (s : State) (c : Ctx) (l : Launch) (live : List Nat), issuing (.rgnb w) s = some c → c.g.region = none →
    c.g.splits.length = 1 → c.s.launch? c.g.launch = some l → l.hasSave = true → live = c.liveMask → live.length ≤ 32 →
    (∀ n ∈ live, n < c.g.vregs) → c.g.committed = [] → c.banksFree live = true →
    ∃ t, exec (.rgnb w) s = .next t ∧ RetiredUnder (regionView c.ag) s t c noValue 0 ∧
      t.At c.ag fun g _ => g.region = some ⟨live, c.g.stack.length, []⟩ ∧ g.committed = [] ∧ g.evictions = 0 ∧
        ∃ x, g.snapshot = some x ∧ x.opens = true ∧ x.phase = 1 ∧ x.due = c.now + 1 ∧ x.split.pc = c.sp.pc + 12 ∧ x.split.tvec = c.sp.tvec ∧
          ∀ n lane, lane < 32 → (tabGet 0#32 x.v (n * 32 + lane)).toNat = if n ∈ live then s.reg c.ag (.v n) lane else 0) ∧
  (∀ (w : Fields) (s : State) (c : Ctx) (r : Region), issuing (.rgne w) s = some c → c.g.region = some r →
    c.g.splits.length = 1 → c.g.stack.length = r.depth → (c.who.cls = true → c.banksFree r.live = true) →
    ∃ t, exec (.rgne w) s = .next t ∧ RetiredUnder (regionView c.ag) s t c noValue 0 ∧
      t.At c.ag fun g _ => g.region = none ∧ g.committed = c.g.committed ++ r.held ∧
        (c.who.cls = false → g.snapshot = c.g.snapshot) ∧
        (c.who.cls = true → g.evictions = 0 ∧ ∃ x, g.snapshot = some x ∧ x.opens = false ∧ x.phase = 1 ∧ x.due = c.now + 1 ∧ x.split.pc = c.sp.pc + 12)) ∧
  ∀ (w : Fields) (s : State) (c : Ctx) (r : Region), issuing (.rgnx w) s = some c → c.g.region = some r →
    c.g.splits.length = 1 → c.g.stack.length = r.depth →
    ∃ t, exec (.rgnx w) s = .next t ∧ RetiredUnder (regionView c.ag) s t c noValue 0 ∧
      t.At c.ag fun g _ => g.region = none ∧ g.committed = c.g.committed ∧ g.snapshot = c.g.snapshot

/-- R197, R201, R366: TLBI completes, on a headstock core for any tenant and in a handler for its own: no core keeps an
entry and no capability register a translation part of what it names, and every other one stays. It completes once no access
translated before is in flight: every read of a started matrix operation of the tenant has been made, and a WAITCUT translates its word
again. This is said where no group has committed entries that are not yet performed; those are performed first. -/
def Obligations.Shootdowns : Prop :=
  (∀ (i : Instr) (w : Fields) (s t : State) (c : Ctx), (i = .tlbiPage w ∨ i = .tlbiTenant w ∨ i = .tlbiAll w) → issuing i s = some c →
    (∀ e ∈ s.groups, e.2.committed = []) → exec i s = .next t → (isHeadstock c.ag.core = true ∨ i = .tlbiPage w ∧ BitVec.ofNat 12 (c.a64 c.lane0) = c.who.tenant ∨
      i = .tlbiTenant w ∧ BitVec.ofNat 12 (c.a64 c.lane0) = c.who.tenant) →
    ∀ loc lane, (∀ n, loc ≠ .a n) → loc.inLane lane = true → t.reg c.ag loc lane = s.regAtIssue c.ag loc lane) ∧
  (∀ (w : Fields) (s : State) (c : Ctx) (tenant : BitVec 12) (vpn : Nat), issuing (.tlbiPage w) s = some c →
    (∀ e ∈ s.groups, e.2.committed = []) →
    tenant = BitVec.ofNat 12 (c.a64 c.lane0) → vpn = c.b64 c.lane0 / 2 ^ 16 % 2 ^ 41 →
    (isHeadstock c.ag.core = true ∨ tenant = c.who.tenant) →
    ∃ t, exec (.tlbiPage w) s = .next t ∧ Steady (shotView s) (shotView t) c.ag ∧ t.pcOf c.ag = (s.pcOf c.ag).map (· + 12) ∧
      ReadsMade s t (· = tenant) ∧ Shot s t (fun e => tlbCovers e tenant vpn = true) fun x =>
        x.tenant = tenant ∧ x.base.toNat / 2 ^ 16 ≤ vpn ∧ vpn * 2 ^ 16 < x.base.toNat + x.len) ∧
  (∀ (w : Fields) (s : State) (c : Ctx) (tenant : BitVec 12), issuing (.tlbiTenant w) s = some c →
    (∀ e ∈ s.groups, e.2.committed = []) →
    tenant = BitVec.ofNat 12 (c.a64 c.lane0) → (isHeadstock c.ag.core = true ∨ tenant = c.who.tenant) →
    ∃ t, exec (.tlbiTenant w) s = .next t ∧ Steady (shotView s) (shotView t) c.ag ∧ t.pcOf c.ag = (s.pcOf c.ag).map (· + 12) ∧
      ReadsMade s t (· = tenant) ∧ Shot s t (fun e => e.tenant = tenant) fun x => x.tenant = tenant) ∧
  ∀ (w : Fields) (s : State) (c : Ctx), issuing (.tlbiAll w) s = some c → (∀ e ∈ s.groups, e.2.committed = []) →
    ∃ t, exec (.tlbiAll w) s = .next t ∧ Steady (shotView s) (shotView t) c.ag ∧ t.pcOf c.ag = (s.pcOf c.ag).map (· + 12) ∧
      ReadsMade s t (fun _ => True) ∧ Shot s t (fun _ => True) fun _ => True

/-! ### Steps of splits and groups -/

/-- R20, R137: LONG_LATENCY_WRITEBACK writes one outstanding result: its registers receive its values, it is outstanding no
longer, in any split that inherited it from the one that issued it, and of a result that one split alone holds nothing
else changes. R146, R232, R362, R341, R300, R358: the engines' steps that end a run or a wait.
RUN_CUT cuts a run of 384 cycles while another of its class is ready; WAITCUT_WAKE and WFE_TIMEOUT end their waits,
the latter past the WFE; PROTECTED_WINDOW_END ends the window; QFULL_TIMEOUT parks an ENQ, with a record;
FIRMWARE_INTERRUPT lets a halted headstock core issue again. R349: WATCHDOG of a group that has not issued for its
partition's limit raises its fault at the lowest split that waits at a barrier or a JOIN: the split enters its
handler, or without one the launch ends with a terminal record, for which it waits while the port has no room (R332).
A WAITCUT's wait ends too where the frame of its word has passed to another tenant (R8). The split at which the watchdog's fault is raised is
the model's choice (log 44). -/
def Obligations.SplitSteps : Prop :=
  (∀ (ag : Agent) (idx : Nat) (s : State) (l : List Pending) (p : Pending), s.pendingOf ag = some l → l[idx]? = some p →
    (∀ x ∈ p.cells, x.loc.inLane x.lane = true ∧ x.loc ≠ .p 7) → holders s ag.core p.id = [ag] →
    (∀ (j : Nat) x, l[j]? = some x → x.id = p.id → j = idx) →
    ∃ t, exec (.longLatencyWriteback ag idx) s = .next t ∧ Steady s t ag ∧ t.pendingOf ag = some (l.eraseIdx idx) ∧
      t.pcOf ag = s.pcOf ag ∧ t.statusOf ag = s.statusOf ag ∧ t.waitOf ag = s.waitOf ag ∧
      ∀ loc lane, loc.inLane lane = true →
        (loc.isGrain = false → t.reg ag loc lane = ((lastCell p.cells loc lane).map loc.holds).getD (s.reg ag loc lane)) ∧
        (loc.isGrain = true → loc.grainPart (t.reg ag loc lane)
          = loc.grainPart ((lastCell p.cells loc lane).getD (s.reg ag loc lane)))) ∧
  (∀ (ag : Agent) (idx : Nat) (s : State) (l : List Pending) (p : Pending), s.pendingOf ag = some l → l[idx]? = some p →
    (s.groups.map (·.1)).Nodup → (∀ e ∈ s.groups, (e.2.splits.map (·.1)).Nodup) →
    ∃ t, exec (.longLatencyWriteback ag idx) s = .next t ∧ holders t ag.core p.id = [] ∧ (∀ a, t.byte a = s.byte a) ∧
      ∀ a, t.pcOf a = s.pcOf a ∧ t.statusOf a = s.statusOf a ∧ t.waitOf a = s.waitOf a) ∧
  ((∀ (ag : Agent) (s : State) (g : Group) (q : Quad) (x : Cand), s.group? ag.core ag.slot = some g → g.stream = false →
    q = tabGet Quad.init (s.core ag.core).quads g.quad → q.owner = some (ag.slot, ag.split) → q.since + 384 ≤ s.cycle →
    x ∈ candidates s → x.stream = false → x.quad = ag.core * 4 + g.quad → x.cls = (s.whoOf ag.core g).cls → x.ag ≠ ag →
    x.ready ≤ s.cycle → s.split? ag ≠ none →
    ∃ t, exec (.runCut ag) s = .next t ∧ SplitStep s t ag ∧ t.pcOf ag = s.pcOf ag ∧ t.waitOf ag = s.waitOf ag ∧
      (t.At ag fun _ sp => sp.cut = true ∧ sp.latch = [] ∧ s.cycle ≤ sp.readyAt) ∧
      (tabGet Quad.init (t.core ag.core).quads g.quad).owner = none) ∧
  (∀ (ag : Agent) (s : State) (pa n : Nat), s.waitOf ag = some (some (.cut pa n)) →
    (n < cutVersion (s.num pa 8) ∨ cutState (s.num pa 8) ≠ cutOpen ∨
      ∃ g, s.group? ag.core ag.slot = some g ∧ frameLost s (s.whoOf ag.core g).tenant pa = true) →
    ∃ t, exec (.waitcutWake ag) s = .next t ∧ SplitStep s t ag ∧ t.pcOf ag = s.pcOf ag ∧ t.waitOf ag = some none) ∧
  (∀ (ag : Agent) (s : State) (d : Nat) (x : Split), s.split? ag = some x → x.wait = some (.event d) → d ≤ s.cycle →
    ∃ t, exec (.wfeTimeout ag) s = .next t ∧
      (x.resumed = false →
        SplitStep (s.lessSplit ag fun sp => { sp with ev := false }) (t.lessSplit ag fun sp => { sp with ev := false }) ag) ∧
      t.pcOf ag = (s.pcOf ag).map (· + 12) ∧ t.waitOf ag = some none ∧
      t.At ag fun _ sp => sp.ev = false ∧ sp.run = if x.resumed = true then 0 else x.run + 1) ∧
  (∀ (core slot : Nat) (s : State) (g : Group), s.group? core slot = some g → g.protectedUntil ≠ 0 → g.protectedUntil ≤ s.cycle →
    ∃ t, exec (.protectedWindowEnd core slot) s = .next t ∧ OneGroup s t core slot { g with protectedUntil := 0 }) ∧
  (∀ (ag : Agent) (s : State) (g : Group) (sp : Split) (q since : Nat) (qu : Queue), s.group? ag.core ag.slot = some g →
    s.split? ag = some sp → sp.wait = some (.queue q since) → s.queue? q = some qu → s.after since qu.etime ≤ s.cycle →
    portFull s (dieOf ag.core) (faultClass s ag g 0) = false →
    ∃ t, exec (.qfullTimeout ag) s = .next t ∧ t.pcOf ag = s.pcOf ag ∧ t.waitOf ag = some none ∧ ag ∉ t.enqWait ∧
      (∀ loc lane, t.reg ag loc lane = s.reg ag loc lane) ∧
      PortGets s t fQfullTimeout 0 (fun r => r.lmask = sp.confined sp.mask ∧ r.pc = sp.pc) ∧
      t.At ag fun _ x => ∃ info, x.parked = sp.parked ++ [⟨fQfullTimeout, sp.confined sp.mask, info, 0, sp.pc, false⟩]) ∧
  ∀ (die : Nat) (s : State), ∃ t, exec (.firmwareInterrupt die) s = .next t ∧ { t with cores := [] } = { s with cores := [] } ∧
    ∀ k, t.core k = if k = die * 145 + 144 then { s.core k with halted := false } else s.core k) ∧
  ∀ (core slot i : Nat) (s : State) (g : Group) (sp : Split), s.group? core slot = some g → g.stream = false → g.evicted = false →
    (s.part (s.whoOf core g).part).wdlimit ≠ 0 → (∀ x ∈ g.splits, x.2.parked = []) →
    s.after g.lastIssue (s.part (s.whoOf core g).part).wdlimit ≤ s.cycle → watched g = some (i, sp) →
    tabFind g.splits i = some sp →
    ∃ t, exec (.watchdog core slot) s = .next t ∧
      (sp.tvec ≠ 0 → sp.inHandler = false → g.committed = [] → sp.pending = [] →
        (∀ a, t.byte a = s.byte a) ∧ t.port = s.port ∧ (∀ loc lane, t.reg ⟨core, slot, i⟩ loc lane = s.reg ⟨core, slot, i⟩ loc lane) ∧
        t.At ⟨core, slot, i⟩ fun _ x => x.inHandler = true ∧ x.trapCode = 0x30 ∧ x.trapPc = sp.pc ∧ x.trapMask = sp.mask ∧ x.wait = none
          ∧ x.pc = (tabGet CapReg.null sp.a 0).cap.base + sp.tvec) ∧
      ((sp.tvec = 0 ∨ sp.inHandler = true) → portFull s (dieOf core) (faultClass s ⟨core, slot, i⟩ g 1) = true →
        { t with free := 0 } = { s with free := 0 }) ∧
      ∀ l, (sp.tvec = 0 ∨ sp.inHandler = true) → s.launch? g.launch = some l →
        portFull s (dieOf core) (faultClass s ⟨core, slot, i⟩ g 1) = false →
        t.group? core slot = none ∧ (t.launch? g.launch).map (fun x => (x.failed, x.done)) = some (some 0x30, true) ∧
          PortGets s t 0x30 1 fun r => r.lmask = sp.mask ∧ r.pc = sp.pc

/-- R336, R339, R354, R292, R323, R392: SNAPSHOT_DRAIN takes a snapshot up and then finishes it, no sooner than 64 bytes a
cycle allow and in just that time where no other traffic competes, which frees its space in the banks;
COMMIT_DRAIN_COMPLETE performs the committed stores in program order, each in the frame that holds its page now, and not at
all without a translation (log 83); FETCHW_ANSWER writes its answer and withdraws the next group of the oldest launch that
offers one, or tells that there is none. The bytes of a save slot are free (log 45). -/
def Obligations.GroupEngines : Prop :=
  (∀ (core slot : Nat) (s : State) (g : Group) (n : Snapshot) (l : Launch), s.group? core slot = some g → g.snapshot = some n →
    s.launch? g.launch = some l →
    ∃ t, exec (.snapshotDrain core slot) s = .next t ∧
      (s.cycle < n.due → OneGroup s t core slot g) ∧
      (n.due ≤ s.cycle → n.phase = 1 → ∃ d, OneGroup s t core slot { g with snapshot := some { n with phase := 2, due := d } } ∧
        s.cycle + (n.bytes + 63) / 64 ≤ d ∧ (drainCompetes s core slot = false → d = s.cycle + (n.bytes + 63) / 64)) ∧
      (n.due ≤ s.cycle → n.phase = 2 → t.group? core slot = some { g with snapshot := some { n with phase := 3 } } ∧
        tabFind (t.core core).banks slot = none)) ∧
  (∀ (core slot : Nat) (s : State) (g : Group), s.group? core slot = some g →
    (∀ h ∈ g.committed, ∃ va tn pa bs, h = .store (.mem va tn pa) bs) →
    ∃ t, exec (.commitDrainComplete core slot) s = .next t ∧ t.group? core slot = some { g with committed := [] } ∧
      ∀ a, t.byte a = g.committed.foldl (fun m h => match h with
        | .store p bs => match relocate s (s.whoOf core g) p with
          | some (.mem _ _ pa) => ByteMap.write m pa bs
          | _ => m
        | _ => m) (s.byte : ByteMap) a) ∧
  ∀ (core slot addr k off : Nat) (s : State) (g : Group) (own : Launch), s.group? core slot = some g → g.fetching = some addr →
    s.launch? g.launch = some own → spResolve s core g (addr : Nat) 32 = some (k, off) →
    (∀ li l, fetchFrom s own.queue = some (li, l) → s.launch? li = some l → Settled s l) →
    ∃ t, exec (.fetchwAnswer core slot) s = .next t ∧
      (∀ c x, (c ≠ k ∨ x < off ∨ off + 32 ≤ x) → spByte t c x = spByte s c x) ∧
      (fetchFrom s own.queue = none → t.group? core slot = some { g with fetching := none } ∧ spNum t k (off + 24) 8 = 2) ∧
      ∀ li l, fetchFrom s own.queue = some (li, l) → s.launch? li = some l →
        t.group? core slot = some { g with fetching := none, withdrawn := some (li, l.placed) } ∧ spNum t k (off + 24) 8 = 1 ∧
        spNum t k (off + 8) 4 = l.placed % 2 ^ 32 ∧ spNum t k (off + 12) 4 = idCluster l l.placed % 2 ^ 32 ∧
        spNum t k (off + 16) 4 = idTeam l l.placed % 2 ^ 32 ∧
        spNum t k off 8 = l.ring % 2 ^ 64 ∧
        t.launch? li = some { l with placed := l.placed + 1, withdrawnIds := natInsert l.placed l.withdrawnIds }

/-- R139, R140: REPACK moves splits of a team, each at the target of one BRC.pk, into a fresh group that stands there:
each lane's v, p and grain registers and rounding state move with it, the remap table says where its thread is, and
its home keeps it as absent. R140, R341 to R343, R347, R393: HARVEST_RESTART places an evicted group without committed entries
again at a free site of its core, if the core may still serve its launch, unless a queue of the guaranteed class can place, and the threads
that its state holds as exited are not PRESENT in the remap row. It has the state of its snapshot,
with its region open where that began one, or of its launch before its first; its third eviction since the marker
earns a window of 4,096 cycles on protectable banks. What a fresh group takes from the first of its splits is the
model's choice (log 43). -/
def Obligations.GroupMoves : Prop :=
  (∀ (core fresh : Nat) (splits : List (Nat × Nat)) (s : State) (home : Nat) (first : Group × Split) (rest : List (Nat × Group × Split)),
    movables s core splits = some ((home, first) :: rest) → repackOk s core fresh splits ((home, first) :: rest) = true →
    ∃ t f sp, exec (.repack core fresh splits) s = .next t ∧ t.group? core fresh = some f ∧ f.splits = [(0, sp)] ∧ f.repacked = true ∧
      f.launch = first.1.launch ∧ f.quad = first.1.quad ∧ sp.pc = first.2.pc ∧ sp.k = first.2.k ∧ sp.a = first.2.a ∧
      (∀ a, t.byte a = s.byte a) ∧
      ∃ spot : Nat → Nat → Nat, ∀ e ∈ (home, first) :: rest, ∀ l, e.2.2.mask.getLsbD l = true →
        sp.mask.getLsbD (spot e.1 l) = true ∧ spot e.1 l < 32 ∧
        (∀ d ∈ (home, first) :: rest, ∀ m, d.2.2.mask.getLsbD m = true → spot d.1 m = spot e.1 l → d.1 = e.1 ∧ m = l) ∧
        (∀ n, n < 256 → tabGet 0#32 f.v (n * 32 + spot e.1 l) = tabGet 0#32 e.2.1.v (n * 32 + l)) ∧
        (∀ n, n < 8 → tabGet false f.p (n * 32 + spot e.1 l) = tabGet false e.2.1.p (n * 32 + l)) ∧
        (∀ n, n < 32 → tabGet Grain.zero f.g (n * 32 + spot e.1 l) = tabGet Grain.zero e.2.1.g (n * 32 + l)) ∧
        tabFind f.threads (spot e.1 l) = some (e.1 * 32 + l) ∧
        tabFind (t.core core).remap (e.1 * 32 + l) = some (BitVec.ofNat 12 (0x800 + fresh * 32 + spot e.1 l)) ∧
        ∃ h, t.group? core e.1 = some h ∧ h.absent.getLsbD l = true) ∧
  ∀ (core slot : Nat) (site : GroupSite) (s : State) (g : Group) (l : Launch) (sp : Split), s.group? core slot = some g →
    s.launch? g.launch = some l → g.evicted = true → g.committed = [] → (s.context g.context).stopped = false →
    restartSiteOk s core l site = true → coreServes s core l = true → slot < 64 →
    (3 ≤ g.evictions → protectableFits s core l = true → windowEarned s core g site = true) →
    servedQueue s (dieOf core) false = none → g.startSplit s l = .ok sp →
    ∃ t f, exec (.harvestRestart core slot site) s = .next t ∧
      OneGroup { s.calm with cores := [], contexts := [] } { t.calm with cores := [], contexts := [] } core slot f ∧ t.regs = s.regs ∧
      (∀ x, (t.context x).calm = (s.context x).calm) ∧
      (∀ k, { t.core k with remap := [] } = { s.core k with remap := [] } ∧ ∀ n, k ≠ core ∨ n / 32 ≠ slot → remapEntry t k n = remapEntry s k n) ∧
      (∀ n, n < 32 → remapEntry t core (slot * 32 + n) = BitVec.ofNat 12 ((if f.exited.getLsbD n = true then 0 else 0x800) + slot * 32 + n)) ∧
      f.evicted = false ∧ f.quad = site.quad ∧ f.banks = site.banks ∧ f.granules = site.grains ∧ f.t = [] ∧
      f.protectedUntil = (if 3 ≤ g.evictions ∧ (∀ b ∈ site.banks, bankProt s core site.quad b = true)
          ∧ (∀ j ∈ site.grains, grainProt s core site.quad j = true) then s.cycle + 4096 else 0) ∧
      (g.snapshot = none → f.v = [] ∧ f.p = [] ∧ f.g = [] ∧ f.stack = [] ∧ f.exited = 0 ∧ f.region = none ∧
        f.splits = [(0, { sp with readyAt := s.cycle, ev := true })]) ∧
      ∀ n, g.snapshot = some n → f.v = n.v ∧ f.p = n.p ∧ f.sr = n.sr ∧ f.pk = n.pk ∧ f.exited = n.exited ∧ f.stack = n.stack ∧
        f.arrivals = n.arrivals ∧ f.splits = [(n.slot, { n.split with readyAt := s.cycle, ev := true })] ∧
        f.region = (if n.opens = true then some ⟨n.live, n.stack.length, []⟩ else none)

/-! ### The matrix engine and copies -/

/-- R262, R264, R266, R314, R317: MATRIX_OP_START starts the oldest operation that nothing holds back. An MMA whose
rows may be read, with formats of Table 12.3, computes from a step boundary on, 12 to 15 cycles later, and no
accumulator changes; MSCL leaves the queue. RING_SLOT_CONSUME gives a started MMA its ring's next filled slot and adds
1 to FREED. R268 to R271, R315 to R317: MATRIX_OP_COMPLETE writes the 64 by 64 words of the sub-array's block, each
the old word with its row's and column's chunks added in order; with an upset of the first attempt it writes nothing
and starts again, and RERUNS rises, and with a second one WFAIL is set at once; MZERO clears its blocks, and MDRAIN writes the words of its block, row by row, to
the scratchpad. MMAS_PUT fills the mailbox of a completed MMAS, which then leaves the queue. The order of an MMA's
checks and the moment of its reads are the model's (logs 30 and 31). -/
def Obligations.MatrixSteps : Prop :=
  ((∀ (core i : Nat) (s : State) (o : MatOp), startable s core = some i → (s.core core).mq[i]? = some o →
    (opParked s core = false ∨ opStream s core o = none) →
    ∃ t, exec (.matrixOpStart core) s = .next t ∧ (t.core core).acc = (s.core core).acc ∧ (∀ a, t.byte a = s.byte a) ∧
      (∀ b n, o.kind = .zero b n → (t.core core).mq = listSetAt (s.core core).mq i { o with started := some s.cycle, computeAt := s.cycle + 4 * n }) ∧
      (∀ ty a pitch b z, o.kind = .drain ty a pitch b z → (t.core core).mq =
        listSetAt (s.core core).mq i { o with started := some s.cycle, computeAt := s.cycle + if ty = .bf16x2 then 32 else 64 }) ∧
      (o.kind = .scale → (t.core core).mq = withoutOp (s.core core).mq i) ∧
      ∀ m n k a b sat ta tb rate ra rb u, o.kind = .mma m n k a b sat →
        u = fillPages s (opWho s core o) (sourceVas 1 1 1 a ++ sourceVas 1 1 1 b) → sourceTag u (opWho s core o) a = .ok ta →
        sourceTag u (opWho s core o) b = .ok tb → pairRate ta tb = some rate → (∀ r sc, a = .ring r sc → ta ≤ 8) → k % chunkOf tb = 0 →
        sourceRows u (opWho s core o) m k ta a = .ok ra → sourceRows u (opWho s core o) n k tb b = .ok rb →
        (∀ r ∈ ra, rowSound ta k r = true) →
        ∃ o', (t.core core).mq = listSetAt (s.core core).mq i o' ∧ o'.started = some s.cycle ∧ o'.computeAt % 4 = 0 ∧
          s.cycle + 12 ≤ o'.computeAt ∧ o'.computeAt < s.cycle + 16 ∧ o'.rate = rate ∧ o'.fmtA = ta ∧ o'.fmtB = tb ∧ o'.rowsA = ra ∧
          o'.rowsB = rb ∧ o'.kind = o.kind ∧ o'.subs = o.subs ∧ o'.owner = o.owner ∧ o'.put = o.put) ∧
  ∀ (core i : Nat) (opB : Bool) (s : State) (o : MatOp) (r : RingBind) (sc : Option Nat) (k pc off freed : Nat) (data : List Byte),
    slotNext s core opB = some (i, o) → opRing o opB = some (r, sc, k) → opSp s core o r.spa (128 + r.slots * r.bytes) = some (pc, off) →
    freed = spNum s pc (off + 4) 4 → slotFilled (spNum s pc off 4) freed = true →
    data = spBytes s pc (off + 128 + freed % r.slots * r.bytes) r.bytes →
    ∃ t o', exec (.ringSlotConsume core opB) s = .next t ∧ spNum t pc (off + 4) 4 = (freed + 1) % 2 ^ 32 ∧
      (∀ c x, (c ≠ pc ∨ x < off + 4 ∨ off + 8 ≤ x) → spByte t c x = spByte s c x) ∧
      (t.core core).mq = listSetAt (s.core core).mq i o' ∧
      { o' with computeAt := o.computeAt } = (if opB then { o with slotsB := o.slotsB ++ [data] } else { o with slotsA := o.slotsA ++ [data] }) ∧
      (firstPresent o = true → o'.computeAt = o.computeAt) ∧
      (firstPresent o = false → o.computeAt ≤ o'.computeAt ∧ s.cycle ≤ o'.computeAt ∧ o'.computeAt ≤ max o.computeAt (s.cycle + 3))) ∧
  (∀ (core sub i m n k : Nat) (a b : MatSource) (sat : Bool) (s : State) (o : MatOp) (x : SubOp), sub < 16 →
    subDue s core sub = some (i, o, x) → (o.subs.map (·.sub)).Nodup → o.kind = .mma m n k a b sat →
    ∃ t, exec (.matrixOpComplete core sub 0) s = .next t ∧ OtherBlocks s t core (· = x.block) ∧ (∀ adr, t.byte adr = s.byte adr) ∧
      (∀ r j, r < 64 → j < 64 →
        let ra := opRow s (opWho s core o).tenant o false k (64 * (x.pos / (n / 64)) + r)
        let rb := opRow s (opWho s core o).tenant o true k (64 * (x.pos % (n / 64)) + j)
        accWord t core x.block r j = accGo o.fmtB sat ra.chunks rb.chunks ra.scales rb.scales (accWord s core x.block r j) % 2 ^ 32) ∧
      ((∃ y ∈ o.subs, y.sub ≠ sub ∧ y.done = false) → ∃ o', (t.core core).mq = listSetAt (s.core core).mq i o' ∧
        (∀ y ∈ o'.subs, y.sub = sub → y.done = true) ∧ { o' with subs := [] } = { o with subs := [] }) ∧
      ((∀ y ∈ o.subs, y.sub ≠ sub → y.done = true) → o.put = none → (t.core core).mq = withoutOp (s.core core).mq i) ∧
      ((∀ y ∈ o.subs, y.sub ≠ sub → y.done = true) → o.put ≠ none → ∃ o', (t.core core).mq = listSetAt (s.core core).mq i o' ∧
        o'.completed = true ∧ o'.put = o.put ∧ o'.computeAt = s.cycle)) ∧
  (∀ (core sub upsets i m n k : Nat) (a b : MatSource) (sat : Bool) (s : State) (o : MatOp) (x : SubOp) (g : Group), sub < 16 →
    upsets ≠ 0 → subDue s core sub = some (i, o, x) → o.kind = .mma m n k a b sat → opStream s core o = some g →
    ∃ t, exec (.matrixOpComplete core sub upsets) s = .next t ∧
      (x.attempt = 0 → (t.core core).acc = (s.core core).acc ∧ (t.core core).mq = listSetAt (s.core core).mq i
          { o with subs := listUpd (fun y => y.sub == x.sub) (fun y => { y with progress := 0, writeAt := none, attempt := 1 }) o.subs } ∧
        (t.group? core Config.streamSlot).map (fun h => h.mxstatus.toNat) =
          some (min 255 (g.mxstatus.toNat / 2 ^ 24 + 1) * 2 ^ 24 + g.mxstatus.toNat % 2 ^ 24)) ∧
      (x.attempt ≠ 0 → OtherBlocks s t core (· = x.block) ∧ (t.core core).suspect = true ∧
        (t.group? core Config.streamSlot).map (fun h => (h.mxstatus, h.witnessFault)) = some (g.mxstatus ||| 0x400#32, true))) ∧
  (∀ (core sub u i b n : Nat) (s : State) (o : MatOp), 16 ≤ sub → plainDue s core = some (i, o) → o.kind = .zero b n → o.put = none →
    ∃ t, exec (.matrixOpComplete core sub u) s = .next t ∧ OtherBlocks s t core (fun x => b ≤ x ∧ x < b + n) ∧
      (∀ x, b * 4096 ≤ x → x < (b + n) * 4096 → tabGet 0#32 (t.core core).acc x = 0) ∧ (t.core core).mq = withoutOp (s.core core).mq i) ∧
  (∀ (core sub u i spa pitch b : Nat) (ty : Ty) (clear : Bool) (s : State) (o : MatOp) (at_ : Nat → Nat × Nat), 16 ≤ sub →
    plainDue s core = some (i, o) → o.kind = .drain ty spa pitch b clear → o.put = none →
    (∀ r, r < 64 → opSp s core o (spa + r * pitch) 1 = some (at_ r)) →
    (∀ r q, r < 64 → q < 64 → r ≠ q → (at_ r).1 ≠ (at_ q).1 ∨ (at_ r).2 + 64 * (if ty = .bf16x2 then 2 else 4) ≤ (at_ q).2
      ∨ (at_ q).2 + 64 * (if ty = .bf16x2 then 2 else 4) ≤ (at_ r).2) →
    ∃ t, exec (.matrixOpComplete core sub u) s = .next t ∧
      (∀ r j, r < 64 → j < 64 → spBytes t (at_ r).1 ((at_ r).2 + j * (if ty = .bf16x2 then 2 else 4)) (if ty = .bf16x2 then 2 else 4) =
        drainWord ty (accWord s core b r j)) ∧
      (∀ c x, (∀ r, r < 64 → c ≠ (at_ r).1 ∨ x < (at_ r).2 ∨ (at_ r).2 + 64 * (if ty = .bf16x2 then 2 else 4) ≤ x) →
        spByte t c x = spByte s c x) ∧
      OtherBlocks s t core (fun x => clear = true ∧ x = b) ∧ (clear = true → ∀ r j, r < 64 → j < 64 → accWord t core b r j = 0)) ∧
  ∀ (core i m : Nat) (v : DWord) (s : State), putDue s core = some (i, m, v) →
    ∃ t, exec (.mmasPut core) s = .next t ∧ OtherBoxes s t core m ∧ (t.core core).mq = withoutOp (s.core core).mq i ∧
      t.mailbox core m = { s.mailbox core m with value := v, state := .full }

/-- R269, R272, R318: at a step boundary of a die at most six sub-arrays rise and at most six fall, by 4 AU each; only one that
computes below 16 AU rises, only one that does not compute falls. Each part that computes gains its rate times a
quarter of its activity, as far as its lines have been read and its data and scales are present; scales are read as chunks begin.
Nothing outside the die's cores, L2 and the windows that wait for released pins changes. -/
def Obligations.SteadyRest : Prop :=
  ∀ (die b : Nat) (s : State), restDue s die s.cycle = some b → (s.cores.map (·.1)).Nodup →
    (∀ c o, dieOf c = die → o ∈ (s.core c).mq → scalesFit s c o) →
    ∃ t, exec (.steadyRestStep die) s = .next t ∧ tabGet 0 t.restNext die = b + 4 ∧ restView t = restView s ∧ t.regs = s.regs ∧
      (∀ x, (t.context x).calm = (s.context x).calm) ∧ (s.closing = [] → t.fmtwin = s.fmtwin ∧ t.closing = []) ∧
      (∀ c, dieOf c ≠ die → t.core c = s.core c) ∧
      (∃ up down : List (Nat × Nat), up.length ≤ 6 ∧ down.length ≤ 6 ∧
        (∀ x ∈ up, dieOf x.1 = die ∧ x.2 < 16 ∧ subComputes (s.core x.1) x.2 b = true ∧ auOf s x.1 x.2 < 16) ∧
        (∀ x ∈ down, dieOf x.1 = die ∧ x.2 < 16 ∧ subComputes (s.core x.1) x.2 b = false ∧ 0 < auOf s x.1 x.2) ∧
        ∀ c k, auOf t c k = if (c, k) ∈ up then auOf s c k + 4 else if (c, k) ∈ down then auOf s c k - 4 else auOf s c k) ∧
      ∀ c (i : Nat) o, dieOf c = die → (s.core c).mq[i]? = some o → ∃ o' : MatOp, (t.core c).mq[i]? = some o' ∧
        o'.plan = o.plan ∧ (∃ a b, o'.scaleA = o.scaleA ++ a ∧ o'.scaleB = o.scaleB ++ b) ∧ o'.subs.length = o.subs.length ∧
        ∀ (j : Nat) x, o.subs[j]? = some x → ∃ x' : SubOp, o'.subs[j]? = some x' ∧ (computes o x b = false → x' = x) ∧
          ∀ m n k sa sb sat, computes o x b = true → o.kind = .mma m n k sa sb sat →
            x'.sub = x.sub ∧ x'.block = x.block ∧ x'.done = x.done ∧
            x'.progress = min (x.progress + o.rate * auOf t c x.sub / 4)
              (min (max x.progress o'.readK)
                (min (min (presentK k sa o.slotsA) (presentK k sb o.slotsB)) (min (scaledK o' false k) (scaledK o' true k)))) ∧
            x'.writeAt = if k ≤ x'.progress then some (b + 12) else none

/-- R274, R307, R365: COPY_COMPLETE of a copy within this module, linear, strided, gathered or of a shard, whose destination does
not meet its source, with no byte that another copy of its batch has written or is still to write: each destination byte
holds its source's, a shard's first 64 bytes are its header, every other byte stays, and the copy leaves the engine and its
batch. -/
def Obligations.CopiesComplete : Prop :=
  ∀ (core slot pos : Nat) (s : State) (c : Copy) (l : Launch) (idx pd ps : Nat → Nat),
    (runnableCopies s core slot)[pos]? = some c → s.launch? c.launch = some l → c.rivals = [] → Indexed s (l.who core) c idx →
    (∀ d a, CopyPair c.shape idx d a → LiesAt s (l.who core) c.dst d permW (pd d) ∧ LiesAt s (l.who core) c.src a permR (ps a)) →
    (∀ d a e b, CopyPair c.shape idx d a → CopyPair c.shape idx e b → (pd d = pd e → ps a = ps b) ∧ ps a ≠ pd e) →
    (∀ m ∈ batchMoves s core c (l.who core), ∀ q, placePa m.1 = some q → ∀ d a, CopyPair c.shape idx d a → q ≠ ps a) →
    (∀ job step sh ns n, c.shape = .shard job step sh ns n →
      (∀ i, i < 64 → LiesAt s (l.who core) c.dst i permW (pd i)) ∧ ∀ i j, i < 64 + n → j < 64 + n → pd i = pd j → i = j) →
    ∃ t, exec (.copyComplete core slot pos) s = .next t ∧ (∀ d a, CopyPair c.shape idx d a → t.byte (pd d) = s.byte (ps a)) ∧
      (∀ job step sh ns n, c.shape = .shard job step sh ns n → ∀ i, i < 64 →
        t.byte (pd i) = (shardHeader job step sh ns n ((List.range n).map fun x => s.byte (ps x))).getD i 0) ∧
      (∀ x, (∀ d a, CopyPair c.shape idx d a → x ≠ pd d) → (∀ job step sh ns n, c.shape = .shard job step sh ns n → ∀ i, i < 64 → x ≠ pd i) →
        t.byte x = s.byte x) ∧
      (t.core core).copies.map (·.id) = ((s.core core).copies.filter fun x => x.id != c.id).map (·.id) ∧
      ∀ g, s.group? core c.slot = some g → g.launch = c.launch → g.groupId = c.group → ∃ h, t.group? core c.slot = some h ∧
        h.openCopies = natRemove c.id g.openCopies ∧ h.failed = g.failed ∧ h.v = g.v ∧ h.splits = g.splits

/-! ### The front end -/

/-- R286 to R289, R299: WAIT completes where its test holds, or has held at a write of its word since it came to the head, and
BURNWAIT where its submission has ended, with no L1 line of the queue's context left; until then WAIT only watches its word,
and a write that reaches the word tests it. SIGNAL writes or adds to its word after every earlier packet, and raises
its interrupt; PRED skips the packets it names where its test holds; FFENCE discards what was fetched after it; fetch goes
into the level of an IB or LOOP, which executes at the head: a buffer whose address has changed by then is fetched again. That SIGNAL
waits for copies and matrix operations too is the model's reading (log 41). So are the two steps of an IB or LOOP, where Table
13.3 executes it as fetch enters its buffer or body (log 40), and that a WAIT and a BURNWAIT leave no L1 line of the context on
any core, which is more than their acquire asks (log 10). -/
def Obligations.ControlPackets : Prop :=
  (∀ (qi w : Nat) (s : State) (q : Queue) (p : Packet) (c : Cap) (at_ : Place), HeadIs s qi q p 3 →
    capEntry s q (bits p.bytes 63 48) = .ok c → frontWord s q c (bits p.bytes 127 64) permR = .ok at_ →
    w = loadAt s at_ 8 →
    let seen := ∃ x, watchOf s qi p = some x ∧ x.hit = true
    ∃ t, exec (.waitPacket qi) s = .next t ∧
      (¬TestHolds p.bytes w → ¬seen → { t.calm with watches := [], free := 0, contexts := [] } = { s.calm with watches := [], free := 0, contexts := [] } ∧
        t.regs = s.regs ∧ (∀ x, (t.context x).calm = (s.context x).calm) ∧ ∀ va tn pa, at_ = .mem va tn pa → ∃ x ∈ t.watches, x.queue = qi ∧ x.packet = p.id ∧ x.pa = pa) ∧
      (TestHolds p.bytes w ∨ seen → PacketGone t qi p.id ∧ L1Without t q.context ∧ OtherQueues s t qi ∧ ∀ a, t.byte a = s.byte a)) ∧
  (∀ (s : State) (w : Who) (pa : Nat) (bs : List Byte) (x : Watch), x ∈ s.watches → bs ≠ [] →
    (pa < x.pa + 8 → x.pa < pa + bs.length → TestHolds x.bytes ((physWrite s w pa bs).num x.pa 8) →
      { x with hit := true } ∈ (physWrite s w pa bs).watches) ∧
    (x.pa + 8 ≤ pa ∨ pa + bs.length ≤ x.pa ∨ ¬TestHolds x.bytes ((physWrite s w pa bs).num x.pa 8) → x ∈ (physWrite s w pa bs).watches)) ∧
  (∀ (qi va pa : Nat) (tn : BitVec 12) (s : State) (q : Queue) (p : Packet) (c : Cap), HeadIs s qi q p 4 → earlierDone q p = true →
    queueBusy s qi = false → capEntry s q (bits p.bytes 63 48) = .ok c →
    frontWord s q c (bits p.bytes 127 64) (if bits p.bytes 47 44 = 1 then permW + permA else permW) = .ok (.mem va tn pa) →
    ∃ t, exec (.signalPacket qi) s = .next t ∧ PacketGone t qi p.id ∧ OtherQueues s t qi ∧
      t.num pa 8 = (if bits p.bytes 47 44 = 1 then s.num pa 8 + bits p.bytes 255 192 else bits p.bytes 255 192) % 2 ^ 64 ∧
      (∀ a, a < pa ∨ pa + 8 ≤ a → t.byte a = s.byte a) ∧ t.irqs = s.irqs + bits p.bytes 42 42) ∧
  (∀ (qi w : Nat) (s : State) (q : Queue) (p : Packet), HeadIs s qi q p 6 → packetWord s q p = .ok w →
    ∃ t x, exec (.predPacket qi) s = .next t ∧ PacketGone t qi p.id ∧ t.queue? qi = some x ∧ OtherQueues s t qi ∧
      (¬TestHolds p.bytes w → x.skips = q.skips ∧ x.frames = q.frames) ∧
      (TestHolds p.bytes w →
        let skip := (p.path.dropLast, p.path.getLastD 0 + 1, p.path.getLastD 0 + bits p.bytes 43 36)
        x.skips = skip :: q.skips ∧ ∀ y ∈ x.packets, y.executed = false → skipped [skip] y.path = false)) ∧
  (∀ (qi : Nat) (s : State) (q : Queue) (p : Packet), HeadIs s qi q p 8 →
    ∃ t x, exec (.ffencePacket qi) s = .next t ∧ PacketGone t qi p.id ∧ t.queue? qi = some x ∧ OtherQueues s t qi ∧ x.frames = p.resume ∧
      ∀ y ∈ x.packets, ∃ z ∈ q.packets.takeWhile fun z => z.id != p.id, z.id = y.id) ∧
  (∀ (qi : Nat) (s : State) (q : Queue) (p : Packet), HeadIs s qi q p 9 →
    ∃ t, exec (.burnwaitPacket qi) s = .next t ∧
      (p.graph ∉ q.opened → PacketGone t qi p.id ∧ L1Without t q.context ∧ OtherQueues s t qi) ∧
      (p.graph ∈ q.opened → graphItems s qi p.graph ≠ 0 → t = s)) ∧
  (∀ (qi off n : Nat) (s : State) (q : Queue) (p : Packet) (f g : Frame) (rest : List Frame) (c : Cap), off = bits p.bytes 127 64 →
    n = bits p.bytes 159 128 → capEntry s q (bits p.bytes 63 48) = .ok c → f.ibDepth < 3 → c.has permR = true → off + 32 * n ≤ c.len →
    c.device ≠ 0xFFFFF#20 → g = ⟨some (c.base.toNat + off), (if c.device = s.regs.deviceId then none else some c.device.toNat), n, 0, 0, none, 0, 0, f.pass, false, p.path, p.id, p.ring, f.ibDepth + 1, f.loops⟩ →
    (LevelIs s qi q p 5 f rest → ∃ t x, exec (.ibPacket qi) s = .next t ∧ t.queue? qi = some x ∧ OtherQueues s t qi ∧
      (∀ y ∈ x.packets, y.id = p.id → y.executed = false ∧ y.entered = some (c.base.toNat + off)) ∧
      x.frames = if n = 0 then f.pass1 :: rest else g :: f.pass1 :: rest) ∧
    (HeadIs s qi q p 5 → p.fetchedAt = f :: rest → ∀ a, p.entered = some a →
      ∃ t x, exec (.ibPacket qi) s = .next t ∧ t.queue? qi = some x ∧ OtherQueues s t qi ∧ (∀ y ∈ x.packets, y.id = p.id → y.executed = true) ∧
        (a = c.base.toNat + off → x.frames = q.frames) ∧
        (a ≠ c.base.toNat + off → x.frames = (if n = 0 then f.pass1 :: rest else g :: f.pass1 :: rest) ∧
          ∀ y ∈ x.packets, y.id = p.id ∨ ∃ z ∈ q.packets.takeWhile fun z => z.id != p.id, z.id = y.id))) ∧
  ∀ (qi n : Nat) (s : State) (q : Queue) (p : Packet) (f g : Frame) (rest : List Frame), n = bits p.bytes 47 32 → f.loops < 2 →
    (f.base = none ∨ ∃ va, f.base = some va ∧ bodyFits s q f.far va f.count f.count f.next (bits p.bytes 63 48) = .ok ()) →
    g = ⟨f.base, f.far, f.count, f.next, 0, some (bits p.bytes 63 48), f.next, n - 1, 0, f.dead || n == 0, f.path ++ [f.ordinal, 0], p.id, p.ring,
      f.ibDepth, f.loops + 1⟩ →
    (LevelIs s qi q p 7 f rest → ∃ t x, exec (.loopPacket qi) s = .next t ∧ t.queue? qi = some x ∧ OtherQueues s t qi ∧
      (∀ y ∈ x.packets, y.id = p.id → y.executed = false ∧ y.entered = some 0) ∧ x.frames = g :: { f with ordinal := f.ordinal + 1 } :: rest) ∧
    (HeadIs s qi q p 7 → p.fetchedAt = f :: rest → p.entered = some 0 →
      ∃ t x, exec (.loopPacket qi) s = .next t ∧ t.queue? qi = some x ∧ OtherQueues s t qi ∧ (∀ y ∈ x.packets, y.id = p.id → y.executed = true) ∧
        x.frames = q.frames)

/-- R281, R283 to R286, R291, R295, Table 13.5: PACKET_FETCH begins to read the next packet, and then lists it, each 8-byte part as it
was at the one time or the other; LAUNCH becomes a
launch as its descriptor says, with nothing placed; NODE declares its node and completes; TASK enters the dependence
window, held, with the tasks that it must follow; NODE_TIMER_EXPIRY launches the gathered batch. The steps of fetch
are the model's (log 40), and so is the die in whose window a task is held (log 76). -/
def Obligations.WorkPackets : Prop :=
  (∀ (qi v : Nat) (at_ : Option Nat × Nat) (s : State) (q : Queue) (f : Frame) (rest : List Frame), s.queue? qi = some q → frontRuns s q = true →
    fetchHeld s q = false → (q.packets.filter fun p => !p.executed).length < 16 → popFrames (q.frames.length + 1) q.frames = f :: rest →
    fetchAt q f = some at_ → packetAt s q at_ = .ok v →
    (∀ va pa, at_ = (none, va) → frontXlat s (s.queueTenant q) va permR = .ok pa → v = s.num pa 32) ∧
    ((∀ old, q.peek ≠ some (at_, old)) → ∃ t, exec (.packetFetch qi) s = .next t ∧ OtherQueues s t qi ∧
      t.queue? qi = some { q with frames := f :: rest, peek := some (at_, v) } ∧ { t with queues := [] } = { s with queues := [] }) ∧
    ∀ old, q.peek = some (at_, old) → f.dead = false → skipped q.skips (f.path ++ [f.ordinal]) = false →
      (∀ u ∈ [old, v], graphsFull s q (bits u 23 16) = false ∧ statusWaits s qi (bits u 23 16) = false) → (∀ y ∈ q.packets, y.id < q.nextPacket) →
      ∃ t x y, exec (.packetFetch qi) s = .next t ∧ t.queue? qi = some x ∧ OtherQueues s t qi ∧ x.nextPacket = q.nextPacket + 1 ∧ x.peek = none ∧
        y ∈ x.packets ∧ y.id = q.nextPacket ∧ y.executed = false ∧ y.completed = false ∧ y.path = f.path ++ [f.ordinal] ∧ y.bytes < 2 ^ 256 ∧
        (∀ i, i < 4 → ∃ u ∈ [old, v], bits y.bytes (64 * i + 63) (64 * i) = bits u (64 * i + 63) (64 * i)) ∧
        x.frames = if bits y.bytes 31 28 = 5 ∨ bits y.bytes 31 28 = 7 then f :: rest else f.pass1 :: rest) ∧
  (∀ (qi d : Nat) (s : State) (q : Queue) (p : Packet) (c : Cap) (l : Launch), HeadIs s qi q p 0 →
    (∀ e ∈ s.launches, e.2.queue = qi → e.2.packet ≠ some p.id) → capEntry s q (bits p.bytes 63 48) = .ok c →
    frontRead s q c (bits p.bytes 127 64) 64 = .ok d →
    mkLaunch s qi q d (bits p.bytes 223 192) (bits p.bytes 255 224) p.graph (packetPassK p) (some p.id) = .ok l →
    ∃ t, exec (.launchPacket qi) s = .next t ∧ t.launch? s.nextLaunch = some { l with ring := p.ring } ∧ t.nextLaunch = s.nextLaunch + 1 ∧ Describes d l ∧
      NotStarted l ∧ l.gx = bits p.bytes 223 192 ∧ l.gy = bits p.bytes 255 224 ∧ l.packet = some p.id ∧ l.queue = qi ∧ l.cls = q.cls ∧
      l.tenant = (s.part q.part).tenant ∧ l.context = q.context ∧
      (∀ n, n ≠ s.nextLaunch → t.launch? n = s.launch? n) ∧ t.regs = s.regs ∧ (∀ x, (t.context x).calm = (s.context x).calm) ∧
      { t.calm with launches := [], nextLaunch := 0, free := 0, contexts := [] } = { s.calm with launches := [], nextLaunch := 0, free := 0, contexts := [] }) ∧
  (∀ (qi d id : Nat) (s : State) (q : Queue) (p : Packet) (buf c : Cap) (l : Launch), HeadIs s qi q p 1 → id = bits p.bytes 43 32 →
    (∀ n, tabFind q.nodes id = some n → n.filling = 0) → capEntry s q (bits p.bytes 159 144) = .ok buf →
    capEntry s q (bits p.bytes 143 128) = .ok c → frontRead s q c (bits p.bytes 127 64) 64 = .ok d →
    mkLaunch s qi q d 1 1 p.graph none none = .ok l → l.team = 1 → l.cw = 1 → l.ch = 1 → buf.has (permR + permW) = true →
    bits p.bytes 223 160 + 512 * (bits p.bytes 57 54 + 1) * bits p.bytes 255 224 ≤ buf.len →
    ∃ t x n, exec (.nodePacket qi) s = .next t ∧ PacketGone t qi p.id ∧ t.queue? qi = some x ∧ tabFind x.nodes id = some n ∧
      n.bslots = bits p.bytes 255 224 ∧ n.boff = bits p.bytes 223 160 ∧ n.buf = buf ∧ n.template = { l with ring := p.ring } ∧ n.timer = bits p.bytes 63 58 ∧
      n.rsize = bits p.bytes 57 54 ∧ n.filling = 0 ∧ n.busy = [] ∧ ∀ k, k ≠ id → tabFind x.nodes k = tabFind q.nodes k) ∧
  (∀ (qi d h die : Nat) (at_ : Place) (s : State) (q : Queue) (p : Packet) (c wc : Cap) (l : Launch) (rs : List TaskRegion),
    HeadIs s qi q p 2 → windowDie s q.part = some die → capEntry s q (bits p.bytes 63 48) = .ok c → frontRead s q c (bits p.bytes 127 64) 256 = .ok d →
    h = d / 2 ^ 512 % 2 ^ 128 → bits h 41 32 = 0 → 1 ≤ bits h 47 44 → bits h 47 44 ≤ 7 → bits h 43 42 ≠ 3 → bits h 127 64 % 8 = 0 →
    mkLaunch s qi q (d % 2 ^ 512) (bits h 31 16) (bits h 15 0) p.graph (packetPassK p) none = .ok l →
    taskRegions s q d (List.range (bits h 47 44)) = .ok rs → capEntry s q (bits h 63 48) = .ok wc →
    frontWord s q wc (bits h 127 64) (permR + permW) = .ok at_ → (rawOn s qi rs).length ≤ 8 →
    ∃ t k, exec (.taskPacket qi) s = .next t ∧ t.task? s.nextTask = some k ∧ t.nextTask = s.nextTask + 1 ∧ k.queue = qi ∧ k.packet = p.id ∧
      k.die = die ∧ k.phase = .held ∧ k.regions = rs ∧ (∀ va tn pa, at_ = .mem va tn pa → k.wordPa = pa) ∧ (∀ dev va, at_ = .far dev va → k.wordPa = farKey dev va) ∧ k.refire = bits h 43 42 ∧ k.inputs = rawOn s qi rs ∧ k.after_ = writesAfter s qi rs ∧
      k.launch = none ∧ k.stale = false ∧ (∀ n, n ≠ s.nextTask → t.task? n = s.task? n) ∧
      ∃ x, t.queue? qi = some x ∧ ∀ y ∈ x.packets, y.id = p.id → y.executed = true) ∧
  ∀ (qi id : Nat) (s : State) (q : Queue) (n : Node), s.queue? qi = some q → tabFind q.nodes id = some n → n.filling ≠ 0 →
    s.after n.since (n.timer + 1) ≤ s.cycle →
    ∃ t x l, exec (.nodeTimerExpiry qi id) s = .next t ∧ t.queue? qi = some x ∧
      tabFind x.nodes id = some { n with filling := 0, busy := natInsert n.slot n.busy } ∧ t.launch? s.nextLaunch = some l ∧
      l.node = some id ∧ l.nodeSlot = n.slot ∧ l.records = n.filling ∧ l.entry = n.template.entry ∧
      ∃ r, l.caps.head? = some r ∧ r.base = n.buf.base + BitVec.ofNat 57 (n.boff + 512 * (n.rsize + 1) * n.slot) ∧
        (n.filling * (16 * (n.rsize + 1)) < 2 ^ 18 → r.len = n.filling * (16 * (n.rsize + 1))) ∧ r.pr = true ∧ r.pw = false

/-- R131 to R135, R284, R290, R340, Table 1.2: GROUP_PLACE puts the groups of the next cluster of the launch that R290
serves on sites that meet the rules, each with its identity and the state of a launch; the groups that must give way
are evicted first. LAUNCH_COMPLETE of a launch whose groups have all ended completes its packet and frees its batch
slot. A group whose placement evicts can issue within the 96 cycles of Table 15.3; that it does so no earlier than two cycles
after the decision is the model's choice (log 42). -/
def Obligations.Placements : Prop :=
  (∀ (li : Nat) (places : List GroupSite) (s : State) (l : Launch) (d : List (Nat × Nat)) (newRound : Bool) (x0 : GroupSite) (sp st : Split),
    s.launch? li = some l → Settled s l → places.head? = some x0 → servedQueue s (dieOf x0.core) l.cls = some (l.queue, newRound) →
    (l.cls = true → servedQueue s (dieOf x0.core) false = none) → evictionFor s l (dieOf x0.core) = some d → placing s l = true →
    sitesShape s l d (nextIds l) places = true → sitesOkGo s l d [] places = true →
    launchSplit s l false (placeReady s d) = .ok sp → launchSplit s l true (placeReady s d) = .ok st →
    (d = [] → sp.readyAt = s.cycle) ∧ (d ≠ [] → s.cycle + 2 ≤ sp.readyAt ∧ sp.readyAt ≤ s.cycle + 96) ∧
    ∃ t, exec (.groupPlace li places) s = .next t ∧
      (∀ (j : Nat) id x, (nextIds l)[j]? = some id → places[j]? = some x → ∃ g, t.group? x.core x.slot = some g ∧ g.launch = li ∧
        g.groupId = id ∧ g.cluster = idCluster l id ∧ g.team = idTeam l id ∧ g.member = id % l.team ∧ g.context = l.context ∧
        g.quad = x.quad ∧ g.banks = x.banks ∧ g.granules = x.grains ∧ g.vregs = l.vregs ∧ g.splits = [(0, sp)] ∧ g.v = [] ∧ g.p = [] ∧
        g.t = [] ∧ g.g = [] ∧ g.exited = 0 ∧ g.stack = []) ∧
      (t.launch? li).map (·.placed) = some (l.placed + (nextIds l).length) ∧
      ∀ e ∈ d, ∃ g, t.group? e.1 e.2 = some g ∧ g.evicted = true ∧ g.banks = [] ∧ g.region = none) ∧
  ∀ (li : Nat) (s : State) (l : Launch), s.launch? li = some l → l.done = false → l.task = none → launchOver s li l = true →
    ∃ t, exec (.launchComplete li) s = .next t ∧ (t.launch? li).map (·.done) = some true ∧
      (∀ p, l.packet = some p → s.queue? l.queue ≠ none → PacketGone t l.queue p) ∧
      ∀ id q n, l.node = some id → s.queue? l.queue = some q → tabFind q.nodes id = some n → n.gen = l.nodeGen →
        ∃ x, t.queue? l.queue = some x ∧ tabFind x.nodes id = some { n with busy := natRemove l.nodeSlot n.busy }

/-- R234 to R236, R295, R296: TASK_DISPATCH launches a held task whose inputs are ready and whose dependences are over,
with the present versions of its inputs; TASK_RELAUNCH launches a stale one again once nothing of the
stopped instance is left to be performed, and only then does REFIRE_PENDING fall; TASK_COMPLETE ends it, cancelled where an
input of a restart or follow task is, and cancels its word where nothing was published; TASK_CANCEL follows the cancellation of
an input under the task's policy. That TASK_DISPATCH leaves no L1 line of the context on any core is more than its acquire asks,
and the model's choice (log 10). -/
def Obligations.Tasks : Prop :=
  (∀ (ti : Nat) (s : State) (k : TaskRec), s.task? ti = some k → k.phase = .held → k.dropped = false →
    (∀ i ∈ k.inputs, cutState (wordNum s i.2.1) ≠ cutCancelled ∧ (1 ≤ cutVersion (wordNum s i.2.1) ∨ cutState (wordNum s i.2.1) ≠ cutOpen)) →
    (∀ e ∈ k.after_, dependenceOver s e = true) → (s.context k.context).stopped = false →
    ∃ t, exec (.taskDispatch ti) s = .next t ∧ t.launch? s.nextLaunch = some k.template ∧ L1Without t k.context ∧ (∀ a, t.byte a = s.byte a) ∧
      (∀ n, n ≠ ti → t.task? n = s.task? n) ∧
      t.task? ti = some { k with phase := .dispatched, launch := some s.nextLaunch, stale := false, countedOn := none,
                                 inputs := k.inputs.map fun i => (i.1, i.2.1, cutVersion (wordNum s i.2.1)) }) ∧
  (∀ (ti : Nat) (s : State) (k : TaskRec), s.task? ti = some k → k.stale = true → (k.phase = .dispatched ∨ k.phase = .stopping) →
    instanceOver s k = true → (∀ i ∈ k.inputs, cutState (wordNum s i.2.1) ≠ cutCancelled) → k.dropped = false →
    (s.context k.context).stopped = false →
    (∀ li, k.launch = some li → (∀ e ∈ s.cores, ∀ x ∈ e.2.copies, x.launch ≠ li) ∧
      ((∀ l, s.launch? li = some l → launchOver s li l = true) → ∀ e ∈ s.cores, ∀ o ∈ e.2.mq, o.owner.1 ≠ li) ∧ (∀ e ∈ s.groups, e.2.launch = li → e.2.committed = []) ∧
      ∀ e ∈ s.contexts, ∀ v, e.2.saved = some v → ∀ g ∈ v.groups, g.2.launch ≠ li) →
    ∃ t x, exec (.taskRelaunch ti) s = .next t ∧ t.task? ti = some x ∧ x.phase = .dispatched ∧ x.launch = some s.nextLaunch ∧ x.stale = false ∧
      x.countedOn = none ∧ t.launch? s.nextLaunch = some k.template ∧
      ∀ pa, k.countedOn = some pa → frameLost s (s.frontWho k.queue).tenant pa = false → graphsOfWord s pa = [] → (∀ li, k.launch = some li → ∀ e ∈ s.groups, e.2.launch ≠ li) →
        cutVersion (t.num pa 8) = cutVersion (s.num pa 8) ∧ cutState (t.num pa 8) = cutState (s.num pa 8) ∧
        cutRefire (t.num pa 8) = cutRefire (s.num pa 8) - 1) ∧
  (∀ (ti li : Nat) (s : State) (k : TaskRec) (l : Launch), s.task? ti = some k → k.phase = .dispatched → k.launch = some li →
    s.launch? li = some l → l.done = false → launchOver s li l = true → s.queue? k.queue ≠ none →
    ∃ t, exec (.taskComplete ti) s = .next t ∧
      (k.dropped = true ∨ k.refire ≠ 0 ∧ (∃ i ∈ k.inputs, cutState (wordNum s i.2.1) = cutCancelled) →
        (t.task? ti).map (·.phase) = some .cancelled ∧ PacketGone t k.queue k.packet) ∧
      (k.dropped = false → k.stale = false → (k.refire = 0 ∨ ∀ i ∈ k.inputs, cutState (wordNum s i.2.1) ≠ cutCancelled) →
        (t.task? ti).map (·.phase) = some .done ∧ PacketGone t k.queue k.packet ∧
      (k.graph = 0 → graphsOfWord s k.wordPa = [] → k.wordPa < 2 ^ 64 → frameLost s (s.frontWho k.queue).tenant k.wordPa = false → cutState (s.num k.wordPa 8) = cutOpen → cutVersion (s.num k.wordPa 8) = 0 →
        cutState (t.num k.wordPa 8) = cutCancelled))) ∧
  ∀ (ti : Nat) (s : State) (k : TaskRec) (i : Nat × Nat × Nat), s.task? ti = some k → i ∈ k.inputs →
    cutState (wordNum s i.2.1) = cutCancelled → s.queue? k.queue ≠ none →
    ∃ t, exec (.taskCancel ti) s = .next t ∧
      (k.phase = .held ∨ k.phase = .stopping ∨ k.phase = .dispatched ∧ k.refire = 1 →
        (t.task? ti).map (·.phase) = some .cancelled ∧ PacketGone t k.queue k.packet) ∧
      (k.phase = .dispatched → k.refire = 2 → t.task? ti = some { k with dropped := true } ∧ ∀ n, n ≠ ti → t.task? n = s.task? n) ∧
      (k.phase = .dispatched → k.refire = 0 → t = s)

/-- R279, R280, R331 to R333: a write of WPTR is stored, and one that would overrun a running queue halts it with a
record; QUEUE_ENABLE starts a valid descriptor at its read pointer, and reports an invalid one; QUEUE_RESET discards
what has not executed and disables the queue once nothing of it runs; RING_ENABLE enables a ring whose capability
covers it; RING_RIDX_WRITE stores no index past the writer's. Where RPTR stays at a halt is the model's reading (log
32), and that a queue runs its partition's context, which enabling it makes runnable, is the model's choice (log 47). -/
def Obligations.QueueRegisters : Prop :=
  (∀ (qi : Nat) (v : BitVec 32) (s : State) (q : Queue), s.queue? qi = some q →
    ∃ t, exec (.queueWptrWrite qi v) s = .next t ∧ OtherQueues s t qi ∧
      (q.qstate ≠ 1 ∨ (v - q.wptr).toNat ≤ 2 ^ q.log2n - (q.wptr - q.rptr).toNat → t.queue? qi = some { q with wptr := v }) ∧
      (q.qstate = 1 → 2 ^ q.log2n - (q.wptr - q.rptr).toNat < (v - q.wptr).toNat → frontPortFull s qi = false →
        (t.queue? qi).map (fun x => (x.qstate, x.wptr)) = some (2, v) ∧
        PortGets s t fIllegalOp 1 fun r => r.queue = qi ∧ r.info = 2 ^ 62 + v.toNat)) ∧
  (∀ (qi : Nat) (w : Writer) (s : State) (q : Queue), s.queue? qi = some q → q.qstate = 0 →
    ∃ t, exec (.queueEnable qi w) s = .next t ∧ OtherQueues s t qi ∧
      (descriptorValid s q w = true → ∃ x, t.queue? qi = some x ∧ x.qstate = 1 ∧ x.frames = [ringFrame q.rptr.toNat] ∧ x.packets = [] ∧
        x.skips = [] ∧ x.opened = [] ∧ x.wptr = q.wptr ∧ x.rptr = q.rptr ∧ x.context = (s.part q.part).context ∧
        (t.context x.context).enabled = true) ∧
      (descriptorValid s q w = false → frontPortFull s qi = false → (t.queue? qi).map (·.qstate) = some 2 ∧
        PortGets s t fIllegalOperand 1 fun r => r.queue = qi)) ∧
  (∀ (qi : Nat) (s : State) (q : Queue), s.queue? qi = some q →
    ∃ t x, exec (.queueReset qi) s = .next t ∧ OtherQueues s t qi ∧ t.queue? qi = some x ∧ (∀ y ∈ x.packets, y.executed = true) ∧ x.frames = [] ∧
      ((∀ y ∈ q.packets, y.executed = false) → openLaunches s qi = [] → x.qstate = 0 ∧ x.rptr = q.wptr ∧ x.wptr = q.wptr) ∧
      (openLaunches t qi ≠ [] → x.qstate = 3)) ∧
  (∀ (ring : RingId) (s : State) (c : Cap), ringCap s.regs (ringIndex ring) = some c →
    ∃ t, exec (.ringEnable ring) s = .next t ∧
      (c.pw = true → ringOff s.regs (ringIndex ring) + 32 * 2 ^ ringLog2 s.regs (ringIndex ring) ≤ c.len →
        ringOn t.regs (ringIndex ring) = true ∧ ringLog2 t.regs (ringIndex ring) = ringLog2 s.regs (ringIndex ring) ∧
        { t with regs := s.regs } = s) ∧
      (c.pw = false ∨ c.len < ringOff s.regs (ringIndex ring) + 32 * 2 ^ ringLog2 s.regs (ringIndex ring) → t = s)) ∧
  ∀ (ring : RingId) (v : BitVec 32) (s : State) (c : RingCount), c = ringCount s (ringIndex ring) →
    ∃ t, exec (.ringRidxWrite ring v) s = .next t ∧ { t with rings := [] } = { s with rings := [] } ∧
      ringCount t (ringIndex ring) = { c with ridx := if (v - c.ridx).toNat ≤ (c.widx - c.ridx).toNat then v else c.widx } ∧
      ∀ k, k ≠ ringIndex ring → ringCount t k = ringCount s k

/-- R331, R332, R335, Table 15.2: FAULT_RECORD_WRITE writes the record that is served to its ring at WIDX, which rises by
one, and the record leaves the port, which writes again four cycles later. REPLAY lets the lanes parked at the named
address under a code of the resolver's execute again, once their record has left the port, and every other split and copy stays;
REPLAY_TERMINATE makes the parked fault a terminal one of the same code, recorded at the address that the park's record
carried. -/
def Obligations.FaultReports : Prop :=
  (∀ (die cls ring off pa : Nat) (fresh : Bool) (r : Record) (cap : Cap) (s : State), tabGet 0 s.turns (portKey die) ≤ s.cycle →
    servedClass s die = some (cls, fresh) → classNext s die cls = some (ring, r) → ringPlace s ring = some (cap, off) →
    cap.device = s.regs.deviceId → frontXlat s cap.tenant (cap.base.toNat + off) permW = .ok pa → endingSplits s = [] → endingCopies s = [] →
    ∃ t, exec (.faultRecordWrite die) s = .next t ∧ ringCount t ring = { ringCount s ring with widx := (ringCount s ring).widx + 1 } ∧
      (∀ a, t.byte a = ByteMap.write s.byte pa
        (leBytes (recordBits r ((ringCount s ring).widx.toNat.testBit (ringLog2 s.regs ring))) 32) a) ∧
      t.port = dropFirst (ring, r) s.port ∧ tabGet 0 t.turns (portKey die) = s.cycle + 4) ∧
  (∀ (who : ReplayPair) (ctx : BitVec 12) (s : State),
    ∃ t, exec (.replay who ctx) s = .next t ∧ (∀ a, t.byte a = s.byte a) ∧ t.port = s.port ∧
      (∀ ag g sp, ag.slot < 65 → s.group? ag.core ag.slot = some g → s.split? ag = some sp → ∃ x, t.split? ag = some x ∧ x.pc = sp.pc ∧
        (x.parked = sp.parked.filter fun k => !namesPark s who ctx ag.core ag.slot g ag.split k) ∧
        (x.parked = sp.parked → { x with parkedSince := 0 } = { sp with parkedSince := 0 })) ∧
      ∀ core c, c ∈ (s.core core).copies → ∃ x ∈ (t.core core).copies, x.id = c.id ∧
        x.parked = if namesCopy s who ctx core c then none else c.parked) ∧
  ∀ (who : ReplayPair) (ctx : BitVec 12) (s : State) (ag : Agent) (g : Group) (sp : Split) (k : Park) (l : Launch),
    (s.groups.map (·.1)).Nodup → (g.splits.map (·.1)).Nodup → ag.slot < 65 → endingSplits s = [] → endingCopies s = [] →
    (∀ e ∈ s.groups, ∀ x ∈ e.2.splits, ∀ y ∈ x.2.parked,
      namesPark s who ctx (e.1 / 65) (e.1 % 65) e.2 x.1 y = true → e.1 = groupKey ag.core ag.slot ∧ x.1 = ag.split) →
    (∀ e ∈ s.cores, ∀ c ∈ e.2.copies, namesCopy s who ctx e.1 c = false) → s.group? ag.core ag.slot = some g → s.split? ag = some sp →
    sp.parked = [k] → namesPark s who ctx ag.core ag.slot g ag.split k = true → s.launch? g.launch = some l →
    portFull s (dieOf ag.core) (faultClass s ag g 1) = false →
    ∃ t, exec (.replayTerminate who ctx) s = .next t ∧
      (sp.tvec ≠ 0 → sp.inHandler = false → g.stream = false → t.At ag fun _ x => x.inHandler = true ∧ x.trapCode = BitVec.ofNat 8 k.code ∧
        x.trapPc = sp.pc ∧ x.trapMask = k.lanes ∧ x.trapInfo = BitVec.ofNat 64 k.info ∧ x.parked = []) ∧
      (sp.tvec = 0 ∨ sp.inHandler = true ∨ g.stream = true → t.group? ag.core ag.slot = none ∧
        (t.launch? g.launch).map (fun x => (x.failed, x.done)) = some (some k.code, true) ∧
        PortGets s t k.code 1 fun r => r.lmask = k.lanes ∧ r.pc = k.pc)

/-! ### Contexts, pages and errors -/

/-- R344, R345, R362: at a quantum's end a context stops; once none of its operations is outstanding, or 15 µs later,
nothing of it is left on the cores or in the fetch windows of its queues, and groups of other contexts stay. Copies
still outstanding are then replay entries. A restored context has its groups again, with EV at 1, and issues once its
replay entries have run. What becomes of results and engines at the switch, and the numbers of contexts, are the
model's choice (logs 46 and 47). -/
def Obligations.ContextSwitches : Prop :=
  (∀ (ctx : BitVec 12) (s : State), (s.context ctx).phase = .running → (s.context ctx).enabled = true →
    s.after (s.context ctx).since (vdQuantum s.regs (s.context ctx).vdev) ≤ s.cycle → (s.groups.map (·.1)).Nodup →
    (∀ e ∈ s.groups, e.2.context = ctx → e.2.committed = []) →
    ∃ t, exec (.quantumEnd ctx) s = .next t ∧
      (∀ core slot g, s.group? core slot = some g → g.context ≠ ctx → t.group? core slot = some g) ∧
      (outstanding s ctx = true → (t.context ctx).phase = .quiescing s.cycle) ∧
      (outstanding s ctx = false → (t.context ctx).phase = .out ∧ (∀ e ∈ t.groups, e.2.context ≠ ctx) ∧
        (∀ e ∈ t.queues, e.2.context = ctx → ∀ p ∈ e.2.packets, p.executed = true) ∧
        ∃ v, (t.context ctx).saved = some v ∧ v.groups.map (·.1) = (contextGroups s ctx).map (·.1))) ∧
  (∀ (ctx : BitVec 12) (s : State) (t0 : Nat), (s.context ctx).phase = .quiescing t0 → s.after t0 15 ≤ s.cycle →
    ∃ t, exec (.quiescenceTimeout ctx) s = .next t ∧ (t.context ctx).phase = .out ∧ (∀ e ∈ t.groups, e.2.context ≠ ctx) ∧
      (t.context ctx).saved ≠ none ∧
      ∀ e ∈ s.cores, ∀ c ∈ e.2.copies, c.parked = none → launchOf s c.launch ctx = true → (e.1, c.id) ∈ (t.context ctx).replay) ∧
  ∀ (ctx : BitVec 12) (s : State) (v : Saved) (r : Bool), (s.context ctx).phase = .out → (s.context ctx).saved = some v →
    nextQuantum s ctx = some r → (∀ e ∈ v.groups, tabFind s.groups e.1 = none) → (v.groups.map (·.1)).Nodup →
    endingSplits s = [] → endingCopies s = [] → (∀ e ∈ v.groups, ∀ x ∈ e.2.splits, x.2.ending = false) →
    (∀ e ∈ v.cores, ∀ c ∈ e.2.copies, c.ending = false) →
    ∃ t, exec (.contextRestore ctx) s = .next t ∧ (t.context ctx).saved = none ∧
      (t.context ctx).phase = (if replaysLeft t ctx then .restoring else .running) ∧
      ∀ e ∈ v.groups, ∃ g, tabFind t.groups e.1 = some g ∧ g.v = e.2.v ∧ g.p = e.2.p ∧ g.launch = e.2.launch ∧ g.stack = e.2.stack ∧
        g.lastIssue = s.before s.cycle e.2.lastIssue ∧ g.splits.map (fun x => (x.1, x.2.pc, x.2.mask)) = e.2.splits.map (fun x => (x.1, x.2.pc, x.2.mask)) ∧
        ∀ x ∈ g.splits, x.2.ev = true

/-- R199, R201, R211, R213, R238: PAGE_MIGRATION makes the entries of a page's extent migrating, and leaves no TLB
entry of it; MIGRATION_COMPLETE, with no line of it pinned, moves its bytes, and its entries are valid at the
destination; a second-tier controller that powers down is marked, and one that resumes replays what waits for it and has been reported. Where a
graph is open, the status bits that waited for the page are then written too. When the bytes move and which entries return are the model's choice (log 48). -/
def Obligations.Migrations : Prop :=
  (∀ (tenant : BitVec 12) (page dest f n : Nat) (e : BitVec 128) (s : State), migrationOf s tenant page = none →
    validPte s.regs tenant page = some (f, e) → n = pteExtent e → destOk s (f - page % 2 ^ n) n dest = true →
    ∃ t, exec (.pageMigration tenant page dest) s = .next t ∧
      (∀ j, j < 2 ^ n → pteState (pteAt t.regs (f - page % 2 ^ n + j)) = 2) ∧
      (∀ x, x < f - page % 2 ^ n ∨ f - page % 2 ^ n + 2 ^ n ≤ x → pteAt t.regs x = pteAt s.regs x) ∧
      (∀ core j, j < 2 ^ n → ∀ x ∈ (t.core core).tlb, tlbCovers x tenant (page - page % 2 ^ n + j) = false) ∧
      t.migrations = s.migrations ++ [⟨tenant, page - page % 2 ^ n, f - page % 2 ^ n, n, some dest⟩]) ∧
  (∀ (tenant : BitVec 12) (page d : Nat) (s : State) (m : Migration), migrationOf s tenant page = some m → m.dst = some d →
    pinnedIn s m.src m.extent = false → Memory.wf s.mem = true → (∀ e ∈ s.mem, e.1 < 2 ^ 48) → (∀ e ∈ s.groups, e.2.committed = []) →
    (m.src + 2 ^ m.extent ≤ d ∨ d + 2 ^ m.extent ≤ m.src) → d + 2 ^ m.extent ≤ 2 ^ 32 →
    ∃ t, exec (.migrationComplete tenant page) s = .next t ∧ t.migrations = s.migrations.filter (fun x => x != m) ∧
      ((∀ e ∈ s.queues, e.2.opened = []) →
        (∀ a, a < 2 ^ m.extent * 2 ^ 16 → t.byte (d * 2 ^ 16 + a) = s.byte (m.src * 2 ^ 16 + a)) ∧
        ∀ a, a < d * 2 ^ 16 ∨ (d + 2 ^ m.extent) * 2 ^ 16 ≤ a → t.byte a = s.byte a) ∧
      ∀ j, j < 2 ^ m.extent → pteState (pteAt t.regs (d + j)) = 1 ∧ pteVpn (pteAt t.regs (d + j)) = pteVpn (pteAt s.regs (m.src + j)) ∧
        pteTenant (pteAt t.regs (d + j)) = pteTenant (pteAt s.regs (m.src + j)) ∧ pteState (pteAt t.regs (m.src + j)) = 0) ∧
  (∀ (c : Nat) (s : State), c < 8 → ∃ t, exec (.secondTierPowerDown c) s = .next t ∧ { t with regs := s.regs } = s ∧
    ∀ j, j < 8 → t.regs.tierDown.getLsbD j = (decide (j = c) || s.regs.tierDown.getLsbD j)) ∧
  ∀ (c : Nat) (s : State), c < 8 → ∃ t, exec (.secondTierResume c) s = .next t ∧
    ((∀ e ∈ s.queues, e.2.opened = []) → ∀ a, t.byte a = s.byte a) ∧
    (∀ j, j < 8 → t.regs.tierDown.getLsbD j = (decide (j ≠ c) && s.regs.tierDown.getLsbD j)) ∧
    ∀ ag g sp, ag.slot < 65 → s.group? ag.core ag.slot = some g → s.split? ag = some sp → ∃ x, t.split? ag = some x ∧
      x.parked = sp.parked.filter fun k => !(tierServes t (s.whoOf ag.core g) k && parkOpen s ag.core ag.slot g ag.split k)

/-- R346 to R348: an uncorrectable error in a clean line drops the line; in a dirty one it ends the launches of its
context, quarantines its way and retires its frame, with a record; one in memory strikes the next instruction of an
agent; one in a core's storage ends the launch that owns it. A unit that reaches its threshold of corrected errors
within its window writes a notice to each context concerned. The moment at which an error strikes is the model's
choice (log 49), and so is the set of the quarantined way (log 11): the spec gives no set function, and the example after R347
(slice 37, set 100) fits no map, since R207's own hash puts its address in slice 207. -/
def Obligations.ErrorContainment : Prop :=
  (∀ (die slice line : Nat) (s : State) (l : L2Line), tabFind s.l2 line = some l → l.slice = die * 256 + slice →
    ∃ t, exec (.l2EccUncorr die slice line) s = .next t ∧
      (l.lst ≠ 2 → tabFind t.l2 line = none ∧ { t with l2 := [] } = { s with l2 := [] }) ∧
      (l.lst = 2 → reportRoom s (s.context l.owner).part die 1 = true →
        (l.slice * 512 + l2Set line) * 16 + l.way ∈ t.quarantined ∧ pteState (pteAt t.regs (line / 512)) = 3 ∧
        (∀ n x, s.launch? n = some x → x.context = l.owner → (t.launch? n).map (·.done) = some true) ∧
        PortGets s t fEccUncorr 1 fun r => r.context = l.owner ∧ r.info = line * 128)) ∧
  (∀ (ag : Agent) (lane adr : Nat) (s : State), s.split? ag ≠ none → s.turn = none → isHbm adr = true ∨ isSecondTier adr = true →
    homeDie s.regs adr ≠ none →
    exec (.memoryEccUncorr ag lane adr) s = .next { s with ecc := some ⟨lane, adr, false⟩, turn := some ag }) ∧
  (∀ (core slot : Nat) (kind : StorageKind) (s : State),
    ∃ t, exec (.storageEccUncorr core slot kind) s = .next t ∧
      (s.group? core slot = none → kind ∈ (t.core core).removed ∧ t.launches = s.launches ∧ t.port = s.port) ∧
      ∀ g l, s.group? core slot = some g → s.launch? g.launch = some l → reportRoom s (s.whoOf core g).part (dieOf core) 1 = true →
        kind ∈ (t.core core).removed ∧ t.group? core slot = none ∧
        (t.launch? g.launch).map (fun x => (x.failed, x.done)) = some (some fEccUncorr, true) ∧
        PortGets s t fEccUncorr 1 fun r => r.queue = l.queue) ∧
  ∀ (u : WarnUnit) (s : State) (n start last count : Nat) (quiet : Prop), tabGet (0, 0, 0) s.corrected (warnKey u) = (n, start, last) →
    count = (if n = 0 ∨ s.after start (warnMicros s.regs u) ≤ s.cycle then 1 else n + 1) →
    (quiet ↔ last ≠ 0 ∧ s.cycle < s.after (last - 1) (warnMicros s.regs u)) →
    ∃ t, exec (.failureWarning u) s = .next t ∧
      (count < warnLimit s.regs u ∨ quiet → t.port = s.port ∧ (tabGet (0, 0, 0) t.corrected (warnKey u)).1 = count) ∧
      (warnLimit s.regs u ≤ count → ¬quiet → (∀ c ∈ warned s u, reportRoom s c.2.2 (warnDie u) 2 = true) →
        t.port.length = s.port.length + (warned s u).length ∧
        (tabGet (0, 0, 0) t.corrected (warnKey u)).2.2 = s.cycle + 1 ∧
        ∀ c ∈ warned s u, ∃ e ∈ t.port, e.2.context = c.1 ∧ e.2.kind = 2 ∧ e.2.code = 1)

/-! ### Registers of the host and firmware, links and the module -/

/-- R134, R199, R201, R207 to R209, R302, R333, R349, R375, R376, R387, R390, Tables 6.5, 9.4, 9.6, 9.8, 15.6, 15.7, 17.3:
what writes of the registers leave in them, by firmware or through a host register window: a change of the L2's mode writes
its lines back; a window is enabled only in a listed form and without an overlap, and OVL tells otherwise; disabling one
leaves of its lines the pinned ones alone, and while one is left the window stays enabled; a retired frame stays retired;
a core moves to its new partition once it holds no work; QUANTUM, WAYS, WEIGHT and the limits of the tables
are kept. No write of a register that is not the page table's changes memory, a tag or a launch, nor a group, where it does not
tell what a peer answers. Software finds every feature of a chain from offset 0x1000. What values out of
range do, that a write to an offset without a register is ignored, what a peer answers and the order of the chain are the
model's choice (logs 50, 71, 85 and 87). -/
def Obligations.RegisterWrites : Prop :=
  (∀ (reg : HostReg) (v : Nat) (s : State), ∃ t, exec (.registerWrite (.firmware reg) v) s = .next t ∧
    ((∀ f, reg ≠ .pte f) → (∀ die n, reg ≠ .anchor die n) → (∀ a, t.byte a = s.byte a) ∧ t.tags = s.tags ∧
      t.launches = s.launches ∧ ((∀ d p, reg ≠ .peerAnswer d p) → t.groups = s.groups)) ∧
    (∀ f, reg = .pte f → tableFrame s.regs f = true → bits v 127 126 ≠ 3 ∨ sourceOf s f = [] → pteState (pteAt t.regs f) = (if pteState (pteAt s.regs f) = 3 then 3 else bits v 127 126) ∧
      bits (pteAt t.regs f).toNat 125 63 = bits v 125 63 ∧ bits (pteAt t.regs f).toNat 62 32 = 0 ∧ bits (pteAt t.regs f).toNat 31 0 = bits v 31 0) ∧
    (∀ die slice, reg = .sliceCfg die slice → (tabGet 0 s.regs.l2mode die).toNat % 2 = 0 →
      (tabGet 12#32 t.regs.slicecfg (die * 256 + slice)).toNat = bits v 11 8 * 2 ^ 8 + min 16 (max 4 (bits v 4 0))) ∧
    (∀ ch, reg = .regCfg ch → tabGet 90 t.regs.regcfg ch = min 120 (v % 128)) ∧
    (∀ n, reg = .allowCfg n → tabGet 75 t.regs.allowcfg n = min 100 (v % 128)) ∧
    (∀ die core quad, reg = .rfBudget die core quad → ∀ b, (tabGet rfBudgetReset t.regs.rfbudget ((die * 145 + core) * 4 + quad)).getLsbD b =
      (if b < 16 then v.testBit b else if b < 32 then v.testBit b && v.testBit (b - 16)
        else if b < 40 then v.testBit b else if b < 48 then v.testBit b && v.testBit (b - 8) else false)) ∧
    (∀ die, reg = .farb die → ∀ i, i < 3 → portWeight t.regs die i = max 1 (bits v (4 * i + 3) (4 * i))) ∧
    (reg = .powerCap → t.regs.powerCap = if 2000 ≤ v ∧ v ≤ 7800 then v else s.regs.powerCap) ∧
    (∀ p, reg = .wdLimit p → (t.part p).wdlimit = v) ∧
    (∀ ring, reg = .rcfg ring → ringOn s.regs (ringIndex ring) = false → v.testBit 63 = false →
      ringLog2 t.regs (ringIndex ring) = min 16 (max 6 (bits v 4 0))) ∧
    (∀ q x, reg = .queueField q .log2n → s.queue? q = some x → t.queue? q = some (if x.qstate = 0 then { x with log2n := v % 32 } else x)) ∧
    ∀ core, reg = .coreOwner core →
      (coreHeld s core = true → tabGet 0 t.coreOwner core = tabGet 0 s.coreOwner core ∧ tabFind t.moves core = some (v % 16)) ∧
      (coreHeld s core = false → tabGet 0 t.coreOwner core = v % 16 ∧ tabFind t.moves core = none)) ∧
  (∀ (v : Nat) (s : State),
    let window (fn : Writer) (fid off : Nat) := exec (.registerWrite (.window fn fid off) v) s
    let reg (r : HostReg) := exec (.registerWrite (.firmware r) v) s
    (∀ die core quad, die < 2 → core < 144 → quad < 4 →
      window .physical 4 (0x1100 + 8 * (576 * die + 4 * core + quad)) = reg (.rfBudget die core quad)) ∧
    (∀ die slice, die < 2 → slice < 256 → window .physical 4 (0x100 + 8 * (256 * die + slice)) = reg (.sliceCfg die slice)) ∧
    (∀ die, die < 2 → window .physical 4 (0x10 + 8 * die) = exec (.l2ModeChange die (v.testBit 0)) s ∧
      window .physical 3 (0x100 * die + 0x40) = reg (.rloc (.retry die)) ∧ window .physical 3 (0x100 * die + 0x48) = reg (.rcfg (.retry die)) ∧
      window .physical 3 (0x100 * die + 0x58) = exec (.ringRidxWrite (.retry die) (BitVec.ofNat 32 v)) s ∧
      window .physical 3 (0x100 * die + 0x60) = reg (.rloc (.term die)) ∧ window .physical 3 (0x100 * die + 0x68) = reg (.rcfg (.term die)) ∧
      window .physical 3 (0x100 * die + 0x78) = exec (.ringRidxWrite (.term die) (BitVec.ofNat 32 v)) s ∧
      window .physical 3 (0x100 * die + 0x80) = reg (.farb die) ∧ window .physical 3 (0x100 * die + 0x88) = reg (.replayPc (.die die)) ∧
      window .physical 3 (0x100 * die + 0x90) =
        exec (if v.testBit 12 then .replayTerminate (.die die) (BitVec.ofNat 12 v) else .replay (.die die) (BitVec.ofNat 12 v)) s) ∧
    ∀ n, window (.virtualFn n) 3 0x40 = reg (.rloc (.vf n)) ∧ window (.virtualFn n) 3 0x48 = reg (.rcfg (.vf n)) ∧
      window (.virtualFn n) 3 0x58 = exec (.ringRidxWrite (.vf n) (BitVec.ofNat 32 v)) s ∧ window (.virtualFn n) 3 0x60 = reg (.replayPc (.vf n)) ∧
      window (.virtualFn n) 3 0x68 =
        exec (if v.testBit 12 then .replayTerminate (.vf n) (BitVec.ofNat 12 v) else .replay (.vf n) (BitVec.ofNat 12 v)) s ∧
      ∀ off, window (.virtualFn n) 4 off = .next s) ∧
  (∀ (die : Nat) (mode : Bool) (s : State), dieQuiet s die = true → (mode = true → ∀ p ∈ diePartitions s die, ownSlices s.regs die p ≠ []) →
    mode ≠ ((tabGet 0 s.regs.l2mode die).toNat % 2 == 1) →
    ∃ t, exec (.l2ModeChange die mode) s = .next t ∧ (tabGet 0 t.regs.l2mode die).toNat % 2 = mode.toNat ∧
      (∀ e ∈ t.l2, e.2.slice / 256 ≠ die) ∧ (∀ a, t.byte a = s.byte a) ∧ t.tags = s.tags) ∧
  (∀ (die n : Nat) (s : State), die < 2 → n < 64 → winEn (winOf s die n) = false →
    ∃ t, exec (.fmtwinEnable die n) s = .next t ∧ { t with fmtwin := s.fmtwin } = s ∧
      (∀ k, k ≠ winKey die n → tabGet 0#128 t.fmtwin k = tabGet 0#128 s.fmtwin k) ∧
      winBase (winOf t die n) = winBase (winOf s die n) ∧ winLimit (winOf t die n) = winLimit (winOf s die n) ∧
      winFmt (winOf t die n) = winFmt (winOf s die n) ∧
      (winEn (winOf t die n) = true ↔ windowForm (winOf s die n) = true ∧
        ∀ e ∈ s.fmtwin, e.1 ≠ winKey die n → winEn e.2 = true → winOverlap (winOf s die n) e.2 = false) ∧
      (winOf t die n).getLsbD 126 = !winEn (winOf t die n)) ∧
  (∀ (die n : Nat) (s : State), n < 64 → winEn (winOf s die n) = true →
    ∃ t, exec (.fmtwinDisable die n) s = .next t ∧ (∀ a, t.byte a = s.byte a) ∧ t.tags = s.tags ∧
      ((∃ e ∈ s.l2, windowLine die (winOf s die n) e = true ∧ e.2.lst = 3) → winOf t die n = winOf s die n ∧ winKey die n ∈ t.closing) ∧
      ((∀ e ∈ s.l2, windowLine die (winOf s die n) e = true → e.2.lst ≠ 3) →
        winEn (winOf t die n) = false ∧ winBase (winOf t die n) = winBase (winOf s die n) ∧ winKey die n ∉ t.closing) ∧
      (∀ e ∈ t.l2, e ∈ s.l2 ∧ (windowLine die (winOf s die n) e = true → e.2.lst = 3)) ∧
      ∀ e ∈ s.l2, (windowLine die (winOf s die n) e = true → e.2.lst = 3) →
        (∀ k ∈ s.closing, windowLine (k / 64) (tabGet 0#128 s.fmtwin k) e = false) → e ∈ t.l2) ∧
  (∀ (s : State) (fn : Writer), (featureWalk (windowWord s fn) some 8 0x1000).map (·.1) =
      (match fn with | .physical => [1, 2, 3, 4, 5, 6, 7] | .virtualFn _ => [1, 2, 3]) ∧
    windowWord s fn 0 = s.regs.stage * 2 ^ 60 + s.regs.err * 2 ^ 52) ∧
  ∀ (v : Nat) (x : BitVec 64) (s : State), ∃ t, exec (.vdcfgWrite v x) s = .next t ∧ (∀ a, t.byte a = s.byte a) ∧
    (bits x.toNat 47 32 = 0 → vdcfgOf t.regs v = Nat.lor (vdcfgOf s.regs v) (2 ^ 62)) ∧
    (bits x.toNat 47 32 ≠ 0 → vdQuantum t.regs v = (if bits x.toNat 47 32 < 40 then 42 else bits x.toNat 47 32) ∧
      vdWeight t.regs v = bits x.toNat 31 24)

/-- R226, R227, R388, R389: with a host on the port, a slot that is the function's next and whose checks pass is taken, with STATUS
1: a write puts its bytes, a read delivers them; a publication raises an open cut word's VERSION and a finish closes it. A cut
word that is not open, or whose version is not passed, stays, with STATUS 6. A slot before its turn is not taken and stays in the
window. The tenant and partition of the physical function are the model's choice (log 54). -/
def Obligations.HostMailbox : Prop :=
  (∀ (fn : Nat) (m : MailSlot) (s : State) (c : Cap) (w : Who) (pas : List Nat), m.rd = false → m.cut = false →
    SlotReady s fn m permW c w pas → pas.Nodup →
    ∃ t, exec (.hostMailboxWrite fn m) s = .next t ∧ SlotDone s t fn 1 ∧
      (∀ (i : Nat) pa, pas[i]? = some pa → t.byte pa = (m.data[i]?).getD 0) ∧ ∀ a, a ∉ pas → t.byte a = s.byte a) ∧
  (∀ (fn : Nat) (m : MailSlot) (s : State) (c : Cap) (w : Who) (pas : List Nat), m.rd = true → m.cut = false →
    SlotReady s fn m permR c w pas →
    ∃ t, exec (.hostMailboxRead fn m) s = .next t ∧ SlotDone s t fn 1 ∧ (∀ a, t.byte a = s.byte a) ∧
      tabFind t.hostSlots (slotKey fn (tabGet 0 s.hostNext fn)) = some { m with data := pas.map s.byte }) ∧
  (∀ (fn pa v : Nat) (m : MailSlot) (s : State) (c : Cap) (w : Who) (pas : List Nat), m.cut = true → publicationForm s fn m = true →
    SlotReady s fn m permW c w (pa :: pas) → v = ofLeBytes (m.data.take 4) →
    ∃ t, exec (.hostPublication fn m) s = .next t ∧
      (cutState (s.num (pa - 4) 8) = cutOpen → cutVersion (s.num (pa - 4) 8) < v → SlotDone s t fn 1 ∧ cutVersion (t.num (pa - 4) 8) = v ∧
        cutState (t.num (pa - 4) 8) = cutOpen ∧ ∀ a, a < pa - 4 ∨ pa - 4 + 8 ≤ a → t.byte a = s.byte a) ∧
      (cutState (s.num (pa - 4) 8) ≠ cutOpen ∨ v ≤ cutVersion (s.num (pa - 4) 8) → SlotDone s t fn 6 ∧ ∀ a, t.byte a = s.byte a)) ∧
  (∀ (fn : Nat) (m : MailSlot) (s : State), m.cut = false → fn < 17 → s.regs.pcie = true →
    m.seq.toNat ≠ tabGet 0 s.hostNext fn % 2 ^ 16 →
    let kept (t : State) : Prop := tabFind t.hostSlots (slotKey fn m.seq.toNat) = some m ∧ tabGet 0 t.hostNext fn = tabGet 0 s.hostNext fn ∧
      ∀ a, t.byte a = s.byte a
    (m.rd = false → ∃ t, exec (.hostMailboxWrite fn m) s = .next t ∧ kept t) ∧ (m.rd = true → ∃ t, exec (.hostMailboxRead fn m) s = .next t ∧ kept t)) ∧
  ∀ (fn pa : Nat) (m : MailSlot) (s : State) (c : Cap) (w : Who) (pas : List Nat), m.cut = true → finishForm s fn m = true →
    SlotReady s fn m permW c w (pa :: pas) → graphsOfWord s (pa - 3) = [] →
    ∃ t, exec (.hostFinish fn m) s = .next t ∧
      (cutState (s.num (pa - 3) 8) = cutOpen → SlotDone s t fn 1 ∧ cutState (t.num (pa - 3) 8) = cutFinished ∧
        cutVersion (t.num (pa - 3) 8) = cutVersion (s.num (pa - 3) 8) ∧ ∀ a, a < pa - 3 ∨ pa - 3 + 8 ≤ a → t.byte a = s.byte a) ∧
      (cutState (s.num (pa - 3) 8) ≠ cutOpen → SlotDone s t fn 6 ∧ ∀ a, t.byte a = s.byte a)

/-- R369, R371 to R373, R380, R386: while a port is up, a request of an older incarnation is answered with PEER_LOST and has no
other effect; one whose bytes may be reached here, a load, a store, an atomic or a cut-word operation, is performed and answered
with 0 and its data; a write to a page that has moved goes on to its new device, and the writer is redirected there. With no port
up, none comes in. The loss of a peer is remembered, and each write to it that was not acknowledged is reported. A Torwen port
trains only once a device id has been written; a device that returns 500 µs after its last port went down has a higher
incarnation. The partition of a request, ids out of range, what a link agrees on, and which writes had been acknowledged are the
model's choice (logs 52, 53, 85 and 87). -/
def Obligations.Fabric : Prop :=
  (∀ (q : RemoteReq) (s : State), s.regs.torwen ≠ 0 → q.incarnation.toNat < s.regs.incarnation.toNat →
    ∃ t, exec (.remoteRequest q) s = .next t ∧ t.replies = s.replies ++ [⟨q.device, q.addr, fPeerLost, [], none⟩] ∧
      { t with replies := [] } = { s with replies := [] }) ∧
  (∀ (q : RemoteReq) (s : State), s.regs.torwen = 0 → exec (.remoteRequest q) s = .next s) ∧
  (∀ (q : RemoteReq) (x : Stub) (s : State), s.regs.torwen ≠ 0 → s.regs.incarnation.toNat ≤ q.incarnation.toNat →
    stubOf s q.tenant q.addr = some x → remoteMask q.kind ≠ permR →
    ∃ t n, exec (.remoteRequest q) s = .next t ∧ t.outbox = s.outbox ++ [⟨x.dest.toNat, q.addr, q.kind, n⟩] ∧
      t.replies = s.replies ++ [⟨q.device, q.addr, 0, [], some x.dest⟩] ∧
      { t with outbox := [], replies := [] } = { s with outbox := [], replies := [] }) ∧
  (∀ (q : RemoteReq) (s : State) (part : Nat) (w : Who) (pas : List Nat), RequestLocal s q part w pas → pas.Nodup →
    ∃ t, exec (.remoteRequest q) s = .next t ∧
      (∀ n, q.kind = .load n → t.replies = s.replies ++ [⟨q.device, q.addr, 0, pas.map s.byte, none⟩] ∧ ∀ a, t.byte a = s.byte a) ∧
      (∀ bs, q.kind = .store bs → t.replies = s.replies ++ [⟨q.device, q.addr, 0, [], none⟩] ∧
        (∀ (i : Nat) pa, pas[i]? = some pa → bs[i]? = some (t.byte pa)) ∧ ∀ a, a ∉ pas → t.byte a = s.byte a) ∧
      (∀ op ty x pa n, q.kind = .atomic op ty x → pas[0]? = some pa → n = atomSize ty →
        t.replies = s.replies ++ [⟨q.device, q.addr, 0, leBytes (s.num pa n) n, none⟩] ∧
        t.num pa n = atomNew 0 op.toNat ty (s.num pa n) x.toNat 0 % 2 ^ (8 * n) ∧ ∀ a, a < pa ∨ pa + n ≤ a → t.byte a = s.byte a) ∧
      (∀ ty x new pa n, q.kind = .cas ty x new → pas[0]? = some pa → n = atomSize ty →
        t.replies = s.replies ++ [⟨q.device, q.addr, 0, leBytes (s.num pa n) n, none⟩] ∧
        t.num pa n = (if s.num pa n = x.toNat then new.toNat else s.num pa n) % 2 ^ (8 * n) ∧ ∀ a, a < pa ∨ pa + n ≤ a → t.byte a = s.byte a) ∧
      (∀ pa, q.kind = .cut 0 → pas[0]? = some pa → t.replies = s.replies ++ [⟨q.device, q.addr, 0, leBytes 0 4, none⟩] ∧ ∀ a, t.byte a = s.byte a) ∧
      ∀ (kind : BitVec 2) pa, kind ≠ 0 → q.kind = .cut kind → pas[0]? = some pa → graphsOfWord s pa = [] →
        let x := cutAfter kind.toNat (cutVersion (s.num pa 8)) (cutState (s.num pa 8))
        t.replies = s.replies ++ [⟨q.device, q.addr, 0, leBytes x.2.2 4, none⟩] ∧ cutVersion (t.num pa 8) = x.1 ∧ cutState (t.num pa 8) = x.2.1 ∧
        ∀ a, a < pa ∨ pa + 8 ≤ a → t.byte a = s.byte a) ∧
  (∀ (device : BitVec 20) (s : State), ∃ t, exec (.peerLost device) s = .next t ∧
    (tabGet Peer.init t.regs.peers device.toNat).lost = true ∧ (∀ a, t.byte a = s.byte a) ∧
    (s.port.length + sumNat (s.contexts.map fun e => e.2.unacked.length) < 64 → ∀ ctx core va, (core, device.toNat, va) ∈ (s.context ctx).unacked →
      (core, device.toNat, va) ∉ (t.context ctx).unacked ∧
      ((∃ x ∈ t.port, x.2.kind = 2 ∧ x.2.code = 2 ∧ x.2.info = va ∧ x.2.context = ctx) ∨ ∃ n, Config.freeBit n (50000 + va) = true))) ∧
  (∀ (port : Nat) (ok : Bool) (s : State), port < 32 →
    ∃ t, exec (.torwenRetrain port ok) s = .next t ∧ { t with regs := s.regs, free := s.free } = s ∧
    (∀ j, j < 32 → t.regs.torwen.getLsbD j = (s.regs.torwen.getLsbD j || (decide (j = port) && ok && s.regs.deviceIdWritten))) ∧
    (ok = false ∨ s.regs.deviceIdWritten = false → t = s) ∧
    (ok = true → s.regs.deviceIdWritten = true → t.regs.downSince = none ∧
      (∃ x, tabFind t.regs.ports port = some x ∧ (x.lanes = 8 ∨ x.lanes = 4 ∨ x.lanes = 2)) ∧
      (∀ t0, s.regs.downSince = some t0 → s.after t0 500 ≤ s.cycle → t.regs.incarnation = s.regs.incarnation + 1) ∧
      ((∀ t0, s.regs.downSince = some t0 → s.cycle < s.after t0 500) → t.regs.incarnation = s.regs.incarnation))) ∧
  (∀ (port : Nat) (s : State), port < 32 → ∃ t, exec (.torwenPortDown port) s = .next t ∧ { t with regs := s.regs } = s ∧
    (∀ j, j < 32 → t.regs.torwen.getLsbD j = (s.regs.torwen.getLsbD j && decide (j ≠ port))) ∧ tabFind t.regs.ports port = none ∧
    (s.regs.torwen ≠ 0 → t.regs.torwen = 0 → t.regs.downSince = some s.cycle)) ∧
  ∀ (x : BitVec 20) (s : State), ∃ t, exec (.deviceIdWrite x) s = .next t ∧ { t with regs := s.regs } = s ∧ t.regs.deviceId = x ∧
    t.regs.deviceIdWritten = (s.regs.deviceIdWritten || decide (x.toNat < 0x80000))

/-- R385, R386, R390, Tables 18.1 to 18.3: after POWER_ON_RESET the machine is as at reset, but for its links and its
incarnation, which is one higher; without input power it is held; a missing, over-long, unsigned or old image leads to
recovery, in which the host port alone is trained and chunks are gathered until RECOVERY_END, and nothing else runs. The clock
moves in steps of 25 MHz; after THERMAL_SHUTDOWN only a power-on reset is executed. That the tests' outcomes are inputs is the
model's choice (log 19), and so are what memory holds afterwards (log 1) and that a clock out of range is not set (log 50). -/
def Obligations.BringUps : Prop :=
  (∀ (run : BringUp) (s : State), ∃ t, exec (.powerOnReset run) s = .next t ∧
    { t with regs := Regs.reset, free := 0, agenda := [] } = State.reset ∧ t.agenda = s.agenda ∧
    t.regs.incarnation = s.regs.incarnation + 1 ∧ t.regs.torwen = 0 ∧
    (run.inputOk = false → t.regs.stage = 1 ∧ t.regs.shutDown = true) ∧
    (run.inputOk = true → t.regs.shutDown = false ∧ t.regs.pcie = run.pcieOk ∧
      (t.regs.stage = 15 → t.regs.die1 = false ∧ t.regs.stackUp = 0 ∧ t.regs.cxl = false) ∧
      (run.flashOk = false → t.regs.stage = 15 ∧ t.regs.err = 1) ∧
      (run.flashOk = true → 64 * 2 ^ 20 < run.imageLen → t.regs.stage = 15 ∧ t.regs.err = 5) ∧
      (run.flashOk = true → run.imageLen ≤ 64 * 2 ^ 20 → run.signatureOk = false → t.regs.stage = 15 ∧ t.regs.err = 2) ∧
      (run.flashOk = true → run.imageLen ≤ 64 * 2 ^ 20 → run.signatureOk = true → run.versionOk = false → t.regs.stage = 15 ∧ t.regs.err = 3) ∧
      (run.flashOk = true → run.imageLen ≤ 64 * 2 ^ 20 → run.signatureOk = true → run.versionOk = true →
        t.regs.stage = 6 ∧ t.regs.err = (if run.leushOk then 0 else 4) ∧ t.regs.die1 = run.leushOk ∧ t.regs.stackUp = run.stacksOk ∧
        t.regs.cxl = run.cxlOk))) ∧
  (∀ (data : List Byte) (s : State), s.regs.stage = 15 → data.length ≤ 2 ^ 20 →
    ∃ t, exec (.recoveryChunk data) s = .next t ∧ { t with regs := s.regs } = s ∧ t.regs.image = s.regs.image ++ data) ∧
  (∀ (run : BringUp) (s : State), s.regs.stage = 15 → ∃ t, exec (.recoveryEnd run) s = .next t ∧ { t with regs := s.regs, free := s.free } = s ∧
    (s.regs.image.length ≤ 64 * 2 ^ 20 → run.signatureOk = true → run.versionOk = true →
      t.regs.stage = 6 ∧ t.regs.die1 = run.leushOk ∧ t.regs.image = s.regs.image) ∧
    (run.signatureOk = false → t.regs.stage = 15 ∧ t.regs.image = [])) ∧
  (∀ (s : State) (i : Instr) (rest : List Instr), s.regs.shutDown = false → s.regs.stage = 15 →
    (s.agenda = [] → step s = .next { s with cycle := s.cycle + 1 }) ∧
    (s.agenda = i :: rest → step s = (match i with
      | .powerOnReset _ | .recoveryChunk _ | .recoveryEnd _ | .clockThrottle _ | .thermalShutdown _ => exec i { s with agenda := rest }
      | _ => .next { s with agenda := rest }))) ∧
  (∀ (mhz : Nat) (s : State), ∃ t, exec (.clockThrottle mhz) s = .next t ∧ { t with regs := s.regs } = s ∧
    t.regs.clockMhz = if mhz % 25 = 0 ∧ 25 ≤ mhz ∧ mhz ≤ 1750 then mhz else s.regs.clockMhz) ∧
  ∀ (notice : Bool) (s : State), ∃ t, exec (.thermalShutdown notice) s = .next t ∧ t.regs.shutDown = true ∧ t.agenda = s.agenda ∧
    (s.agenda = [] → step t = .next { t with cycle := t.cycle + 1 }) ∧
    (∀ run rest, s.agenda = .powerOnReset run :: rest → step t = exec (.powerOnReset run) { t with agenda := rest }) ∧
    (∀ i rest, s.agenda = i :: rest → (∀ run, i ≠ .powerOnReset run) → step t = .next { t with agenda := rest }) ∧
    (notice = false → t.port = s.port)

/-- R377, R378, R380 to R383: a meter snapshot goes to memory and to its partition's chain, whose SEQ rises; each SPDM
request has its response, with the selections of P-384 and SHA-384, and measurement 16 + n is the latest snapshot of partition n;
a restore loads the newest step whose shards are all there, shard i onto device i mod n of those that remain, or nothing, and
reports which; a migrating context's pages, stubs, meters, queues and launches go with it. Signatures and the rest of a response
are open (log 18); the search of a restore, the arriving context, its numbers and the devices of a restore are the model's choice
(logs 55 and 87). -/
def Obligations.Attestation : Prop :=
  (∀ (part dest life seq prev : Nat) (s : State), part < 16 → (s.part part).present = true → homeDie s.regs dest ≠ none →
    chainOf s part = (life, seq, prev) →
    ∃ t bs, exec (.meterSnapshot part dest) s = .next t ∧ bs.length = 256 ∧ tabFind t.snapshots part = some bs ∧
      ofLeBytes (bs.take 8) = seq % 2 ^ 64 ∧ ofLeBytes ((bs.drop 8).take 8) = life % 2 ^ 64 ∧ ofLeBytes ((bs.drop 16).take 8) = s.cycle % 2 ^ 64 ∧
      ofLeBytes ((bs.drop 24).take 8) = part ∧ (∀ a, t.byte a = ByteMap.write s.byte dest bs a) ∧
      tabFind t.chain part = some (life, (seq + 1) % 2 ^ 64, ofLeBytes (sha384 bs))) ∧
  (∀ (s : State), (∃ t, exec .getVersion s = .next t ∧ Responds s t 0x04 []) ∧ (∃ t, exec .getCapabilities s = .next t ∧ Responds s t 0x61 []) ∧
    (∃ t, exec .negotiateAlgorithms s = .next t ∧ Responds s t 0x63 [0x80, 0, 0, 0, 0x02, 0, 0, 0]) ∧ (∃ t, exec .getDigests s = .next t ∧ Responds s t 0x01 []) ∧
    (∃ t, exec .getCertificate s = .next t ∧ Responds s t 0x02 []) ∧ (∃ t, exec .challenge s = .next t ∧ Responds s t 0x03 []) ∧
    ∀ i, ∃ t, exec (.getMeasurements i) s = .next t ∧ (16 ≤ i → i ≤ 31 → Responds s t 0x60 (tabGet [] s.snapshots (i - 16))) ∧
      (i = 1 → Responds s t 0x60 (Config.imageMeasure s.regs.image)) ∧
      (i = 2 → Responds s t 0x60 (Config.configMeasure s.regs.parts s.coreOwner s.regs.access s.regs.vdcfg)) ∧
      (i < 16 → i ≠ 1 → i ≠ 2 → Responds s t 0x7F [])) ∧
  (∀ (q : RestoreReq) (s : State), reportRoom s q.part 0 2 = true → jobDevices s q ≠ [] → ∃ t, exec (.checkpointRestore q) s = .next t ∧
    (restorable s q = none → (∀ a, t.byte a = s.byte a) ∧ t.outbox = s.outbox ∧ PortGets s t 0x04 2 fun r => r.info = q.job.toNat) ∧
    ∀ step l, restorable s q = some (step, l) → l.length ≤ q.dest.length →
      PortGets s t 0x03 2 (fun r => r.info = step) ∧
      (∀ (i pa d : Nat) (dev : BitVec 20), l[i]? = some pa → q.dest[i]? = some d → (jobDevices s q)[i % (jobDevices s q).length]? = some dev →
        dev ≠ s.regs.deviceId → ∃ x ∈ t.outbox, x.device = dev.toNat ∧ x.addr = d ∧
          x.kind = .store (s.bytes (pa + 64) (bits (s.num pa 64) 319 256))) ∧
      ∀ pa d, l = [pa] → q.dest = [d] → (jobDevices s q)[0]? = some s.regs.deviceId →
        ∀ a, t.byte a = ByteMap.write s.byte d (s.bytes (pa + 64) (bits (s.num pa 64) 319 256)) a) ∧
  (∀ (ctx : BitVec 12) (dest : BitVec 20) (s : State), ∃ t, exec (.liveMigration (.copyPages ctx dest)) s = .next t ∧
    t.outbox = s.outbox ++ pagesOut s ctx dest ∧ { t with outbox := [] } = { s with outbox := [] }) ∧
  (∀ (ctx : BitVec 12) (dest : BitVec 20) (at_ : Nat) (pages : List Nat) (s : State), (s.context ctx).phase = .out →
    (s.context ctx).saved ≠ none → ∃ t, exec (.liveMigration (.stop ctx dest at_ pages)) s = .next t ∧ t.outbox = s.outbox ++ pagesOut s ctx dest ∧
      t.regs.stubs = s.regs.stubs ++ pages.map (fun p => ⟨ctx, (s.context ctx).tenant, p, dest⟩) ∧
      (∃ d, t.departed = s.departed ++ [d] ∧ d.dest = dest ∧ d.context.saved = (s.context ctx).saved ∧ d.context.replay = (s.context ctx).replay ∧
        (∀ e, e ∈ d.launches ↔ e ∈ s.launches ∧ e.2.context = ctx) ∧ (∀ e, e ∈ d.queues ↔ e ∈ s.queues ∧ e.2.context = ctx ∧ e.2.qstate ≠ 0)) ∧
      (t.context ctx).saved = none ∧ (t.context ctx).enabled = false ∧ (∀ e ∈ t.launches, e.2.context ≠ ctx) ∧
      ∀ e ∈ t.queues, e.2.context = ctx → e.2.qstate = 0) ∧
  (∀ (ctx : BitVec 12) (s : State), ∃ t, exec (.liveMigration (.confirmed ctx)) s = .next t ∧ { t with regs := s.regs } = s ∧
    t.regs.stubs = s.regs.stubs.filter fun x => x.context != ctx) ∧
  ∀ (ctx : BitVec 12) (part at_ : Nat) (meters : List DWord) (prev : BitVec 384) (life seq : BitVec 64) (s : State),
    ∃ t, exec (.liveMigration (.arrive ctx part meters prev life seq at_)) s = .next t ∧
      (queuesFree s (Config.arriving s.free) = false → t = { s with free := s.free + 1 }) ∧
      (queuesFree s (Config.arriving s.free) = true → (t.context ctx).phase = .out ∧ (t.context ctx).saved ≠ none ∧
        (t.context ctx).part = part ∧ (t.context ctx).tenant = (s.part part).tenant ∧ (t.context ctx).enabled = true ∧
        (∀ n, n < s.nextLaunch → t.launch? n = s.launch? n) ∧ (∀ e ∈ t.launches, s.nextLaunch ≤ e.1 → e ∉ s.launches → e.2.context = ctx) ∧
        (∀ m x, m < 4 → meters[m]? = some x → tabGet 0 t.meters (part * 16 + m) = x) ∧
        (tabFind t.chain part).map (fun x => (x.1, x.2.1)) = some (life.toNat, (seq.toNat + 1) % 2 ^ 64))

/-! ### Issue, encodings, rounding and the whole machine -/

/-- R23, R24: at the start of a run every t register of the split's lanes reads zero, whatever is outstanding, and no fixed-latency result of an
earlier run is still unread. R26, R31: within a run, a register that no result in flight or outstanding concerns reads as
the register file holds it. -/
def Obligations.TemporariesStartAtZero : Prop :=
  ∀ (i : Instr) (s : State) (c : Ctx), issuing i s = some c →
    (c.sp.run = 0 → (∀ sp, s.split? c.ag = some sp → ∀ f ∈ sp.flight, f.ready ≤ c.now) ∧
      ∀ n l, l < 32 → c.sp.mask.getLsbD l = true → c.read (.t n) l = 0) ∧
    ∀ loc l, loc.inLane l = true → (∀ f ∈ c.sp.flight, cellIn f.old loc l = none) → (∀ p ∈ c.sp.pending, cellIn p.cells loc l = none) →
      c.read loc l = s.regAtIssue c.ag loc l

/-- R21: an instruction whose AWAIT mask names a tag with an outstanding result does not issue: the split waits, and no
register, flag, byte or address changes; CLK waits in the same way for every result of its split (R111). A mask whose tags are
all clear holds nothing else up: the checks of R69 follow. -/
def Obligations.AwaitHolds : Prop :=
  ∀ (i : Instr) (w : Fields) (s : State) (ag : Agent) (g : Group) (sp : Split), fieldsOf i = some w → s.turn = some ag →
    s.group? ag.core ag.slot = some g → s.split? ag = some sp → canIssue s ag g sp = true → sp.parked = [] →
    launchStops s g = false → s.ecc = none →
    ((∃ p ∈ sp.pending, ∃ n, p.tag = some n ∧ w.await.getLsbD n = true) →
      ∃ t, exec i s = .next t ∧ (∀ a, t.byte a = s.byte a) ∧ t.tags = s.tags ∧ t.pcOf ag = some sp.pc ∧ t.statusOf ag = some sp.status ∧
        t.pendingOf ag = some sp.pending ∧ t.waitOf ag = some (some (.await w.await)) ∧
        (∀ loc lane, t.reg ag loc lane = s.reg ag loc lane) ∧
        ∀ a, a.slot < 65 → ag.slot < 65 → a ≠ ag → t.split? a = s.split? a) ∧
    ((∀ p ∈ sp.pending, ∀ n, p.tag = some n → w.await.getLsbD n = false) → i = .clk w →
      (sp.pending ≠ [] ∨ ∃ x ∈ sp.flight, issueCycle s ag g sp < x.ready) →
      ∃ t, exec i s = .next t ∧ (∀ a, t.byte a = s.byte a) ∧ t.pcOf ag = some sp.pc ∧ t.statusOf ag = some sp.status ∧
        t.pendingOf ag = some sp.pending ∧ t.waitOf ag = some (some .results) ∧ ∀ loc lane, t.reg ag loc lane = s.reg ag loc lane) ∧
    ((∀ p ∈ sp.pending, ∀ n, p.tag = some n → w.await.getLsbD n = false) → 
      (i = .clk w → sp.pending = [] ∧ ∀ x ∈ sp.flight, x.ready ≤ issueCycle s ag g sp) →
      (∃ c, issuing i s = some c ∧ c.ag = ag) ∨ (∃ c, skipping i s = some c ∧ c.ag = ag) ∨
        ∃ c code, stopsAtIssue i s = some (c, code) ∧ c.ag = ag)

/-- R42, R43, and NX, OF and UF of R45: ROUND of a finite value in each mode and format is its neighbour on the delivery grid that the
mode names, with the value's sign; it raises NX where it differs, and UF where it is tiny and differs; beyond the largest finite
magnitude it is what R43 lists, with OF and NX. A zero keeps its sign, an exact zero sum of opposite signs is −0 in mode rd alone, and an infinity becomes an infinity,
or the largest finite value of a format that saturates. -/
def Obligations.Rounding : Prop :=
  (∀ (f : Fmt) (rm : Nat) (neg : Bool) (m : Nat) (e : Int), rm < 4 → m ≠ 0 →
    RoundsTo f rm false ((if neg then -1 else 1) * (m : ℚ) * pow2 e) (roundVal f rm (.fin neg m e))) ∧
  (∀ (f : Fmt) (rm : Nat) (neg : Bool) (e : Int), roundVal f rm (.fin neg 0 e) = ⟨f.withSign neg 0, 0⟩ ∧
    roundVal f rm (.inf neg) = if f.saturates = true then ⟨f.withSign neg f.largest, exOF + exNX⟩ else ⟨f.withSign neg f.infBits, 0⟩) ∧
  ∀ (f : Fmt) (rm m : Nat) (neg fl : Bool) (e : Int), rm < 4 →
    faddV f rm fl (.fin neg m e) (.fin (!neg) m e) = ⟨f.withSign (rm == 3) 0, 0⟩

/-- R59, R69: the words that the manual encodes in full, as their twelve bytes, decode to the instructions that they stand
for: FFMA with every field used (Table 3.8), LD, LREAD, GDOT.cos, ATOM, MMA, BAR.cluster and CSRR. The FFMA with LS 3, or
with IMM[11] set beside CIMM, and a word of an unassigned opcode are refused. -/
def Obligations.WordsDecode : Prop :=
  decodeBytes [0x07, 0, 0, 0x82, 0xB2, 0x31, 0x80, 0, 0x09, 0x80, 0x40, 0x43] =
    .ok (.ffma ⟨.f32, 0, 8, .v 4, .v 5, .v 6, false, 3, 6, 1, 1, 4, 7⟩, []) ∧
  decodeBytes [0, 0, 0, 0x10, 0x80, 0x0B, 0x40, 0x88, 0x06, 0, 0x02, 0x25] =
    .ok (.ld ⟨.n32, 2, 0, .v 3, .a 2, .v 1, false, 7, 0, 0, 0, 0x20, 0⟩, []) ∧
  decodeBytes [0, 0, 0, 0, 0x80, 0x0B, 0xA8, 0, 0x12, 0x20, 0xE2, 0x60] =
    .ok (.lread ⟨.b32, 2, 2, .v 9, .v 4, .lit 1, false, 7, 0, 0, 0, 0, 0⟩, []) ∧
  decodeBytes [0, 0, 0, 0, 0x80, 0x0B, 0x58, 0x60, 0x12, 0x20, 0x40, 0x72] =
    .ok (.gdotCos ⟨.f32, 0, 2, .v 9, .g 2, .g 1, false, 7, 0, 0, 0, 0, 0⟩, []) ∧
  decodeBytes [0x04, 0, 0, 0, 0x80, 0x0B, 0x40, 0x88, 0x05, 0x80, 0, 0x82] =
    .ok (.atom ⟨.n32, 0, 8, .v 2, .a 3, .v 1, false, 7, 0, 0, 0, 0, 4⟩, []) ∧
  decodeBytes [0, 0, 0, 0, 0x80, 0x1B, 0x62, 0x88, 0x10, 0x02, 0, 0xB1] =
    .ok (.mma ⟨.n32, 0, 0, .k 8, .a 2, .a 3, false, 7, 0, 0, 0, 0, 0⟩, []) ∧
  decodeBytes [0, 0, 0, 0, 0x80, 0x03, 0, 0, 0, 0, 0x01, 0x68] =
    .ok (.bar ⟨.n32, 1, 0, .v 0, .v 0, .v 0, false, 7, 0, 0, 0, 0, 0⟩, []) ∧
  decodeBytes [0x21, 0, 0, 0, 0x80, 0x03, 0, 0, 0x08, 0x02, 0x20, 0xCD] =
    .ok (.csrr ⟨.n64, 0, 0, .k 4, .v 0, .v 0, false, 7, 0, 0, 0, 0, 0x21⟩, []) ∧
  decodeBytes [0x07, 0, 0, 0x82, 0xB3, 0x31, 0x80, 0, 0x09, 0x80, 0x40, 0x43] = .error (.badFields 0x43) ∧
  decodeBytes [0x07, 0x08, 0, 0x82, 0xB2, 0x31, 0x80, 0, 0x09, 0x80, 0x40, 0x43] = .error (.badFields 0x43) ∧
  decodeBytes [0, 0, 0, 0, 0x80, 0x03, 0, 0, 0, 0, 0, 0xFF] = .error (.unassignedOp 0xFF)

/-- R59, R60, R69: encoding and decoding agree. A well-formed instruction decodes from its word, at every value of every
field, and from its twelve bytes at the head of any others; a word has one meaning, and no bit of it is dropped; an
unassigned opcode and fewer than twelve bytes are refused. -/
def Obligations.EncodingsAgree : Prop :=
  (∀ (i : Instr) (w : BitVec 96), WellFormed i = true → encode i = some w →
    decodeWord w = .ok i ∧ ∀ rest, decodeBytes (leBytes w.toNat 12 ++ rest) = .ok (i, rest)) ∧
  (∀ (w : BitVec 96) (i : Instr), decodeWord w = .ok i → encode i = some w ∧ fieldsOf i = some (fieldsOfWord w)) ∧
  (∀ (i : Instr), (encode i = none ↔ fieldsOf i = none)) ∧
  (∀ (w : BitVec 96), rowsOfOp (opOfWord w) = [] → decodeWord w = .error (.unassignedOp (opOfWord w))) ∧
  ∀ (l : List Byte), l.length < 12 → decodeBytes l = .error .tooShort

/-- R34, R19, R69: a step of the agent whose turn it is runs the instruction that stands at its PC. Where the twelve bytes
there may be fetched, the run has not reached its limit and the bytes decode, step is exec of the instruction, after the
fetch has gone through the translation buffer and L2; splits whose wait the instruction ended are then ready from its cycle
(R147). Where the limit is reached or no instruction decodes, the split enters its handler with ILLEGAL_OP. That a step of the
agenda is executed before anything else, and where withFetchWord places an instruction, which is then the one that runs, are the
model's choice (logs 3 and 7). -/
def Obligations.StepRunsDecoded : Prop :=
  (∀ (s : State) (ag : Agent) (g : Group) (sp : Split) (l rest : List Byte) (i : Instr), s.regs.shutDown = false → s.regs.stage ≠ 15 →
    s.agenda = [] → s.turn = some ag → s.group? ag.core ag.slot = some g → s.split? ag = some sp → canIssue s ag g sp = true →
    fetchBytes s ag g sp = .ok l → sp.run < 24 → decodeBytes l = .ok (i, rest) → step s = wokenBy s (exec i (fetched s ag g sp))) ∧
  (∀ (s : State) (ag : Agent) (g : Group) (sp : Split) (l : List Byte), s.regs.shutDown = false → s.regs.stage ≠ 15 → s.agenda = [] →
    s.turn = some ag → s.group? ag.core ag.slot = some g → s.split? ag = some sp → canIssue s ag g sp = true →
    fetchBytes s ag g sp = .ok l → (24 ≤ sp.run ∨ ∃ e, decodeBytes l = .error e) → sp.parked = [] → sp.tvec ≠ 0 → sp.inHandler = false →
    g.stream = false → g.committed = [] → sp.pending = [] →
    ∃ t, step s = .next t ∧ t.At ag fun _ x => x.inHandler = true ∧ x.trapCode = BitVec.ofNat 8 fIllegalOp ∧ x.trapPc = sp.pc ∧
      x.trapMask = sp.confined sp.mask ∧ x.run = 0 ∧ x.pc = sp.a0.cap.base + sp.tvec) ∧
  (∀ (s : State) (i : Instr) (rest : List Instr), s.regs.shutDown = false → s.regs.stage ≠ 15 → s.agenda = i :: rest →
    step s = wokenBy s (exec i { s with agenda := rest })) ∧
  (∀ (s t : State) (ag : Agent) (sp : Split), t.split? ag = some sp →
    ∃ x, (woken s t).split? ag = some x ∧ { x with readyAt := sp.readyAt } = sp ∧ { woken s t with groups := [] } = { t with groups := [] }) ∧
  ∀ (w : BitVec 96) (i : Instr), decodeWord w = .ok i → ∃ u,
    step (State.reset.withFetchWord 96 w.toNat) = wokenBy (State.reset.withFetchWord 96 w.toNat) (exec i u) ∧
    u.turn = (State.reset.withFetchWord 96 w.toNat).turn ∧ u.groups = (State.reset.withFetchWord 96 w.toNat).groups

/-- Reset: the Reset columns of Tables 6.5, 9.4, 9.6, 9.8 to 9.10, 15.7, 16.5, 17.1 to 17.3 and 18.2, no work, and the
invariants that every step keeps. What memory and the registers without a Reset value hold is the model's choice (logs 1
and 2) and is not stated here. -/
def Obligations.ResetState : Prop :=
  (∀ k, tabGet rfBudgetReset State.reset.regs.rfbudget k = 0x000000F00000FF00#64 ∧ pteAt State.reset.regs k = 0xFFFFFFFF#128 ∧
    tabGet 12#32 State.reset.regs.slicecfg k = 12#32 ∧ tabGet 0#128 State.reset.fmtwin k = 0#128 ∧
    tabGet 90 State.reset.regs.regcfg k = 90 ∧ tabGet 75 State.reset.regs.allowcfg k = 75 ∧ tabGet 0 State.reset.regs.l2mode k = 0 ∧
    tabGet 0x124#64 State.reset.regs.farb k = 0x124#64 ∧ ringLog2 State.reset.regs k = 6 ∧ ringOn State.reset.regs k = false ∧
    tabGet 0#32 State.reset.regs.access k = 0#32 ∧ vdQuantum State.reset.regs k = 1000 ∧ vdWeight State.reset.regs k = 1 ∧
    (State.reset.part k).wdlimit = 10000 ∧ tabGet 0#64 State.reset.meters k = 0#64) ∧
  State.reset.regs.stage = 0 ∧ State.reset.regs.err = 0 ∧
  State.reset.cycle = 0 ∧ State.reset.groups = [] ∧ State.reset.launches = [] ∧ State.reset.queues = [] ∧ State.reset.agenda = [] ∧
  State.reset.MemoryOk ∧ State.reset.RegsOk

/-- R134, R207 to R209, R333, R375, R386, R390, Tables 9.6, 9.9, 15.7 and 17.1: whatever is written to the registers,
the ranges and rules that the manual gives their fields hold after every step of the machine, whichever step it is. -/
def Obligations.StepKeepsRegisters : Prop :=
  ∀ (s t : State), s.RegsOk → step s = .next t → t.RegsOk

/-- R192, R195: every step keeps memory and its validity tags in their canonical form, so that memories that read alike are
equal data. -/
def Obligations.StepKeepsMemory : Prop :=
  ∀ (s t : State), s.MemoryOk → step s = .next t → t.MemoryOk
end

