-- ==== Sys2Proof/Laws/State.lean ====
section
/-! SUPPORT. One lemma per field of State per update, so that no proof unfolds a record update. -/
namespace Sys2Proof.Machine
open Sys2Proof

@[simp] theorem State.putGroup_agenda (s : State) (core slot : Nat) (g : Group) : (s.putGroup core slot g).agenda = s.agenda := rfl
@[simp] theorem State.putGroup_turn (s : State) (core slot : Nat) (g : Group) : (s.putGroup core slot g).turn = s.turn := rfl
@[simp] theorem State.putGroup_free (s : State) (core slot : Nat) (g : Group) : (s.putGroup core slot g).free = s.free := rfl
@[simp] theorem State.putGroup_cycle (s : State) (core slot : Nat) (g : Group) : (s.putGroup core slot g).cycle = s.cycle := rfl
@[simp] theorem State.putGroup_regs (s : State) (core slot : Nat) (g : Group) : (s.putGroup core slot g).regs = s.regs := rfl
@[simp] theorem State.putGroup_mem (s : State) (core slot : Nat) (g : Group) : (s.putGroup core slot g).mem = s.mem := rfl
@[simp] theorem State.putGroup_tags (s : State) (core slot : Nat) (g : Group) : (s.putGroup core slot g).tags = s.tags := rfl
@[simp] theorem State.putGroup_codeShadow (s : State) (core slot : Nat) (g : Group) : (s.putGroup core slot g).codeShadow = s.codeShadow := rfl
@[simp] theorem State.putGroup_groups (s : State) (core slot : Nat) (g : Group) : (s.putGroup core slot g).groups = tabPut s.groups (groupKey core slot) g := rfl
@[simp] theorem State.putGroup_cores (s : State) (core slot : Nat) (g : Group) : (s.putGroup core slot g).cores = s.cores := rfl
@[simp] theorem State.putGroup_coreOwner (s : State) (core slot : Nat) (g : Group) : (s.putGroup core slot g).coreOwner = s.coreOwner := rfl
@[simp] theorem State.putGroup_moves (s : State) (core slot : Nat) (g : Group) : (s.putGroup core slot g).moves = s.moves := rfl
@[simp] theorem State.putGroup_l2 (s : State) (core slot : Nat) (g : Group) : (s.putGroup core slot g).l2 = s.l2 := rfl
@[simp] theorem State.putGroup_fmtwin (s : State) (core slot : Nat) (g : Group) : (s.putGroup core slot g).fmtwin = s.fmtwin := rfl
@[simp] theorem State.putGroup_closing (s : State) (core slot : Nat) (g : Group) : (s.putGroup core slot g).closing = s.closing := rfl
@[simp] theorem State.putGroup_quarantined (s : State) (core slot : Nat) (g : Group) : (s.putGroup core slot g).quarantined = s.quarantined := rfl
@[simp] theorem State.putGroup_corrected (s : State) (core slot : Nat) (g : Group) : (s.putGroup core slot g).corrected = s.corrected := rfl
@[simp] theorem State.putGroup_rotation (s : State) (core slot : Nat) (g : Group) : (s.putGroup core slot g).rotation = s.rotation := rfl
@[simp] theorem State.putGroup_restNext (s : State) (core slot : Nat) (g : Group) : (s.putGroup core slot g).restNext = s.restNext := rfl
@[simp] theorem State.putGroup_queues (s : State) (core slot : Nat) (g : Group) : (s.putGroup core slot g).queues = s.queues := rfl
@[simp] theorem State.putGroup_launches (s : State) (core slot : Nat) (g : Group) : (s.putGroup core slot g).launches = s.launches := rfl
@[simp] theorem State.putGroup_nextLaunch (s : State) (core slot : Nat) (g : Group) : (s.putGroup core slot g).nextLaunch = s.nextLaunch := rfl
@[simp] theorem State.putGroup_watches (s : State) (core slot : Nat) (g : Group) : (s.putGroup core slot g).watches = s.watches := rfl
@[simp] theorem State.putGroup_tasks (s : State) (core slot : Nat) (g : Group) : (s.putGroup core slot g).tasks = s.tasks := rfl
@[simp] theorem State.putGroup_nextTask (s : State) (core slot : Nat) (g : Group) : (s.putGroup core slot g).nextTask = s.nextTask := rfl
@[simp] theorem State.putGroup_contexts (s : State) (core slot : Nat) (g : Group) : (s.putGroup core slot g).contexts = s.contexts := rfl
@[simp] theorem State.putGroup_port (s : State) (core slot : Nat) (g : Group) : (s.putGroup core slot g).port = s.port := rfl
@[simp] theorem State.putGroup_rings (s : State) (core slot : Nat) (g : Group) : (s.putGroup core slot g).rings = s.rings := rfl
@[simp] theorem State.putGroup_turns (s : State) (core slot : Nat) (g : Group) : (s.putGroup core slot g).turns = s.turns := rfl
@[simp] theorem State.putGroup_migrations (s : State) (core slot : Nat) (g : Group) : (s.putGroup core slot g).migrations = s.migrations := rfl
@[simp] theorem State.putGroup_meters (s : State) (core slot : Nat) (g : Group) : (s.putGroup core slot g).meters = s.meters := rfl
@[simp] theorem State.putGroup_chain (s : State) (core slot : Nat) (g : Group) : (s.putGroup core slot g).chain = s.chain := rfl
@[simp] theorem State.putGroup_snapshots (s : State) (core slot : Nat) (g : Group) : (s.putGroup core slot g).snapshots = s.snapshots := rfl
@[simp] theorem State.putGroup_nextLife (s : State) (core slot : Nat) (g : Group) : (s.putGroup core slot g).nextLife = s.nextLife := rfl
@[simp] theorem State.putGroup_hostNext (s : State) (core slot : Nat) (g : Group) : (s.putGroup core slot g).hostNext = s.hostNext := rfl
@[simp] theorem State.putGroup_hostSlots (s : State) (core slot : Nat) (g : Group) : (s.putGroup core slot g).hostSlots = s.hostSlots := rfl
@[simp] theorem State.putGroup_hostStatus (s : State) (core slot : Nat) (g : Group) : (s.putGroup core slot g).hostStatus = s.hostStatus := rfl
@[simp] theorem State.putGroup_outbox (s : State) (core slot : Nat) (g : Group) : (s.putGroup core slot g).outbox = s.outbox := rfl
@[simp] theorem State.putGroup_departed (s : State) (core slot : Nat) (g : Group) : (s.putGroup core slot g).departed = s.departed := rfl
@[simp] theorem State.putGroup_replies (s : State) (core slot : Nat) (g : Group) : (s.putGroup core slot g).replies = s.replies := rfl
@[simp] theorem State.putGroup_spdm (s : State) (core slot : Nat) (g : Group) : (s.putGroup core slot g).spdm = s.spdm := rfl
@[simp] theorem State.putGroup_irqs (s : State) (core slot : Nat) (g : Group) : (s.putGroup core slot g).irqs = s.irqs := rfl
@[simp] theorem State.putGroup_enqWait (s : State) (core slot : Nat) (g : Group) : (s.putGroup core slot g).enqWait = s.enqWait := rfl
@[simp] theorem State.putGroup_ecc (s : State) (core slot : Nat) (g : Group) : (s.putGroup core slot g).ecc = s.ecc := rfl

@[simp] theorem State.dropGroup_agenda (s : State) (core slot : Nat) : (s.dropGroup core slot).agenda = s.agenda := rfl
@[simp] theorem State.dropGroup_turn (s : State) (core slot : Nat) : (s.dropGroup core slot).turn = s.turn := rfl
@[simp] theorem State.dropGroup_free (s : State) (core slot : Nat) : (s.dropGroup core slot).free = s.free := rfl
@[simp] theorem State.dropGroup_cycle (s : State) (core slot : Nat) : (s.dropGroup core slot).cycle = s.cycle := rfl
@[simp] theorem State.dropGroup_regs (s : State) (core slot : Nat) : (s.dropGroup core slot).regs = s.regs := rfl
@[simp] theorem State.dropGroup_mem (s : State) (core slot : Nat) : (s.dropGroup core slot).mem = s.mem := rfl
@[simp] theorem State.dropGroup_tags (s : State) (core slot : Nat) : (s.dropGroup core slot).tags = s.tags := rfl
@[simp] theorem State.dropGroup_codeShadow (s : State) (core slot : Nat) : (s.dropGroup core slot).codeShadow = s.codeShadow := rfl
@[simp] theorem State.dropGroup_groups (s : State) (core slot : Nat) : (s.dropGroup core slot).groups = tabErase s.groups (groupKey core slot) := rfl
@[simp] theorem State.dropGroup_cores (s : State) (core slot : Nat) : (s.dropGroup core slot).cores = s.cores := rfl
@[simp] theorem State.dropGroup_coreOwner (s : State) (core slot : Nat) : (s.dropGroup core slot).coreOwner = s.coreOwner := rfl
@[simp] theorem State.dropGroup_moves (s : State) (core slot : Nat) : (s.dropGroup core slot).moves = s.moves := rfl
@[simp] theorem State.dropGroup_l2 (s : State) (core slot : Nat) : (s.dropGroup core slot).l2 = s.l2 := rfl
@[simp] theorem State.dropGroup_fmtwin (s : State) (core slot : Nat) : (s.dropGroup core slot).fmtwin = s.fmtwin := rfl
@[simp] theorem State.dropGroup_closing (s : State) (core slot : Nat) : (s.dropGroup core slot).closing = s.closing := rfl
@[simp] theorem State.dropGroup_quarantined (s : State) (core slot : Nat) : (s.dropGroup core slot).quarantined = s.quarantined := rfl
@[simp] theorem State.dropGroup_corrected (s : State) (core slot : Nat) : (s.dropGroup core slot).corrected = s.corrected := rfl
@[simp] theorem State.dropGroup_rotation (s : State) (core slot : Nat) : (s.dropGroup core slot).rotation = s.rotation := rfl
@[simp] theorem State.dropGroup_restNext (s : State) (core slot : Nat) : (s.dropGroup core slot).restNext = s.restNext := rfl
@[simp] theorem State.dropGroup_queues (s : State) (core slot : Nat) : (s.dropGroup core slot).queues = s.queues := rfl
@[simp] theorem State.dropGroup_launches (s : State) (core slot : Nat) : (s.dropGroup core slot).launches = s.launches := rfl
@[simp] theorem State.dropGroup_nextLaunch (s : State) (core slot : Nat) : (s.dropGroup core slot).nextLaunch = s.nextLaunch := rfl
@[simp] theorem State.dropGroup_watches (s : State) (core slot : Nat) : (s.dropGroup core slot).watches = s.watches := rfl
@[simp] theorem State.dropGroup_tasks (s : State) (core slot : Nat) : (s.dropGroup core slot).tasks = s.tasks := rfl
@[simp] theorem State.dropGroup_nextTask (s : State) (core slot : Nat) : (s.dropGroup core slot).nextTask = s.nextTask := rfl
@[simp] theorem State.dropGroup_contexts (s : State) (core slot : Nat) : (s.dropGroup core slot).contexts = s.contexts := rfl
@[simp] theorem State.dropGroup_port (s : State) (core slot : Nat) : (s.dropGroup core slot).port = s.port := rfl
@[simp] theorem State.dropGroup_rings (s : State) (core slot : Nat) : (s.dropGroup core slot).rings = s.rings := rfl
@[simp] theorem State.dropGroup_turns (s : State) (core slot : Nat) : (s.dropGroup core slot).turns = s.turns := rfl
@[simp] theorem State.dropGroup_migrations (s : State) (core slot : Nat) : (s.dropGroup core slot).migrations = s.migrations := rfl
@[simp] theorem State.dropGroup_meters (s : State) (core slot : Nat) : (s.dropGroup core slot).meters = s.meters := rfl
@[simp] theorem State.dropGroup_chain (s : State) (core slot : Nat) : (s.dropGroup core slot).chain = s.chain := rfl
@[simp] theorem State.dropGroup_snapshots (s : State) (core slot : Nat) : (s.dropGroup core slot).snapshots = s.snapshots := rfl
@[simp] theorem State.dropGroup_nextLife (s : State) (core slot : Nat) : (s.dropGroup core slot).nextLife = s.nextLife := rfl
@[simp] theorem State.dropGroup_hostNext (s : State) (core slot : Nat) : (s.dropGroup core slot).hostNext = s.hostNext := rfl
@[simp] theorem State.dropGroup_hostSlots (s : State) (core slot : Nat) : (s.dropGroup core slot).hostSlots = s.hostSlots := rfl
@[simp] theorem State.dropGroup_hostStatus (s : State) (core slot : Nat) : (s.dropGroup core slot).hostStatus = s.hostStatus := rfl
@[simp] theorem State.dropGroup_outbox (s : State) (core slot : Nat) : (s.dropGroup core slot).outbox = s.outbox := rfl
@[simp] theorem State.dropGroup_departed (s : State) (core slot : Nat) : (s.dropGroup core slot).departed = s.departed := rfl
@[simp] theorem State.dropGroup_replies (s : State) (core slot : Nat) : (s.dropGroup core slot).replies = s.replies := rfl
@[simp] theorem State.dropGroup_spdm (s : State) (core slot : Nat) : (s.dropGroup core slot).spdm = s.spdm := rfl
@[simp] theorem State.dropGroup_irqs (s : State) (core slot : Nat) : (s.dropGroup core slot).irqs = s.irqs := rfl
@[simp] theorem State.dropGroup_enqWait (s : State) (core slot : Nat) : (s.dropGroup core slot).enqWait = s.enqWait := rfl
@[simp] theorem State.dropGroup_ecc (s : State) (core slot : Nat) : (s.dropGroup core slot).ecc = s.ecc := rfl

@[simp] theorem State.modGroup_agenda (s : State) (core slot : Nat) (f : Group → Group) : (s.modGroup core slot f).agenda = s.agenda := rfl
@[simp] theorem State.modGroup_turn (s : State) (core slot : Nat) (f : Group → Group) : (s.modGroup core slot f).turn = s.turn := rfl
@[simp] theorem State.modGroup_free (s : State) (core slot : Nat) (f : Group → Group) : (s.modGroup core slot f).free = s.free := rfl
@[simp] theorem State.modGroup_cycle (s : State) (core slot : Nat) (f : Group → Group) : (s.modGroup core slot f).cycle = s.cycle := rfl
@[simp] theorem State.modGroup_regs (s : State) (core slot : Nat) (f : Group → Group) : (s.modGroup core slot f).regs = s.regs := rfl
@[simp] theorem State.modGroup_mem (s : State) (core slot : Nat) (f : Group → Group) : (s.modGroup core slot f).mem = s.mem := rfl
@[simp] theorem State.modGroup_tags (s : State) (core slot : Nat) (f : Group → Group) : (s.modGroup core slot f).tags = s.tags := rfl
@[simp] theorem State.modGroup_codeShadow (s : State) (core slot : Nat) (f : Group → Group) : (s.modGroup core slot f).codeShadow = s.codeShadow := rfl
@[simp] theorem State.modGroup_groups (s : State) (core slot : Nat) (f : Group → Group) : (s.modGroup core slot f).groups = tabMod s.groups (groupKey core slot) f := rfl
@[simp] theorem State.modGroup_cores (s : State) (core slot : Nat) (f : Group → Group) : (s.modGroup core slot f).cores = s.cores := rfl
@[simp] theorem State.modGroup_coreOwner (s : State) (core slot : Nat) (f : Group → Group) : (s.modGroup core slot f).coreOwner = s.coreOwner := rfl
@[simp] theorem State.modGroup_moves (s : State) (core slot : Nat) (f : Group → Group) : (s.modGroup core slot f).moves = s.moves := rfl
@[simp] theorem State.modGroup_l2 (s : State) (core slot : Nat) (f : Group → Group) : (s.modGroup core slot f).l2 = s.l2 := rfl
@[simp] theorem State.modGroup_fmtwin (s : State) (core slot : Nat) (f : Group → Group) : (s.modGroup core slot f).fmtwin = s.fmtwin := rfl
@[simp] theorem State.modGroup_closing (s : State) (core slot : Nat) (f : Group → Group) : (s.modGroup core slot f).closing = s.closing := rfl
@[simp] theorem State.modGroup_quarantined (s : State) (core slot : Nat) (f : Group → Group) : (s.modGroup core slot f).quarantined = s.quarantined := rfl
@[simp] theorem State.modGroup_corrected (s : State) (core slot : Nat) (f : Group → Group) : (s.modGroup core slot f).corrected = s.corrected := rfl
@[simp] theorem State.modGroup_rotation (s : State) (core slot : Nat) (f : Group → Group) : (s.modGroup core slot f).rotation = s.rotation := rfl
@[simp] theorem State.modGroup_restNext (s : State) (core slot : Nat) (f : Group → Group) : (s.modGroup core slot f).restNext = s.restNext := rfl
@[simp] theorem State.modGroup_queues (s : State) (core slot : Nat) (f : Group → Group) : (s.modGroup core slot f).queues = s.queues := rfl
@[simp] theorem State.modGroup_launches (s : State) (core slot : Nat) (f : Group → Group) : (s.modGroup core slot f).launches = s.launches := rfl
@[simp] theorem State.modGroup_nextLaunch (s : State) (core slot : Nat) (f : Group → Group) : (s.modGroup core slot f).nextLaunch = s.nextLaunch := rfl
@[simp] theorem State.modGroup_watches (s : State) (core slot : Nat) (f : Group → Group) : (s.modGroup core slot f).watches = s.watches := rfl
@[simp] theorem State.modGroup_tasks (s : State) (core slot : Nat) (f : Group → Group) : (s.modGroup core slot f).tasks = s.tasks := rfl
@[simp] theorem State.modGroup_nextTask (s : State) (core slot : Nat) (f : Group → Group) : (s.modGroup core slot f).nextTask = s.nextTask := rfl
@[simp] theorem State.modGroup_contexts (s : State) (core slot : Nat) (f : Group → Group) : (s.modGroup core slot f).contexts = s.contexts := rfl
@[simp] theorem State.modGroup_port (s : State) (core slot : Nat) (f : Group → Group) : (s.modGroup core slot f).port = s.port := rfl
@[simp] theorem State.modGroup_rings (s : State) (core slot : Nat) (f : Group → Group) : (s.modGroup core slot f).rings = s.rings := rfl
@[simp] theorem State.modGroup_turns (s : State) (core slot : Nat) (f : Group → Group) : (s.modGroup core slot f).turns = s.turns := rfl
@[simp] theorem State.modGroup_migrations (s : State) (core slot : Nat) (f : Group → Group) : (s.modGroup core slot f).migrations = s.migrations := rfl
@[simp] theorem State.modGroup_meters (s : State) (core slot : Nat) (f : Group → Group) : (s.modGroup core slot f).meters = s.meters := rfl
@[simp] theorem State.modGroup_chain (s : State) (core slot : Nat) (f : Group → Group) : (s.modGroup core slot f).chain = s.chain := rfl
@[simp] theorem State.modGroup_snapshots (s : State) (core slot : Nat) (f : Group → Group) : (s.modGroup core slot f).snapshots = s.snapshots := rfl
@[simp] theorem State.modGroup_nextLife (s : State) (core slot : Nat) (f : Group → Group) : (s.modGroup core slot f).nextLife = s.nextLife := rfl
@[simp] theorem State.modGroup_hostNext (s : State) (core slot : Nat) (f : Group → Group) : (s.modGroup core slot f).hostNext = s.hostNext := rfl
@[simp] theorem State.modGroup_hostSlots (s : State) (core slot : Nat) (f : Group → Group) : (s.modGroup core slot f).hostSlots = s.hostSlots := rfl
@[simp] theorem State.modGroup_hostStatus (s : State) (core slot : Nat) (f : Group → Group) : (s.modGroup core slot f).hostStatus = s.hostStatus := rfl
@[simp] theorem State.modGroup_outbox (s : State) (core slot : Nat) (f : Group → Group) : (s.modGroup core slot f).outbox = s.outbox := rfl
@[simp] theorem State.modGroup_departed (s : State) (core slot : Nat) (f : Group → Group) : (s.modGroup core slot f).departed = s.departed := rfl
@[simp] theorem State.modGroup_replies (s : State) (core slot : Nat) (f : Group → Group) : (s.modGroup core slot f).replies = s.replies := rfl
@[simp] theorem State.modGroup_spdm (s : State) (core slot : Nat) (f : Group → Group) : (s.modGroup core slot f).spdm = s.spdm := rfl
@[simp] theorem State.modGroup_irqs (s : State) (core slot : Nat) (f : Group → Group) : (s.modGroup core slot f).irqs = s.irqs := rfl
@[simp] theorem State.modGroup_enqWait (s : State) (core slot : Nat) (f : Group → Group) : (s.modGroup core slot f).enqWait = s.enqWait := rfl
@[simp] theorem State.modGroup_ecc (s : State) (core slot : Nat) (f : Group → Group) : (s.modGroup core slot f).ecc = s.ecc := rfl

@[simp] theorem State.modSplit_agenda (s : State) (ag : Agent) (f : Split → Split) : (s.modSplit ag f).agenda = s.agenda := rfl
@[simp] theorem State.modSplit_turn (s : State) (ag : Agent) (f : Split → Split) : (s.modSplit ag f).turn = s.turn := rfl
@[simp] theorem State.modSplit_free (s : State) (ag : Agent) (f : Split → Split) : (s.modSplit ag f).free = s.free := rfl
@[simp] theorem State.modSplit_cycle (s : State) (ag : Agent) (f : Split → Split) : (s.modSplit ag f).cycle = s.cycle := rfl
@[simp] theorem State.modSplit_regs (s : State) (ag : Agent) (f : Split → Split) : (s.modSplit ag f).regs = s.regs := rfl
@[simp] theorem State.modSplit_mem (s : State) (ag : Agent) (f : Split → Split) : (s.modSplit ag f).mem = s.mem := rfl
@[simp] theorem State.modSplit_tags (s : State) (ag : Agent) (f : Split → Split) : (s.modSplit ag f).tags = s.tags := rfl
@[simp] theorem State.modSplit_codeShadow (s : State) (ag : Agent) (f : Split → Split) : (s.modSplit ag f).codeShadow = s.codeShadow := rfl
@[simp] theorem State.modSplit_cores (s : State) (ag : Agent) (f : Split → Split) : (s.modSplit ag f).cores = s.cores := rfl
@[simp] theorem State.modSplit_coreOwner (s : State) (ag : Agent) (f : Split → Split) : (s.modSplit ag f).coreOwner = s.coreOwner := rfl
@[simp] theorem State.modSplit_moves (s : State) (ag : Agent) (f : Split → Split) : (s.modSplit ag f).moves = s.moves := rfl
@[simp] theorem State.modSplit_l2 (s : State) (ag : Agent) (f : Split → Split) : (s.modSplit ag f).l2 = s.l2 := rfl
@[simp] theorem State.modSplit_fmtwin (s : State) (ag : Agent) (f : Split → Split) : (s.modSplit ag f).fmtwin = s.fmtwin := rfl
@[simp] theorem State.modSplit_closing (s : State) (ag : Agent) (f : Split → Split) : (s.modSplit ag f).closing = s.closing := rfl
@[simp] theorem State.modSplit_quarantined (s : State) (ag : Agent) (f : Split → Split) : (s.modSplit ag f).quarantined = s.quarantined := rfl
@[simp] theorem State.modSplit_corrected (s : State) (ag : Agent) (f : Split → Split) : (s.modSplit ag f).corrected = s.corrected := rfl
@[simp] theorem State.modSplit_rotation (s : State) (ag : Agent) (f : Split → Split) : (s.modSplit ag f).rotation = s.rotation := rfl
@[simp] theorem State.modSplit_restNext (s : State) (ag : Agent) (f : Split → Split) : (s.modSplit ag f).restNext = s.restNext := rfl
@[simp] theorem State.modSplit_queues (s : State) (ag : Agent) (f : Split → Split) : (s.modSplit ag f).queues = s.queues := rfl
@[simp] theorem State.modSplit_launches (s : State) (ag : Agent) (f : Split → Split) : (s.modSplit ag f).launches = s.launches := rfl
@[simp] theorem State.modSplit_nextLaunch (s : State) (ag : Agent) (f : Split → Split) : (s.modSplit ag f).nextLaunch = s.nextLaunch := rfl
@[simp] theorem State.modSplit_watches (s : State) (ag : Agent) (f : Split → Split) : (s.modSplit ag f).watches = s.watches := rfl
@[simp] theorem State.modSplit_tasks (s : State) (ag : Agent) (f : Split → Split) : (s.modSplit ag f).tasks = s.tasks := rfl
@[simp] theorem State.modSplit_nextTask (s : State) (ag : Agent) (f : Split → Split) : (s.modSplit ag f).nextTask = s.nextTask := rfl
@[simp] theorem State.modSplit_contexts (s : State) (ag : Agent) (f : Split → Split) : (s.modSplit ag f).contexts = s.contexts := rfl
@[simp] theorem State.modSplit_port (s : State) (ag : Agent) (f : Split → Split) : (s.modSplit ag f).port = s.port := rfl
@[simp] theorem State.modSplit_rings (s : State) (ag : Agent) (f : Split → Split) : (s.modSplit ag f).rings = s.rings := rfl
@[simp] theorem State.modSplit_turns (s : State) (ag : Agent) (f : Split → Split) : (s.modSplit ag f).turns = s.turns := rfl
@[simp] theorem State.modSplit_migrations (s : State) (ag : Agent) (f : Split → Split) : (s.modSplit ag f).migrations = s.migrations := rfl
@[simp] theorem State.modSplit_meters (s : State) (ag : Agent) (f : Split → Split) : (s.modSplit ag f).meters = s.meters := rfl
@[simp] theorem State.modSplit_chain (s : State) (ag : Agent) (f : Split → Split) : (s.modSplit ag f).chain = s.chain := rfl
@[simp] theorem State.modSplit_snapshots (s : State) (ag : Agent) (f : Split → Split) : (s.modSplit ag f).snapshots = s.snapshots := rfl
@[simp] theorem State.modSplit_nextLife (s : State) (ag : Agent) (f : Split → Split) : (s.modSplit ag f).nextLife = s.nextLife := rfl
@[simp] theorem State.modSplit_hostNext (s : State) (ag : Agent) (f : Split → Split) : (s.modSplit ag f).hostNext = s.hostNext := rfl
@[simp] theorem State.modSplit_hostSlots (s : State) (ag : Agent) (f : Split → Split) : (s.modSplit ag f).hostSlots = s.hostSlots := rfl
@[simp] theorem State.modSplit_hostStatus (s : State) (ag : Agent) (f : Split → Split) : (s.modSplit ag f).hostStatus = s.hostStatus := rfl
@[simp] theorem State.modSplit_outbox (s : State) (ag : Agent) (f : Split → Split) : (s.modSplit ag f).outbox = s.outbox := rfl
@[simp] theorem State.modSplit_departed (s : State) (ag : Agent) (f : Split → Split) : (s.modSplit ag f).departed = s.departed := rfl
@[simp] theorem State.modSplit_replies (s : State) (ag : Agent) (f : Split → Split) : (s.modSplit ag f).replies = s.replies := rfl
@[simp] theorem State.modSplit_spdm (s : State) (ag : Agent) (f : Split → Split) : (s.modSplit ag f).spdm = s.spdm := rfl
@[simp] theorem State.modSplit_irqs (s : State) (ag : Agent) (f : Split → Split) : (s.modSplit ag f).irqs = s.irqs := rfl
@[simp] theorem State.modSplit_enqWait (s : State) (ag : Agent) (f : Split → Split) : (s.modSplit ag f).enqWait = s.enqWait := rfl
@[simp] theorem State.modSplit_ecc (s : State) (ag : Agent) (f : Split → Split) : (s.modSplit ag f).ecc = s.ecc := rfl

@[simp] theorem State.modCore_agenda (s : State) (c : Nat) (f : Core → Core) : (s.modCore c f).agenda = s.agenda := rfl
@[simp] theorem State.modCore_turn (s : State) (c : Nat) (f : Core → Core) : (s.modCore c f).turn = s.turn := rfl
@[simp] theorem State.modCore_free (s : State) (c : Nat) (f : Core → Core) : (s.modCore c f).free = s.free := rfl
@[simp] theorem State.modCore_cycle (s : State) (c : Nat) (f : Core → Core) : (s.modCore c f).cycle = s.cycle := rfl
@[simp] theorem State.modCore_regs (s : State) (c : Nat) (f : Core → Core) : (s.modCore c f).regs = s.regs := rfl
@[simp] theorem State.modCore_mem (s : State) (c : Nat) (f : Core → Core) : (s.modCore c f).mem = s.mem := rfl
@[simp] theorem State.modCore_tags (s : State) (c : Nat) (f : Core → Core) : (s.modCore c f).tags = s.tags := rfl
@[simp] theorem State.modCore_codeShadow (s : State) (c : Nat) (f : Core → Core) : (s.modCore c f).codeShadow = s.codeShadow := rfl
@[simp] theorem State.modCore_groups (s : State) (c : Nat) (f : Core → Core) : (s.modCore c f).groups = s.groups := rfl
@[simp] theorem State.modCore_cores (s : State) (c : Nat) (f : Core → Core) : (s.modCore c f).cores = tabUpd Core.init s.cores c f := rfl
@[simp] theorem State.modCore_coreOwner (s : State) (c : Nat) (f : Core → Core) : (s.modCore c f).coreOwner = s.coreOwner := rfl
@[simp] theorem State.modCore_moves (s : State) (c : Nat) (f : Core → Core) : (s.modCore c f).moves = s.moves := rfl
@[simp] theorem State.modCore_l2 (s : State) (c : Nat) (f : Core → Core) : (s.modCore c f).l2 = s.l2 := rfl
@[simp] theorem State.modCore_fmtwin (s : State) (c : Nat) (f : Core → Core) : (s.modCore c f).fmtwin = s.fmtwin := rfl
@[simp] theorem State.modCore_closing (s : State) (c : Nat) (f : Core → Core) : (s.modCore c f).closing = s.closing := rfl
@[simp] theorem State.modCore_quarantined (s : State) (c : Nat) (f : Core → Core) : (s.modCore c f).quarantined = s.quarantined := rfl
@[simp] theorem State.modCore_corrected (s : State) (c : Nat) (f : Core → Core) : (s.modCore c f).corrected = s.corrected := rfl
@[simp] theorem State.modCore_rotation (s : State) (c : Nat) (f : Core → Core) : (s.modCore c f).rotation = s.rotation := rfl
@[simp] theorem State.modCore_restNext (s : State) (c : Nat) (f : Core → Core) : (s.modCore c f).restNext = s.restNext := rfl
@[simp] theorem State.modCore_queues (s : State) (c : Nat) (f : Core → Core) : (s.modCore c f).queues = s.queues := rfl
@[simp] theorem State.modCore_launches (s : State) (c : Nat) (f : Core → Core) : (s.modCore c f).launches = s.launches := rfl
@[simp] theorem State.modCore_nextLaunch (s : State) (c : Nat) (f : Core → Core) : (s.modCore c f).nextLaunch = s.nextLaunch := rfl
@[simp] theorem State.modCore_watches (s : State) (c : Nat) (f : Core → Core) : (s.modCore c f).watches = s.watches := rfl
@[simp] theorem State.modCore_tasks (s : State) (c : Nat) (f : Core → Core) : (s.modCore c f).tasks = s.tasks := rfl
@[simp] theorem State.modCore_nextTask (s : State) (c : Nat) (f : Core → Core) : (s.modCore c f).nextTask = s.nextTask := rfl
@[simp] theorem State.modCore_contexts (s : State) (c : Nat) (f : Core → Core) : (s.modCore c f).contexts = s.contexts := rfl
@[simp] theorem State.modCore_port (s : State) (c : Nat) (f : Core → Core) : (s.modCore c f).port = s.port := rfl
@[simp] theorem State.modCore_rings (s : State) (c : Nat) (f : Core → Core) : (s.modCore c f).rings = s.rings := rfl
@[simp] theorem State.modCore_turns (s : State) (c : Nat) (f : Core → Core) : (s.modCore c f).turns = s.turns := rfl
@[simp] theorem State.modCore_migrations (s : State) (c : Nat) (f : Core → Core) : (s.modCore c f).migrations = s.migrations := rfl
@[simp] theorem State.modCore_meters (s : State) (c : Nat) (f : Core → Core) : (s.modCore c f).meters = s.meters := rfl
@[simp] theorem State.modCore_chain (s : State) (c : Nat) (f : Core → Core) : (s.modCore c f).chain = s.chain := rfl
@[simp] theorem State.modCore_snapshots (s : State) (c : Nat) (f : Core → Core) : (s.modCore c f).snapshots = s.snapshots := rfl
@[simp] theorem State.modCore_nextLife (s : State) (c : Nat) (f : Core → Core) : (s.modCore c f).nextLife = s.nextLife := rfl
@[simp] theorem State.modCore_hostNext (s : State) (c : Nat) (f : Core → Core) : (s.modCore c f).hostNext = s.hostNext := rfl
@[simp] theorem State.modCore_hostSlots (s : State) (c : Nat) (f : Core → Core) : (s.modCore c f).hostSlots = s.hostSlots := rfl
@[simp] theorem State.modCore_hostStatus (s : State) (c : Nat) (f : Core → Core) : (s.modCore c f).hostStatus = s.hostStatus := rfl
@[simp] theorem State.modCore_outbox (s : State) (c : Nat) (f : Core → Core) : (s.modCore c f).outbox = s.outbox := rfl
@[simp] theorem State.modCore_departed (s : State) (c : Nat) (f : Core → Core) : (s.modCore c f).departed = s.departed := rfl
@[simp] theorem State.modCore_replies (s : State) (c : Nat) (f : Core → Core) : (s.modCore c f).replies = s.replies := rfl
@[simp] theorem State.modCore_spdm (s : State) (c : Nat) (f : Core → Core) : (s.modCore c f).spdm = s.spdm := rfl
@[simp] theorem State.modCore_irqs (s : State) (c : Nat) (f : Core → Core) : (s.modCore c f).irqs = s.irqs := rfl
@[simp] theorem State.modCore_enqWait (s : State) (c : Nat) (f : Core → Core) : (s.modCore c f).enqWait = s.enqWait := rfl
@[simp] theorem State.modCore_ecc (s : State) (c : Nat) (f : Core → Core) : (s.modCore c f).ecc = s.ecc := rfl

@[simp] theorem State.modContext_agenda (s : State) (c : BitVec 12) (f : Context → Context) : (s.modContext c f).agenda = s.agenda := rfl
@[simp] theorem State.modContext_turn (s : State) (c : BitVec 12) (f : Context → Context) : (s.modContext c f).turn = s.turn := rfl
@[simp] theorem State.modContext_free (s : State) (c : BitVec 12) (f : Context → Context) : (s.modContext c f).free = s.free := rfl
@[simp] theorem State.modContext_cycle (s : State) (c : BitVec 12) (f : Context → Context) : (s.modContext c f).cycle = s.cycle := rfl
@[simp] theorem State.modContext_regs (s : State) (c : BitVec 12) (f : Context → Context) : (s.modContext c f).regs = s.regs := rfl
@[simp] theorem State.modContext_mem (s : State) (c : BitVec 12) (f : Context → Context) : (s.modContext c f).mem = s.mem := rfl
@[simp] theorem State.modContext_tags (s : State) (c : BitVec 12) (f : Context → Context) : (s.modContext c f).tags = s.tags := rfl
@[simp] theorem State.modContext_codeShadow (s : State) (c : BitVec 12) (f : Context → Context) : (s.modContext c f).codeShadow = s.codeShadow := rfl
@[simp] theorem State.modContext_groups (s : State) (c : BitVec 12) (f : Context → Context) : (s.modContext c f).groups = s.groups := rfl
@[simp] theorem State.modContext_cores (s : State) (c : BitVec 12) (f : Context → Context) : (s.modContext c f).cores = s.cores := rfl
@[simp] theorem State.modContext_coreOwner (s : State) (c : BitVec 12) (f : Context → Context) : (s.modContext c f).coreOwner = s.coreOwner := rfl
@[simp] theorem State.modContext_moves (s : State) (c : BitVec 12) (f : Context → Context) : (s.modContext c f).moves = s.moves := rfl
@[simp] theorem State.modContext_l2 (s : State) (c : BitVec 12) (f : Context → Context) : (s.modContext c f).l2 = s.l2 := rfl
@[simp] theorem State.modContext_fmtwin (s : State) (c : BitVec 12) (f : Context → Context) : (s.modContext c f).fmtwin = s.fmtwin := rfl
@[simp] theorem State.modContext_closing (s : State) (c : BitVec 12) (f : Context → Context) : (s.modContext c f).closing = s.closing := rfl
@[simp] theorem State.modContext_quarantined (s : State) (c : BitVec 12) (f : Context → Context) : (s.modContext c f).quarantined = s.quarantined := rfl
@[simp] theorem State.modContext_corrected (s : State) (c : BitVec 12) (f : Context → Context) : (s.modContext c f).corrected = s.corrected := rfl
@[simp] theorem State.modContext_rotation (s : State) (c : BitVec 12) (f : Context → Context) : (s.modContext c f).rotation = s.rotation := rfl
@[simp] theorem State.modContext_restNext (s : State) (c : BitVec 12) (f : Context → Context) : (s.modContext c f).restNext = s.restNext := rfl
@[simp] theorem State.modContext_queues (s : State) (c : BitVec 12) (f : Context → Context) : (s.modContext c f).queues = s.queues := rfl
@[simp] theorem State.modContext_launches (s : State) (c : BitVec 12) (f : Context → Context) : (s.modContext c f).launches = s.launches := rfl
@[simp] theorem State.modContext_nextLaunch (s : State) (c : BitVec 12) (f : Context → Context) : (s.modContext c f).nextLaunch = s.nextLaunch := rfl
@[simp] theorem State.modContext_watches (s : State) (c : BitVec 12) (f : Context → Context) : (s.modContext c f).watches = s.watches := rfl
@[simp] theorem State.modContext_tasks (s : State) (c : BitVec 12) (f : Context → Context) : (s.modContext c f).tasks = s.tasks := rfl
@[simp] theorem State.modContext_nextTask (s : State) (c : BitVec 12) (f : Context → Context) : (s.modContext c f).nextTask = s.nextTask := rfl
@[simp] theorem State.modContext_contexts (s : State) (c : BitVec 12) (f : Context → Context) : (s.modContext c f).contexts = tabUpd Context.init s.contexts c.toNat f := rfl
@[simp] theorem State.modContext_port (s : State) (c : BitVec 12) (f : Context → Context) : (s.modContext c f).port = s.port := rfl
@[simp] theorem State.modContext_rings (s : State) (c : BitVec 12) (f : Context → Context) : (s.modContext c f).rings = s.rings := rfl
@[simp] theorem State.modContext_turns (s : State) (c : BitVec 12) (f : Context → Context) : (s.modContext c f).turns = s.turns := rfl
@[simp] theorem State.modContext_migrations (s : State) (c : BitVec 12) (f : Context → Context) : (s.modContext c f).migrations = s.migrations := rfl
@[simp] theorem State.modContext_meters (s : State) (c : BitVec 12) (f : Context → Context) : (s.modContext c f).meters = s.meters := rfl
@[simp] theorem State.modContext_chain (s : State) (c : BitVec 12) (f : Context → Context) : (s.modContext c f).chain = s.chain := rfl
@[simp] theorem State.modContext_snapshots (s : State) (c : BitVec 12) (f : Context → Context) : (s.modContext c f).snapshots = s.snapshots := rfl
@[simp] theorem State.modContext_nextLife (s : State) (c : BitVec 12) (f : Context → Context) : (s.modContext c f).nextLife = s.nextLife := rfl
@[simp] theorem State.modContext_hostNext (s : State) (c : BitVec 12) (f : Context → Context) : (s.modContext c f).hostNext = s.hostNext := rfl
@[simp] theorem State.modContext_hostSlots (s : State) (c : BitVec 12) (f : Context → Context) : (s.modContext c f).hostSlots = s.hostSlots := rfl
@[simp] theorem State.modContext_hostStatus (s : State) (c : BitVec 12) (f : Context → Context) : (s.modContext c f).hostStatus = s.hostStatus := rfl
@[simp] theorem State.modContext_outbox (s : State) (c : BitVec 12) (f : Context → Context) : (s.modContext c f).outbox = s.outbox := rfl
@[simp] theorem State.modContext_departed (s : State) (c : BitVec 12) (f : Context → Context) : (s.modContext c f).departed = s.departed := rfl
@[simp] theorem State.modContext_replies (s : State) (c : BitVec 12) (f : Context → Context) : (s.modContext c f).replies = s.replies := rfl
@[simp] theorem State.modContext_spdm (s : State) (c : BitVec 12) (f : Context → Context) : (s.modContext c f).spdm = s.spdm := rfl
@[simp] theorem State.modContext_irqs (s : State) (c : BitVec 12) (f : Context → Context) : (s.modContext c f).irqs = s.irqs := rfl
@[simp] theorem State.modContext_enqWait (s : State) (c : BitVec 12) (f : Context → Context) : (s.modContext c f).enqWait = s.enqWait := rfl
@[simp] theorem State.modContext_ecc (s : State) (c : BitVec 12) (f : Context → Context) : (s.modContext c f).ecc = s.ecc := rfl

@[simp] theorem State.modLaunch_agenda (s : State) (l : Nat) (f : Launch → Launch) : (s.modLaunch l f).agenda = s.agenda := rfl
@[simp] theorem State.modLaunch_turn (s : State) (l : Nat) (f : Launch → Launch) : (s.modLaunch l f).turn = s.turn := rfl
@[simp] theorem State.modLaunch_free (s : State) (l : Nat) (f : Launch → Launch) : (s.modLaunch l f).free = s.free := rfl
@[simp] theorem State.modLaunch_cycle (s : State) (l : Nat) (f : Launch → Launch) : (s.modLaunch l f).cycle = s.cycle := rfl
@[simp] theorem State.modLaunch_regs (s : State) (l : Nat) (f : Launch → Launch) : (s.modLaunch l f).regs = s.regs := rfl
@[simp] theorem State.modLaunch_mem (s : State) (l : Nat) (f : Launch → Launch) : (s.modLaunch l f).mem = s.mem := rfl
@[simp] theorem State.modLaunch_tags (s : State) (l : Nat) (f : Launch → Launch) : (s.modLaunch l f).tags = s.tags := rfl
@[simp] theorem State.modLaunch_codeShadow (s : State) (l : Nat) (f : Launch → Launch) : (s.modLaunch l f).codeShadow = s.codeShadow := rfl
@[simp] theorem State.modLaunch_groups (s : State) (l : Nat) (f : Launch → Launch) : (s.modLaunch l f).groups = s.groups := rfl
@[simp] theorem State.modLaunch_cores (s : State) (l : Nat) (f : Launch → Launch) : (s.modLaunch l f).cores = s.cores := rfl
@[simp] theorem State.modLaunch_coreOwner (s : State) (l : Nat) (f : Launch → Launch) : (s.modLaunch l f).coreOwner = s.coreOwner := rfl
@[simp] theorem State.modLaunch_moves (s : State) (l : Nat) (f : Launch → Launch) : (s.modLaunch l f).moves = s.moves := rfl
@[simp] theorem State.modLaunch_l2 (s : State) (l : Nat) (f : Launch → Launch) : (s.modLaunch l f).l2 = s.l2 := rfl
@[simp] theorem State.modLaunch_fmtwin (s : State) (l : Nat) (f : Launch → Launch) : (s.modLaunch l f).fmtwin = s.fmtwin := rfl
@[simp] theorem State.modLaunch_closing (s : State) (l : Nat) (f : Launch → Launch) : (s.modLaunch l f).closing = s.closing := rfl
@[simp] theorem State.modLaunch_quarantined (s : State) (l : Nat) (f : Launch → Launch) : (s.modLaunch l f).quarantined = s.quarantined := rfl
@[simp] theorem State.modLaunch_corrected (s : State) (l : Nat) (f : Launch → Launch) : (s.modLaunch l f).corrected = s.corrected := rfl
@[simp] theorem State.modLaunch_rotation (s : State) (l : Nat) (f : Launch → Launch) : (s.modLaunch l f).rotation = s.rotation := rfl
@[simp] theorem State.modLaunch_restNext (s : State) (l : Nat) (f : Launch → Launch) : (s.modLaunch l f).restNext = s.restNext := rfl
@[simp] theorem State.modLaunch_queues (s : State) (l : Nat) (f : Launch → Launch) : (s.modLaunch l f).queues = s.queues := rfl
@[simp] theorem State.modLaunch_launches (s : State) (l : Nat) (f : Launch → Launch) : (s.modLaunch l f).launches = tabMod s.launches l f := rfl
@[simp] theorem State.modLaunch_nextLaunch (s : State) (l : Nat) (f : Launch → Launch) : (s.modLaunch l f).nextLaunch = s.nextLaunch := rfl
@[simp] theorem State.modLaunch_watches (s : State) (l : Nat) (f : Launch → Launch) : (s.modLaunch l f).watches = s.watches := rfl
@[simp] theorem State.modLaunch_tasks (s : State) (l : Nat) (f : Launch → Launch) : (s.modLaunch l f).tasks = s.tasks := rfl
@[simp] theorem State.modLaunch_nextTask (s : State) (l : Nat) (f : Launch → Launch) : (s.modLaunch l f).nextTask = s.nextTask := rfl
@[simp] theorem State.modLaunch_contexts (s : State) (l : Nat) (f : Launch → Launch) : (s.modLaunch l f).contexts = s.contexts := rfl
@[simp] theorem State.modLaunch_port (s : State) (l : Nat) (f : Launch → Launch) : (s.modLaunch l f).port = s.port := rfl
@[simp] theorem State.modLaunch_rings (s : State) (l : Nat) (f : Launch → Launch) : (s.modLaunch l f).rings = s.rings := rfl
@[simp] theorem State.modLaunch_turns (s : State) (l : Nat) (f : Launch → Launch) : (s.modLaunch l f).turns = s.turns := rfl
@[simp] theorem State.modLaunch_migrations (s : State) (l : Nat) (f : Launch → Launch) : (s.modLaunch l f).migrations = s.migrations := rfl
@[simp] theorem State.modLaunch_meters (s : State) (l : Nat) (f : Launch → Launch) : (s.modLaunch l f).meters = s.meters := rfl
@[simp] theorem State.modLaunch_chain (s : State) (l : Nat) (f : Launch → Launch) : (s.modLaunch l f).chain = s.chain := rfl
@[simp] theorem State.modLaunch_snapshots (s : State) (l : Nat) (f : Launch → Launch) : (s.modLaunch l f).snapshots = s.snapshots := rfl
@[simp] theorem State.modLaunch_nextLife (s : State) (l : Nat) (f : Launch → Launch) : (s.modLaunch l f).nextLife = s.nextLife := rfl
@[simp] theorem State.modLaunch_hostNext (s : State) (l : Nat) (f : Launch → Launch) : (s.modLaunch l f).hostNext = s.hostNext := rfl
@[simp] theorem State.modLaunch_hostSlots (s : State) (l : Nat) (f : Launch → Launch) : (s.modLaunch l f).hostSlots = s.hostSlots := rfl
@[simp] theorem State.modLaunch_hostStatus (s : State) (l : Nat) (f : Launch → Launch) : (s.modLaunch l f).hostStatus = s.hostStatus := rfl
@[simp] theorem State.modLaunch_outbox (s : State) (l : Nat) (f : Launch → Launch) : (s.modLaunch l f).outbox = s.outbox := rfl
@[simp] theorem State.modLaunch_departed (s : State) (l : Nat) (f : Launch → Launch) : (s.modLaunch l f).departed = s.departed := rfl
@[simp] theorem State.modLaunch_replies (s : State) (l : Nat) (f : Launch → Launch) : (s.modLaunch l f).replies = s.replies := rfl
@[simp] theorem State.modLaunch_spdm (s : State) (l : Nat) (f : Launch → Launch) : (s.modLaunch l f).spdm = s.spdm := rfl
@[simp] theorem State.modLaunch_irqs (s : State) (l : Nat) (f : Launch → Launch) : (s.modLaunch l f).irqs = s.irqs := rfl
@[simp] theorem State.modLaunch_enqWait (s : State) (l : Nat) (f : Launch → Launch) : (s.modLaunch l f).enqWait = s.enqWait := rfl
@[simp] theorem State.modLaunch_ecc (s : State) (l : Nat) (f : Launch → Launch) : (s.modLaunch l f).ecc = s.ecc := rfl

@[simp] theorem State.modQueue_agenda (s : State) (q : Nat) (f : Queue → Queue) : (s.modQueue q f).agenda = s.agenda := rfl
@[simp] theorem State.modQueue_turn (s : State) (q : Nat) (f : Queue → Queue) : (s.modQueue q f).turn = s.turn := rfl
@[simp] theorem State.modQueue_free (s : State) (q : Nat) (f : Queue → Queue) : (s.modQueue q f).free = s.free := rfl
@[simp] theorem State.modQueue_cycle (s : State) (q : Nat) (f : Queue → Queue) : (s.modQueue q f).cycle = s.cycle := rfl
@[simp] theorem State.modQueue_regs (s : State) (q : Nat) (f : Queue → Queue) : (s.modQueue q f).regs = s.regs := rfl
@[simp] theorem State.modQueue_mem (s : State) (q : Nat) (f : Queue → Queue) : (s.modQueue q f).mem = s.mem := rfl
@[simp] theorem State.modQueue_tags (s : State) (q : Nat) (f : Queue → Queue) : (s.modQueue q f).tags = s.tags := rfl
@[simp] theorem State.modQueue_codeShadow (s : State) (q : Nat) (f : Queue → Queue) : (s.modQueue q f).codeShadow = s.codeShadow := rfl
@[simp] theorem State.modQueue_groups (s : State) (q : Nat) (f : Queue → Queue) : (s.modQueue q f).groups = s.groups := rfl
@[simp] theorem State.modQueue_cores (s : State) (q : Nat) (f : Queue → Queue) : (s.modQueue q f).cores = s.cores := rfl
@[simp] theorem State.modQueue_coreOwner (s : State) (q : Nat) (f : Queue → Queue) : (s.modQueue q f).coreOwner = s.coreOwner := rfl
@[simp] theorem State.modQueue_moves (s : State) (q : Nat) (f : Queue → Queue) : (s.modQueue q f).moves = s.moves := rfl
@[simp] theorem State.modQueue_l2 (s : State) (q : Nat) (f : Queue → Queue) : (s.modQueue q f).l2 = s.l2 := rfl
@[simp] theorem State.modQueue_fmtwin (s : State) (q : Nat) (f : Queue → Queue) : (s.modQueue q f).fmtwin = s.fmtwin := rfl
@[simp] theorem State.modQueue_closing (s : State) (q : Nat) (f : Queue → Queue) : (s.modQueue q f).closing = s.closing := rfl
@[simp] theorem State.modQueue_quarantined (s : State) (q : Nat) (f : Queue → Queue) : (s.modQueue q f).quarantined = s.quarantined := rfl
@[simp] theorem State.modQueue_corrected (s : State) (q : Nat) (f : Queue → Queue) : (s.modQueue q f).corrected = s.corrected := rfl
@[simp] theorem State.modQueue_rotation (s : State) (q : Nat) (f : Queue → Queue) : (s.modQueue q f).rotation = s.rotation := rfl
@[simp] theorem State.modQueue_restNext (s : State) (q : Nat) (f : Queue → Queue) : (s.modQueue q f).restNext = s.restNext := rfl
@[simp] theorem State.modQueue_queues (s : State) (q : Nat) (f : Queue → Queue) : (s.modQueue q f).queues = tabMod s.queues q f := rfl
@[simp] theorem State.modQueue_launches (s : State) (q : Nat) (f : Queue → Queue) : (s.modQueue q f).launches = s.launches := rfl
@[simp] theorem State.modQueue_nextLaunch (s : State) (q : Nat) (f : Queue → Queue) : (s.modQueue q f).nextLaunch = s.nextLaunch := rfl
@[simp] theorem State.modQueue_watches (s : State) (q : Nat) (f : Queue → Queue) : (s.modQueue q f).watches = s.watches := rfl
@[simp] theorem State.modQueue_tasks (s : State) (q : Nat) (f : Queue → Queue) : (s.modQueue q f).tasks = s.tasks := rfl
@[simp] theorem State.modQueue_nextTask (s : State) (q : Nat) (f : Queue → Queue) : (s.modQueue q f).nextTask = s.nextTask := rfl
@[simp] theorem State.modQueue_contexts (s : State) (q : Nat) (f : Queue → Queue) : (s.modQueue q f).contexts = s.contexts := rfl
@[simp] theorem State.modQueue_port (s : State) (q : Nat) (f : Queue → Queue) : (s.modQueue q f).port = s.port := rfl
@[simp] theorem State.modQueue_rings (s : State) (q : Nat) (f : Queue → Queue) : (s.modQueue q f).rings = s.rings := rfl
@[simp] theorem State.modQueue_turns (s : State) (q : Nat) (f : Queue → Queue) : (s.modQueue q f).turns = s.turns := rfl
@[simp] theorem State.modQueue_migrations (s : State) (q : Nat) (f : Queue → Queue) : (s.modQueue q f).migrations = s.migrations := rfl
@[simp] theorem State.modQueue_meters (s : State) (q : Nat) (f : Queue → Queue) : (s.modQueue q f).meters = s.meters := rfl
@[simp] theorem State.modQueue_chain (s : State) (q : Nat) (f : Queue → Queue) : (s.modQueue q f).chain = s.chain := rfl
@[simp] theorem State.modQueue_snapshots (s : State) (q : Nat) (f : Queue → Queue) : (s.modQueue q f).snapshots = s.snapshots := rfl
@[simp] theorem State.modQueue_nextLife (s : State) (q : Nat) (f : Queue → Queue) : (s.modQueue q f).nextLife = s.nextLife := rfl
@[simp] theorem State.modQueue_hostNext (s : State) (q : Nat) (f : Queue → Queue) : (s.modQueue q f).hostNext = s.hostNext := rfl
@[simp] theorem State.modQueue_hostSlots (s : State) (q : Nat) (f : Queue → Queue) : (s.modQueue q f).hostSlots = s.hostSlots := rfl
@[simp] theorem State.modQueue_hostStatus (s : State) (q : Nat) (f : Queue → Queue) : (s.modQueue q f).hostStatus = s.hostStatus := rfl
@[simp] theorem State.modQueue_outbox (s : State) (q : Nat) (f : Queue → Queue) : (s.modQueue q f).outbox = s.outbox := rfl
@[simp] theorem State.modQueue_departed (s : State) (q : Nat) (f : Queue → Queue) : (s.modQueue q f).departed = s.departed := rfl
@[simp] theorem State.modQueue_replies (s : State) (q : Nat) (f : Queue → Queue) : (s.modQueue q f).replies = s.replies := rfl
@[simp] theorem State.modQueue_spdm (s : State) (q : Nat) (f : Queue → Queue) : (s.modQueue q f).spdm = s.spdm := rfl
@[simp] theorem State.modQueue_irqs (s : State) (q : Nat) (f : Queue → Queue) : (s.modQueue q f).irqs = s.irqs := rfl
@[simp] theorem State.modQueue_enqWait (s : State) (q : Nat) (f : Queue → Queue) : (s.modQueue q f).enqWait = s.enqWait := rfl
@[simp] theorem State.modQueue_ecc (s : State) (q : Nat) (f : Queue → Queue) : (s.modQueue q f).ecc = s.ecc := rfl

@[simp] theorem State.modTask_agenda (s : State) (n : Nat) (f : TaskRec → TaskRec) : (s.modTask n f).agenda = s.agenda := rfl
@[simp] theorem State.modTask_turn (s : State) (n : Nat) (f : TaskRec → TaskRec) : (s.modTask n f).turn = s.turn := rfl
@[simp] theorem State.modTask_free (s : State) (n : Nat) (f : TaskRec → TaskRec) : (s.modTask n f).free = s.free := rfl
@[simp] theorem State.modTask_cycle (s : State) (n : Nat) (f : TaskRec → TaskRec) : (s.modTask n f).cycle = s.cycle := rfl
@[simp] theorem State.modTask_regs (s : State) (n : Nat) (f : TaskRec → TaskRec) : (s.modTask n f).regs = s.regs := rfl
@[simp] theorem State.modTask_mem (s : State) (n : Nat) (f : TaskRec → TaskRec) : (s.modTask n f).mem = s.mem := rfl
@[simp] theorem State.modTask_tags (s : State) (n : Nat) (f : TaskRec → TaskRec) : (s.modTask n f).tags = s.tags := rfl
@[simp] theorem State.modTask_codeShadow (s : State) (n : Nat) (f : TaskRec → TaskRec) : (s.modTask n f).codeShadow = s.codeShadow := rfl
@[simp] theorem State.modTask_groups (s : State) (n : Nat) (f : TaskRec → TaskRec) : (s.modTask n f).groups = s.groups := rfl
@[simp] theorem State.modTask_cores (s : State) (n : Nat) (f : TaskRec → TaskRec) : (s.modTask n f).cores = s.cores := rfl
@[simp] theorem State.modTask_coreOwner (s : State) (n : Nat) (f : TaskRec → TaskRec) : (s.modTask n f).coreOwner = s.coreOwner := rfl
@[simp] theorem State.modTask_moves (s : State) (n : Nat) (f : TaskRec → TaskRec) : (s.modTask n f).moves = s.moves := rfl
@[simp] theorem State.modTask_l2 (s : State) (n : Nat) (f : TaskRec → TaskRec) : (s.modTask n f).l2 = s.l2 := rfl
@[simp] theorem State.modTask_fmtwin (s : State) (n : Nat) (f : TaskRec → TaskRec) : (s.modTask n f).fmtwin = s.fmtwin := rfl
@[simp] theorem State.modTask_closing (s : State) (n : Nat) (f : TaskRec → TaskRec) : (s.modTask n f).closing = s.closing := rfl
@[simp] theorem State.modTask_quarantined (s : State) (n : Nat) (f : TaskRec → TaskRec) : (s.modTask n f).quarantined = s.quarantined := rfl
@[simp] theorem State.modTask_corrected (s : State) (n : Nat) (f : TaskRec → TaskRec) : (s.modTask n f).corrected = s.corrected := rfl
@[simp] theorem State.modTask_rotation (s : State) (n : Nat) (f : TaskRec → TaskRec) : (s.modTask n f).rotation = s.rotation := rfl
@[simp] theorem State.modTask_restNext (s : State) (n : Nat) (f : TaskRec → TaskRec) : (s.modTask n f).restNext = s.restNext := rfl
@[simp] theorem State.modTask_queues (s : State) (n : Nat) (f : TaskRec → TaskRec) : (s.modTask n f).queues = s.queues := rfl
@[simp] theorem State.modTask_launches (s : State) (n : Nat) (f : TaskRec → TaskRec) : (s.modTask n f).launches = s.launches := rfl
@[simp] theorem State.modTask_nextLaunch (s : State) (n : Nat) (f : TaskRec → TaskRec) : (s.modTask n f).nextLaunch = s.nextLaunch := rfl
@[simp] theorem State.modTask_watches (s : State) (n : Nat) (f : TaskRec → TaskRec) : (s.modTask n f).watches = s.watches := rfl
@[simp] theorem State.modTask_tasks (s : State) (n : Nat) (f : TaskRec → TaskRec) : (s.modTask n f).tasks = tabMod s.tasks n f := rfl
@[simp] theorem State.modTask_nextTask (s : State) (n : Nat) (f : TaskRec → TaskRec) : (s.modTask n f).nextTask = s.nextTask := rfl
@[simp] theorem State.modTask_contexts (s : State) (n : Nat) (f : TaskRec → TaskRec) : (s.modTask n f).contexts = s.contexts := rfl
@[simp] theorem State.modTask_port (s : State) (n : Nat) (f : TaskRec → TaskRec) : (s.modTask n f).port = s.port := rfl
@[simp] theorem State.modTask_rings (s : State) (n : Nat) (f : TaskRec → TaskRec) : (s.modTask n f).rings = s.rings := rfl
@[simp] theorem State.modTask_turns (s : State) (n : Nat) (f : TaskRec → TaskRec) : (s.modTask n f).turns = s.turns := rfl
@[simp] theorem State.modTask_migrations (s : State) (n : Nat) (f : TaskRec → TaskRec) : (s.modTask n f).migrations = s.migrations := rfl
@[simp] theorem State.modTask_meters (s : State) (n : Nat) (f : TaskRec → TaskRec) : (s.modTask n f).meters = s.meters := rfl
@[simp] theorem State.modTask_chain (s : State) (n : Nat) (f : TaskRec → TaskRec) : (s.modTask n f).chain = s.chain := rfl
@[simp] theorem State.modTask_snapshots (s : State) (n : Nat) (f : TaskRec → TaskRec) : (s.modTask n f).snapshots = s.snapshots := rfl
@[simp] theorem State.modTask_nextLife (s : State) (n : Nat) (f : TaskRec → TaskRec) : (s.modTask n f).nextLife = s.nextLife := rfl
@[simp] theorem State.modTask_hostNext (s : State) (n : Nat) (f : TaskRec → TaskRec) : (s.modTask n f).hostNext = s.hostNext := rfl
@[simp] theorem State.modTask_hostSlots (s : State) (n : Nat) (f : TaskRec → TaskRec) : (s.modTask n f).hostSlots = s.hostSlots := rfl
@[simp] theorem State.modTask_hostStatus (s : State) (n : Nat) (f : TaskRec → TaskRec) : (s.modTask n f).hostStatus = s.hostStatus := rfl
@[simp] theorem State.modTask_outbox (s : State) (n : Nat) (f : TaskRec → TaskRec) : (s.modTask n f).outbox = s.outbox := rfl
@[simp] theorem State.modTask_departed (s : State) (n : Nat) (f : TaskRec → TaskRec) : (s.modTask n f).departed = s.departed := rfl
@[simp] theorem State.modTask_replies (s : State) (n : Nat) (f : TaskRec → TaskRec) : (s.modTask n f).replies = s.replies := rfl
@[simp] theorem State.modTask_spdm (s : State) (n : Nat) (f : TaskRec → TaskRec) : (s.modTask n f).spdm = s.spdm := rfl
@[simp] theorem State.modTask_irqs (s : State) (n : Nat) (f : TaskRec → TaskRec) : (s.modTask n f).irqs = s.irqs := rfl
@[simp] theorem State.modTask_enqWait (s : State) (n : Nat) (f : TaskRec → TaskRec) : (s.modTask n f).enqWait = s.enqWait := rfl
@[simp] theorem State.modTask_ecc (s : State) (n : Nat) (f : TaskRec → TaskRec) : (s.modTask n f).ecc = s.ecc := rfl

@[simp] theorem State.modRegs_agenda (s : State) (f : Regs → Regs) : (s.modRegs f).agenda = s.agenda := rfl
@[simp] theorem State.modRegs_turn (s : State) (f : Regs → Regs) : (s.modRegs f).turn = s.turn := rfl
@[simp] theorem State.modRegs_free (s : State) (f : Regs → Regs) : (s.modRegs f).free = s.free := rfl
@[simp] theorem State.modRegs_cycle (s : State) (f : Regs → Regs) : (s.modRegs f).cycle = s.cycle := rfl
@[simp] theorem State.modRegs_regs (s : State) (f : Regs → Regs) : (s.modRegs f).regs = f s.regs := rfl
@[simp] theorem State.modRegs_mem (s : State) (f : Regs → Regs) : (s.modRegs f).mem = s.mem := rfl
@[simp] theorem State.modRegs_tags (s : State) (f : Regs → Regs) : (s.modRegs f).tags = s.tags := rfl
@[simp] theorem State.modRegs_codeShadow (s : State) (f : Regs → Regs) : (s.modRegs f).codeShadow = s.codeShadow := rfl
@[simp] theorem State.modRegs_groups (s : State) (f : Regs → Regs) : (s.modRegs f).groups = s.groups := rfl
@[simp] theorem State.modRegs_cores (s : State) (f : Regs → Regs) : (s.modRegs f).cores = s.cores := rfl
@[simp] theorem State.modRegs_coreOwner (s : State) (f : Regs → Regs) : (s.modRegs f).coreOwner = s.coreOwner := rfl
@[simp] theorem State.modRegs_moves (s : State) (f : Regs → Regs) : (s.modRegs f).moves = s.moves := rfl
@[simp] theorem State.modRegs_l2 (s : State) (f : Regs → Regs) : (s.modRegs f).l2 = s.l2 := rfl
@[simp] theorem State.modRegs_fmtwin (s : State) (f : Regs → Regs) : (s.modRegs f).fmtwin = s.fmtwin := rfl
@[simp] theorem State.modRegs_closing (s : State) (f : Regs → Regs) : (s.modRegs f).closing = s.closing := rfl
@[simp] theorem State.modRegs_quarantined (s : State) (f : Regs → Regs) : (s.modRegs f).quarantined = s.quarantined := rfl
@[simp] theorem State.modRegs_corrected (s : State) (f : Regs → Regs) : (s.modRegs f).corrected = s.corrected := rfl
@[simp] theorem State.modRegs_rotation (s : State) (f : Regs → Regs) : (s.modRegs f).rotation = s.rotation := rfl
@[simp] theorem State.modRegs_restNext (s : State) (f : Regs → Regs) : (s.modRegs f).restNext = s.restNext := rfl
@[simp] theorem State.modRegs_queues (s : State) (f : Regs → Regs) : (s.modRegs f).queues = s.queues := rfl
@[simp] theorem State.modRegs_launches (s : State) (f : Regs → Regs) : (s.modRegs f).launches = s.launches := rfl
@[simp] theorem State.modRegs_nextLaunch (s : State) (f : Regs → Regs) : (s.modRegs f).nextLaunch = s.nextLaunch := rfl
@[simp] theorem State.modRegs_watches (s : State) (f : Regs → Regs) : (s.modRegs f).watches = s.watches := rfl
@[simp] theorem State.modRegs_tasks (s : State) (f : Regs → Regs) : (s.modRegs f).tasks = s.tasks := rfl
@[simp] theorem State.modRegs_nextTask (s : State) (f : Regs → Regs) : (s.modRegs f).nextTask = s.nextTask := rfl
@[simp] theorem State.modRegs_contexts (s : State) (f : Regs → Regs) : (s.modRegs f).contexts = s.contexts := rfl
@[simp] theorem State.modRegs_port (s : State) (f : Regs → Regs) : (s.modRegs f).port = s.port := rfl
@[simp] theorem State.modRegs_rings (s : State) (f : Regs → Regs) : (s.modRegs f).rings = s.rings := rfl
@[simp] theorem State.modRegs_turns (s : State) (f : Regs → Regs) : (s.modRegs f).turns = s.turns := rfl
@[simp] theorem State.modRegs_migrations (s : State) (f : Regs → Regs) : (s.modRegs f).migrations = s.migrations := rfl
@[simp] theorem State.modRegs_meters (s : State) (f : Regs → Regs) : (s.modRegs f).meters = s.meters := rfl
@[simp] theorem State.modRegs_chain (s : State) (f : Regs → Regs) : (s.modRegs f).chain = s.chain := rfl
@[simp] theorem State.modRegs_snapshots (s : State) (f : Regs → Regs) : (s.modRegs f).snapshots = s.snapshots := rfl
@[simp] theorem State.modRegs_nextLife (s : State) (f : Regs → Regs) : (s.modRegs f).nextLife = s.nextLife := rfl
@[simp] theorem State.modRegs_hostNext (s : State) (f : Regs → Regs) : (s.modRegs f).hostNext = s.hostNext := rfl
@[simp] theorem State.modRegs_hostSlots (s : State) (f : Regs → Regs) : (s.modRegs f).hostSlots = s.hostSlots := rfl
@[simp] theorem State.modRegs_hostStatus (s : State) (f : Regs → Regs) : (s.modRegs f).hostStatus = s.hostStatus := rfl
@[simp] theorem State.modRegs_outbox (s : State) (f : Regs → Regs) : (s.modRegs f).outbox = s.outbox := rfl
@[simp] theorem State.modRegs_departed (s : State) (f : Regs → Regs) : (s.modRegs f).departed = s.departed := rfl
@[simp] theorem State.modRegs_replies (s : State) (f : Regs → Regs) : (s.modRegs f).replies = s.replies := rfl
@[simp] theorem State.modRegs_spdm (s : State) (f : Regs → Regs) : (s.modRegs f).spdm = s.spdm := rfl
@[simp] theorem State.modRegs_irqs (s : State) (f : Regs → Regs) : (s.modRegs f).irqs = s.irqs := rfl
@[simp] theorem State.modRegs_enqWait (s : State) (f : Regs → Regs) : (s.modRegs f).enqWait = s.enqWait := rfl
@[simp] theorem State.modRegs_ecc (s : State) (f : Regs → Regs) : (s.modRegs f).ecc = s.ecc := rfl

@[simp] theorem State.tick_agenda (s : State) : (s.tick).agenda = s.agenda := rfl
@[simp] theorem State.tick_turn (s : State) : (s.tick).turn = s.turn := rfl
@[simp] theorem State.tick_free (s : State) : (s.tick).free = s.free + 1 := rfl
@[simp] theorem State.tick_cycle (s : State) : (s.tick).cycle = s.cycle := rfl
@[simp] theorem State.tick_regs (s : State) : (s.tick).regs = s.regs := rfl
@[simp] theorem State.tick_mem (s : State) : (s.tick).mem = s.mem := rfl
@[simp] theorem State.tick_tags (s : State) : (s.tick).tags = s.tags := rfl
@[simp] theorem State.tick_codeShadow (s : State) : (s.tick).codeShadow = s.codeShadow := rfl
@[simp] theorem State.tick_groups (s : State) : (s.tick).groups = s.groups := rfl
@[simp] theorem State.tick_cores (s : State) : (s.tick).cores = s.cores := rfl
@[simp] theorem State.tick_coreOwner (s : State) : (s.tick).coreOwner = s.coreOwner := rfl
@[simp] theorem State.tick_moves (s : State) : (s.tick).moves = s.moves := rfl
@[simp] theorem State.tick_l2 (s : State) : (s.tick).l2 = s.l2 := rfl
@[simp] theorem State.tick_fmtwin (s : State) : (s.tick).fmtwin = s.fmtwin := rfl
@[simp] theorem State.tick_closing (s : State) : (s.tick).closing = s.closing := rfl
@[simp] theorem State.tick_quarantined (s : State) : (s.tick).quarantined = s.quarantined := rfl
@[simp] theorem State.tick_corrected (s : State) : (s.tick).corrected = s.corrected := rfl
@[simp] theorem State.tick_rotation (s : State) : (s.tick).rotation = s.rotation := rfl
@[simp] theorem State.tick_restNext (s : State) : (s.tick).restNext = s.restNext := rfl
@[simp] theorem State.tick_queues (s : State) : (s.tick).queues = s.queues := rfl
@[simp] theorem State.tick_launches (s : State) : (s.tick).launches = s.launches := rfl
@[simp] theorem State.tick_nextLaunch (s : State) : (s.tick).nextLaunch = s.nextLaunch := rfl
@[simp] theorem State.tick_watches (s : State) : (s.tick).watches = s.watches := rfl
@[simp] theorem State.tick_tasks (s : State) : (s.tick).tasks = s.tasks := rfl
@[simp] theorem State.tick_nextTask (s : State) : (s.tick).nextTask = s.nextTask := rfl
@[simp] theorem State.tick_contexts (s : State) : (s.tick).contexts = s.contexts := rfl
@[simp] theorem State.tick_port (s : State) : (s.tick).port = s.port := rfl
@[simp] theorem State.tick_rings (s : State) : (s.tick).rings = s.rings := rfl
@[simp] theorem State.tick_turns (s : State) : (s.tick).turns = s.turns := rfl
@[simp] theorem State.tick_migrations (s : State) : (s.tick).migrations = s.migrations := rfl
@[simp] theorem State.tick_meters (s : State) : (s.tick).meters = s.meters := rfl
@[simp] theorem State.tick_chain (s : State) : (s.tick).chain = s.chain := rfl
@[simp] theorem State.tick_snapshots (s : State) : (s.tick).snapshots = s.snapshots := rfl
@[simp] theorem State.tick_nextLife (s : State) : (s.tick).nextLife = s.nextLife := rfl
@[simp] theorem State.tick_hostNext (s : State) : (s.tick).hostNext = s.hostNext := rfl
@[simp] theorem State.tick_hostSlots (s : State) : (s.tick).hostSlots = s.hostSlots := rfl
@[simp] theorem State.tick_hostStatus (s : State) : (s.tick).hostStatus = s.hostStatus := rfl
@[simp] theorem State.tick_outbox (s : State) : (s.tick).outbox = s.outbox := rfl
@[simp] theorem State.tick_departed (s : State) : (s.tick).departed = s.departed := rfl
@[simp] theorem State.tick_replies (s : State) : (s.tick).replies = s.replies := rfl
@[simp] theorem State.tick_spdm (s : State) : (s.tick).spdm = s.spdm := rfl
@[simp] theorem State.tick_irqs (s : State) : (s.tick).irqs = s.irqs := rfl
@[simp] theorem State.tick_enqWait (s : State) : (s.tick).enqWait = s.enqWait := rfl
@[simp] theorem State.tick_ecc (s : State) : (s.tick).ecc = s.ecc := rfl

@[simp] theorem State.setByte_agenda (s : State) (pa : Nat) (b : Byte) : (s.setByte pa b).agenda = s.agenda := rfl
@[simp] theorem State.setByte_turn (s : State) (pa : Nat) (b : Byte) : (s.setByte pa b).turn = s.turn := rfl
@[simp] theorem State.setByte_free (s : State) (pa : Nat) (b : Byte) : (s.setByte pa b).free = s.free := rfl
@[simp] theorem State.setByte_cycle (s : State) (pa : Nat) (b : Byte) : (s.setByte pa b).cycle = s.cycle := rfl
@[simp] theorem State.setByte_regs (s : State) (pa : Nat) (b : Byte) : (s.setByte pa b).regs = s.regs := rfl
@[simp] theorem State.setByte_mem (s : State) (pa : Nat) (b : Byte) : (s.setByte pa b).mem = tabSet Memory.unlisted s.mem pa b := rfl
@[simp] theorem State.setByte_tags (s : State) (pa : Nat) (b : Byte) : (s.setByte pa b).tags = s.tags := rfl
@[simp] theorem State.setByte_codeShadow (s : State) (pa : Nat) (b : Byte) : (s.setByte pa b).codeShadow = s.codeShadow := rfl
@[simp] theorem State.setByte_groups (s : State) (pa : Nat) (b : Byte) : (s.setByte pa b).groups = s.groups := rfl
@[simp] theorem State.setByte_cores (s : State) (pa : Nat) (b : Byte) : (s.setByte pa b).cores = s.cores := rfl
@[simp] theorem State.setByte_coreOwner (s : State) (pa : Nat) (b : Byte) : (s.setByte pa b).coreOwner = s.coreOwner := rfl
@[simp] theorem State.setByte_moves (s : State) (pa : Nat) (b : Byte) : (s.setByte pa b).moves = s.moves := rfl
@[simp] theorem State.setByte_l2 (s : State) (pa : Nat) (b : Byte) : (s.setByte pa b).l2 = s.l2 := rfl
@[simp] theorem State.setByte_fmtwin (s : State) (pa : Nat) (b : Byte) : (s.setByte pa b).fmtwin = s.fmtwin := rfl
@[simp] theorem State.setByte_closing (s : State) (pa : Nat) (b : Byte) : (s.setByte pa b).closing = s.closing := rfl
@[simp] theorem State.setByte_quarantined (s : State) (pa : Nat) (b : Byte) : (s.setByte pa b).quarantined = s.quarantined := rfl
@[simp] theorem State.setByte_corrected (s : State) (pa : Nat) (b : Byte) : (s.setByte pa b).corrected = s.corrected := rfl
@[simp] theorem State.setByte_rotation (s : State) (pa : Nat) (b : Byte) : (s.setByte pa b).rotation = s.rotation := rfl
@[simp] theorem State.setByte_restNext (s : State) (pa : Nat) (b : Byte) : (s.setByte pa b).restNext = s.restNext := rfl
@[simp] theorem State.setByte_queues (s : State) (pa : Nat) (b : Byte) : (s.setByte pa b).queues = s.queues := rfl
@[simp] theorem State.setByte_launches (s : State) (pa : Nat) (b : Byte) : (s.setByte pa b).launches = s.launches := rfl
@[simp] theorem State.setByte_nextLaunch (s : State) (pa : Nat) (b : Byte) : (s.setByte pa b).nextLaunch = s.nextLaunch := rfl
@[simp] theorem State.setByte_watches (s : State) (pa : Nat) (b : Byte) : (s.setByte pa b).watches = s.watches := rfl
@[simp] theorem State.setByte_tasks (s : State) (pa : Nat) (b : Byte) : (s.setByte pa b).tasks = s.tasks := rfl
@[simp] theorem State.setByte_nextTask (s : State) (pa : Nat) (b : Byte) : (s.setByte pa b).nextTask = s.nextTask := rfl
@[simp] theorem State.setByte_contexts (s : State) (pa : Nat) (b : Byte) : (s.setByte pa b).contexts = s.contexts := rfl
@[simp] theorem State.setByte_port (s : State) (pa : Nat) (b : Byte) : (s.setByte pa b).port = s.port := rfl
@[simp] theorem State.setByte_rings (s : State) (pa : Nat) (b : Byte) : (s.setByte pa b).rings = s.rings := rfl
@[simp] theorem State.setByte_turns (s : State) (pa : Nat) (b : Byte) : (s.setByte pa b).turns = s.turns := rfl
@[simp] theorem State.setByte_migrations (s : State) (pa : Nat) (b : Byte) : (s.setByte pa b).migrations = s.migrations := rfl
@[simp] theorem State.setByte_meters (s : State) (pa : Nat) (b : Byte) : (s.setByte pa b).meters = s.meters := rfl
@[simp] theorem State.setByte_chain (s : State) (pa : Nat) (b : Byte) : (s.setByte pa b).chain = s.chain := rfl
@[simp] theorem State.setByte_snapshots (s : State) (pa : Nat) (b : Byte) : (s.setByte pa b).snapshots = s.snapshots := rfl
@[simp] theorem State.setByte_nextLife (s : State) (pa : Nat) (b : Byte) : (s.setByte pa b).nextLife = s.nextLife := rfl
@[simp] theorem State.setByte_hostNext (s : State) (pa : Nat) (b : Byte) : (s.setByte pa b).hostNext = s.hostNext := rfl
@[simp] theorem State.setByte_hostSlots (s : State) (pa : Nat) (b : Byte) : (s.setByte pa b).hostSlots = s.hostSlots := rfl
@[simp] theorem State.setByte_hostStatus (s : State) (pa : Nat) (b : Byte) : (s.setByte pa b).hostStatus = s.hostStatus := rfl
@[simp] theorem State.setByte_outbox (s : State) (pa : Nat) (b : Byte) : (s.setByte pa b).outbox = s.outbox := rfl
@[simp] theorem State.setByte_departed (s : State) (pa : Nat) (b : Byte) : (s.setByte pa b).departed = s.departed := rfl
@[simp] theorem State.setByte_replies (s : State) (pa : Nat) (b : Byte) : (s.setByte pa b).replies = s.replies := rfl
@[simp] theorem State.setByte_spdm (s : State) (pa : Nat) (b : Byte) : (s.setByte pa b).spdm = s.spdm := rfl
@[simp] theorem State.setByte_irqs (s : State) (pa : Nat) (b : Byte) : (s.setByte pa b).irqs = s.irqs := rfl
@[simp] theorem State.setByte_enqWait (s : State) (pa : Nat) (b : Byte) : (s.setByte pa b).enqWait = s.enqWait := rfl
@[simp] theorem State.setByte_ecc (s : State) (pa : Nat) (b : Byte) : (s.setByte pa b).ecc = s.ecc := rfl

@[simp] theorem State.setTag_agenda (s : State) (pa : Nat) (v : Bool) : (s.setTag pa v).agenda = s.agenda := rfl
@[simp] theorem State.setTag_turn (s : State) (pa : Nat) (v : Bool) : (s.setTag pa v).turn = s.turn := rfl
@[simp] theorem State.setTag_free (s : State) (pa : Nat) (v : Bool) : (s.setTag pa v).free = s.free := rfl
@[simp] theorem State.setTag_cycle (s : State) (pa : Nat) (v : Bool) : (s.setTag pa v).cycle = s.cycle := rfl
@[simp] theorem State.setTag_regs (s : State) (pa : Nat) (v : Bool) : (s.setTag pa v).regs = s.regs := rfl
@[simp] theorem State.setTag_mem (s : State) (pa : Nat) (v : Bool) : (s.setTag pa v).mem = s.mem := rfl
@[simp] theorem State.setTag_codeShadow (s : State) (pa : Nat) (v : Bool) : (s.setTag pa v).codeShadow = s.codeShadow := rfl
@[simp] theorem State.setTag_groups (s : State) (pa : Nat) (v : Bool) : (s.setTag pa v).groups = s.groups := rfl
@[simp] theorem State.setTag_cores (s : State) (pa : Nat) (v : Bool) : (s.setTag pa v).cores = s.cores := rfl
@[simp] theorem State.setTag_coreOwner (s : State) (pa : Nat) (v : Bool) : (s.setTag pa v).coreOwner = s.coreOwner := rfl
@[simp] theorem State.setTag_moves (s : State) (pa : Nat) (v : Bool) : (s.setTag pa v).moves = s.moves := rfl
@[simp] theorem State.setTag_l2 (s : State) (pa : Nat) (v : Bool) : (s.setTag pa v).l2 = s.l2 := rfl
@[simp] theorem State.setTag_fmtwin (s : State) (pa : Nat) (v : Bool) : (s.setTag pa v).fmtwin = s.fmtwin := rfl
@[simp] theorem State.setTag_closing (s : State) (pa : Nat) (v : Bool) : (s.setTag pa v).closing = s.closing := rfl
@[simp] theorem State.setTag_quarantined (s : State) (pa : Nat) (v : Bool) : (s.setTag pa v).quarantined = s.quarantined := rfl
@[simp] theorem State.setTag_corrected (s : State) (pa : Nat) (v : Bool) : (s.setTag pa v).corrected = s.corrected := rfl
@[simp] theorem State.setTag_rotation (s : State) (pa : Nat) (v : Bool) : (s.setTag pa v).rotation = s.rotation := rfl
@[simp] theorem State.setTag_restNext (s : State) (pa : Nat) (v : Bool) : (s.setTag pa v).restNext = s.restNext := rfl
@[simp] theorem State.setTag_queues (s : State) (pa : Nat) (v : Bool) : (s.setTag pa v).queues = s.queues := rfl
@[simp] theorem State.setTag_launches (s : State) (pa : Nat) (v : Bool) : (s.setTag pa v).launches = s.launches := rfl
@[simp] theorem State.setTag_nextLaunch (s : State) (pa : Nat) (v : Bool) : (s.setTag pa v).nextLaunch = s.nextLaunch := rfl
@[simp] theorem State.setTag_watches (s : State) (pa : Nat) (v : Bool) : (s.setTag pa v).watches = s.watches := rfl
@[simp] theorem State.setTag_tasks (s : State) (pa : Nat) (v : Bool) : (s.setTag pa v).tasks = s.tasks := rfl
@[simp] theorem State.setTag_nextTask (s : State) (pa : Nat) (v : Bool) : (s.setTag pa v).nextTask = s.nextTask := rfl
@[simp] theorem State.setTag_contexts (s : State) (pa : Nat) (v : Bool) : (s.setTag pa v).contexts = s.contexts := rfl
@[simp] theorem State.setTag_port (s : State) (pa : Nat) (v : Bool) : (s.setTag pa v).port = s.port := rfl
@[simp] theorem State.setTag_rings (s : State) (pa : Nat) (v : Bool) : (s.setTag pa v).rings = s.rings := rfl
@[simp] theorem State.setTag_turns (s : State) (pa : Nat) (v : Bool) : (s.setTag pa v).turns = s.turns := rfl
@[simp] theorem State.setTag_migrations (s : State) (pa : Nat) (v : Bool) : (s.setTag pa v).migrations = s.migrations := rfl
@[simp] theorem State.setTag_meters (s : State) (pa : Nat) (v : Bool) : (s.setTag pa v).meters = s.meters := rfl
@[simp] theorem State.setTag_chain (s : State) (pa : Nat) (v : Bool) : (s.setTag pa v).chain = s.chain := rfl
@[simp] theorem State.setTag_snapshots (s : State) (pa : Nat) (v : Bool) : (s.setTag pa v).snapshots = s.snapshots := rfl
@[simp] theorem State.setTag_nextLife (s : State) (pa : Nat) (v : Bool) : (s.setTag pa v).nextLife = s.nextLife := rfl
@[simp] theorem State.setTag_hostNext (s : State) (pa : Nat) (v : Bool) : (s.setTag pa v).hostNext = s.hostNext := rfl
@[simp] theorem State.setTag_hostSlots (s : State) (pa : Nat) (v : Bool) : (s.setTag pa v).hostSlots = s.hostSlots := rfl
@[simp] theorem State.setTag_hostStatus (s : State) (pa : Nat) (v : Bool) : (s.setTag pa v).hostStatus = s.hostStatus := rfl
@[simp] theorem State.setTag_outbox (s : State) (pa : Nat) (v : Bool) : (s.setTag pa v).outbox = s.outbox := rfl
@[simp] theorem State.setTag_departed (s : State) (pa : Nat) (v : Bool) : (s.setTag pa v).departed = s.departed := rfl
@[simp] theorem State.setTag_replies (s : State) (pa : Nat) (v : Bool) : (s.setTag pa v).replies = s.replies := rfl
@[simp] theorem State.setTag_spdm (s : State) (pa : Nat) (v : Bool) : (s.setTag pa v).spdm = s.spdm := rfl
@[simp] theorem State.setTag_irqs (s : State) (pa : Nat) (v : Bool) : (s.setTag pa v).irqs = s.irqs := rfl
@[simp] theorem State.setTag_enqWait (s : State) (pa : Nat) (v : Bool) : (s.setTag pa v).enqWait = s.enqWait := rfl
@[simp] theorem State.setTag_ecc (s : State) (pa : Nat) (v : Bool) : (s.setTag pa v).ecc = s.ecc := rfl

@[simp] theorem State.clearTags_agenda (s : State) (pa n : Nat) : (s.clearTags pa n).agenda = s.agenda := rfl
@[simp] theorem State.clearTags_turn (s : State) (pa n : Nat) : (s.clearTags pa n).turn = s.turn := rfl
@[simp] theorem State.clearTags_free (s : State) (pa n : Nat) : (s.clearTags pa n).free = s.free := rfl
@[simp] theorem State.clearTags_cycle (s : State) (pa n : Nat) : (s.clearTags pa n).cycle = s.cycle := rfl
@[simp] theorem State.clearTags_regs (s : State) (pa n : Nat) : (s.clearTags pa n).regs = s.regs := rfl
@[simp] theorem State.clearTags_mem (s : State) (pa n : Nat) : (s.clearTags pa n).mem = s.mem := rfl
@[simp] theorem State.clearTags_codeShadow (s : State) (pa n : Nat) : (s.clearTags pa n).codeShadow = s.codeShadow := rfl
@[simp] theorem State.clearTags_groups (s : State) (pa n : Nat) : (s.clearTags pa n).groups = s.groups := rfl
@[simp] theorem State.clearTags_cores (s : State) (pa n : Nat) : (s.clearTags pa n).cores = s.cores := rfl
@[simp] theorem State.clearTags_coreOwner (s : State) (pa n : Nat) : (s.clearTags pa n).coreOwner = s.coreOwner := rfl
@[simp] theorem State.clearTags_moves (s : State) (pa n : Nat) : (s.clearTags pa n).moves = s.moves := rfl
@[simp] theorem State.clearTags_l2 (s : State) (pa n : Nat) : (s.clearTags pa n).l2 = s.l2 := rfl
@[simp] theorem State.clearTags_fmtwin (s : State) (pa n : Nat) : (s.clearTags pa n).fmtwin = s.fmtwin := rfl
@[simp] theorem State.clearTags_closing (s : State) (pa n : Nat) : (s.clearTags pa n).closing = s.closing := rfl
@[simp] theorem State.clearTags_quarantined (s : State) (pa n : Nat) : (s.clearTags pa n).quarantined = s.quarantined := rfl
@[simp] theorem State.clearTags_corrected (s : State) (pa n : Nat) : (s.clearTags pa n).corrected = s.corrected := rfl
@[simp] theorem State.clearTags_rotation (s : State) (pa n : Nat) : (s.clearTags pa n).rotation = s.rotation := rfl
@[simp] theorem State.clearTags_restNext (s : State) (pa n : Nat) : (s.clearTags pa n).restNext = s.restNext := rfl
@[simp] theorem State.clearTags_queues (s : State) (pa n : Nat) : (s.clearTags pa n).queues = s.queues := rfl
@[simp] theorem State.clearTags_launches (s : State) (pa n : Nat) : (s.clearTags pa n).launches = s.launches := rfl
@[simp] theorem State.clearTags_nextLaunch (s : State) (pa n : Nat) : (s.clearTags pa n).nextLaunch = s.nextLaunch := rfl
@[simp] theorem State.clearTags_watches (s : State) (pa n : Nat) : (s.clearTags pa n).watches = s.watches := rfl
@[simp] theorem State.clearTags_tasks (s : State) (pa n : Nat) : (s.clearTags pa n).tasks = s.tasks := rfl
@[simp] theorem State.clearTags_nextTask (s : State) (pa n : Nat) : (s.clearTags pa n).nextTask = s.nextTask := rfl
@[simp] theorem State.clearTags_contexts (s : State) (pa n : Nat) : (s.clearTags pa n).contexts = s.contexts := rfl
@[simp] theorem State.clearTags_port (s : State) (pa n : Nat) : (s.clearTags pa n).port = s.port := rfl
@[simp] theorem State.clearTags_rings (s : State) (pa n : Nat) : (s.clearTags pa n).rings = s.rings := rfl
@[simp] theorem State.clearTags_turns (s : State) (pa n : Nat) : (s.clearTags pa n).turns = s.turns := rfl
@[simp] theorem State.clearTags_migrations (s : State) (pa n : Nat) : (s.clearTags pa n).migrations = s.migrations := rfl
@[simp] theorem State.clearTags_meters (s : State) (pa n : Nat) : (s.clearTags pa n).meters = s.meters := rfl
@[simp] theorem State.clearTags_chain (s : State) (pa n : Nat) : (s.clearTags pa n).chain = s.chain := rfl
@[simp] theorem State.clearTags_snapshots (s : State) (pa n : Nat) : (s.clearTags pa n).snapshots = s.snapshots := rfl
@[simp] theorem State.clearTags_nextLife (s : State) (pa n : Nat) : (s.clearTags pa n).nextLife = s.nextLife := rfl
@[simp] theorem State.clearTags_hostNext (s : State) (pa n : Nat) : (s.clearTags pa n).hostNext = s.hostNext := rfl
@[simp] theorem State.clearTags_hostSlots (s : State) (pa n : Nat) : (s.clearTags pa n).hostSlots = s.hostSlots := rfl
@[simp] theorem State.clearTags_hostStatus (s : State) (pa n : Nat) : (s.clearTags pa n).hostStatus = s.hostStatus := rfl
@[simp] theorem State.clearTags_outbox (s : State) (pa n : Nat) : (s.clearTags pa n).outbox = s.outbox := rfl
@[simp] theorem State.clearTags_departed (s : State) (pa n : Nat) : (s.clearTags pa n).departed = s.departed := rfl
@[simp] theorem State.clearTags_replies (s : State) (pa n : Nat) : (s.clearTags pa n).replies = s.replies := rfl
@[simp] theorem State.clearTags_spdm (s : State) (pa n : Nat) : (s.clearTags pa n).spdm = s.spdm := rfl
@[simp] theorem State.clearTags_irqs (s : State) (pa n : Nat) : (s.clearTags pa n).irqs = s.irqs := rfl
@[simp] theorem State.clearTags_enqWait (s : State) (pa n : Nat) : (s.clearTags pa n).enqWait = s.enqWait := rfl
@[simp] theorem State.clearTags_ecc (s : State) (pa n : Nat) : (s.clearTags pa n).ecc = s.ecc := rfl

@[simp] theorem State.keepRegs_agenda (s : State) (r : State) : (s.keepRegs r).agenda = s.agenda := rfl
@[simp] theorem State.keepRegs_turn (s : State) (r : State) : (s.keepRegs r).turn = s.turn := rfl
@[simp] theorem State.keepRegs_free (s : State) (r : State) : (s.keepRegs r).free = s.free := rfl
@[simp] theorem State.keepRegs_cycle (s : State) (r : State) : (s.keepRegs r).cycle = s.cycle := rfl
@[simp] theorem State.keepRegs_regs (s : State) (r : State) : (s.keepRegs r).regs = r.regs := rfl
@[simp] theorem State.keepRegs_mem (s : State) (r : State) : (s.keepRegs r).mem = s.mem := rfl
@[simp] theorem State.keepRegs_tags (s : State) (r : State) : (s.keepRegs r).tags = s.tags := rfl
@[simp] theorem State.keepRegs_codeShadow (s : State) (r : State) : (s.keepRegs r).codeShadow = s.codeShadow := rfl
@[simp] theorem State.keepRegs_groups (s : State) (r : State) : (s.keepRegs r).groups = s.groups := rfl
@[simp] theorem State.keepRegs_cores (s : State) (r : State) : (s.keepRegs r).cores = s.cores := rfl
@[simp] theorem State.keepRegs_coreOwner (s : State) (r : State) : (s.keepRegs r).coreOwner = s.coreOwner := rfl
@[simp] theorem State.keepRegs_moves (s : State) (r : State) : (s.keepRegs r).moves = s.moves := rfl
@[simp] theorem State.keepRegs_l2 (s : State) (r : State) : (s.keepRegs r).l2 = s.l2 := rfl
@[simp] theorem State.keepRegs_fmtwin (s : State) (r : State) : (s.keepRegs r).fmtwin = s.fmtwin := rfl
@[simp] theorem State.keepRegs_closing (s : State) (r : State) : (s.keepRegs r).closing = s.closing := rfl
@[simp] theorem State.keepRegs_quarantined (s : State) (r : State) : (s.keepRegs r).quarantined = s.quarantined := rfl
@[simp] theorem State.keepRegs_corrected (s : State) (r : State) : (s.keepRegs r).corrected = s.corrected := rfl
@[simp] theorem State.keepRegs_rotation (s : State) (r : State) : (s.keepRegs r).rotation = s.rotation := rfl
@[simp] theorem State.keepRegs_restNext (s : State) (r : State) : (s.keepRegs r).restNext = s.restNext := rfl
@[simp] theorem State.keepRegs_queues (s : State) (r : State) : (s.keepRegs r).queues = s.queues := rfl
@[simp] theorem State.keepRegs_launches (s : State) (r : State) : (s.keepRegs r).launches = s.launches := rfl
@[simp] theorem State.keepRegs_nextLaunch (s : State) (r : State) : (s.keepRegs r).nextLaunch = s.nextLaunch := rfl
@[simp] theorem State.keepRegs_watches (s : State) (r : State) : (s.keepRegs r).watches = s.watches := rfl
@[simp] theorem State.keepRegs_tasks (s : State) (r : State) : (s.keepRegs r).tasks = s.tasks := rfl
@[simp] theorem State.keepRegs_nextTask (s : State) (r : State) : (s.keepRegs r).nextTask = s.nextTask := rfl
@[simp] theorem State.keepRegs_contexts (s : State) (r : State) : (s.keepRegs r).contexts = s.contexts := rfl
@[simp] theorem State.keepRegs_port (s : State) (r : State) : (s.keepRegs r).port = s.port := rfl
@[simp] theorem State.keepRegs_rings (s : State) (r : State) : (s.keepRegs r).rings = s.rings := rfl
@[simp] theorem State.keepRegs_turns (s : State) (r : State) : (s.keepRegs r).turns = s.turns := rfl
@[simp] theorem State.keepRegs_migrations (s : State) (r : State) : (s.keepRegs r).migrations = s.migrations := rfl
@[simp] theorem State.keepRegs_meters (s : State) (r : State) : (s.keepRegs r).meters = s.meters := rfl
@[simp] theorem State.keepRegs_chain (s : State) (r : State) : (s.keepRegs r).chain = s.chain := rfl
@[simp] theorem State.keepRegs_snapshots (s : State) (r : State) : (s.keepRegs r).snapshots = s.snapshots := rfl
@[simp] theorem State.keepRegs_nextLife (s : State) (r : State) : (s.keepRegs r).nextLife = s.nextLife := rfl
@[simp] theorem State.keepRegs_hostNext (s : State) (r : State) : (s.keepRegs r).hostNext = s.hostNext := rfl
@[simp] theorem State.keepRegs_hostSlots (s : State) (r : State) : (s.keepRegs r).hostSlots = s.hostSlots := rfl
@[simp] theorem State.keepRegs_hostStatus (s : State) (r : State) : (s.keepRegs r).hostStatus = s.hostStatus := rfl
@[simp] theorem State.keepRegs_outbox (s : State) (r : State) : (s.keepRegs r).outbox = s.outbox := rfl
@[simp] theorem State.keepRegs_departed (s : State) (r : State) : (s.keepRegs r).departed = s.departed := rfl
@[simp] theorem State.keepRegs_replies (s : State) (r : State) : (s.keepRegs r).replies = s.replies := rfl
@[simp] theorem State.keepRegs_spdm (s : State) (r : State) : (s.keepRegs r).spdm = s.spdm := rfl
@[simp] theorem State.keepRegs_irqs (s : State) (r : State) : (s.keepRegs r).irqs = s.irqs := rfl
@[simp] theorem State.keepRegs_enqWait (s : State) (r : State) : (s.keepRegs r).enqWait = s.enqWait := rfl
@[simp] theorem State.keepRegs_ecc (s : State) (r : State) : (s.keepRegs r).ecc = s.ecc := rfl

end Sys2Proof.Machine
end

