-- ==== Sys2Proof/Laws/Table.lean ====
section
/-! SUPPORT. What a sparse table reads after each update. No law needs the table to be canonical. -/
namespace Sys2Proof.Machine
open Sys2Proof

@[simp] theorem tabGet_nil {α : Type} (d : α) (j : Nat) : tabGet d [] j = d := rfl
@[simp] theorem tabFind_nil {α : Type} (j : Nat) : tabFind ([] : Tab α) j = none := rfl

theorem tabGet_eq_find {α : Type} (d : α) (t : Tab α) (j : Nat) : tabGet d t j = (tabFind t j).getD d := by
  induction t with
  | nil => rfl
  | cons e r ih =>
    obtain ⟨k, v⟩ := e
    simp only [tabGet, tabFind]
    split <;> simp [ih]

/-- Reading after a put. -/
theorem tabFind_put {α : Type} (t : Tab α) (i j : Nat) (v : α) :
    tabFind (tabPut t i v) j = if i = j then some v else tabFind t j := by
  induction t with
  | nil => simp [tabPut, tabFind]
  | cons e r ih =>
    obtain ⟨k, u⟩ := e
    by_cases h : i < k
    · rw [tabPut, if_pos h, tabFind]
    · by_cases hk : k = i
      · subst hk
        rw [tabPut, if_neg h, if_pos rfl, tabFind, tabFind]
        split <;> rfl
      · rw [tabPut, if_neg h, if_neg hk, tabFind, tabFind, ih]
        by_cases hkj : k = j
        · rw [if_pos hkj, if_pos hkj, if_neg (by omega)]
        · rw [if_neg hkj, if_neg hkj]

/-- Reading after an erasure. -/
theorem tabFind_erase {α : Type} (t : Tab α) (i j : Nat) :
    tabFind (tabErase t i) j = if i = j then none else tabFind t j := by
  induction t with
  | nil => simp [tabErase]
  | cons e r ih =>
    obtain ⟨k, u⟩ := e
    by_cases hk : k = i
    · subst hk
      rw [tabErase, if_pos rfl, ih, tabFind]
      split <;> rfl
    · rw [tabErase, if_neg hk, tabFind, tabFind, ih]
      by_cases hkj : k = j
      · rw [if_pos hkj, if_pos hkj, if_neg (by omega)]
      · rw [if_neg hkj, if_neg hkj]

/-- Reading after a change of one entry. -/
theorem tabFind_mod {α : Type} (t : Tab α) (i j : Nat) (f : α → α) :
    tabFind (tabMod t i f) j = if i = j then (tabFind t j).map f else tabFind t j := by
  induction t with
  | nil => simp [tabMod]
  | cons e r ih =>
    obtain ⟨k, u⟩ := e
    by_cases hk : k = i
    · subst hk
      rw [tabMod, if_pos rfl, tabFind, tabFind]
      split <;> rfl
    · rw [tabMod, if_neg hk, tabFind, tabFind, ih]
      by_cases hkj : k = j
      · rw [if_pos hkj, if_pos hkj, if_neg (by omega)]
      · rw [if_neg hkj, if_neg hkj]

theorem tabGet_put {α : Type} (d : α) (t : Tab α) (i j : Nat) (v : α) :
    tabGet d (tabPut t i v) j = if i = j then v else tabGet d t j := by
  rw [tabGet_eq_find, tabGet_eq_find, tabFind_put]; split <;> simp

/-- Reading after a write. -/
theorem tabGet_set {α : Type} [DecidableEq α] (d : α) (t : Tab α) (i j : Nat) (v : α) :
    tabGet d (tabSet d t i v) j = if i = j then v else tabGet d t j := by
  unfold tabSet
  by_cases hv : v = d
  · rw [if_pos hv, tabGet_eq_find, tabGet_eq_find, tabFind_erase]; split <;> simp [hv]
  · rw [if_neg hv, tabGet_put]

theorem tabGet_upd {α : Type} [DecidableEq α] (d : α) (t : Tab α) (i j : Nat) (f : α → α) :
    tabGet d (tabUpd d t i f) j = if i = j then f (tabGet d t i) else tabGet d t j := tabGet_set d t i j _

/-- Every entry after a put is the new one or an old one. -/
theorem tabPut_mem {α : Type} {t : Tab α} {i : Nat} {v : α} {e : Nat × α} (h : e ∈ tabPut t i v) : e = (i, v) ∨ e ∈ t := by
  induction t with
  | nil => simpa [tabPut] using h
  | cons x r ih =>
    obtain ⟨k, u⟩ := x
    simp only [tabPut] at h
    split at h
    · simpa using h
    · split at h
      · rcases List.mem_cons.mp h with h | h
        · exact .inl h
        · exact .inr (List.mem_cons_of_mem _ h)
      · rcases List.mem_cons.mp h with h | h
        · exact .inr (by simp [h])
        · exact (ih h).imp id (List.mem_cons_of_mem _)

theorem tabErase_mem {α : Type} {t : Tab α} {i : Nat} {e : Nat × α} (h : e ∈ tabErase t i) : e ∈ t := by
  induction t with
  | nil => simp [tabErase] at h
  | cons x r ih =>
    obtain ⟨k, u⟩ := x
    simp only [tabErase] at h
    split at h
    · exact List.mem_cons_of_mem _ (ih h)
    · rcases List.mem_cons.mp h with h | h
      · simp [h]
      · exact List.mem_cons_of_mem _ (ih h)

/-- Every entry after a write is the new one or an old one. -/
theorem tabSet_mem {α : Type} [DecidableEq α] {d : α} {t : Tab α} {i : Nat} {v : α} {e : Nat × α}
    (h : e ∈ tabSet d t i v) : e = (i, v) ∨ e ∈ t := by
  unfold tabSet at h
  split at h
  · exact .inr (tabErase_mem h)
  · exact tabPut_mem h

/-! ### The canonical form -/

theorem tabWfFrom_mono {α : Type} [DecidableEq α] {d : α} {t : Tab α} {a b : Nat} (h : a ≤ b) (w : tabWfFrom d b t = true) :
    tabWfFrom d a t = true := by
  cases t with
  | nil => rfl
  | cons e r =>
    obtain ⟨k, v⟩ := e
    simp only [tabWfFrom, Bool.and_eq_true, decide_eq_true_eq] at w ⊢
    exact ⟨⟨by omega, w.1.2⟩, w.2⟩

theorem tabErase_wfFrom {α : Type} [DecidableEq α] {d : α} {t : Tab α} {lo : Nat} (i : Nat) (w : tabWfFrom d lo t = true) :
    tabWfFrom d lo (tabErase t i) = true := by
  induction t generalizing lo with
  | nil => rfl
  | cons e r ih =>
    obtain ⟨k, v⟩ := e
    simp only [tabWfFrom, Bool.and_eq_true, decide_eq_true_eq] at w
    simp only [tabErase]
    split
    · exact tabWfFrom_mono (by omega) (ih w.2)
    · simp only [tabWfFrom, Bool.and_eq_true, decide_eq_true_eq]
      exact ⟨w.1, ih w.2⟩

theorem tabPut_wfFrom {α : Type} [DecidableEq α] {d : α} {t : Tab α} {lo i : Nat} {v : α} (hv : v ≠ d) (hi : lo ≤ i)
    (w : tabWfFrom d lo t = true) : tabWfFrom d lo (tabPut t i v) = true := by
  induction t generalizing lo with
  | nil => simp [tabPut, tabWfFrom, hv, hi]
  | cons e r ih =>
    obtain ⟨k, u⟩ := e
    simp only [tabWfFrom, Bool.and_eq_true, decide_eq_true_eq] at w
    simp only [tabPut]
    split
    · simp only [tabWfFrom, Bool.and_eq_true, decide_eq_true_eq]
      exact ⟨⟨hi, hv⟩, ⟨by omega, w.1.2⟩, w.2⟩
    · split
      · rename_i hk
        subst hk
        simp only [tabWfFrom, Bool.and_eq_true, decide_eq_true_eq]
        exact ⟨⟨hi, hv⟩, w.2⟩
      · simp only [tabWfFrom, Bool.and_eq_true, decide_eq_true_eq]
        exact ⟨w.1, ih (by omega) w.2⟩

/-- A write keeps the canonical form. -/
theorem tabSet_wf {α : Type} [DecidableEq α] {d : α} {t : Tab α} (i : Nat) (v : α) (w : tabWf d t = true) :
    tabWf d (tabSet d t i v) = true := by
  unfold tabSet
  split
  · exact tabErase_wfFrom i w
  · rename_i hv; exact tabPut_wfFrom hv (Nat.zero_le _) w

theorem tabFilter_wfFrom {α : Type} [DecidableEq α] {d : α} {t : Tab α} {lo : Nat} (p : Nat × α → Bool)
    (w : tabWfFrom d lo t = true) : tabWfFrom d lo (t.filter p) = true := by
  induction t generalizing lo with
  | nil => rfl
  | cons e r ih =>
    obtain ⟨k, v⟩ := e
    simp only [tabWfFrom, Bool.and_eq_true, decide_eq_true_eq] at w
    simp only [List.filter_cons]
    split
    · simp only [tabWfFrom, Bool.and_eq_true, decide_eq_true_eq]
      exact ⟨w.1, ih w.2⟩
    · exact tabWfFrom_mono (by omega) (ih w.2)

theorem tabWf_ne {α : Type} [DecidableEq α] {d : α} {t : Tab α} {lo : Nat} (w : tabWfFrom d lo t = true) :
    ∀ e ∈ t, e.2 ≠ d := by
  induction t generalizing lo with
  | nil => simp
  | cons e r ih =>
    obtain ⟨k, v⟩ := e
    simp only [tabWfFrom, Bool.and_eq_true, decide_eq_true_eq] at w
    intro x hx
    rcases List.mem_cons.mp hx with rfl | hx
    · exact w.1.2
    · exact ih w.2 x hx

end Sys2Proof.Machine
end

