-- ==== Sys2Proof/Laws/Access.lean ====
section
/-! SUPPORT. What the accessors of groups, splits, cores and contexts read after each update. -/
namespace Sys2Proof.Machine
open Sys2Proof

/-! ### Tables mapped entry by entry -/

theorem tabFind_map {α β : Type} (h : α → β) (t : Tab α) (i : Nat) :
    tabFind (t.map fun e => (e.1, h e.2)) i = (tabFind t i).map h := by
  induction t with
  | nil => rfl
  | cons e r ih =>
    obtain ⟨k, v⟩ := e
    simp only [List.map_cons, tabFind]
    split <;> simp [ih]

theorem map_tabMod {α β : Type} (h : α → β) (t : Tab α) (i : Nat) (f : α → α) (hf : ∀ x, h (f x) = h x) :
    (tabMod t i f).map (fun e => (e.1, h e.2)) = t.map fun e => (e.1, h e.2) := by
  induction t with
  | nil => rfl
  | cons e r ih =>
    obtain ⟨k, v⟩ := e
    simp only [tabMod]
    split <;> simp [hf, ih]

/-! ### Groups -/

theorem State.group?_putGroup (s : State) (c i c' i' : Nat) (g : Group) :
    (s.putGroup c i g).group? c' i' = if groupKey c' i' = groupKey c i then some g else s.group? c' i' := by
  simp only [State.group?, State.putGroup_groups, tabFind_put, eq_comm (a := groupKey c i)]

theorem State.group?_modGroup (s : State) (c i c' i' : Nat) (f : Group → Group) :
    (s.modGroup c i f).group? c' i' = if groupKey c' i' = groupKey c i then (s.group? c' i').map f else s.group? c' i' := by
  simp only [State.group?, State.modGroup_groups, tabFind_mod, eq_comm (a := groupKey c i)]

theorem State.group?_dropGroup (s : State) (c i c' i' : Nat) :
    (s.dropGroup c i).group? c' i' = if groupKey c' i' = groupKey c i then none else s.group? c' i' := by
  simp only [State.group?, State.dropGroup_groups, tabFind_erase, eq_comm (a := groupKey c i)]

@[simp] theorem State.group?_modCore (s : State) (c : Nat) (f : Core → Core) (c' i' : Nat) :
    (s.modCore c f).group? c' i' = s.group? c' i' := rfl
@[simp] theorem State.group?_modContext (s : State) (x : BitVec 12) (f : Context → Context) (c' i' : Nat) :
    (s.modContext x f).group? c' i' = s.group? c' i' := rfl
@[simp] theorem State.group?_countPrivate (s : State) (w : Who) (n : Nat) (c' i' : Nat) :
    (countPrivate s w n).group? c' i' = s.group? c' i' := rfl
@[simp] theorem State.group?_keepRegs (s r : State) (c' i' : Nat) : (s.keepRegs r).group? c' i' = s.group? c' i' := rfl

/-! ### Splits -/

theorem State.split?_of_group {s : State} {ag : Agent} {g : Group} (h : s.group? ag.core ag.slot = some g) :
    s.split? ag = tabFind g.splits ag.split := by
  simp [State.split?, h]

theorem State.split?_modSplit (s : State) (ag x : Agent) (f : Split → Split) :
    (s.modSplit ag f).split? x =
      if groupKey x.core x.slot = groupKey ag.core ag.slot ∧ x.split = ag.split then (s.split? x).map f else s.split? x := by
  simp only [State.split?, State.modSplit, State.group?_modGroup]
  by_cases h : groupKey x.core x.slot = groupKey ag.core ag.slot
  · simp only [h, if_true, true_and]
    cases s.group? x.core x.slot with
    | none => simp
    | some g => simp only [Option.map_some, tabFind_mod, eq_comm (a := ag.split)]
  · simp [h]

theorem State.group?_modSplit (s : State) (ag : Agent) (f : Split → Split) (c i : Nat) :
    (s.modSplit ag f).group? c i =
      if groupKey c i = groupKey ag.core ag.slot then
        (s.group? c i).map fun g => { g with splits := tabMod g.splits ag.split f } else s.group? c i := by
  simp only [State.modSplit, State.group?_modGroup]

@[simp] theorem State.split?_modCore (s : State) (c : Nat) (f : Core → Core) (ag : Agent) :
    (s.modCore c f).split? ag = s.split? ag := rfl
@[simp] theorem State.split?_modContext (s : State) (x : BitVec 12) (f : Context → Context) (ag : Agent) :
    (s.modContext x f).split? ag = s.split? ag := rfl
@[simp] theorem State.split?_countPrivate (s : State) (w : Who) (n : Nat) (ag : Agent) :
    (countPrivate s w n).split? ag = s.split? ag := rfl
@[simp] theorem State.split?_keepRegs (s r : State) (ag : Agent) : (s.keepRegs r).split? ag = s.split? ag := rfl

/-! ### Cores and contexts -/

theorem State.core_modCore (s : State) (c k : Nat) (f : Core → Core) :
    (s.modCore c f).core k = if k = c then f (s.core k) else s.core k := by
  simp only [State.core, State.modCore_cores, tabGet_upd, eq_comm (a := c)]
  split
  · next h => subst h; rfl
  · rfl
@[simp] theorem State.core_modGroup (s : State) (c i k : Nat) (f : Group → Group) : (s.modGroup c i f).core k = s.core k := rfl
@[simp] theorem State.core_modSplit (s : State) (ag : Agent) (k : Nat) (f : Split → Split) :
    (s.modSplit ag f).core k = s.core k := rfl
@[simp] theorem State.core_putGroup (s : State) (c i k : Nat) (g : Group) : (s.putGroup c i g).core k = s.core k := rfl
@[simp] theorem State.core_countPrivate (s : State) (w : Who) (n k : Nat) : (countPrivate s w n).core k = s.core k := rfl
@[simp] theorem State.core_keepRegs (s r : State) (k : Nat) : (s.keepRegs r).core k = s.core k := rfl

theorem State.context_modContext (s : State) (x y : BitVec 12) (f : Context → Context) :
    (s.modContext x f).context y = if y = x then f (s.context y) else s.context y := by
  simp only [State.context, State.modContext_contexts, tabGet_upd, BitVec.toNat_inj, eq_comm (a := x)]
  split
  · next h => subst h; rfl
  · rfl
@[simp] theorem State.context_modGroup (s : State) (c i : Nat) (f : Group → Group) (x : BitVec 12) :
    (s.modGroup c i f).context x = s.context x := rfl
@[simp] theorem State.context_modSplit (s : State) (ag : Agent) (f : Split → Split) (x : BitVec 12) :
    (s.modSplit ag f).context x = s.context x := rfl
@[simp] theorem State.context_putGroup (s : State) (c i : Nat) (g : Group) (x : BitVec 12) :
    (s.putGroup c i g).context x = s.context x := rfl
@[simp] theorem State.context_modCore (s : State) (c : Nat) (f : Core → Core) (x : BitVec 12) :
    (s.modCore c f).context x = s.context x := rfl
@[simp] theorem State.context_keepRegs (s r : State) (x : BitVec 12) : (s.keepRegs r).context x = s.context x := rfl

end Sys2Proof.Machine
end

