-- ==== Sys2Proof/Laws/Packed.lean ====
section
/-! SUPPORT. Packed patterns: the elements of a packed list, the elements of a pattern, and what arithmetic element by element
leaves in each element. -/
namespace Sys2Proof.Machine
open Sys2Proof

theorem packElems_lt (w : Nat) (l : List Nat) : packElems w l < 2 ^ (w * l.length) := by
  induction l with
  | nil => simp [packElems]
  | cons x r ih =>
    simp only [packElems, List.length_cons, Nat.mul_add, Nat.mul_one, Nat.pow_add]
    have h1 : x % 2 ^ w < 2 ^ w := Nat.mod_lt _ (Nat.two_pow_pos w)
    calc x % 2 ^ w + 2 ^ w * packElems w r < 2 ^ w + 2 ^ w * packElems w r := by omega
      _ = 2 ^ w * (packElems w r + 1) := by rw [Nat.mul_add]; omega
      _ ≤ 2 ^ w * 2 ^ (w * r.length) := Nat.mul_le_mul_left _ ih
      _ = 2 ^ (w * r.length) * 2 ^ w := Nat.mul_comm _ _

theorem packElems_at (w : Nat) (l : List Nat) (e : Nat) (he : e < l.length) :
    packElems w l / 2 ^ (w * e) % 2 ^ w = l[e] % 2 ^ w := by
  induction l generalizing e with
  | nil => cases he
  | cons x r ih =>
    cases e with
    | zero => simp [packElems, Nat.add_mul_mod_self_left]
    | succ e =>
      have h1 : x % 2 ^ w < 2 ^ w := Nat.mod_lt _ (Nat.two_pow_pos w)
      have : (x % 2 ^ w + 2 ^ w * packElems w r) / 2 ^ w = packElems w r := by
        rw [Nat.add_mul_div_left _ _ (Nat.two_pow_pos w), Nat.div_eq_of_lt h1, Nat.zero_add]
      simp only [packElems, Nat.mul_add, Nat.mul_one, List.getElem_cons_succ]
      rw [show w * e + w = w + w * e from Nat.add_comm _ _, Nat.pow_add, ← Nat.div_div_eq_div_mul, this]
      exact ih e (by simpa using he)

theorem elemsOf_at (t : Ty) (v e : Nat) (he : e < tyElems t) :
    (elemsOf (tyWidth t) (tyElems t) v)[e]'(by simpa [elemsOf] using he) = elemAt t v e := by
  simp [elemsOf, elemAt]

theorem elemsOf_length (w n v : Nat) : (elemsOf w n v).length = n := by simp [elemsOf]

/-- The register's width is that of all its elements. -/
theorem tyWidth_elems (t : Ty) : tyWidth t * tyElems t = 32 * tyRegs t := by cases t <;> decide

theorem elemVal_eq (t : Ty) (v e : Nat) : elemVal t (elemAt t v e) = elemInt t v e := by
  have h : elemAt t v e < 2 ^ tyWidth t := Nat.mod_lt _ (Nat.two_pow_pos _)
  have hw : (2 : Nat) ^ tyWidth t = 2 * 2 ^ (tyWidth t - 1) := by cases t <;> decide
  unfold elemVal elemInt
  cases hs : tySigned t
  · simp [Nat.mod_eq_of_lt h]
  · simp only [if_true, true_and, sext, Nat.mod_eq_of_lt h]
    split <;> split <;> first | rfl | omega

/-- The pattern of a list of elements, one value for each. -/
theorem elements_pack {t : Ty} {saturate : Bool} {x : Nat → Int} {l : List Nat} (hl : l.length = tyElems t)
    (h : ∀ e (he : e < tyElems t), l[e] = storeInt t saturate (x e)) : Elements t saturate x (packElems (tyWidth t) l) := by
  refine ⟨?_, fun e he => ?_⟩
  · rw [← tyWidth_elems, ← hl]; exact packElems_lt _ _
  · rw [elemAt, packElems_at _ _ _ (by omega), h e he]
    have hp : (0 : Int) < (2 ^ tyWidth t : Nat) := by exact_mod_cast Nat.two_pow_pos _
    unfold storeInt wrap
    generalize (if saturate = true then sat (x e) (tyLo t) (tyHi t) else x e) = y
    have h1 := Int.emod_nonneg y (Int.ne_of_gt hp)
    have h2 := Int.emod_lt_of_pos y hp
    rw [Nat.mod_eq_of_lt (by omega), Int.toNat_of_nonneg h1]

theorem elements_elems2 (t : Ty) (saturate : Bool) (f : Int → Int → Int) (a b : Nat) :
    Elements t saturate (fun e => f (elemInt t a e) (elemInt t b e)) (elems2 t (fun x y => storeInt t saturate (f x y)) a b) := by
  refine elements_pack (by simp [elemsOf]) fun e he => ?_
  simp only [List.getElem_zipWith, elemsOf_at t _ e he, elemVal_eq]

theorem elements_elems1 (t : Ty) (saturate : Bool) (f : Int → Int) (a : Nat) :
    Elements t saturate (fun e => f (elemInt t a e)) (elems1 t (fun x => storeInt t saturate (f x)) a) := by
  refine elements_pack (by simp [elemsOf]) fun e he => ?_
  simp only [List.getElem_map, elemsOf_at t _ e he, elemVal_eq]

theorem elements_elems3 (t : Ty) (saturate : Bool) (f : Int → Int → Int → Int) (a b c : Nat) :
    Elements t saturate (fun e => f (elemInt t a e) (elemInt t b e) (elemInt t c e))
      (elems3 t (fun x y z => storeInt t saturate (f x y z)) a b c) := by
  refine elements_pack (by simp [elemsOf]) fun e he => ?_
  simp only [List.getElem_map, List.getElem_zip, elemsOf_at t _ e he, elemVal_eq]

end Sys2Proof.Machine
end

