-- ==== Sys2Proof/Laws/Issue.lean ====
section
/-! SUPPORT. What the issue of an instruction changes: the bookkeeping of `Steady`, and the registers, flags and address
afterwards, for each way an effect ends. -/
namespace Sys2Proof.Machine
open Sys2Proof

/-! ### Steady -/

theorem Steady.refl (s : State) (ag : Agent) : Steady s s ag :=
  ⟨rfl, fun _ => rfl, fun _ => rfl, fun _ => rfl, fun _ _ _ => rfl, rfl, fun _ _ => rfl, rfl⟩

theorem Steady.trans {s t u : State} {ag : Agent} (h : Steady s t ag) (k : Steady t u ag) : Steady s u ag :=
  ⟨k.rest.trans h.rest, fun a => (k.bytes a).trans (h.bytes a), fun c => (k.cores c).trans (h.cores c),
    fun x => (k.contexts x).trans (h.contexts x), fun c i hi => (k.groups c i hi).trans (h.groups c i hi),
    k.group.trans h.group, fun n hn => (k.splits n hn).trans (h.splits n hn), k.split.trans h.split⟩

/-- A change of groups, cores and contexts alone keeps every other field, and every byte. -/
theorem byte_of_rest {s t : State} (h : t.rest = s.rest) (a : Nat) : t.byte a = s.byte a := by
  have : t.rest.mem = s.rest.mem := by rw [h]
  show tabGet Memory.unlisted t.mem a = tabGet Memory.unlisted s.mem a
  rw [show t.mem = s.mem from this]

theorem Split.body_of_still {x y : Split} (h : x.still = y.still) : x.body = y.body := by
  unfold Split.body; rw [h]

theorem Group.body_splits (g : Group) (l : Tab Split) : ({ g with splits := l } : Group).body = g.body := rfl

/-- A change of the scheduler's fields of any split. -/
theorem Steady.modStill (s : State) (ag x : Agent) (f : Split → Split) (hf : ∀ sp, (f sp).still = sp.still) :
    Steady s (s.modSplit x f) ag := by
  refine ⟨rfl, fun _ => rfl, fun _ => rfl, fun _ => rfl, ?_, ?_, ?_, ?_⟩
  · intro c i _
    rw [State.group?_modSplit]
    split
    · cases s.group? c i with
      | none => rfl
      | some g => simp only [Option.map_some, Group.still, map_tabMod Split.still _ _ _ hf]
    · rfl
  · rw [State.group?_modSplit]
    split
    · cases s.group? ag.core ag.slot <;> rfl
    · rfl
  · intro n _
    rw [State.split?_modSplit]
    split
    · cases s.split? ⟨ag.core, ag.slot, n⟩ <;> simp [hf]
    · rfl
  · rw [State.split?_modSplit]
    split
    · cases s.split? ag with
      | none => rfl
      | some sp => simp [Split.body_of_still (hf sp)]
    · rfl

/-- A change of the agent's own split that `Split.body` does not show. -/
theorem Steady.modSplit (s : State) (ag : Agent) (f : Split → Split) (hf : ∀ sp, s.split? ag = some sp → (f sp).body = sp.body) :
    Steady s (s.modSplit ag f) ag := by
  refine ⟨rfl, fun _ => rfl, fun _ => rfl, fun _ => rfl, ?_, ?_, ?_, ?_⟩
  · intro c i h
    rw [State.group?_modSplit, if_neg h]
  · rw [State.group?_modSplit, if_pos rfl]
    cases s.group? ag.core ag.slot <;> rfl
  · intro n h
    rw [State.split?_modSplit, if_neg (fun e => h e.2)]
  · rw [State.split?_modSplit, if_pos ⟨rfl, rfl⟩]
    cases e : s.split? ag with
    | none => rfl
    | some sp => simp [hf sp e]

/-- A change of the agent's own group: its body is alike, its other splits stay, and its own split's body is alike. -/
theorem Steady.modGroup (s : State) (ag : Agent) (f : Group → Group)
    (hb : ∀ g, s.group? ag.core ag.slot = some g → (f g).body = g.body)
    (ho : ∀ g n, s.group? ag.core ag.slot = some g → n ≠ ag.split → tabFind (f g).splits n = tabFind g.splits n)
    (hs : ∀ g, s.group? ag.core ag.slot = some g →
      (tabFind (f g).splits ag.split).map Split.body = (tabFind g.splits ag.split).map Split.body) :
    Steady s (s.modGroup ag.core ag.slot f) ag := by
  refine ⟨rfl, fun _ => rfl, fun _ => rfl, fun _ => rfl, ?_, ?_, ?_, ?_⟩
  · intro c i h
    rw [State.group?_modGroup, if_neg h]
  · rw [State.group?_modGroup, if_pos rfl]
    cases e : s.group? ag.core ag.slot with
    | none => rfl
    | some g => simp [hb g e]
  · intro n h
    simp only [State.split?, State.group?_modGroup, if_true]
    cases e : s.group? ag.core ag.slot with
    | none => rfl
    | some g => simp [ho g n e h]
  · simp only [State.split?, State.group?_modGroup, if_true]
    cases e : s.group? ag.core ag.slot with
    | none => rfl
    | some g => simp [hs g e]

theorem Steady.modQuads (s : State) (ag : Agent) (k : Nat) (f : Core → Core) (hf : ∀ c, (f c).still = c.still) :
    Steady s (s.modCore k f) ag := by
  refine ⟨rfl, fun _ => rfl, ?_, fun _ => rfl, fun _ _ _ => rfl, rfl, fun _ _ => rfl, rfl⟩
  intro c
  rw [State.core_modCore]
  split
  · exact hf _
  · rfl

theorem Steady.countPrivate (s : State) (ag : Agent) (w : Who) (n : Nat) : Steady s (countPrivate s w n) ag := by
  refine ⟨rfl, fun _ => rfl, fun _ => rfl, ?_, fun _ _ _ => rfl, rfl, fun _ _ => rfl, rfl⟩
  intro x
  show ((s.modContext _ _).context x).still = _
  rw [State.context_modContext]
  split <;> rfl

theorem Steady.clock (s : State) (ag : Agent) (u : Option Agent) (f c : Nat) :
    Steady s { s with turn := u, free := f, cycle := c } ag :=
  ⟨rfl, fun _ => rfl, fun _ => rfl, fun _ => rfl, fun _ _ _ => rfl, rfl, fun _ _ => rfl, rfl⟩

/-! ### Registers under the bookkeeping -/

/-- Two groups and splits hold the same registers. -/
def SameRegs (g : Group) (sp : Split) (h : Group) (sq : Split) : Prop := ∀ loc lane, rawCell g sp loc lane = rawCell h sq loc lane

theorem rawCell_congr {g h : Group} {sp sq : Split} (hv : g.v = h.v) (hp : g.p = h.p) (ht : g.t = h.t) (hg : g.g = h.g)
    (hk : sp.k = sq.k) (ha : sp.a = sq.a) (loc : Loc) (lane : Nat) : rawCell g sp loc lane = rawCell h sq loc lane := by
  cases loc <;> simp only [rawCell, hv, hp, ht, hg, hk, ha]

/-- A register after a change of some split's progress. -/
theorem reg_modSplit (s : State) (ag x : Agent) (f : Split → Split) (hk : ∀ sp, (f sp).k = sp.k) (ha : ∀ sp, (f sp).a = sp.a)
    (loc : Loc) (lane : Nat) : (s.modSplit x f).reg ag loc lane = s.reg ag loc lane := by
  simp only [State.reg, State.split?_modSplit, State.group?_modSplit]
  by_cases h : groupKey ag.core ag.slot = groupKey x.core x.slot
  · simp only [h, if_true, true_and]
    cases e : s.group? ag.core ag.slot with
    | none => simp
    | some g =>
      simp only [Option.map_some]
      by_cases h2 : ag.split = x.split
      · simp only [h2, if_true]
        cases s.split? ag with
        | none => rfl
        | some sp => exact rawCell_congr rfl rfl rfl rfl (hk sp) (ha sp) loc lane
      · simp only [h2, if_false]
        cases s.split? ag with
        | none => rfl
        | some sp => exact rawCell_congr rfl rfl rfl rfl rfl rfl loc lane
  · simp [h]

theorem tabGet_filter {α : Type} (d : α) (t : Tab α) (p : Nat → Bool) (j : Nat) :
    tabGet d (t.filter fun e => p e.1) j = if p j then tabGet d t j else d := by
  induction t with
  | nil => simp
  | cons e r ih =>
    obtain ⟨k, v⟩ := e
    by_cases hk : p k <;> by_cases hj : k = j
    · subst hj; simp [hk, tabGet]
    · simp [hk, tabGet, hj, ih]
    · subst hj; simp [hk, ih]
    · simp [hk, tabGet, hj, ih]

/-- R23 on one register. -/
theorem tabGet_clearT (t : Tab Word) (mask : BitVec 32) (n lane : Nat) (h : lane < 32) :
    tabGet 0#32 (clearT t mask) (n * 32 + lane) = if mask.getLsbD lane then 0#32 else tabGet 0#32 t (n * 32 + lane) := by
  have : (n * 32 + lane) % 32 = lane := by omega
  rw [clearT, tabGet_filter 0#32 t (fun k => !mask.getLsbD (k % 32)), this]
  cases mask.getLsbD lane <;> rfl

/-! ### The view of an issue -/

theorem Steady.countGroup (s : State) (ag : Agent) (core slot n : Nat) : Steady s (countGroup s core slot n) ag := by
  unfold Machine.countGroup
  split
  · exact Steady.countPrivate s ag _ _
  · exact Steady.refl s ag

@[simp] theorem group?_countGroup (s : State) (core slot n c i : Nat) :
    (countGroup s core slot n).group? c i = s.group? c i := by
  unfold countGroup; split <;> rfl

@[simp] theorem split?_countGroup (s : State) (core slot n : Nat) (ag : Agent) :
    (countGroup s core slot n).split? ag = s.split? ag := by
  unfold countGroup; split <;> rfl

@[simp] theorem reg_countGroup (s : State) (core slot n : Nat) (ag : Agent) (loc : Loc) (lane : Nat) :
    (countGroup s core slot n).reg ag loc lane = s.reg ag loc lane := by
  unfold countGroup; split <;> rfl

theorem Steady.cutOther (s : State) (ag : Agent) (o : Nat × Nat) (cutAt now : Nat) : Steady s (cutOther s ag o cutAt now) ag := by
  unfold Machine.cutOther
  split
  · exact Steady.refl s ag
  · exact (Steady.countGroup s ag _ _ _).trans (Steady.modStill _ ag _ _ fun _ => rfl)

theorem reg_cutOther (s : State) (ag : Agent) (o : Nat × Nat) (cutAt now : Nat) (loc : Loc) (lane : Nat) :
    (cutOther s ag o cutAt now).reg ag loc lane = s.reg ag loc lane := by
  unfold cutOther
  split
  · rfl
  · rw [reg_modSplit _ ag _ (Split.loseQuad (if now ≤ cutAt + 2 then cutAt else now)) (fun _ => rfl) (fun _ => rfl), reg_countGroup]

/-- The agent's own split is not the one that loses the quadrant. -/
theorem split?_cutOther (s : State) (ag : Agent) (o : Nat × Nat) (cutAt now : Nat) : (cutOther s ag o cutAt now).split? ag = s.split? ag := by
  unfold cutOther
  split
  · rfl
  · next hne =>
    rw [State.split?_modSplit, if_neg, split?_countGroup]
    rintro ⟨hk, hsp⟩
    apply hne
    have h1 : ag.slot = o.1 := by simpa [groupKey] using hk
    have h2 : ag.split = o.2 := hsp
    rw [h1, h2]

theorem group?_cutOther (s : State) (ag : Agent) (o : Nat × Nat) (cutAt now : Nat) (h : Group)
    (hg : s.group? ag.core ag.slot = some h) :
    ∃ l, (cutOther s ag o cutAt now).group? ag.core ag.slot = some { h with splits := l } := by
  unfold cutOther
  split
  · exact ⟨h.splits, hg⟩
  · rw [State.group?_modSplit, group?_countGroup, hg]
    split
    · exact ⟨_, rfl⟩
    · exact ⟨h.splits, rfl⟩

/-- Only the scheduler's fields change when a quadrant passes to the agent. -/
theorem Steady.claimQuad (s : State) (ag : Agent) (g : Group) (sp : Split) (now : Nat) (cls : Bool) :
    Steady s (claimQuad s ag g sp now cls) ag := by
  unfold Machine.claimQuad
  split
  · exact Steady.refl s ag
  · refine Steady.trans ?_ (Steady.modQuads _ ag _ _ fun _ => rfl)
    split
    · exact Steady.refl s ag
    · exact Steady.cutOther s ag _ _ _

theorem reg_claimQuad (s : State) (ag : Agent) (g : Group) (sp : Split) (now : Nat) (cls : Bool) (loc : Loc) (lane : Nat) :
    (claimQuad s ag g sp now cls).reg ag loc lane = s.reg ag loc lane := by
  unfold claimQuad
  split
  · rfl
  · show State.reg (match _ with | none => s | some o => cutOther s ag o (tabGet Quad.init (s.core ag.core).quads g.quad).cutAt now) ag loc lane = _
    split
    · rfl
    · exact reg_cutOther s ag _ _ _ loc lane

theorem split?_claimQuad (s : State) (ag : Agent) (g : Group) (sp : Split) (now : Nat) (cls : Bool) :
    (claimQuad s ag g sp now cls).split? ag = s.split? ag := by
  unfold claimQuad
  split
  · rfl
  · rw [State.split?_modCore]
    split
    · rfl
    · exact split?_cutOther s ag _ _ _

theorem group?_claimQuad (s : State) (ag : Agent) (g : Group) (sp : Split) (now : Nat) (cls : Bool) (h : Group)
    (hg : s.group? ag.core ag.slot = some h) :
    ∃ l, (claimQuad s ag g sp now cls).group? ag.core ag.slot = some { h with splits := l } := by
  unfold claimQuad
  split
  · exact ⟨h.splits, hg⟩
  · rw [State.group?_modCore]
    split
    · exact ⟨h.splits, hg⟩
    · exact group?_cutOther s ag _ _ _ h hg

theorem Steady.putGroup {s : State} {ag : Agent} {g h : Group} (hg : s.group? ag.core ag.slot = some g) (hb : h.body = g.body)
    (ho : ∀ n, n ≠ ag.split → tabFind h.splits n = tabFind g.splits n)
    (hs : (tabFind h.splits ag.split).map Split.body = (tabFind g.splits ag.split).map Split.body) :
    Steady s (s.putGroup ag.core ag.slot h) ag := by
  refine ⟨rfl, fun _ => rfl, fun _ => rfl, fun _ => rfl, ?_, ?_, ?_, ?_⟩
  · intro c i hi
    rw [State.group?_putGroup, if_neg hi]
  · rw [State.group?_putGroup, if_pos rfl, hg, Option.map_some, Option.map_some, hb]
  · intro n hn
    simp only [State.split?, State.group?_putGroup, if_true, hg, ho n hn]
  · simp only [State.split?, State.group?_putGroup, if_true, hg, hs]

theorem Steady.issued {s : State} {ag : Agent} {g : Group} {sp : Split} (w : Fields) (hg : s.group? ag.core ag.slot = some g)
    (hs : s.split? ag = some sp) : Steady s (issuedState w s ag g sp) ag := by
  have h0 : tabFind g.splits ag.split = some sp := by rw [← State.split?_of_group hg]; exact hs
  have h1 : Steady s (s.putGroup ag.core ag.slot (issuedGroup w ag g sp (issueCycle s ag g sp))) ag := by
    refine Steady.putGroup hg rfl ?_ ?_
    · intro n hn
      simp only [issuedGroup, tabFind_put, if_neg (Ne.symm hn)]
    · simp only [issuedGroup, tabFind_put, if_true, h0]
      rfl
  have h2 := (h1.trans (Steady.clock _ ag s.turn s.free (issueCycle s ag g sp))).trans
    (Steady.claimQuad _ ag g sp (issueCycle s ag g sp) (s.whoOf ag.core g).cls)
  unfold issuedState
  dsimp only
  split
  · exact h2
  · exact h2.trans (Steady.countPrivate _ ag _ _)

/-- The split as the instruction finds it in the state. -/
theorem split?_issued (w : Fields) (s : State) (ag : Agent) (g : Group) (sp : Split) :
    (issuedState w s ag g sp).split? ag = some { beginSplit w sp (issueCycle s ag g sp) with counted := true } := by
  have h : State.split? (claimQuad { s.putGroup ag.core ag.slot (issuedGroup w ag g sp (issueCycle s ag g sp)) with
      cycle := issueCycle s ag g sp } ag g sp (issueCycle s ag g sp) (s.whoOf ag.core g).cls) ag
      = some { beginSplit w sp (issueCycle s ag g sp) with counted := true } := by
    rw [split?_claimQuad]
    show State.split? (s.putGroup ag.core ag.slot (issuedGroup w ag g sp (issueCycle s ag g sp))) ag = _
    simp only [State.split?, State.group?_putGroup, if_true, issuedGroup, tabFind_put]
  unfold issuedState
  dsimp only
  split
  · exact h
  · exact h

theorem group?_issued (w : Fields) (s : State) (ag : Agent) (g : Group) (sp : Split) :
    ∃ l, (issuedState w s ag g sp).group? ag.core ag.slot
      = some { beginGroup g sp (issueCycle s ag g sp) with splits := l } := by
  obtain ⟨l, h⟩ := group?_claimQuad { s.putGroup ag.core ag.slot (issuedGroup w ag g sp (issueCycle s ag g sp)) with
      cycle := issueCycle s ag g sp } ag g sp (issueCycle s ag g sp) (s.whoOf ag.core g).cls
      (issuedGroup w ag g sp (issueCycle s ag g sp)) (by
        show State.group? (s.putGroup ag.core ag.slot (issuedGroup w ag g sp (issueCycle s ag g sp))) _ _ = _
        rw [State.group?_putGroup, if_pos rfl])
  refine ⟨l, ?_⟩
  unfold issuedState
  dsimp only
  split
  · exact h
  · exact h

/-- The registers that an instruction finds are those of R23. -/
theorem rawCell_begin {g : Group} {sp : Split} {s : State} {ag : Agent} (w : Fields) (now : Nat)
    (hg : s.group? ag.core ag.slot = some g) (hs : s.split? ag = some sp) (loc : Loc) (lane : Nat)
    (hl : loc.inLane lane = true) :
    rawCell (beginGroup g sp now) (beginSplit w sp now) loc lane = s.regAtIssue ag loc lane := by
  simp only [State.reg, State.regAtIssue, hg, hs]
  cases loc with
  | t n =>
    have : lane < 32 := by simpa [Loc.inLane] using hl
    by_cases h : sp.run = 0
    · simp only [rawCell, beginGroup, h, if_true, decide_true, Bool.true_and, tabGet_clearT _ _ _ _ this]
      cases sp.mask.getLsbD lane <;> rfl
    · simp [rawCell, beginGroup, h]
  | _ => rfl

theorem reg_issued {s : State} {ag : Agent} {g : Group} {sp : Split} (w : Fields) (hg : s.group? ag.core ag.slot = some g)
    (hs : s.split? ag = some sp) (loc : Loc) (lane : Nat) (hl : loc.inLane lane = true) :
    (issuedState w s ag g sp).reg ag loc lane = s.regAtIssue ag loc lane := by
  obtain ⟨l, h1⟩ := group?_issued w s ag g sp
  rw [← rawCell_begin w (issueCycle s ag g sp) hg hs loc lane hl]
  simp only [State.reg, h1, split?_issued]
  exact rawCell_congr rfl rfl rfl rfl rfl rfl loc lane

/-! ### Instructions that take effect -/

/-- What `issuing` says. -/
theorem issuing_some {i : Instr} {s : State} {c : Ctx} (h : issuing i s = some c) :
    ∃ ag g sp f w, s.turn = some ag ∧ s.group? ag.core ag.slot = some g ∧ s.split? ag = some sp ∧ formOf i = some f
      ∧ fieldsOf i = some w ∧ c = issueView f w { s with turn := none, free := s.free + 1 } ag g sp
      ∧ canIssue { s with turn := none, free := s.free + 1 } ag g sp = true ∧ sp.parked = []
      ∧ launchStops { s with turn := none, free := s.free + 1 } g = false ∧ awaits w sp = false
      ∧ holdsForResults f { s with turn := none, free := s.free + 1 } ag g sp = false ∧ s.ecc = none
      ∧ precheck i f w ag.core c.g c.sp c.now c.x = none ∧ (f.splitWide && w.gn) = false := by
  unfold issuing at h
  split at h
  · cases h
  · next ag hag =>
    split at h
    · next g sp f w hg hs hf hw =>
      dsimp only at h
      split at h
      · next hc =>
        cases h
        simp only [Bool.and_eq_true, List.isEmpty_iff, Bool.not_eq_true', Option.isNone_iff_eq_none] at hc
        obtain ⟨⟨⟨⟨⟨⟨⟨h1, h2⟩, h3⟩, h4⟩, h5⟩, h6⟩, h7⟩, h8⟩ := hc
        exact ⟨ag, g, sp, f, w, hag, hg, hs, hf, hw, rfl, h1, h2, h3, h4, h5, h6, h7, h8⟩
      · cases h
    · cases h

/-- The state that the instruction finds differs from the state before in the bookkeeping alone. -/
theorem Steady.issuing {i : Instr} {s : State} {c : Ctx} (h : issuing i s = some c) : Steady s c.s c.ag := by
  obtain ⟨ag, g, sp, f, w, -, hg, hs, -, -, rfl, -⟩ := issuing_some h
  exact (Steady.clock s ag none (s.free + 1) s.cycle).trans (Steady.issued (s := { s with turn := none, free := s.free + 1 }) w hg hs)

theorem reg_issuing {i : Instr} {s : State} {c : Ctx} (h : issuing i s = some c) (loc : Loc) (lane : Nat)
    (hl : loc.inLane lane = true) : c.s.reg c.ag loc lane = s.regAtIssue c.ag loc lane := by
  obtain ⟨ag, g, sp, f, w, -, hg, hs, -, -, rfl, -⟩ := issuing_some h
  exact reg_issued (s := { s with turn := none, free := s.free + 1 }) w hg hs loc lane hl

/-- The split in that state. -/
theorem split?_issuing {i : Instr} {s : State} {c : Ctx} (h : issuing i s = some c) :
    ∃ sp, s.split? c.ag = some sp ∧ c.sp = beginSplit c.w sp c.now ∧ c.s.split? c.ag = some { c.sp with counted := true }
      ∧ sp.parked = [] := by
  obtain ⟨ag, g, sp, f, w, -, hg, hs, -, -, rfl, -, hp, -⟩ := issuing_some h
  exact ⟨sp, hs, rfl, split?_issued w { s with turn := none, free := s.free + 1 } ag g sp, hp⟩

theorem ecc_of_rest {s t : State} (h : t.rest = s.rest) : t.ecc = s.ecc := by
  have : t.rest.ecc = s.rest.ecc := by rw [h]
  exact this
theorem regs_of_rest {s t : State} (h : t.rest = s.rest) : t.regs = s.regs := by
  have : t.rest.regs = s.rest.regs := by rw [h]
  exact this

/-- The meaning of an instruction that issues, by its effect. -/
theorem runInstr_issuing {i : Instr} {s : State} {c : Ctx} {f : Form} (h : issuing i s = some c) (hf : formOf i = some f)
    (eff : Ctx → Eff) : runInstr i eff s = .next (settleEcc ((settleEff f c (eff c)).keepRegs s)) := by
  obtain ⟨ag, g, sp, f', w, ht, hg, hs, hf', hw, rfl, h1, -, h3, h4, h5, -, h7, h8⟩ := issuing_some h
  cases hf.symm.trans hf'
  simp only [runInstr, ht, hg, hs, hf, hw, issue, h1, h3, h4, h5, h7, h8]
  rfl

theorem settleEcc_none {s : State} (h : s.ecc = none) : settleEcc s = s := by simp [settleEcc, h]

/-- A quadrant whose issue slot is given up. -/
theorem Steady.freeQuad (s : State) (ag : Agent) : Steady s (freeQuad s ag) ag := by
  unfold Machine.freeQuad
  repeat' split
  · exact Steady.refl s ag
  · exact Steady.refl s ag
  · exact Steady.modQuads s ag _ _ fun _ => rfl
@[simp] theorem split?_freeQuad (s : State) (ag x : Agent) : (freeQuad s ag).split? x = s.split? x := by
  unfold freeQuad; repeat' split
  all_goals rfl
@[simp] theorem reg_freeQuad (s : State) (ag x : Agent) (loc : Loc) (lane : Nat) : (freeQuad s ag).reg x loc lane = s.reg x loc lane := by
  unfold freeQuad; repeat' split
  all_goals rfl

/-- What going on leaves of a split: its registers and flags, and all that the issue of its own instructions never changes. -/
theorem retiredSplit_keeps (c : Ctx) (f : Form) (target : Option Nat) (sp : Split) :
    (retiredSplit c f target sp).body = sp.body ∧ (retiredSplit c f target sp).k = sp.k ∧ (retiredSplit c f target sp).a = sp.a
      ∧ (retiredSplit c f target sp).status = sp.status := by
  simp only [retiredSplit, wentOn, Split.goTo, Split.next]
  repeat' split
  all_goals exact ⟨rfl, rfl, rfl, rfl⟩

/-- Retiring after an effect that only wrote registers and flags. -/
theorem Steady.retire {c : Ctx} {f : Form} {u : State} {target : Option Nat} : Steady u (retire c f u target) c.ag := by
  have h (v : State) : Steady v (v.modSplit c.ag (retiredSplit c f target)) c.ag :=
    Steady.modSplit v c.ag _ fun q _ => (retiredSplit_keeps c f target q).1
  unfold Machine.retire
  split
  · exact (Steady.freeQuad u c.ag).trans (h _)
  · exact h u

theorem reg_retire {c : Ctx} {f : Form} {u : State} {target : Option Nat} (loc : Loc) (lane : Nat) :
    (retire c f u target).reg c.ag loc lane = u.reg c.ag loc lane := by
  unfold retire
  rw [reg_modSplit _ c.ag c.ag _ (fun q => (retiredSplit_keeps c f target q).2.1) (fun q => (retiredSplit_keeps c f target q).2.2.1)]
  split
  · exact reg_freeQuad u c.ag c.ag loc lane
  · rfl

theorem split?_retire {c : Ctx} {f : Form} {u : State} {target : Option Nat} {sp : Split} (hs : u.split? c.ag = some sp) :
    (retire c f u target).split? c.ag = some (retiredSplit c f target sp) := by
  have : (if c.sp.resumed then freeQuad u c.ag else u).split? c.ag = some sp := by
    split
    · rw [split?_freeQuad, hs]
    · exact hs
  rw [retire, State.split?_modSplit, if_pos ⟨rfl, rfl⟩, this]; rfl

theorem retiredSplit_pc {c : Ctx} {f : Form} {sp : Split} (target : Option Nat) (h : sp.parked = []) :
    (retiredSplit c f target sp).pc = match target with | some t => BitVec.ofNat 57 t | none => sp.pc + 12 := by
  cases target <;> simp [retiredSplit, wentOn, Split.endRun, Split.goTo, Split.next, h] <;> split <;> rfl

/-- An instruction whose effect only wrote registers and flags completes as `Retired` says. -/
theorem retired_of_done {i : Instr} {s : State} {c : Ctx} {eff : Ctx → Eff} {u : State} {dst : Loc → Nat → Option Nat} {ex : Nat}
    (h : issuing i s = some c) (he : eff c = .done u) (hu : Steady c.s u c.ag)
    (hr : ∀ loc lane, loc.inLane lane = true → u.reg c.ag loc lane = (dst loc lane).getD (c.s.reg c.ag loc lane))
    (hst : u.statusOf c.ag = (c.s.statusOf c.ag).map fun x => x ||| BitVec.ofNat 32 ex) (hpc : u.pcOf c.ag = c.s.pcOf c.ag) :
    ∃ t, runInstr i eff s = .next t ∧ Retired s t c dst ex := by
  obtain ⟨-, -, -, f, -, -, -, -, hf, -, -, -, -, -, -, -, hecc, -, -⟩ := issuing_some h
  obtain ⟨sp, hsp, hcsp, hcs, hpk⟩ := split?_issuing h
  have hv := Steady.issuing h
  have hsplit := hu.split
  rw [hcs] at hsplit
  cases hus : u.split? c.ag with
  | none => rw [hus] at hsplit; cases hsplit
  | some q =>
    have hqp : q.parked = [] := by
      rw [hus] at hsplit
      have := congrArg Split.parked (Option.some.inj hsplit)
      simp only [Split.body, Split.still] at this
      rw [this, hcsp]; exact hpk
    have h1 : Steady s (retire c f u none) c.ag := (hv.trans hu).trans Steady.retire
    refine ⟨(retire c f u none).keepRegs s, ?_, ?_⟩
    · rw [runInstr_issuing h hf, he]
      exact congrArg _ (settleEcc_none ((ecc_of_rest h1.rest).trans hecc))
    · have hk : (retire c f u none).keepRegs s = retire c f u none := by
        unfold State.keepRegs
        rw [← regs_of_rest h1.rest]
      rw [hk]
      refine ⟨h1, ?_, ?_, ?_⟩
      · intro loc lane hl
        rw [reg_retire, hr loc lane hl, reg_issuing h loc lane hl]
      · simp only [State.statusOf, split?_retire hus, Option.map_some, (retiredSplit_keeps c f none q).2.2.2]
        simp only [State.statusOf, hus, hcs, Option.map_some] at hst
        rw [hsp, hst, hcsp]; rfl
      · simp only [State.pcOf, split?_retire hus, Option.map_some, retiredSplit_pc none hqp]
        simp only [State.pcOf, hus, hcs, Option.map_some] at hpc
        rw [hsp, Option.some.inj hpc, hcsp]; rfl

end Sys2Proof.Machine
end

