-- ==== Sys2Proof/Laws/Results.lean ====
section
/-! SUPPORT. What writing register cells leaves in the register file, and that the cells of a destination write what
`destValue` says. -/
namespace Sys2Proof.Machine
open Sys2Proof

/-- Registers other than grain registers. -/
def Loc.plain : Loc → Bool
  | .g _ | .gn _ => false
  | _ => true

theorem wrap_lt (x : Int) (n : Nat) : wrap x n < 2 ^ n := by
  have h : (0 : Int) < (2 ^ n : Nat) := by exact_mod_cast Nat.two_pow_pos n
  have h1 := Int.emod_nonneg x (Int.ne_of_gt h)
  have h2 := Int.emod_lt_of_pos x h
  unfold wrap
  omega

theorem key_inj {n m a b : Nat} (ha : a < 32) (hb : b < 32) : (n * 32 + a = m * 32 + b) ↔ (n = m ∧ a = b) := by omega

theorem rawCell_putCell (x : Group × Split) (c : RegCell) (hp : c.loc.plain = true) (hc : c.loc.inLane c.lane = true) (loc : Loc)
    (lane : Nat) (hl : loc.inLane lane = true) :
    rawCell (putCell x c).1 (putCell x c).2 loc lane =
      if loc = c.loc ∧ lane = c.lane ∧ loc ≠ .p 7 then c.loc.holds c.val else rawCell x.1 x.2 loc lane := by
  obtain ⟨g, sp⟩ := x
  obtain ⟨l, ln, val⟩ := c
  cases l with
  | v n =>
    have h1 : ln < 32 := by simpa [Loc.inLane] using hc
    cases loc with
    | v m =>
      have h2 : lane < 32 := by simpa [Loc.inLane] using hl
      simp only [putCell, rawCell, tabGet_set, key_inj h1 h2, Loc.holds, Loc.v.injEq, eq_comm (a := n), eq_comm (a := ln)]
      by_cases h : m = n ∧ lane = ln
      · simp [h]
      · rw [if_neg h, if_neg (fun e => h ⟨e.1, e.2.1⟩)]
    | _ => simp [putCell, rawCell]
  | k n =>
    have h1 : ln = 0 := by simpa [Loc.inLane] using hc
    cases loc with
    | k m =>
      have h2 : lane = 0 := by simpa [Loc.inLane] using hl
      simp only [putCell, rawCell, tabGet_set, Loc.holds, Loc.k.injEq, eq_comm (a := n), h1, h2]
      by_cases h : m = n
      · simp [h]
      · rw [if_neg h, if_neg (fun e => h e.1)]
    | _ => simp [putCell, rawCell]
  | t n =>
    have h1 : ln < 32 := by simpa [Loc.inLane] using hc
    cases loc with
    | t m =>
      have h2 : lane < 32 := by simpa [Loc.inLane] using hl
      simp only [putCell, rawCell, tabGet_set, key_inj h1 h2, Loc.holds, Loc.t.injEq, eq_comm (a := n), eq_comm (a := ln)]
      by_cases h : m = n ∧ lane = ln
      · simp [h]
      · rw [if_neg h, if_neg (fun e => h ⟨e.1, e.2.1⟩)]
    | _ => simp [putCell, rawCell]
  | p n =>
    have h1 : ln < 32 := by simpa [Loc.inLane] using hc
    by_cases h7 : n = 7
    · subst h7
      have : ∀ q : Prop, ¬(loc = Loc.p 7 ∧ q ∧ loc ≠ Loc.p 7) := fun q e => e.2.2 e.1
      simp [putCell, this]
    · cases loc with
      | p m =>
        have h2 : lane < 32 := by simpa [Loc.inLane] using hl
        simp only [putCell, rawCell, h7, if_false, tabGet_set, key_inj h1 h2, Loc.holds, Loc.p.injEq, eq_comm (a := n),
          eq_comm (a := ln)]
        by_cases h : m = n ∧ lane = ln
        · obtain ⟨rfl, rfl⟩ := h
          simp only [h7, if_false, and_self, if_true, ne_eq, Loc.p.injEq, not_false_eq_true]
          rcases Nat.mod_two_eq_zero_or_one val with e | e <;> simp [e]
        · have : ∀ q : Prop, ¬(m = n ∧ lane = ln ∧ q) := fun q e => h ⟨e.1, e.2.1⟩
          simp only [h, this, if_false]
      | _ => simp [putCell, rawCell, h7]
  | a n =>
    have h1 : ln = 0 := by simpa [Loc.inLane] using hc
    cases loc with
    | a m =>
      have h2 : lane = 0 := by simpa [Loc.inLane] using hl
      simp only [putCell, rawCell, tabGet_set, Loc.holds, Loc.a.injEq, eq_comm (a := n), h1, h2]
      by_cases h : m = n
      · simp [h]
      · rw [if_neg h, if_neg (fun e => h e.1)]
    | _ => simp [putCell, rawCell]
  | g n => cases hp
  | gn n => cases hp

/-- A list of cells writes what `dst` says. -/
structure CellsGive (cells : List RegCell) (dst : Loc → Nat → Option Nat) : Prop where
  plain : ∀ c ∈ cells, c.loc.plain = true ∧ c.loc.inLane c.lane = true
  gives : ∀ c ∈ cells, dst c.loc c.lane = if c.loc = .p 7 then none else some (c.loc.holds c.val)
  only : ∀ loc lane x, loc.inLane lane = true → dst loc lane = some x → ∃ c ∈ cells, c.loc = loc ∧ c.lane = lane

theorem rawCell_putCells (cells : List RegCell) (x : Group × Split) (dst : Loc → Nat → Option Nat)
    (hp : ∀ c ∈ cells, c.loc.plain = true ∧ c.loc.inLane c.lane = true)
    (hd : ∀ c ∈ cells, dst c.loc c.lane = if c.loc = .p 7 then none else some (c.loc.holds c.val))
    (loc : Loc) (lane : Nat) (hl : loc.inLane lane = true) :
    ((∃ c ∈ cells, c.loc = loc ∧ c.lane = lane) →
      rawCell (cells.foldl putCell x).1 (cells.foldl putCell x).2 loc lane = (dst loc lane).getD (rawCell x.1 x.2 loc lane)) ∧
    ((¬∃ c ∈ cells, c.loc = loc ∧ c.lane = lane) →
      rawCell (cells.foldl putCell x).1 (cells.foldl putCell x).2 loc lane = rawCell x.1 x.2 loc lane) := by
  induction cells generalizing x with
  | nil => exact ⟨fun h => (by obtain ⟨c, hc, -⟩ := h; cases hc), fun _ => rfl⟩
  | cons c r ih =>
    have hpr := fun d hd' => hp d (List.mem_cons_of_mem c hd')
    have hdr := fun d hd' => hd d (List.mem_cons_of_mem c hd')
    obtain ⟨i1, i2⟩ := ih (putCell x c) hpr hdr
    obtain ⟨p1, p2⟩ := hp c List.mem_cons_self
    have hput := rawCell_putCell x c p1 p2 loc lane hl
    have hdc := hd c List.mem_cons_self
    have key : ∀ base, c.loc = loc → c.lane = lane →
        (dst loc lane).getD (if loc = c.loc ∧ lane = c.lane ∧ loc ≠ .p 7 then c.loc.holds c.val else base) = (dst loc lane).getD base := by
      intro base e1 e2
      subst e1 e2
      rw [hdc]
      by_cases h7 : c.loc = .p 7 <;> simp [h7]
    constructor
    · rintro ⟨d, hmem, e1, e2⟩
      rw [List.foldl_cons]
      by_cases hr : ∃ c ∈ r, c.loc = loc ∧ c.lane = lane
      · rw [i1 hr, hput]
        by_cases hc : c.loc = loc ∧ c.lane = lane
        · exact key _ hc.1 hc.2
        · rw [if_neg (fun e => hc ⟨e.1.symm, e.2.1.symm⟩)]
      · have hdc' : d = c := by
          rcases List.mem_cons.1 hmem with h | h
          · exact h
          · exact absurd ⟨d, h, e1, e2⟩ hr
        subst hdc'
        rw [i2 hr, hput]
        have := key (rawCell x.1 x.2 loc lane) e1 e2
        rw [← this]
        subst e1 e2
        rw [hdc]
        by_cases h7 : d.loc = .p 7 <;> simp [h7]
    · intro hn
      have hr : ¬∃ c ∈ r, c.loc = loc ∧ c.lane = lane := fun ⟨d, hm, e⟩ => hn ⟨d, List.mem_cons_of_mem c hm, e⟩
      have hc : ¬(c.loc = loc ∧ c.lane = lane) := fun e => hn ⟨c, List.mem_cons_self, e⟩
      rw [List.foldl_cons, i2 hr, hput, if_neg (fun e => hc ⟨e.1.symm, e.2.1.symm⟩)]

theorem CellsGive.read {cells : List RegCell} {dst : Loc → Nat → Option Nat} (h : CellsGive cells dst) (x : Group × Split)
    (loc : Loc) (lane : Nat) (hl : loc.inLane lane = true) :
    rawCell (cells.foldl putCell x).1 (cells.foldl putCell x).2 loc lane = (dst loc lane).getD (rawCell x.1 x.2 loc lane) := by
  obtain ⟨h1, h2⟩ := rawCell_putCells cells x dst h.plain h.gives loc lane hl
  by_cases hc : ∃ c ∈ cells, c.loc = loc ∧ c.lane = lane
  · exact h1 hc
  · rw [h2 hc]
    cases hd : dst loc lane with
    | none => rfl
    | some v => exact absurd (h.only loc lane v hl hd) hc

theorem actingLanes_lt {c : Ctx} (ha : c.act = lanesOf c.sp.mask) : ∀ l ∈ actingLanes c, l < 32 := by
  intro l hl
  have h := (List.mem_filter.1 hl).1
  rw [ha, lanesOf] at h
  exact List.mem_range.1 (List.mem_filter.1 h).1

theorem lanes_issuing {i : Instr} {s : State} {c : Ctx} (h : issuing i s = some c) : ∀ l ∈ c.lanes, l < 32 := by
  obtain ⟨ag, g, sp, f, w, -, -, -, -, -, rfl, -⟩ := issuing_some h
  intro l hl
  have h := (List.mem_filter.1 hl).1
  exact List.mem_range.1 (List.mem_filter.1 h).1

/-- The cells of a destination write what `destValue` says. -/
theorem destCells_gives (c : Ctx) (t : Ty) (regs : Nat) (val : Nat → Nat) (hl : ∀ l ∈ c.lanes, l < 32) :
    CellsGive (destCells c t regs val) (destValue c t regs val) := by
  unfold destCells
  split
  · next n hd =>
    refine ⟨?_, ?_, ?_⟩
    · intro x hx
      obtain ⟨l, hm, hx⟩ := List.mem_flatMap.1 hx
      obtain ⟨i, hi, rfl⟩ := List.mem_map.1 hx
      exact ⟨rfl, by simpa [Loc.inLane] using hl l hm⟩
    · intro x hx
      obtain ⟨l, hm, hx⟩ := List.mem_flatMap.1 hx
      obtain ⟨i, hi, rfl⟩ := List.mem_map.1 hx
      have : i < regs := List.mem_range.1 hi
      simp [destValue, hd, hm, this, Loc.holds]
    · intro loc lane x hin hx
      cases loc with
      | v m =>
        simp only [destValue, hd] at hx
        split at hx
        · next h =>
          obtain ⟨h1, h2, h3⟩ := h
          refine ⟨⟨.v (n.toNat + (m - n.toNat)), lane, val lane / 2 ^ (32 * (m - n.toNat)) % 2 ^ 32⟩,
            List.mem_flatMap.2 ⟨lane, h3, List.mem_map.2 ⟨m - n.toNat, List.mem_range.2 (by omega), rfl⟩⟩, ?_, rfl⟩
          simp only [Loc.v.injEq]; omega
        · cases hx
      | _ => simp [destValue, hd] at hx
  · next n hd =>
    refine ⟨?_, ?_, ?_⟩
    · intro x hx
      obtain ⟨l, hm, rfl⟩ := List.mem_map.1 hx
      exact ⟨rfl, by simpa [Loc.inLane] using hl l hm⟩
    · intro x hx
      obtain ⟨l, hm, rfl⟩ := List.mem_map.1 hx
      simp [destValue, hd, hm, Loc.holds]
    · intro loc lane x hin hx
      cases loc with
      | t m =>
        simp only [destValue, hd] at hx
        split at hx
        · next h => exact ⟨_, List.mem_map.2 ⟨lane, h.2, rfl⟩, by simp [h.1], rfl⟩
        · cases hx
      | _ => simp [destValue, hd] at hx
  · next n hd =>
    split
    · next he =>
      have he : c.lanes = [] := by simpa using he
      refine ⟨fun x hx => (by cases hx), fun x hx => (by cases hx), ?_⟩
      intro loc lane x hin hx
      cases loc <;> simp [destValue, hd, he] at hx
    · next he =>
      have he : c.lanes ≠ [] := by simpa using he
      refine ⟨?_, ?_, ?_⟩
      · intro x hx
        rw [List.mem_singleton.1 hx]
        exact ⟨rfl, rfl⟩
      · intro x hx
        rw [List.mem_singleton.1 hx]
        simp only [destValue, hd, he, ne_eq, not_false_eq_true, and_self, if_true, reduceCtorEq, if_false, Loc.holds, extK,
          Option.some.injEq]
        by_cases h1 : regs = 1
        · by_cases h2 : t = .s32
          · simp only [h1, h2, if_true, and_self]
            exact (Nat.mod_eq_of_lt (wrap_lt _ 64)).symm
          · simp only [h1, h2, if_true, if_false, and_false]
            exact (Nat.mod_eq_of_lt (Nat.lt_of_lt_of_le (Nat.mod_lt _ (by decide)) (by decide))).symm
        · simp [h1]
      · intro loc lane x hin hx
        cases loc with
        | k m =>
          simp only [destValue, hd] at hx
          split at hx
          · next h =>
            have : lane = 0 := by simpa [Loc.inLane] using hin
            exact ⟨_, List.mem_singleton.2 rfl, by simp [h.1], this.symm⟩
          · cases hx
        | _ => simp [destValue, hd] at hx
  · next n hd =>
    split
    · next he =>
      have he : n = 7#3 := by simpa using he
      refine ⟨fun x hx => (by cases hx), fun x hx => (by cases hx), ?_⟩
      intro loc lane x hin hx
      cases loc with
      | p m =>
        simp only [destValue, hd, he] at hx
        split at hx
        · next h => exact absurd h.1 h.2.1
        · cases hx
      | _ => simp [destValue, hd] at hx
    · next he =>
      have he : n ≠ 7#3 := by simpa using he
      have he7 : n.toNat ≠ 7 := fun e => he (BitVec.eq_of_toNat_eq e)
      refine ⟨?_, ?_, ?_⟩
      · intro x hx
        obtain ⟨l, hm, rfl⟩ := List.mem_map.1 hx
        exact ⟨rfl, by simpa [Loc.inLane] using hl l hm⟩
      · intro x hx
        obtain ⟨l, hm, rfl⟩ := List.mem_map.1 hx
        simp [destValue, hd, hm, he7, Loc.holds]
      · intro loc lane x hin hx
        cases loc with
        | p m =>
          simp only [destValue, hd] at hx
          split at hx
          · next h => exact ⟨_, List.mem_map.2 ⟨lane, h.2.2, rfl⟩, by simp [h.1], rfl⟩
          · cases hx
        | _ => simp [destValue, hd] at hx
  · next n hd =>
    split
    · next he =>
      have he : c.lanes = [] := by simpa using he
      refine ⟨fun x hx => (by cases hx), fun x hx => (by cases hx), ?_⟩
      intro loc lane x hin hx
      cases loc <;> simp [destValue, hd, he] at hx
    · next he =>
      have he : c.lanes ≠ [] := by simpa using he
      refine ⟨?_, ?_, ?_⟩
      · intro x hx
        rw [List.mem_singleton.1 hx]
        exact ⟨rfl, rfl⟩
      · intro x hx
        rw [List.mem_singleton.1 hx]
        simp [destValue, hd, he, Loc.holds]
      · intro loc lane x hin hx
        cases loc with
        | a m =>
          simp only [destValue, hd] at hx
          split at hx
          · next h =>
            have : lane = 0 := by simpa [Loc.inLane] using hin
            exact ⟨_, List.mem_singleton.2 rfl, by simp [h.1], this.symm⟩
          · cases hx
        | _ => simp [destValue, hd] at hx
  · next h1 h2 h3 h4 h5 =>
    refine ⟨fun x hx => (by cases hx), fun x hx => (by cases hx), ?_⟩
    intro loc lane x hin hx
    unfold destValue at hx
    split at hx <;> first
      | cases hx
      | (exfalso; first | exact h1 _ ‹_› | exact h2 _ ‹_› | exact h3 _ ‹_› | exact h4 _ ‹_› | exact h5 _ ‹_›)

/-! ### Writing results -/

theorem putCells_body (cells : List RegCell) (x : Group × Split) :
    (cells.foldl putCell x).1.body = x.1.body ∧ (cells.foldl putCell x).1.splits = x.1.splits
      ∧ (cells.foldl putCell x).2.body = x.2.body ∧ (cells.foldl putCell x).2.status = x.2.status
      ∧ (cells.foldl putCell x).2.pc = x.2.pc ∧ (cells.foldl putCell x).2.pending = x.2.pending := by
  induction cells generalizing x with
  | nil => exact ⟨rfl, rfl, rfl, rfl, rfl, rfl⟩
  | cons c r ih =>
    obtain ⟨h1, h2, h3, h4, h5, h6⟩ := ih (putCell x c)
    rw [List.foldl_cons]
    have : (putCell x c).1.body = x.1.body ∧ (putCell x c).1.splits = x.1.splits ∧ (putCell x c).2.body = x.2.body
        ∧ (putCell x c).2.status = x.2.status ∧ (putCell x c).2.pc = x.2.pc ∧ (putCell x c).2.pending = x.2.pending := by
      obtain ⟨l, ln, v⟩ := c
      obtain ⟨g, sp⟩ := x
      cases l with
      | p n => by_cases h : n = 7 <;> (simp only [putCell, h, if_true, if_false, and_self, and_true]; try rfl)
      | _ => exact ⟨rfl, rfl, rfl, rfl, rfl, rfl⟩
    obtain ⟨k1, k2, k3, k4, k5, k6⟩ := this
    exact ⟨h1.trans k1, h2.trans k2, h3.trans k3, h4.trans k4, h5.trans k5, h6.trans k6⟩

/-- Everything that a fixed-latency result changes (R26). -/
theorem writeFixed_spec {s : State} {ag : Agent} {g : Group} {sp : Split} (ready : Nat) {cells : List RegCell}
    {dst : Loc → Nat → Option Nat} (hg : s.group? ag.core ag.slot = some g) (hs : s.split? ag = some sp)
    (hc : CellsGive cells dst) :
    Steady s (writeFixed s ag ready cells) ag
      ∧ (∀ loc lane, loc.inLane lane = true →
          (writeFixed s ag ready cells).reg ag loc lane = (dst loc lane).getD (s.reg ag loc lane))
      ∧ (writeFixed s ag ready cells).statusOf ag = s.statusOf ag ∧ (writeFixed s ag ready cells).pcOf ag = s.pcOf ag := by
  have h0 : tabFind g.splits ag.split = some sp := by rw [← State.split?_of_group hg]; exact hs
  obtain ⟨b1, b2, b3, b4, b5, -⟩ := putCells_body cells (g, sp)
  unfold writeFixed
  split
  · next he =>
    have he : cells = [] := by simpa using he
    subst he
    refine ⟨Steady.refl s ag, fun loc lane hl => ?_, rfl, rfl⟩
    cases hd : dst loc lane with
    | none => rfl
    | some v => obtain ⟨c, hm, -⟩ := hc.only loc lane v hl hd; cases hm
  · refine ⟨Steady.modGroup s ag _ ?_ ?_ ?_, fun loc lane hl => ?_, ?_, ?_⟩
    · intro h hh
      cases hg.symm.trans hh
      simp only [h0]
      exact b1
    · intro h n hh hn
      cases hg.symm.trans hh
      simp only [h0, tabFind_put, if_neg (Ne.symm hn), b2]
    · intro h hh
      cases hg.symm.trans hh
      simp only [h0, tabFind_put, if_true]
      exact congrArg some b3
    · have := hc.read (g, sp) loc lane hl
      simp only [State.reg, State.split?, State.group?_modGroup, if_true, hg, Option.map_some, h0, tabFind_put]
      rw [← this]
      exact rawCell_congr rfl rfl rfl rfl rfl rfl loc lane
    · simp only [State.statusOf, State.split?, State.group?_modGroup, if_true, hg, Option.map_some, h0, tabFind_put]
      exact congrArg some b4
    · simp only [State.pcOf, State.split?, State.group?_modGroup, if_true, hg, Option.map_some, h0, tabFind_put]
      exact congrArg some b5

/-- A result of fixed latency in D alone. -/
theorem retired_of_fixed {i : Instr} {s : State} {c : Ctx} {eff : Ctx → Eff} (h : issuing i s = some c) (L : Nat)
    {cells : List RegCell} {dst : Loc → Nat → Option Nat} (hc : CellsGive cells dst)
    (he : eff c = .done (c.fixed L cells)) : ∃ t, runInstr i eff s = .next t ∧ Retired s t c dst 0 := by
  obtain ⟨sp, -, -, hcs, -⟩ := split?_issuing h
  obtain ⟨ag, g, sp', f, w, -, hg, hs, -, -, hcv, -⟩ := issuing_some h
  obtain ⟨l, hgc⟩ := group?_issued w { s with turn := none, free := s.free + 1 } ag g sp'
  have hgc' : ∃ g', c.s.group? c.ag.core c.ag.slot = some g' := by subst hcv; exact ⟨_, hgc⟩
  obtain ⟨g', hg'⟩ := hgc'
  obtain ⟨h1, h2, h3, h4⟩ := writeFixed_spec (c.now + c.x + L) hg' hcs hc
  refine retired_of_done h he h1 h2 ?_ h4
  show (writeFixed c.s c.ag _ cells).statusOf c.ag = _
  rw [h3]
  cases c.s.statusOf c.ag <;> simp

/-- R82's instructions. -/
theorem retired_of_alu {i : Instr} {s : State} {c : Ctx} {eff : Ctx → Eff} {val : Nat → Nat} (h : issuing i s = some c)
    (he : eff c = c.alu val) :
    ∃ t, runInstr i eff s = .next t ∧ Retired s t c (destValue c c.w.ty (tyRegs c.w.ty) val) 0 :=
  retired_of_fixed h 4 (destCells_gives c _ _ val (lanes_issuing h)) he

end Sys2Proof.Machine
end

