-- ==== Sys2Proof/Laws/Integer.lean ====
section
/-! SUPPORT. The values of the logic, shift, bit-field and address instructions, bit by bit or as numbers, and the widths of
operands. -/
namespace Sys2Proof.Machine
open Sys2Proof

theorem opVal_lt (c : Ctx) (t : Ty) (regs : Nat) (o : Opnd) (lane : Nat) (ho : ∀ n, o ≠ .a n) (hr : 0 < regs)
    (ht : tyRegs t = regs) : opVal c t regs o lane < 2 ^ (32 * regs) := by
  have hp : (0 : Nat) < 2 ^ (32 * regs) := Nat.two_pow_pos _
  have h32 : (2 : Nat) ^ 32 ≤ 2 ^ (32 * regs) := Nat.pow_le_pow_right (by decide) (by omega)
  cases o with
  | v n =>
    simp only [opVal]
    clear ho ht h32 hp hr
    induction regs with
    | zero => simp [readV]
    | succ r ih =>
      have h1 : c.read (.v (n.toNat + r)) lane % 2 ^ 32 < 2 ^ 32 := Nat.mod_lt _ (by decide)
      have h2 : (2 : Nat) ^ (32 * (r + 1)) = 2 ^ (32 * r) * 2 ^ 32 := by rw [← Nat.pow_add]; rfl
      simp only [readV]
      rw [h2]
      calc _ < 2 ^ (32 * r) + 2 ^ (32 * r) * (c.read (.v (n.toNat + r)) lane % 2 ^ 32) := by omega
        _ = 2 ^ (32 * r) * (c.read (.v (n.toNat + r)) lane % 2 ^ 32 + 1) := by rw [Nat.mul_add]; omega
        _ ≤ _ := Nat.mul_le_mul_left _ h1
  | t n => exact Nat.lt_of_lt_of_le (Nat.mod_lt _ (by decide)) h32
  | p n => exact Nat.lt_of_lt_of_le (Nat.mod_lt _ (by decide)) (Nat.le_trans (by decide) h32)
  | k n => exact Nat.mod_lt _ hp
  | latch n => exact Nat.mod_lt _ hp
  | special n => exact Nat.mod_lt _ hp
  | a n => exact absurd rfl (ho n)
  | lit x =>
    subst ht
    simp only [opVal]
    have : ∀ y, packElems (tyWidth t) (List.replicate (tyElems t) y) < 2 ^ (32 * tyRegs t) := by
      intro y
      have := packElems_lt (tyWidth t) (List.replicate (tyElems t) y)
      rwa [List.length_replicate, tyWidth_elems] at this
    unfold litBits
    dsimp only
    split <;> exact this _
  | zero => exact hp
  | g n => exact hp
  | m n => exact hp
  | reserved r => exact hp

theorem testBit_ge {a w j : Nat} (ha : a < 2 ^ w) (h : w ≤ j) : a.testBit j = false :=
  Nat.testBit_lt_two_pow (Nat.lt_of_lt_of_le ha (Nat.pow_le_pow_right (by decide) h))

theorem shlVal_bits (w a n : Nat) :
    shlVal w a n < 2 ^ w ∧ ∀ j, j < w → (shlVal w a n).testBit j = (decide (n ≤ j) && a.testBit (j - n)) := by
  unfold shlVal
  split
  · refine ⟨Nat.two_pow_pos w, fun j hj => ?_⟩
    simp [show ¬n ≤ j by omega]
  · refine ⟨Nat.mod_lt _ (Nat.two_pow_pos w), fun j hj => ?_⟩
    rw [Nat.testBit_mod_two_pow, Nat.testBit_mul_two_pow]
    simp [hj]

theorem shrVal_bits {w a : Nat} (n : Nat) (ha : a < 2 ^ w) :
    shrVal w a n < 2 ^ w ∧ ∀ j, j < w → (shrVal w a n).testBit j = (decide (j + n < w) && a.testBit (j + n)) := by
  unfold shrVal
  split
  · refine ⟨Nat.two_pow_pos w, fun j hj => ?_⟩
    simp [show ¬j + n < w by omega]
  · refine ⟨Nat.lt_of_le_of_lt (Nat.div_le_self _ _) ha, fun j hj => ?_⟩
    rw [Nat.testBit_div_two_pow]
    by_cases h : j + n < w
    · simp [h]
    · simp [h, testBit_ge ha (by omega : w ≤ j + n)]

end Sys2Proof.Machine
end

