-- ==== Sys2Proof/Laws/Memory.lean ====
section
/-! SUPPORT. Memory: what a byte and a tag read after each operation, and that every operation keeps memory and its tags in
canonical form. -/
namespace Sys2Proof.Machine
open Sys2Proof

/-! ### Bytes -/

/-- Reading after a write of one byte. -/
theorem byte_setByte (s : State) (pa a : Nat) (b : Byte) : (s.setByte pa b).byte a = if pa = a then b else s.byte a :=
  tabGet_set _ _ _ _ _

/-- Reading after a write of bytes: the written byte inside, what was there outside. -/
theorem byte_setBytes (s : State) (pa a : Nat) (bs : List Byte) :
    (s.setBytes pa bs).byte a = if pa ≤ a then (bs[a - pa]?).getD (s.byte a) else s.byte a := by
  induction bs generalizing s pa with
  | nil => simp [State.setBytes]
  | cons b r ih =>
    rw [State.setBytes, ih, byte_setByte]
    rcases Nat.lt_trichotomy pa a with h | h | h
    · rw [if_pos (by omega), if_neg (by omega), if_pos (by omega), show a - pa = (a - (pa + 1)) + 1 by omega,
        List.getElem?_cons_succ]
    · subst h; simp
    · rw [if_neg (by omega), if_neg (by omega), if_neg (by omega)]

/-- A write leaves every other place alone. -/
theorem byte_setBytes_outside {s : State} {pa a : Nat} {bs : List Byte} (h : a < pa ∨ pa + bs.length ≤ a) :
    (s.setBytes pa bs).byte a = s.byte a := by
  rw [byte_setBytes]
  split
  · rw [List.getElem?_eq_none (by omega)]; rfl
  · rfl

theorem bytes_length (s : State) (pa n : Nat) : (s.bytes pa n).length = n := by
  induction n generalizing pa with
  | zero => rfl
  | succ n ih => simp [State.bytes, ih]

theorem bytes_at (s : State) (pa n i : Nat) : (s.bytes pa n)[i]? = if i < n then some (s.byte (pa + i)) else none := by
  induction n generalizing pa i with
  | zero => simp [State.bytes]
  | succ n ih =>
    cases i with
    | zero => simp [State.bytes]
    | succ i => simp [State.bytes, ih, show pa + 1 + i = pa + (i + 1) by omega]

/-- Reading back what was written. -/
theorem bytes_setBytes (s : State) (pa : Nat) (bs : List Byte) : (s.setBytes pa bs).bytes pa bs.length = bs := by
  apply List.ext_getElem?
  intro i
  rw [bytes_at]
  split
  · rw [byte_setBytes, if_pos (by omega), show pa + i - pa = i by omega, List.getElem?_eq_getElem ‹_›]; rfl
  · rw [List.getElem?_eq_none (by omega)]

/-! ### What the operations of the caches leave alone -/

@[simp] theorem setBytes_tags (s : State) (pa : Nat) (bs : List Byte) : (s.setBytes pa bs).tags = s.tags := by
  induction bs generalizing s pa with
  | nil => rfl
  | cons b r ih => rw [State.setBytes, ih]; rfl
@[simp] theorem clearTags_mem (s : State) (pa n : Nat) : (s.clearTags pa n).mem = s.mem := rfl
@[simp] theorem setTag_mem (s : State) (pa : Nat) (v : Bool) : (s.setTag pa v).mem = s.mem := rfl

@[simp] theorem l1Patch_mem (s : State) (core pa : Nat) (bs : List Byte) (tag : Bool) : (l1Patch s core pa bs tag).mem = s.mem := by
  simp only [l1Patch]; split <;> rfl
@[simp] theorem l1Patch_tags (s : State) (core pa : Nat) (bs : List Byte) (tag : Bool) : (l1Patch s core pa bs tag).tags = s.tags := by
  simp only [l1Patch]; split <;> rfl
@[simp] theorem l1Drop_mem (s : State) (core : Nat) (p : L1Line → Bool) : (l1Drop s core p).mem = s.mem := by
  unfold l1Drop; split <;> rfl
@[simp] theorem l1Drop_tags (s : State) (core : Nat) (p : L1Line → Bool) : (l1Drop s core p).tags = s.tags := by
  unfold l1Drop; split <;> rfl
@[simp] theorem meterAdd_mem (s : State) (part m n : Nat) : (meterAdd s part m n).mem = s.mem := rfl
@[simp] theorem meterAdd_tags (s : State) (part m n : Nat) : (meterAdd s part m n).tags = s.tags := rfl
@[simp] theorem countShared_mem (s : State) (x : BitVec 12) (m n : Nat) : (countShared s x m n).mem = s.mem := rfl
@[simp] theorem countShared_tags (s : State) (x : BitVec 12) (m n : Nat) : (countShared s x m n).tags = s.tags := rfl
@[simp] theorem countBytes_mem (s : State) (x : BitVec 12) (part pa n : Nat) : (countBytes s x part pa n).mem = s.mem := by
  unfold countBytes; split
  · simp
  · split <;> simp
@[simp] theorem countBytes_tags (s : State) (x : BitVec 12) (part pa n : Nat) : (countBytes s x part pa n).tags = s.tags := by
  unfold countBytes; split
  · simp
  · split <;> simp
/-- Lines that leave the L2 count bytes alone. -/
theorem foldl_memory {α : Type} (f : State → α → State) (h : ∀ s a, (f s a).mem = s.mem ∧ (f s a).tags = s.tags) (l : List α) (s : State) :
    (l.foldl f s).mem = s.mem ∧ (l.foldl f s).tags = s.tags := by
  induction l generalizing s with
  | nil => exact ⟨rfl, rfl⟩
  | cons a r ih => exact ⟨(ih _).1.trans (h s a).1, (ih _).2.trans (h s a).2⟩

theorem flushLines_memory (s : State) (p : Nat × L2Line → Bool) :
    (flushLines s p).mem = s.mem ∧ (flushLines s p).tags = s.tags := by
  refine foldl_memory _ (fun s e => ?_) _ s
  split <;> simp
@[simp] theorem flushLines_mem (s : State) (p : Nat × L2Line → Bool) : (flushLines s p).mem = s.mem := (flushLines_memory s p).1
@[simp] theorem flushLines_tags (s : State) (p : Nat × L2Line → Bool) : (flushLines s p).tags = s.tags := (flushLines_memory s p).2
@[simp] theorem countSide_mem (s : State) (x : BitVec 12) (part pa : Nat) : (countSide s x part pa).mem = s.mem := by
  unfold countSide; split
  · rfl
  · exact (foldl_memory _ (fun s e => ⟨countBytes_mem .., countBytes_tags ..⟩) _ s).1
@[simp] theorem countSide_tags (s : State) (x : BitVec 12) (part pa : Nat) : (countSide s x part pa).tags = s.tags := by
  unfold countSide; split
  · rfl
  · exact (foldl_memory _ (fun s e => ⟨countBytes_mem .., countBytes_tags ..⟩) _ s).2
@[simp] theorem sideInval_mem (s : State) (pa n : Nat) : (sideInval s pa n).mem = s.mem := by unfold sideInval; split <;> simp
@[simp] theorem sideInval_tags (s : State) (pa n : Nat) : (sideInval s pa n).tags = s.tags := by unfold sideInval; split <;> simp
@[simp] theorem l2Touch_mem (s : State) (w : Who) (pa : Nat) (write : Bool) : (l2Touch s w pa write).mem = s.mem := by
  simp only [l2Touch]
  (repeat' split) <;> simp
@[simp] theorem l2Touch_tags (s : State) (w : Who) (pa : Nat) (write : Bool) : (l2Touch s w pa write).tags = s.tags := by
  simp only [l2Touch]
  (repeat' split) <;> simp
@[simp] theorem l1Put_mem (s : State) (core : Nat) (l : L1Line) : (l1Put s core l).mem = s.mem := rfl
@[simp] theorem l1Put_tags (s : State) (core : Nat) (l : L1Line) : (l1Put s core l).tags = s.tags := rfl
@[simp] theorem countPrivate_mem (s : State) (w : Who) (n : Nat) : (countPrivate s w n).mem = s.mem := rfl
@[simp] theorem countPrivate_tags (s : State) (w : Who) (n : Nat) : (countPrivate s w n).tags = s.tags := rfl

/-- A load through the L1 leaves memory and its tags alone. -/
theorem l1Load_mem (s : State) (w : Who) (pa n : Nat) : (l1Load s w pa n).2.2.mem = s.mem ∧ (l1Load s w pa n).2.2.tags = s.tags := by
  simp only [l1Load]
  (repeat' split) <;> simp

/-! ### Validity tags -/

theorem mem_natInsert (n : Nat) (l : List Nat) (g : Nat) : g ∈ natInsert n l ↔ g = n ∨ g ∈ l := by
  induction l with
  | nil => simp [natInsert]
  | cons k r ih =>
    simp only [natInsert]
    split
    · simp
    · split
      · rename_i h; subst h; simp
      · simp only [List.mem_cons, ih]; tauto

/-- A granule's tag after it is set or cleared. -/
theorem tagged_setTag (s : State) (pa a : Nat) (v : Bool) :
    (s.setTag pa v).tagged a = if pa / 16 = a / 16 then v else s.tagged a := by
  apply Bool.eq_iff_iff.mpr
  unfold State.tagged State.setTag
  cases v
  · simp only [natRemove, Bool.false_eq_true, if_false, List.contains_eq_mem, decide_eq_true_eq, List.mem_filter, bne_iff_ne, ne_eq]
    split
    · simp_all
    · simp only [decide_eq_true_eq]; exact ⟨fun h => h.1, fun h => ⟨h, by omega⟩⟩
  · simp only [if_true, List.contains_eq_mem, decide_eq_true_eq, mem_natInsert]
    split
    · simp_all
    · simp only [decide_eq_true_eq]; exact ⟨fun h => h.resolve_left (by omega), .inr⟩

/-- A granule keeps its tag exactly where no byte of it is written (R195). -/
theorem tagged_clearTags (s : State) (pa n a : Nat) :
    (s.clearTags pa n).tagged a = (s.tagged a && !(decide (pa / 16 ≤ a / 16) && decide (a / 16 * 16 < pa + n))) := by
  apply Bool.eq_iff_iff.mpr
  simp [State.tagged, State.clearTags, List.mem_filter]

/-! ### The canonical form -/

theorem tagsWf_iff (l : List Nat) : tagsWf l = true ↔ l.Pairwise (· < ·) := by
  induction l with
  | nil => simp [tagsWf]
  | cons a r ih =>
    cases r with
    | nil => simp [tagsWf]
    | cons b t =>
      simp only [tagsWf, Bool.and_eq_true, decide_eq_true_eq, ih, List.pairwise_cons]
      constructor
      · rintro ⟨h, k, l⟩
        refine ⟨fun x hx => ?_, k, l⟩
        rcases List.mem_cons.mp hx with rfl | hx
        · exact h
        · exact Nat.lt_trans h (k x hx)
      · rintro ⟨h, k, l⟩
        exact ⟨h b (List.mem_cons_self ..), k, l⟩

theorem natInsert_wf {n : Nat} {l : List Nat} (h : tagsWf l = true) : tagsWf (natInsert n l) = true := by
  rw [tagsWf_iff] at h ⊢
  induction l with
  | nil => simp [natInsert]
  | cons k r ih =>
    obtain ⟨hk, hr⟩ := List.pairwise_cons.mp h
    simp only [natInsert]
    split
    · refine List.pairwise_cons.mpr ⟨fun x hx => ?_, h⟩
      rcases List.mem_cons.mp hx with rfl | hx
      · assumption
      · have := hk x hx; omega
    · split
      · exact h
      · refine List.pairwise_cons.mpr ⟨fun x hx => ?_, ih hr⟩
        rcases (mem_natInsert n r x).mp hx with rfl | hx
        · omega
        · exact hk x hx

theorem tagsFilter_wf {l : List Nat} (p : Nat → Bool) (h : tagsWf l = true) : tagsWf (l.filter p) = true := by
  rw [tagsWf_iff] at h ⊢; exact h.filter p

/-- A change elsewhere keeps the form. -/
theorem State.MemoryOk.congr {s t : State} (h : s.MemoryOk) (hm : t.mem = s.mem) (ht : t.tags = s.tags) : t.MemoryOk := by
  unfold State.MemoryOk at *; rwa [hm, ht]

theorem State.MemoryOk.setByte {s : State} (h : s.MemoryOk) (pa : Nat) (b : Byte) : (s.setByte pa b).MemoryOk :=
  ⟨tabSet_wf _ _ h.1, h.2⟩

theorem State.MemoryOk.setBytes {s : State} (h : s.MemoryOk) (pa : Nat) (bs : List Byte) : (s.setBytes pa bs).MemoryOk := by
  induction bs generalizing s pa with
  | nil => exact h
  | cons b r ih => exact ih (h.setByte pa b) _

theorem State.MemoryOk.setTag {s : State} (h : s.MemoryOk) (pa : Nat) (v : Bool) : (s.setTag pa v).MemoryOk := by
  refine ⟨h.1, ?_⟩
  cases v
  · exact tagsFilter_wf _ h.2
  · exact natInsert_wf h.2

theorem State.MemoryOk.clearTags {s : State} (h : s.MemoryOk) (pa n : Nat) : (s.clearTags pa n).MemoryOk := ⟨h.1, tagsFilter_wf _ h.2⟩

/-- A write that WAITs are told of changes memory and tags in nothing. -/
@[simp] theorem noteWrite_mem (s : State) (pa n : Nat) : (noteWrite s pa n).mem = s.mem := rfl
@[simp] theorem noteWrite_tags (s : State) (pa n : Nat) : (noteWrite s pa n).tags = s.tags := rfl
@[simp] theorem noteWrite_watches (s : State) (pa n : Nat) : (noteWrite s pa n).watches = s.watches.map fun w =>
    if decide (pa < w.pa + 8) && decide (w.pa < pa + n) && packetTest w.bytes (s.num w.pa 8) then { w with hit := true } else w := rfl

/-- What an atomic leaves of the core's L1 is bookkeeping. -/
@[simp] theorem l1Fresh_mem (s : State) (core pa n : Nat) : (l1Fresh s core pa n).mem = s.mem := by
  simp only [l1Fresh]; repeat' split
  all_goals simp
@[simp] theorem l1Fresh_tags (s : State) (core pa n : Nat) : (l1Fresh s core pa n).tags = s.tags := by
  simp only [l1Fresh]; repeat' split
  all_goals simp

theorem State.MemoryOk.physWrite {s : State} (h : s.MemoryOk) (w : Who) (pa : Nat) (bs : List Byte) : (physWrite s w pa bs).MemoryOk := by
  unfold Machine.physWrite
  split
  · exact h
  · exact ((h.setBytes pa bs).clearTags pa bs.length).congr (by simp) (by simp)

theorem State.MemoryOk.physWriteCap {s : State} (h : s.MemoryOk) (w : Who) (pa : Nat) (c : Cap) : (physWriteCap s w pa c).MemoryOk := by
  have h1 := (h.setBytes pa (leBytes (capBits c) 16)).setTag pa true
  generalize hu : (s.setBytes pa (leBytes (capBits c) 16)).setTag pa true = u at h1
  refine h1.congr ?_ ?_ <;> simp only [Machine.physWriteCap, hu] <;> simp

theorem State.MemoryOk.physAtomic {s : State} (h : s.MemoryOk) (w : Who) (pa n new : Nat) : (physAtomic s w pa n new).MemoryOk := by
  have h1 := h.setBytes pa (leBytes new n)
  have h2 := (h1.congr (noteWrite_mem _ pa n) (noteWrite_tags _ pa n)).clearTags pa n
  simp only [Machine.physAtomic]
  (repeat' split) <;> solve
    | (refine h1.congr ?_ ?_ <;> simp)
    | (refine h2.congr ?_ ?_ <;> simp)

theorem tabPuts_wf {d : Byte} {l : List (Nat × Byte)} {t : Tab Byte} (f : Nat → Nat) (hl : ∀ e ∈ l, e.2 ≠ d) (h : tabWf d t = true) :
    tabWf d (l.foldl (fun t e => tabPut t (f e.1) e.2) t) = true := by
  induction l generalizing t with
  | nil => exact h
  | cons e r ih =>
    exact ih (fun x hx => hl x (List.mem_cons_of_mem _ hx)) (tabPut_wfFrom (hl e (List.mem_cons_self ..)) (Nat.zero_le _) h)

theorem tagPuts_wf {l : List Nat} {t : List Nat} (f : Nat → Nat) (h : tagsWf t = true) :
    tagsWf (l.foldl (fun t e => natInsert (f e) t) t) = true := by
  induction l generalizing t with
  | nil => exact h
  | cons e r ih => exact ih (natInsert_wf h)

/-- The bytes and tags of a migrated page. -/
theorem State.MemoryOk.moveFrames {s : State} (h : s.MemoryOk) (src n d : Nat) : (moveFrames s src n d).MemoryOk := by
  simp only [State.MemoryOk, Machine.moveFrames, sideInval_mem, sideInval_tags]
  refine ⟨?_, ?_⟩
  · exact tabPuts_wf (fun x => x - src * 2 ^ 16 + d * 2 ^ 16)
      (fun e he => tabWf_ne h.1 e (List.mem_of_mem_filter he)) (tabFilter_wfFrom _ h.1)
  · exact tagPuts_wf (fun g => g - src * 2 ^ 16 / 16 + d * 2 ^ 16 / 16) (tagsFilter_wf _ h.2)

theorem State.MemoryOk.placeProgram {s : State} (h : s.MemoryOk) (bytes : List Byte) (op : Nat) : (placeProgram s bytes op).MemoryOk := by
  simp only [Machine.placeProgram]
  refine State.MemoryOk.congr (State.MemoryOk.setBytes (s := ?u) ?k homeCode bytes) ?a ?b
  case a => rfl
  case b => rfl
  case k => exact h.congr rfl rfl

theorem State.MemoryOk.withFetchWord {s : State} (h : s.MemoryOk) (nbits w : Nat) : (s.withFetchWord nbits w).MemoryOk :=
  h.placeProgram _ _

theorem reset_memoryOk : State.reset.MemoryOk := ⟨rfl, rfl⟩

/-! ### A write at the home slice -/

/-- The bytes of memory after a write. -/
theorem byte_physWrite (s : State) (w : Who) (pa a : Nat) (bs : List Byte) :
    (physWrite s w pa bs).byte a = (s.setBytes pa bs).byte a := by
  unfold physWrite
  split
  · rename_i h; rw [List.isEmpty_iff.mp h]; rfl
  · simp [State.byte]

/-- The tags after a write (R195). -/
theorem tagged_physWrite (s : State) (w : Who) (pa a : Nat) {bs : List Byte} (h : bs ≠ []) :
    (physWrite s w pa bs).tagged a = (s.clearTags pa bs.length).tagged a := by
  unfold physWrite
  rw [if_neg (by simpa using h)]
  simp [State.tagged, State.clearTags]

/-- The tags after a capability store (R104). -/
theorem tagged_physWriteCap (s : State) (w : Who) (pa a : Nat) (c : Cap) :
    (physWriteCap s w pa c).tagged a = (s.setTag pa true).tagged a := by
  simp [physWriteCap, State.tagged, State.setTag]

end Sys2Proof.Machine
end

