-- ==== Sys2Proof/Laws/PerInstr.lean ====
section
/-! SUPPORT. For every instruction: its own row of the opcode table, and no other, accepts its fields; the machine's other
steps have no word. The round trip of encodings rests on this. -/
namespace Sys2Proof.Laws.Rows
open Sys2Proof Sys2Proof.Machine

/-- An instruction's opcode is one byte, and among the rows of that opcode the decoder picks the instruction where its fields
pass the field check (R69 step 4). A step of the machine has neither form nor fields. -/
def Statement (i : Instr) : Prop :=
  match formOf i, fieldsOf i with
  | some f, some w => f.op < 256 ∧ (fieldsOk i w = true → pickRow (rowsOfOp f.op) w = some i)
  | none, none => True
  | _, _ => False

/-- The first row of its opcode. -/
theorem of_first {i : Instr} {f : Form} {w : Fields} {r : Fields → Instr} {l : List (Fields → Instr)} (hf : formOf i = some f)
    (hw : fieldsOf i = some w) (ho : f.op < 256) (hr : rowsOfOp f.op = r :: l) (hi : r w = i) : Statement i := by
  unfold Statement
  rw [hf, hw]
  exact ⟨ho, fun h => by rw [hr, pickRow, hi, if_pos h]⟩

/-- A later row of its opcode, where no earlier row accepts the fields. -/
theorem of_later {i : Instr} {f : Form} {w : Fields} {r : Fields → Instr} {e l : List (Fields → Instr)} (hf : formOf i = some f)
    (hw : fieldsOf i = some w) (ho : f.op < 256) (hr : rowsOfOp f.op = e ++ r :: l) (hi : r w = i)
    (hn : f.mod w = true → ∀ q ∈ e, (formOf (q w)).elim false (·.mod w) = false) : Statement i := by
  unfold Statement
  rw [hf, hw]
  refine ⟨ho, fun h => ?_⟩
  have hm : f.mod w = true := by
    have k := h
    simp only [fieldsOk, hf, Bool.and_eq_true] at k
    exact k.1.1.1.1.1.1.1.1.1
  replace hn := hn hm
  rw [hr]
  clear hr hm ho
  induction e with
  | nil => rw [List.nil_append, pickRow, hi, if_pos h]
  | cons q e ih =>
    have hq := hn q (List.mem_cons_self ..)
    have hx : ¬fieldsOk (q w) w = true := by
      unfold fieldsOk
      cases hf : formOf (q w) with
      | none => simp
      | some x => rw [hf] at hq; simp only [Option.elim] at hq; simp [hq]
    rw [List.cons_append, pickRow, if_neg hx]
    exact ih fun x hx => hn x (List.mem_cons_of_mem _ hx)

theorem nop (w : Fields) : Statement (.nop w) := of_first rfl rfl (by decide) rfl rfl
theorem runend (w : Fields) : Statement (.runend w) := of_first rfl rfl (by decide) rfl rfl
theorem mov (w : Fields) : Statement (.mov w) := of_first rfl rfl (by decide) rfl rfl
theorem movi (w : Fields) : Statement (.movi w) := of_first rfl rfl (by decide) rfl rfl
theorem movh (w : Fields) : Statement (.movh w) := of_first rfl rfl (by decide) rfl rfl
theorem sel (w : Fields) : Statement (.sel w) := of_first rfl rfl (by decide) rfl rfl
theorem iadd (w : Fields) : Statement (.iadd w) := of_first rfl rfl (by decide) rfl rfl
theorem isub (w : Fields) : Statement (.isub w) := of_first rfl rfl (by decide) rfl rfl
theorem imul (w : Fields) : Statement (.imul w) := of_first rfl rfl (by decide) rfl rfl
theorem imulh (w : Fields) : Statement (.imulh w) := of_first rfl rfl (by decide) rfl rfl
theorem imad (w : Fields) : Statement (.imad w) := of_first rfl rfl (by decide) rfl rfl
theorem idiv (w : Fields) : Statement (.idiv w) := of_first rfl rfl (by decide) rfl rfl
theorem irem (w : Fields) : Statement (.irem w) := of_first rfl rfl (by decide) rfl rfl
theorem imin (w : Fields) : Statement (.imin w) := of_first rfl rfl (by decide) rfl rfl
theorem imax (w : Fields) : Statement (.imax w) := of_first rfl rfl (by decide) rfl rfl
theorem iabs (w : Fields) : Statement (.iabs w) := of_first rfl rfl (by decide) rfl rfl
theorem ineg (w : Fields) : Statement (.ineg w) := of_first rfl rfl (by decide) rfl rfl
theorem andb (w : Fields) : Statement (.andb w) := of_first rfl rfl (by decide) rfl rfl
theorem orb (w : Fields) : Statement (.orb w) := of_first rfl rfl (by decide) rfl rfl
theorem xorb (w : Fields) : Statement (.xorb w) := of_first rfl rfl (by decide) rfl rfl
theorem andn (w : Fields) : Statement (.andn w) := of_first rfl rfl (by decide) rfl rfl
theorem shl (w : Fields) : Statement (.shl w) := of_first rfl rfl (by decide) rfl rfl
theorem shr (w : Fields) : Statement (.shr w) := of_first rfl rfl (by decide) rfl rfl
theorem sar (w : Fields) : Statement (.sar w) := of_first rfl rfl (by decide) rfl rfl
theorem rot (w : Fields) : Statement (.rot w) := of_first rfl rfl (by decide) rfl rfl
theorem bfx (w : Fields) : Statement (.bfx w) := of_first rfl rfl (by decide) rfl rfl
theorem bfi (w : Fields) : Statement (.bfi w) := of_first rfl rfl (by decide) rfl rfl
theorem popc (w : Fields) : Statement (.popc w) := of_first rfl rfl (by decide) rfl rfl
theorem clz (w : Fields) : Statement (.clz w) := of_first rfl rfl (by decide) rfl rfl
theorem brev (w : Fields) : Statement (.brev w) := of_first rfl rfl (by decide) rfl rfl
theorem icmp (w : Fields) : Statement (.icmp w) := of_first rfl rfl (by decide) rfl rfl
theorem isat (w : Fields) : Statement (.isat w) := of_first rfl rfl (by decide) rfl rfl
theorem lea (w : Fields) : Statement (.lea w) := of_first rfl rfl (by decide) rfl rfl
theorem capset (w : Fields) : Statement (.capset w) := of_first rfl rfl (by decide) rfl rfl
theorem capchk (w : Fields) : Statement (.capchk w) := of_first rfl rfl (by decide) rfl rfl
theorem capld (w : Fields) : Statement (.capld w) := of_first rfl rfl (by decide) rfl rfl
theorem capst (w : Fields) : Statement (.capst w) := of_first rfl rfl (by decide) rfl rfl
theorem ld (w : Fields) : Statement (.ld w) := of_first rfl rfl (by decide) rfl rfl
theorem ldSide (w : Fields) : Statement (.ldSide w) :=
  of_later (e := [.ld]) rfl rfl (by decide) rfl rfl fun h q hq => by
    simp only [List.mem_cons, List.not_mem_nil, or_false] at hq
    subst hq; simp [formOf, mods, sizeMod] at h ⊢; omega
theorem st (w : Fields) : Statement (.st w) := of_first rfl rfl (by decide) rfl rfl
theorem bra (w : Fields) : Statement (.bra w) := of_first rfl rfl (by decide) rfl rfl
theorem braCond (w : Fields) : Statement (.braCond w) :=
  of_later (e := [.bra]) rfl rfl (by decide) rfl rfl fun h q hq => by
    simp only [List.mem_cons, List.not_mem_nil, or_false] at hq
    subst hq; simp [formOf, mods, fBare] at h ⊢; omega
theorem brc (w : Fields) : Statement (.brc w) := of_first rfl rfl (by decide) rfl rfl
theorem brcPk (w : Fields) : Statement (.brcPk w) :=
  of_later (e := [.brc]) rfl rfl (by decide) rfl rfl fun h q hq => by
    simp only [List.mem_cons, List.not_mem_nil, or_false] at hq
    subst hq; simp [formOf, mods] at h ⊢; omega
theorem brx (w : Fields) : Statement (.brx w) := of_first rfl rfl (by decide) rfl rfl
theorem call (w : Fields) : Statement (.call w) := of_first rfl rfl (by decide) rfl rfl
theorem callInd (w : Fields) : Statement (.callInd w) :=
  of_later (e := [.call]) rfl rfl (by decide) rfl rfl fun h q hq => by
    simp only [List.mem_cons, List.not_mem_nil, or_false] at hq
    subst hq; simp [formOf, mods, fBare] at h ⊢; omega
theorem ret (w : Fields) : Statement (.ret w) := of_first rfl rfl (by decide) rfl rfl
theorem join (w : Fields) : Statement (.join w) := of_first rfl rfl (by decide) rfl rfl
theorem joinTeam (w : Fields) : Statement (.joinTeam w) :=
  of_later (e := [.join]) rfl rfl (by decide) rfl rfl fun h q hq => by
    simp only [List.mem_cons, List.not_mem_nil, or_false] at hq
    subst hq; simp [formOf, mods] at h ⊢; omega
theorem exit (w : Fields) : Statement (.exit w) := of_first rfl rfl (by decide) rfl rfl
theorem clk (w : Fields) : Statement (.clk w) := of_first rfl rfl (by decide) rfl rfl
theorem fadd (w : Fields) : Statement (.fadd w) := of_first rfl rfl (by decide) rfl rfl
theorem fsub (w : Fields) : Statement (.fsub w) := of_first rfl rfl (by decide) rfl rfl
theorem fmul (w : Fields) : Statement (.fmul w) := of_first rfl rfl (by decide) rfl rfl
theorem ffma (w : Fields) : Statement (.ffma w) := of_first rfl rfl (by decide) rfl rfl
theorem fmin (w : Fields) : Statement (.fmin w) := of_first rfl rfl (by decide) rfl rfl
theorem fmax (w : Fields) : Statement (.fmax w) := of_first rfl rfl (by decide) rfl rfl
theorem fcmp (w : Fields) : Statement (.fcmp w) := of_first rfl rfl (by decide) rfl rfl
theorem fclass (w : Fields) : Statement (.fclass w) := of_first rfl rfl (by decide) rfl rfl
theorem fclassTest (w : Fields) : Statement (.fclassTest w) :=
  of_later (e := [.fclass]) rfl rfl (by decide) rfl rfl fun h q hq => by
    simp only [List.mem_cons, List.not_mem_nil, or_false] at hq
    subst hq; simp [formOf, mods] at h ⊢; omega
theorem frcp (w : Fields) : Statement (.frcp w) := of_first rfl rfl (by decide) rfl rfl
theorem frsq (w : Fields) : Statement (.frsq w) := of_first rfl rfl (by decide) rfl rfl
theorem fsqrt (w : Fields) : Statement (.fsqrt w) := of_first rfl rfl (by decide) rfl rfl
theorem fdiv (w : Fields) : Statement (.fdiv w) := of_first rfl rfl (by decide) rfl rfl
theorem exp2s (w : Fields) : Statement (.exp2s w) := of_first rfl rfl (by decide) rfl rfl
theorem log2 (w : Fields) : Statement (.log2 w) := of_first rfl rfl (by decide) rfl rfl
theorem sin (w : Fields) : Statement (.sin w) := of_first rfl rfl (by decide) rfl rfl
theorem cos (w : Fields) : Statement (.cos w) := of_first rfl rfl (by decide) rfl rfl
theorem fcvt (w : Fields) : Statement (.fcvt w) := of_first rfl rfl (by decide) rfl rfl
theorem qcvt (w : Fields) : Statement (.qcvt w) := of_first rfl rfl (by decide) rfl rfl
theorem dqcvt (w : Fields) : Statement (.dqcvt w) := of_first rfl rfl (by decide) rfl rfl
theorem pkrd (w : Fields) : Statement (.pkrd w) := of_first rfl rfl (by decide) rfl rfl
theorem pkrdClr (w : Fields) : Statement (.pkrdClr w) :=
  of_later (e := [.pkrd]) rfl rfl (by decide) rfl rfl fun h q hq => by
    simp only [List.mem_cons, List.not_mem_nil, or_false] at hq
    subst hq; simp [formOf, mods] at h ⊢; omega
theorem fdot (w : Fields) : Statement (.fdot w) := of_first rfl rfl (by decide) rfl rfl
theorem frnd (w : Fields) : Statement (.frnd w) := of_first rfl rfl (by decide) rfl rfl
theorem lread (w : Fields) : Statement (.lread w) := of_first rfl rfl (by decide) rfl rfl
theorem lpush (w : Fields) : Statement (.lpush w) := of_first rfl rfl (by decide) rfl rfl
theorem lbcast (w : Fields) : Statement (.lbcast w) := of_first rfl rfl (by decide) rfl rfl
theorem red (w : Fields) : Statement (.red w) := of_first rfl rfl (by decide) rfl rfl
theorem scan (w : Fields) : Statement (.scan w) := of_first rfl rfl (by decide) rfl rfl
theorem vote (w : Fields) : Statement (.vote w) := of_first rfl rfl (by decide) rfl rfl
theorem ballot (w : Fields) : Statement (.ballot w) := of_first rfl rfl (by decide) rfl rfl
theorem vlane (w : Fields) : Statement (.vlane w) := of_first rfl rfl (by decide) rfl rfl
theorem bar (w : Fields) : Statement (.bar w) := of_first rfl rfl (by decide) rfl rfl
theorem arrive (w : Fields) : Statement (.arrive w) := of_first rfl rfl (by decide) rfl rfl
theorem bwait (w : Fields) : Statement (.bwait w) := of_first rfl rfl (by decide) rfl rfl
theorem matchLanes (w : Fields) : Statement (.matchLanes w) := of_first rfl rfl (by decide) rfl rfl
theorem gcvt (w : Fields) : Statement (.gcvt w) := of_first rfl rfl (by decide) rfl rfl
theorem gexpDir (w : Fields) : Statement (.gexpDir w) := of_first rfl rfl (by decide) rfl rfl
theorem gexpVal (w : Fields) : Statement (.gexpVal w) :=
  of_later (e := [.gexpDir]) rfl rfl (by decide) rfl rfl fun h q hq => by
    simp only [List.mem_cons, List.not_mem_nil, or_false] at hq
    subst hq; simp [formOf, fGrain, grainMod] at h ⊢; intros; simp_all
theorem gdotCos (w : Fields) : Statement (.gdotCos w) := of_first rfl rfl (by decide) rfl rfl
theorem gdotFull (w : Fields) : Statement (.gdotFull w) :=
  of_later (e := [.gdotCos]) rfl rfl (by decide) rfl rfl fun h q hq => by
    simp only [List.mem_cons, List.not_mem_nil, or_false] at hq
    subst hq; simp [formOf, fGrain, grainMod] at h ⊢; intros; simp_all
theorem gscl (w : Fields) : Statement (.gscl w) := of_first rfl rfl (by decide) rfl rfl
theorem gadd (w : Fields) : Statement (.gadd w) := of_first rfl rfl (by decide) rfl rfl
theorem gaddSub (w : Fields) : Statement (.gaddSub w) :=
  of_later (e := [.gadd]) rfl rfl (by decide) rfl rfl fun h q hq => by
    simp only [List.mem_cons, List.not_mem_nil, or_false] at hq
    subst hq; simp [formOf, fGrain, grainMod] at h ⊢; intros; simp_all
theorem gneg (w : Fields) : Statement (.gneg w) := of_first rfl rfl (by decide) rfl rfl
theorem gnrm (w : Fields) : Statement (.gnrm w) := of_first rfl rfl (by decide) rfl rfl
theorem gsetn (w : Fields) : Statement (.gsetn w) := of_first rfl rfl (by decide) rfl rfl
theorem gmov (w : Fields) : Statement (.gmov w) := of_first rfl rfl (by decide) rfl rfl
theorem gproj (w : Fields) : Statement (.gproj w) := of_first rfl rfl (by decide) rfl rfl
theorem glerp (w : Fields) : Statement (.glerp w) := of_first rfl rfl (by decide) rfl rfl
theorem gld (w : Fields) : Statement (.gld w) := of_first rfl rfl (by decide) rfl rfl
theorem gst (w : Fields) : Statement (.gst w) := of_first rfl rfl (by decide) rfl rfl
theorem lds (w : Fields) : Statement (.lds w) := of_first rfl rfl (by decide) rfl rfl
theorem sts (w : Fields) : Statement (.sts w) := of_first rfl rfl (by decide) rfl rfl
theorem atom (w : Fields) : Statement (.atom w) := of_first rfl rfl (by decide) rfl rfl
theorem atoms (w : Fields) : Statement (.atoms w) := of_first rfl rfl (by decide) rfl rfl
theorem cas (w : Fields) : Statement (.cas w) := of_first rfl rfl (by decide) rfl rfl
theorem cass (w : Fields) : Statement (.cass w) := of_first rfl rfl (by decide) rfl rfl
theorem bankop (w : Fields) : Statement (.bankop w) := of_first rfl rfl (by decide) rfl rfl
theorem bankopSadd (w : Fields) : Statement (.bankopSadd w) :=
  of_later (e := [.bankop]) rfl rfl (by decide) rfl rfl fun h q hq => by
    simp only [List.mem_cons, List.not_mem_nil, or_false] at hq
    subst hq; simp [formOf, mods, bankOpOk] at h ⊢; omega
theorem pref (w : Fields) : Statement (.pref w) := of_first rfl rfl (by decide) rfl rfl
theorem axl (w : Fields) : Statement (.axl w) := of_first rfl rfl (by decide) rfl rfl
theorem bind (w : Fields) : Statement (.bind w) := of_first rfl rfl (by decide) rfl rfl
theorem unbind (w : Fields) : Statement (.unbind w) := of_first rfl rfl (by decide) rfl rfl
theorem unbindWord (w : Fields) : Statement (.unbindWord w) :=
  of_later (e := [.unbind]) rfl rfl (by decide) rfl rfl fun h q hq => by
    simp only [List.mem_cons, List.not_mem_nil, or_false] at hq
    subst hq; simp [formOf, mods, fBare] at h ⊢; omega
theorem acq (w : Fields) : Statement (.acq w) := of_first rfl rfl (by decide) rfl rfl
theorem rel (w : Fields) : Statement (.rel w) := of_first rfl rfl (by decide) rfl rfl
theorem fence (w : Fields) : Statement (.fence w) := of_first rfl rfl (by decide) rfl rfl
theorem xfence (w : Fields) : Statement (.xfence w) := of_first rfl rfl (by decide) rfl rfl
theorem cutinit (w : Fields) : Statement (.cutinit w) := of_first rfl rfl (by decide) rfl rfl
theorem pubcut (w : Fields) : Statement (.pubcut w) := of_first rfl rfl (by decide) rfl rfl
theorem fincut (w : Fields) : Statement (.fincut w) := of_first rfl rfl (by decide) rfl rfl
theorem waitcut (w : Fields) : Statement (.waitcut w) := of_first rfl rfl (by decide) rfl rfl
theorem cutchk (w : Fields) : Statement (.cutchk w) := of_first rfl rfl (by decide) rfl rfl
theorem stale (w : Fields) : Statement (.stale w) := of_first rfl rfl (by decide) rfl rfl
theorem cpy (w : Fields) : Statement (.cpy w) := of_first rfl rfl (by decide) rfl rfl
theorem cpys (w : Fields) : Statement (.cpys w) := of_first rfl rfl (by decide) rfl rfl
theorem cpyg (w : Fields) : Statement (.cpyg w) := of_first rfl rfl (by decide) rfl rfl
theorem cbatch (w : Fields) : Statement (.cbatch w) := of_first rfl rfl (by decide) rfl rfl
theorem cwait (w : Fields) : Statement (.cwait w) := of_first rfl rfl (by decide) rfl rfl
theorem mput (w : Fields) : Statement (.mput w) := of_first rfl rfl (by decide) rfl rfl
theorem mget (w : Fields) : Statement (.mget w) := of_first rfl rfl (by decide) rfl rfl
theorem mgetZ (w : Fields) : Statement (.mgetZ w) :=
  of_later (e := [.mget]) rfl rfl (by decide) rfl rfl fun h q hq => by
    simp only [List.mem_cons, List.not_mem_nil, or_false] at hq
    subst hq; simp [formOf, mods, fBare] at h ⊢; omega
theorem mtry (w : Fields) : Statement (.mtry w) := of_first rfl rfl (by decide) rfl rfl
theorem mbind (w : Fields) : Statement (.mbind w) := of_first rfl rfl (by decide) rfl rfl
theorem mbindRst (w : Fields) : Statement (.mbindRst w) :=
  of_later (e := [.mbind]) rfl rfl (by decide) rfl rfl fun h q hq => by
    simp only [List.mem_cons, List.not_mem_nil, or_false] at hq
    subst hq; simp [formOf, mods, fBare] at h ⊢; omega
theorem mma (w : Fields) : Statement (.mma w) := of_first rfl rfl (by decide) rfl rfl
theorem mmas (w : Fields) : Statement (.mmas w) := of_first rfl rfl (by decide) rfl rfl
theorem mzero (w : Fields) : Statement (.mzero w) := of_first rfl rfl (by decide) rfl rfl
theorem mdrain (w : Fields) : Statement (.mdrain w) := of_first rfl rfl (by decide) rfl rfl
theorem mdrainZ (w : Fields) : Statement (.mdrainZ w) :=
  of_later (e := [.mdrain]) rfl rfl (by decide) rfl rfl fun h q hq => by
    simp only [List.mem_cons, List.not_mem_nil, or_false] at hq
    subst hq; simp [formOf, mods, fMdrain] at h ⊢; omega
theorem mscl (w : Fields) : Statement (.mscl w) := of_first rfl rfl (by decide) rfl rfl
theorem mwait (w : Fields) : Statement (.mwait w) := of_first rfl rfl (by decide) rfl rfl
theorem mwit (w : Fields) : Statement (.mwit w) := of_first rfl rfl (by decide) rfl rfl
theorem mring (w : Fields) : Statement (.mring w) := of_first rfl rfl (by decide) rfl rfl
theorem enq (w : Fields) : Statement (.enq w) := of_first rfl rfl (by decide) rfl rfl
theorem enqNb (w : Fields) : Statement (.enqNb w) :=
  of_later (e := [.enq]) rfl rfl (by decide) rfl rfl fun h q hq => by
    simp only [List.mem_cons, List.not_mem_nil, or_false] at hq
    subst hq; simp [formOf, mods, fBare] at h ⊢; omega
theorem fetchw (w : Fields) : Statement (.fetchw w) := of_first rfl rfl (by decide) rfl rfl
theorem recSend (w : Fields) : Statement (.recSend w) := of_first rfl rfl (by decide) rfl rfl
theorem rgnb (w : Fields) : Statement (.rgnb w) := of_first rfl rfl (by decide) rfl rfl
theorem rgne (w : Fields) : Statement (.rgne w) := of_first rfl rfl (by decide) rfl rfl
theorem rgnx (w : Fields) : Statement (.rgnx w) := of_first rfl rfl (by decide) rfl rfl
theorem trap (w : Fields) : Statement (.trap w) := of_first rfl rfl (by decide) rfl rfl
theorem tret (w : Fields) : Statement (.tret w) := of_first rfl rfl (by decide) rfl rfl
theorem csrr (w : Fields) : Statement (.csrr w) := of_first rfl rfl (by decide) rfl rfl
theorem csrw (w : Fields) : Statement (.csrw w) := of_first rfl rfl (by decide) rfl rfl
theorem csrwCode (w : Fields) : Statement (.csrwCode w) :=
  of_later (e := [.csrw]) rfl rfl (by decide) rfl rfl fun h q hq => by
    simp only [List.mem_cons, List.not_mem_nil, or_false] at hq
    subst hq; simp [formOf, mods] at h ⊢; omega
theorem wfe (w : Fields) : Statement (.wfe w) := of_first rfl rfl (by decide) rfl rfl
theorem sevCore (w : Fields) : Statement (.sevCore w) := of_first rfl rfl (by decide) rfl rfl
theorem sevCluster (w : Fields) : Statement (.sevCluster w) :=
  of_later (e := [.sevCore]) rfl rfl (by decide) rfl rfl fun h q hq => by
    simp only [List.mem_cons, List.not_mem_nil, or_false] at hq
    subst hq; simp [formOf, mods, fBare] at h ⊢; omega
theorem perfr (w : Fields) : Statement (.perfr w) := of_first rfl rfl (by decide) rfl rfl
theorem metr (w : Fields) : Statement (.metr w) := of_first rfl rfl (by decide) rfl rfl
theorem ckpt (w : Fields) : Statement (.ckpt w) := of_first rfl rfl (by decide) rfl rfl
theorem halt (w : Fields) : Statement (.halt w) := of_first rfl rfl (by decide) rfl rfl
theorem tlbiPage (w : Fields) : Statement (.tlbiPage w) := of_first rfl rfl (by decide) rfl rfl
theorem tlbiTenant (w : Fields) : Statement (.tlbiTenant w) :=
  of_later (e := [.tlbiPage]) rfl rfl (by decide) rfl rfl fun h q hq => by
    simp only [List.mem_cons, List.not_mem_nil, or_false] at hq
    subst hq; simp [formOf, mods, fBare] at h ⊢; omega
theorem tlbiAll (w : Fields) : Statement (.tlbiAll w) :=
  of_later (e := [.tlbiPage, .tlbiTenant]) rfl rfl (by decide) rfl rfl fun h q hq => by
    simp only [List.mem_cons, List.not_mem_nil, or_false] at hq
    rcases hq with rfl | rfl <;> simp [formOf, mods, fBare] at h ⊢ <;> omega
theorem longLatencyWriteback (ag : Agent) (idx : Nat) : Statement (.longLatencyWriteback ag idx) := trivial
theorem runCut (ag : Agent) : Statement (.runCut ag) := trivial
theorem repack (core fresh : Nat) (splits : List (Nat × Nat)) : Statement (.repack core fresh splits) := trivial
theorem waitcutWake (ag : Agent) : Statement (.waitcutWake ag) := trivial
theorem matrixOpStart (core : Nat) : Statement (.matrixOpStart core) := trivial
theorem steadyRestStep (die : Nat) : Statement (.steadyRestStep die) := trivial
theorem matrixOpComplete (core sub : Nat) (upsets : Nat) : Statement (.matrixOpComplete core sub upsets) := trivial
theorem mmasPut (core : Nat) : Statement (.mmasPut core) := trivial
theorem ringSlotConsume (core : Nat) (opB : Bool) : Statement (.ringSlotConsume core opB) := trivial
theorem copyComplete (core slot pos : Nat) : Statement (.copyComplete core slot pos) := trivial
theorem packetFetch (queue : Nat) : Statement (.packetFetch queue) := trivial
theorem launchPacket (queue : Nat) : Statement (.launchPacket queue) := trivial
theorem nodePacket (queue : Nat) : Statement (.nodePacket queue) := trivial
theorem taskPacket (queue : Nat) : Statement (.taskPacket queue) := trivial
theorem waitPacket (queue : Nat) : Statement (.waitPacket queue) := trivial
theorem signalPacket (queue : Nat) : Statement (.signalPacket queue) := trivial
theorem ibPacket (queue : Nat) : Statement (.ibPacket queue) := trivial
theorem predPacket (queue : Nat) : Statement (.predPacket queue) := trivial
theorem loopPacket (queue : Nat) : Statement (.loopPacket queue) := trivial
theorem ffencePacket (queue : Nat) : Statement (.ffencePacket queue) := trivial
theorem burnwaitPacket (queue : Nat) : Statement (.burnwaitPacket queue) := trivial
theorem groupPlace (launch : Nat) (places : List GroupSite) : Statement (.groupPlace launch places) := trivial
theorem launchComplete (launch : Nat) : Statement (.launchComplete launch) := trivial
theorem nodeTimerExpiry (queue node : Nat) : Statement (.nodeTimerExpiry queue node) := trivial
theorem fetchwAnswer (core slot : Nat) : Statement (.fetchwAnswer core slot) := trivial
theorem taskDispatch (task : Nat) : Statement (.taskDispatch task) := trivial
theorem taskRelaunch (task : Nat) : Statement (.taskRelaunch task) := trivial
theorem taskComplete (task : Nat) : Statement (.taskComplete task) := trivial
theorem taskCancel (task : Nat) : Statement (.taskCancel task) := trivial
theorem qfullTimeout (ag : Agent) : Statement (.qfullTimeout ag) := trivial
theorem queueWptrWrite (queue : Nat) (value : BitVec 32) : Statement (.queueWptrWrite queue value) := trivial
theorem queueEnable (queue : Nat) (writer : Writer) : Statement (.queueEnable queue writer) := trivial
theorem queueReset (queue : Nat) : Statement (.queueReset queue) := trivial
theorem faultRecordWrite (die : Nat) : Statement (.faultRecordWrite die) := trivial
theorem replay (who : ReplayPair) (context : BitVec 12) : Statement (.replay who context) := trivial
theorem replayTerminate (who : ReplayPair) (context : BitVec 12) : Statement (.replayTerminate who context) := trivial
theorem ringEnable (ring : RingId) : Statement (.ringEnable ring) := trivial
theorem ringRidxWrite (ring : RingId) (value : BitVec 32) : Statement (.ringRidxWrite ring value) := trivial
theorem snapshotDrain (core slot : Nat) : Statement (.snapshotDrain core slot) := trivial
theorem commitDrainComplete (core slot : Nat) : Statement (.commitDrainComplete core slot) := trivial
theorem harvestRestart (core slot : Nat) (site : GroupSite) : Statement (.harvestRestart core slot site) := trivial
theorem protectedWindowEnd (core slot : Nat) : Statement (.protectedWindowEnd core slot) := trivial
theorem quantumEnd (outgoing : BitVec 12) : Statement (.quantumEnd outgoing) := trivial
theorem quiescenceTimeout (context : BitVec 12) : Statement (.quiescenceTimeout context) := trivial
theorem contextRestore (context : BitVec 12) : Statement (.contextRestore context) := trivial
theorem pageMigration (tenant : BitVec 12) (page dest : Nat) : Statement (.pageMigration tenant page dest) := trivial
theorem migrationComplete (tenant : BitVec 12) (page : Nat) : Statement (.migrationComplete tenant page) := trivial
theorem secondTierResume (controller : Nat) : Statement (.secondTierResume controller) := trivial
theorem l2EccUncorr (die slice : Nat) (line : Nat) : Statement (.l2EccUncorr die slice line) := trivial
theorem memoryEccUncorr (ag : Agent) (lane : Nat) (addr : Nat) : Statement (.memoryEccUncorr ag lane addr) := trivial
theorem storageEccUncorr (core slot : Nat) (kind : StorageKind) : Statement (.storageEccUncorr core slot kind) := trivial
theorem failureWarning (unit : WarnUnit) : Statement (.failureWarning unit) := trivial
theorem watchdog (core slot : Nat) : Statement (.watchdog core slot) := trivial
theorem wfeTimeout (ag : Agent) : Statement (.wfeTimeout ag) := trivial
theorem l2ModeChange (die : Nat) (mode : Bool) : Statement (.l2ModeChange die mode) := trivial
theorem fmtwinEnable (die n : Nat) : Statement (.fmtwinEnable die n) := trivial
theorem fmtwinDisable (die n : Nat) : Statement (.fmtwinDisable die n) := trivial
theorem vdcfgWrite (vdev : Nat) (value : BitVec 64) : Statement (.vdcfgWrite vdev value) := trivial
theorem registerWrite (place : RegPlace) (value : Nat) : Statement (.registerWrite place value) := trivial
theorem hostMailboxWrite (fn : Nat) (slot : MailSlot) : Statement (.hostMailboxWrite fn slot) := trivial
theorem hostMailboxRead (fn : Nat) (slot : MailSlot) : Statement (.hostMailboxRead fn slot) := trivial
theorem hostPublication (fn : Nat) (slot : MailSlot) : Statement (.hostPublication fn slot) := trivial
theorem hostFinish (fn : Nat) (slot : MailSlot) : Statement (.hostFinish fn slot) := trivial
theorem remoteRequest (req : RemoteReq) : Statement (.remoteRequest req) := trivial
theorem peerLost (device : BitVec 20) : Statement (.peerLost device) := trivial
theorem torwenRetrain (port : Nat) (ok : Bool) : Statement (.torwenRetrain port ok) := trivial
theorem deviceIdWrite (value : BitVec 20) : Statement (.deviceIdWrite value) := trivial
theorem powerOnReset (run : BringUp) : Statement (.powerOnReset run) := trivial
theorem recoveryChunk (data : List Byte) : Statement (.recoveryChunk data) := trivial
theorem recoveryEnd (run : BringUp) : Statement (.recoveryEnd run) := trivial
theorem clockThrottle (mhz : Nat) : Statement (.clockThrottle mhz) := trivial
theorem meterSnapshot (part : Nat) (dest : Nat) : Statement (.meterSnapshot part dest) := trivial
theorem getVersion : Statement .getVersion := trivial
theorem getCapabilities : Statement .getCapabilities := trivial
theorem negotiateAlgorithms : Statement .negotiateAlgorithms := trivial
theorem getDigests : Statement .getDigests := trivial
theorem getCertificate : Statement .getCertificate := trivial
theorem challenge : Statement .challenge := trivial
theorem getMeasurements (index : Nat) : Statement (.getMeasurements index) := trivial
theorem checkpointRestore (req : RestoreReq) : Statement (.checkpointRestore req) := trivial
theorem liveMigration (phase : MigrationPhase) : Statement (.liveMigration phase) := trivial
theorem torwenPortDown (port : Nat) : Statement (.torwenPortDown port) := trivial
theorem secondTierPowerDown (controller : Nat) : Statement (.secondTierPowerDown controller) := trivial
theorem thermalShutdown (notice : Bool) : Statement (.thermalShutdown notice) := trivial
theorem firmwareInterrupt (die : Nat) : Statement (.firmwareInterrupt die) := trivial

end Sys2Proof.Laws.Rows
end

