-- ==== Sys2Proof/Tests/Slice0.lean ====
section
/-! SUPPORT. Tests: words written out from the encodings of spec/03 decode to their instructions; every check of
well-formedness refuses a term; every statement's premises hold of a concrete state, clause by clause; a few instructions
with the results of the manual's own examples and tables. -/
namespace Sys2Proof.Tests
open Sys2Proof Sys2Proof.Machine

/-! ### Small states -/

/-- Fields by TYPE, VARIANT, MOD[79:76], operands and IMM, unguarded and awaiting nothing. -/
def fields (ty : Ty) (var flags : Nat) (d a b : Opnd) (imm : Nat) : Fields :=
  ⟨ty, BitVec.ofNat 4 var, BitVec.ofNat 4 flags, d, a, b, false, 7, 0, 0, 0, 0, BitVec.ofNat 23 imm⟩

/-- An operand as IMM holds it (R62). -/
def immOp (o : Opnd) : Nat := (opndBits o).toNat

/-- The state after reset in which the next step fetches an instruction. -/
def placed (i : Instr) : State := State.reset.withFetchWord 96 ((encode i).getD 0).toNat

/-- The instruction issues here, and what it finds satisfies a test. -/
def sees (i : Instr) (s : State) (p : Ctx → Bool) : Bool :=
  match issuing i s with
  | some c => p c
  | none => false

/-- One of R69's checks stops the instruction here, and what it finds satisfies a test. -/
def stopped (i : Instr) (s : State) (p : Ctx → Nat → Bool) : Bool :=
  match stopsAtIssue i s with
  | some (c, code) => p c code
  | none => false

/-- The next state satisfies a test. -/
def after (i : Instr) (s : State) (p : State → Bool) : Bool :=
  match exec i s with
  | .next t => p t
  | _ => false

def inSplit (f : Split → Split) (s : State) : State :=
  match s.turn with
  | some ag => s.modSplit ag f
  | none => s
def inGroup (f : Group → Group) (s : State) : State :=
  match s.turn with
  | some ag => s.modGroup ag.core ag.slot f
  | none => s
def inCore (f : Core → Core) (s : State) : State :=
  match s.turn with
  | some ag => s.modCore ag.core f
  | none => s
def withK (l : Tab DWord) (s : State) : State := inSplit (fun sp => { sp with k := l }) s
def withA (n : Nat) (r : CapReg) (s : State) : State := inSplit (fun sp => { sp with a := tabPut sp.a n r }) s
def withV (l : Tab Word) (s : State) : State := inGroup (fun g => { g with v := l }) s
def withP (l : Tab Bool) (s : State) : State := inGroup (fun g => { g with p := l }) s
def withMask (m : BitVec 32) (s : State) : State := inSplit (fun sp => { sp with mask := m }) s
def inRegion (s : State) : State := inGroup (fun g => { g with region := some ⟨[], 0, []⟩ }) s
def inHandler (s : State) : State := inSplit (fun sp => { sp with inHandler := true }) s
def withHandler (s : State) : State := inSplit (fun sp => { sp with tvec := 0x100 }) s

/-- A capability over sixty-four bytes beside the code, in the same line, with every permission. -/
def mem64 : CapReg := ⟨⟨0, 1, true, true, true, true, 64, 0, 0x10040⟩, false, 0, 0⟩
/-- The operands A and D of the samples name that memory. -/
def withMem (s : State) : State := withA 1 mem64 (withA 2 mem64 s)

def someMem : Option (List (Nat × Place)) → Bool
  | some l => !l.isEmpty && l.all fun e => match e.2 with | .mem _ _ _ => true | _ => false
  | none => false
def oneMem : Option (List (Nat × Place)) → Bool
  | some [(_, .mem _ _ _)] => true
  | _ => false

/-- Partition 0 belongs to tenant 1, whose page holds the code. -/
def withPart (s : State) : State :=
  { s with regs := { s.regs with parts := [(0, { Partition.init with tenant := 1, context := 1 })] } }

/-- A queue of partition 0, enabled, with its ring and its descriptors in the page of the code. -/
def queue0 : Queue where
  ring := { mem64.cap with lenM := 0x800 }
  ctab := { mem64.cap with lenM := 0x800, base := 0x10100 }
  gstat := { mem64.cap with lenM := 0x800 }
  wptr := 0
  rptr := 0
  log2n := 6
  cls := false
  part := 0
  weight := 1
  etime := 1
  niss := 0
  res := 0
  qstate := 1
  iss := 0
  reserved := 0
  context := 1
  frames := []
  peek := none
  packets := []
  nextPacket := 1
  skips := []
  hold := none
  resetting := false
  nodes := []
  round := []
  issuers := []
  opened := []
  words := []
  cancelled := []
  owed := []
def withQueue (q : Queue) (s : State) : State := { withPart s with queues := [(0, q)] }

/-- A node of one batch slot at the start of the page's data. -/
def node0 (filling : Nat) : Node :=
  ⟨1, 1, 0, { mem64.cap with lenM := 0x800 }, { freshLaunch 0 1 1 with code := { homeCap with base := 0x10000 } }, 0, 0, 0, filling, 0, 0, []⟩

/-- A matrix operation of the stream of `placed`. -/
def matOp (kind : MatKind) : MatOp := ⟨(0, 0), (0, 0), 0, kind, none, 0, 0, [], 0, 0, [], [], [], [], [], [], [], 0, none, false, false, false⟩

/-! ### States of the engines and the front end -/

/-- A group of one split on core 0, at the first instruction of the page. -/
def base : State := placed (.nop (fields .n32 0 0 (.v 0) (.v 0) (.v 0) 0))
def agent0 : Agent := ⟨0, 0, 0⟩
def group0 : Group := (base.group? 0 0).getD (freshGroup 0 1 false 256 32 (homeSplit false false 0))
def launch0 : Launch := freshLaunch 0 1 1
/-- The late cycle in which every time bound of these tests is over. -/
def late (s : State) : State := { s with cycle := 20000000 }
def waits (w : Wait) : State := late (inSplit (fun sp => { sp with wait := some w }) base)

/-- A capability over the first half of the page, and the table that lists it as entry 0. -/
def dataCap : Cap := { mem64.cap with lenM := 0x8000, base := 0x10000 }
def withTable (s : State) : State := (s.setBytes 0x10100 (leBytes (capBits dataCap) 16)).setTag 0x10100 true
def packet (id bytes : Nat) : Packet := ⟨id, bytes, 0, 0, 0, [id], 0, [], [], false, false, none⟩
/-- A packet at the head of queue 0. -/
def withPacket (bytes : Nat) : State := withTable (withQueue { queue0 with packets := [packet 0 bytes] } base)
def the {α : Type} (x : Option α) (p : α → Bool) : Bool :=
  match x with
  | some a => p a
  | none => false
def headIs (s : State) (ty : Nat) (p : Queue → Packet → Bool) : Bool :=
  match s.queue? 0 with
  | some q => match headPacket q with
    | some x => frontRuns s q && x.ptype == ty && packetLimits q x && (bits x.bytes 27 27 != 1 || earlierDone q x) && p q x
    | none => false
  | none => false
def levelIs (s : State) (ty : Nat) (p : Queue → Packet → Frame → Bool) : Bool :=
  match s.queue? 0 with
  | some q => match (q.packets.filter fun x => !x.executed && x.ptype == ty).getLast?, q.frames with
    | some x, f :: _ => frontRuns s q && x.entered.isNone && (the (headPacket q) fun h => h.ptype != ty || h.entered.isNone) && packetLimits q x && p q x f
    | _, _ => false
  | none => false
def got {α : Type} (x : Got α) (p : α → Bool) : Bool :=
  match x with
  | .ok a => p a
  | _ => false
def okay {α ε : Type} (x : Except ε α) (p : α → Bool) : Bool :=
  match x with
  | .ok a => p a
  | .error _ => false

/-! ### A word of each instruction, from the encodings of spec/03 -/

/-- The word decodes to the instruction, which is well formed and completes where the next step fetches it. -/
def wordOk (w : Nat) (i : Instr) : Bool :=
  WellFormed i && sees i (placed i) (fun _ => true) && match decodeWord (BitVec.ofNat 96 w) with
    | .ok j => j == i
    | .error _ => false

set_option maxRecDepth 100000

theorem test_wordsInteger0 :
    (wordOk 0x000000000000038000000000 (.nop (fields .n32 0 0 (.v 0) (.v 0) (.v 0) 0)) &&
    wordOk 0x010000000000038000000000 (.runend (fields .n32 0 0 (.v 0) (.v 0) (.v 0) 0)) &&
    wordOk 0x02E000200400038000000000 (.mov (fields .b32 0 0 (.v 16) (.v 32) (.v 0) 0)) &&
    wordOk 0x03E000200000038000000000 (.movi (fields .b32 0 0 (.v 16) (.v 0) (.v 0) 0)) &&
    wordOk 0x04E000200400038000000000 (.movh (fields .b32 0 0 (.v 16) (.v 32) (.v 0) 0)) &&
    wordOk 0x05E0802004282B8000000404 (.sel (fields .b32 0 8 (.v 16) (.v 32) (.lit 5) 1028)) &&
    wordOk 0x0600002004282B8000000000 (.iadd (fields .n32 0 0 (.v 16) (.v 32) (.lit 5) 0)) &&
    wordOk 0x0700002004282B8000000000 (.isub (fields .n32 0 0 (.v 16) (.v 32) (.lit 5) 0)) &&
    wordOk 0x0800002004282B8000000000 (.imul (fields .n32 0 0 (.v 16) (.v 32) (.lit 5) 0)) &&
    wordOk 0x0900002004282B8000000000 (.imulh (fields .n32 0 0 (.v 16) (.v 32) (.lit 5) 0)) &&
    wordOk 0x0A00802004282B8000000000 (.imad (fields .n32 0 8 (.v 16) (.v 32) (.lit 5) 0)) &&
    wordOk 0x0B00002004282B8000000000 (.idiv (fields .n32 0 0 (.v 16) (.v 32) (.lit 5) 0)) &&
    wordOk 0x0C00002004282B8000000000 (.irem (fields .n32 0 0 (.v 16) (.v 32) (.lit 5) 0)) &&
    wordOk 0x0D00002004282B8000000000 (.imin (fields .n32 0 0 (.v 16) (.v 32) (.lit 5) 0)) &&
    wordOk 0x0E00002004282B8000000000 (.imax (fields .n32 0 0 (.v 16) (.v 32) (.lit 5) 0)) &&
    wordOk 0x0F1000200400038000000000 (.iabs (fields .s32 0 0 (.v 16) (.v 32) (.v 0) 0)) &&
    wordOk 0x101000200400038000000000 (.ineg (fields .s32 0 0 (.v 16) (.v 32) (.v 0) 0))) = true := by decide
theorem test_wordsInteger1 :
    (wordOk 0x11E0002004282B8000000000 (.andb (fields .b32 0 0 (.v 16) (.v 32) (.lit 5) 0)) &&
    wordOk 0x12E0002004282B8000000000 (.orb (fields .b32 0 0 (.v 16) (.v 32) (.lit 5) 0)) &&
    wordOk 0x13E0002004282B8000000000 (.xorb (fields .b32 0 0 (.v 16) (.v 32) (.lit 5) 0)) &&
    wordOk 0x14E0002004282B8000000000 (.andn (fields .b32 0 0 (.v 16) (.v 32) (.lit 5) 0)) &&
    wordOk 0x15E0002004282B8000000000 (.shl (fields .b32 0 0 (.v 16) (.v 32) (.lit 5) 0)) &&
    wordOk 0x16E0002004282B8000000000 (.shr (fields .b32 0 0 (.v 16) (.v 32) (.lit 5) 0)) &&
    wordOk 0x1710002004282B8000000000 (.sar (fields .s32 0 0 (.v 16) (.v 32) (.lit 5) 0)) &&
    wordOk 0x18E0002004282B8000000000 (.rot (fields .b32 0 0 (.v 16) (.v 32) (.lit 5) 0)) &&
    wordOk 0x1900002004282B8000000000 (.bfx (fields .n32 0 0 (.v 16) (.v 32) (.lit 5) 0)) &&
    wordOk 0x1AE0802004282B8000000000 (.bfi (fields .b32 0 8 (.v 16) (.v 32) (.lit 5) 0)) &&
    wordOk 0x1BE000200400038000000000 (.popc (fields .b32 0 0 (.v 16) (.v 32) (.v 0) 0)) &&
    wordOk 0x1CE000200400038000000000 (.clz (fields .b32 0 0 (.v 16) (.v 32) (.v 0) 0)) &&
    wordOk 0x1DE000200400038000000000 (.brev (fields .b32 0 0 (.v 16) (.v 32) (.v 0) 0)) &&
    wordOk 0x1E01080204282B8000000000 (.icmp (fields .n32 1 0 (.p 1) (.v 32) (.lit 5) 0)) &&
    wordOk 0x1F00002004282B8000000000 (.isat (fields .n32 0 0 (.v 16) (.v 32) (.lit 5) 0)) &&
    wordOk 0x2000002004282B8000000000 (.lea (fields .n32 0 0 (.v 16) (.v 32) (.lit 5) 0))) = true := by decide
theorem test_wordsMemory :
    (wordOk 0x2100088288682B8000000000 (.capset (fields .n32 0 0 (.a 1) (.a 2) (.lit 5) 0)) &&
    wordOk 0x2200880288682B8000000000 (.capchk (fields .n32 0 8 (.p 1) (.a 2) (.lit 5) 0)) &&
    wordOk 0x230008828848C38000000000 (.capld (fields .n32 0 0 (.a 1) (.a 2) (.k 24) 0)) &&
    wordOk 0x240008828848C38000000000 (.capst (fields .n32 0 0 (.a 1) (.a 2) (.k 24) 0)) &&
    wordOk 0x250000208841838000000000 (.ld (fields .n32 0 0 (.v 16) (.a 2) (.v 48) 0)) &&
    wordOk 0x250500208841838000000000 (.ldSide (fields .n32 5 0 (.v 16) (.a 2) (.v 48) 0)) &&
    wordOk 0x260000208841838000000000 (.st (fields .n32 0 0 (.v 16) (.a 2) (.v 48) 0))) = true := by decide
theorem test_wordsControl :
    (wordOk 0x270000000000038000000000 (.bra (fields .n32 0 0 (.v 0) (.v 0) (.v 0) 0)) &&
    wordOk 0x2701000022282B8000000000 (.braCond (fields .n32 1 0 (.v 0) (.k 16) (.lit 5) 0)) &&
    wordOk 0x280000008040038000000000 (.brc (fields .n32 0 0 (.v 0) (.p 2) (.v 0) 0)) &&
    wordOk 0x280100008040038000000000 (.brcPk (fields .n32 1 0 (.v 0) (.p 2) (.v 0) 0)) &&
    wordOk 0x290000002200038000000000 (.brx (fields .n32 0 0 (.v 0) (.k 16) (.v 0) 0)) &&
    wordOk 0x2A0002100000038000000000 (.call (fields .n32 0 0 (.k 8) (.v 0) (.v 0) 0)) &&
    wordOk 0x2A0102102200038000000000 (.callInd (fields .n32 1 0 (.k 8) (.k 16) (.v 0) 0)) &&
    wordOk 0x2B0000002200038000000000 (.ret (fields .n32 0 0 (.v 0) (.k 16) (.v 0) 0)) &&
    wordOk 0x2C0000000000038000000000 (.join (fields .n32 0 0 (.v 0) (.v 0) (.v 0) 0)) &&
    wordOk 0x2C0100000000038000000000 (.joinTeam (fields .n32 1 0 (.v 0) (.v 0) (.v 0) 0)) &&
    wordOk 0x2D0000000000038000000000 (.exit (fields .n32 0 0 (.v 0) (.v 0) (.v 0) 0)) &&
    wordOk 0x2E0000200000038000000000 (.clk (fields .n32 0 0 (.v 16) (.v 0) (.v 0) 0))) = true := by decide
theorem test_wordsFloat0 :
    (wordOk 0x4040002004282B8000000000 (.fadd (fields .f32 0 0 (.v 16) (.v 32) (.lit 5) 0)) &&
    wordOk 0x4140002004282B8000000000 (.fsub (fields .f32 0 0 (.v 16) (.v 32) (.lit 5) 0)) &&
    wordOk 0x4240002004282B8000000000 (.fmul (fields .f32 0 0 (.v 16) (.v 32) (.lit 5) 0)) &&
    wordOk 0x4340802004282B8000000000 (.ffma (fields .f32 0 8 (.v 16) (.v 32) (.lit 5) 0)) &&
    wordOk 0x4440002004282B8000000000 (.fmin (fields .f32 0 0 (.v 16) (.v 32) (.lit 5) 0)) &&
    wordOk 0x4540002004282B8000000000 (.fmax (fields .f32 0 0 (.v 16) (.v 32) (.lit 5) 0)) &&
    wordOk 0x4641080204282B8000000000 (.fcmp (fields .f32 1 0 (.p 1) (.v 32) (.lit 5) 0)) &&
    wordOk 0x474000200400038000000000 (.fclass (fields .f32 0 0 (.v 16) (.v 32) (.v 0) 0)) &&
    wordOk 0x474108020400038000000000 (.fclassTest (fields .f32 1 0 (.p 1) (.v 32) (.v 0) 0)) &&
    wordOk 0x484000200400038000000000 (.frcp (fields .f32 0 0 (.v 16) (.v 32) (.v 0) 0)) &&
    wordOk 0x494000200400038000000000 (.frsq (fields .f32 0 0 (.v 16) (.v 32) (.v 0) 0)) &&
    wordOk 0x4A4000200400038000000000 (.fsqrt (fields .f32 0 0 (.v 16) (.v 32) (.v 0) 0)) &&
    wordOk 0x4B40002004282B8000000000 (.fdiv (fields .f32 0 0 (.v 16) (.v 32) (.lit 5) 0)) &&
    wordOk 0x4C40002004282B8000000000 (.exp2s (fields .f32 0 0 (.v 16) (.v 32) (.lit 5) 0)) &&
    wordOk 0x4D4000200400038000000000 (.log2 (fields .f32 0 0 (.v 16) (.v 32) (.v 0) 0)) &&
    wordOk 0x4E4000200400038000000000 (.sin (fields .f32 0 0 (.v 16) (.v 32) (.v 0) 0)) &&
    wordOk 0x4F4000200400038000000000 (.cos (fields .f32 0 0 (.v 16) (.v 32) (.v 0) 0))) = true := by decide
theorem test_wordsFloat1 :
    (wordOk 0x500400200400038000000000 (.fcvt (fields .n32 4 0 (.v 16) (.v 32) (.v 0) 0)) &&
    wordOk 0x5174002004282B8000000000 (.qcvt (fields .e4m3x4 4 0 (.v 16) (.v 32) (.lit 5) 0)) &&
    wordOk 0x5247002004282B8000000000 (.dqcvt (fields .f32 7 0 (.v 16) (.v 32) (.lit 5) 0)) &&
    wordOk 0x534000200000038000000000 (.pkrd (fields .f32 0 0 (.v 16) (.v 0) (.v 0) 0)) &&
    wordOk 0x534100200000038000000000 (.pkrdClr (fields .f32 1 0 (.v 16) (.v 0) (.v 0) 0)) &&
    wordOk 0x5450802004282B8000000000 (.fdot (fields .bf16x2 0 8 (.v 16) (.v 32) (.lit 5) 0)) &&
    wordOk 0x554000200400038000000000 (.frnd (fields .f32 0 0 (.v 16) (.v 32) (.v 0) 0))) = true := by decide
theorem test_wordsCrossLane :
    (wordOk 0x60E0002004282B8000000000 (.lread (fields .b32 0 0 (.v 16) (.v 32) (.lit 5) 0)) &&
    wordOk 0x61E0002004282B8000000000 (.lpush (fields .b32 0 0 (.v 16) (.v 32) (.lit 5) 0)) &&
    wordOk 0x62E0002004282B8000000000 (.lbcast (fields .b32 0 0 (.v 16) (.v 32) (.lit 5) 0)) &&
    wordOk 0x630000200400038000000000 (.red (fields .n32 0 0 (.v 16) (.v 32) (.v 0) 0)) &&
    wordOk 0x640000200400038000000000 (.scan (fields .n32 0 0 (.v 16) (.v 32) (.v 0) 0)) &&
    wordOk 0x65E008028040038000000000 (.vote (fields .b32 0 0 (.p 1) (.p 2) (.v 0) 0)) &&
    wordOk 0x66E000208040038000000000 (.ballot (fields .b32 0 0 (.v 16) (.p 2) (.v 0) 0)) &&
    wordOk 0x670000200400038000000000 (.vlane (fields .n32 0 0 (.v 16) (.v 32) (.v 0) 0)) &&
    wordOk 0x680000000000038000000000 (.bar (fields .n32 0 0 (.v 0) (.v 0) (.v 0) 0)) &&
    wordOk 0x690002100000038000000000 (.arrive (fields .n32 0 0 (.k 8) (.v 0) (.v 0) 0)) &&
    wordOk 0x6A0000002200038000000000 (.bwait (fields .n32 0 0 (.v 0) (.k 16) (.v 0) 0)) &&
    wordOk 0x6BE000200400038000000000 (.matchLanes (fields .b32 0 0 (.v 16) (.v 32) (.v 0) 0))) = true := by decide
theorem test_wordsGrain :
    (wordOk 0x704006020400038000000000 (.gcvt (fields .f32 0 0 (.g 1) (.v 32) (.v 0) 0)) &&
    wordOk 0x714000206040038000000000 (.gexpDir (fields .f32 0 0 (.v 16) (.g 2) (.v 0) 0)) &&
    wordOk 0x714100206040038000000000 (.gexpVal (fields .f32 1 0 (.v 16) (.g 2) (.v 0) 0)) &&
    wordOk 0x7240002060581B8000000000 (.gdotCos (fields .f32 0 0 (.v 16) (.g 2) (.g 3) 0)) &&
    wordOk 0x7241002060581B8000000000 (.gdotFull (fields .f32 1 0 (.v 16) (.g 2) (.g 3) 0)) &&
    wordOk 0x7310060260682B8000000000 (.gscl (fields .s32 0 0 (.g 1) (.g 2) (.lit 5) 0)) &&
    wordOk 0x7400060260581B8000000000 (.gadd (fields .n32 0 0 (.g 1) (.g 2) (.g 3) 0)) &&
    wordOk 0x7401060260581B8000000000 (.gaddSub (fields .n32 1 0 (.g 1) (.g 2) (.g 3) 0)) &&
    wordOk 0x750006026040038000000000 (.gneg (fields .n32 0 0 (.g 1) (.g 2) (.v 0) 0)) &&
    wordOk 0x760000206040038000000000 (.gnrm (fields .n32 0 0 (.v 16) (.g 2) (.v 0) 0)) &&
    wordOk 0x7700060260682B8000000000 (.gsetn (fields .n32 0 0 (.g 1) (.g 2) (.lit 5) 0)) &&
    wordOk 0x780006026040038000000000 (.gmov (fields .n32 0 0 (.g 1) (.g 2) (.v 0) 0)) &&
    wordOk 0x7900060260581B8000000000 (.gproj (fields .n32 0 0 (.g 1) (.g 2) (.g 3) 0)) &&
    wordOk 0x7A40860260581B8000000000 (.glerp (fields .f32 0 8 (.g 1) (.g 2) (.g 3) 0)) &&
    wordOk 0x7B0086028841838000000000 (.gld (fields .n32 0 8 (.g 1) (.a 2) (.v 48) 0)) &&
    wordOk 0x7C0006028841838000000000 (.gst (fields .n32 0 0 (.g 1) (.a 2) (.v 48) 0))) = true := by decide
theorem test_wordsSync0 :
    (wordOk 0x800000200001838000000000 (.lds (fields .n32 0 0 (.v 16) (.v 0) (.v 48) 0)) &&
    wordOk 0x810000200001838000000000 (.sts (fields .n32 0 0 (.v 16) (.v 0) (.v 48) 0)) &&
    wordOk 0x820080208841838000000000 (.atom (fields .n32 0 8 (.v 16) (.a 2) (.v 48) 0)) &&
    wordOk 0x830080200001838000000000 (.atoms (fields .n32 0 8 (.v 16) (.v 0) (.v 48) 0)) &&
    wordOk 0x84E080208841838000000000 (.cas (fields .b32 0 8 (.v 16) (.a 2) (.v 48) 0)) &&
    wordOk 0x85E080200001838000000000 (.cass (fields .b32 0 8 (.v 16) (.v 0) (.v 48) 0)) &&
    wordOk 0x860100000401838000000000 (.bankop (fields .n32 1 0 (.v 0) (.v 32) (.v 48) 0)) &&
    wordOk 0x860080000401838000000000 (.bankopSadd (fields .n32 0 8 (.v 0) (.v 32) (.v 48) 0)) &&
    wordOk 0x870000008841838000000000 (.pref (fields .n32 0 0 (.v 0) (.a 2) (.v 48) 0)) &&
    wordOk 0x880008820000038000000000 (.axl (fields .n32 0 0 (.a 1) (.v 0) (.v 0) 0)) &&
    wordOk 0x890008828848C38000000000 (.bind (fields .n32 0 0 (.a 1) (.a 2) (.k 24) 0)) &&
    wordOk 0x8A0008820000038000000000 (.unbind (fields .n32 0 0 (.a 1) (.v 0) (.v 0) 0)) &&
    wordOk 0x8A0100008848C38000000000 (.unbindWord (fields .n32 1 0 (.v 0) (.a 2) (.k 24) 0)) &&
    wordOk 0x8B0000008848C38000000000 (.acq (fields .n32 0 0 (.v 0) (.a 2) (.k 24) 0)) &&
    wordOk 0x8C0000008848C38000000000 (.rel (fields .n32 0 0 (.v 0) (.a 2) (.k 24) 0)) &&
    wordOk 0x8D0010000000038000000000 (.fence (fields .n32 0 1 (.v 0) (.v 0) (.v 0) 0)) &&
    wordOk 0x8E0000000000038000000000 (.xfence (fields .n32 0 0 (.v 0) (.v 0) (.v 0) 0))) = true := by decide
theorem test_wordsSync1 :
    (wordOk 0x8F0000008848C38000000000 (.cutinit (fields .n32 0 0 (.v 0) (.a 2) (.k 24) 0)) &&
    wordOk 0x900000008848C38000000000 (.pubcut (fields .n32 0 0 (.v 0) (.a 2) (.k 24) 0)) &&
    wordOk 0x910000008848C38000000000 (.fincut (fields .n32 0 0 (.v 0) (.a 2) (.k 24) 0)) &&
    wordOk 0x920082108848C38000000507 (.waitcut (fields .n32 0 8 (.k 8) (.a 2) (.k 24) 1287)) &&
    wordOk 0x930002108848C38000000000 (.cutchk (fields .n32 0 0 (.k 8) (.a 2) (.k 24) 0)) &&
    wordOk 0x940008020000038000000000 (.stale (fields .n32 0 0 (.p 1) (.v 0) (.v 0) 0))) = true := by decide
theorem test_wordsEngine0 :
    (wordOk 0xA80008828848C38000000000 (.cpy (fields .n32 0 0 (.a 1) (.a 2) (.k 24) 0)) &&
    wordOk 0xA90008828848C38000000000 (.cpys (fields .n32 0 0 (.a 1) (.a 2) (.k 24) 0)) &&
    wordOk 0xAA0088828848C38000000444 (.cpyg (fields .n32 0 8 (.a 1) (.a 2) (.k 24) 1092)) &&
    wordOk 0xAB0002100000038000000000 (.cbatch (fields .n32 0 0 (.k 8) (.v 0) (.v 0) 0)) &&
    wordOk 0xAC0000002200038000000000 (.cwait (fields .n32 0 0 (.v 0) (.k 16) (.v 0) 0)) &&
    wordOk 0xAD0009022200038000000000 (.mput (fields .n32 0 0 (.m 1) (.k 16) (.v 0) 0)) &&
    wordOk 0xAE0002109040038000000000 (.mget (fields .n32 0 0 (.k 8) (.m 2) (.v 0) 0)) &&
    wordOk 0xAE0102109040038000000000 (.mgetZ (fields .n32 1 0 (.k 8) (.m 2) (.v 0) 0)) &&
    wordOk 0xAF0002109040038000000000 (.mtry (fields .n32 0 0 (.k 8) (.m 2) (.v 0) 0)) &&
    wordOk 0xB00000009040038000000000 (.mbind (fields .n32 0 0 (.v 0) (.m 2) (.v 0) 0)) &&
    wordOk 0xB00100009040038000000000 (.mbindRst (fields .n32 1 0 (.v 0) (.m 2) (.v 0) 0)) &&
    wordOk 0xB100021088621B8000000000 (.mma (fields .n32 0 0 (.k 8) (.a 2) (.a 3) 0)) &&
    wordOk 0xB200821088621B8000000484 (.mmas (fields .n32 0 8 (.k 8) (.a 2) (.a 3) 1156)) &&
    wordOk 0xB30000002200038000000000 (.mzero (fields .n32 0 0 (.v 0) (.k 16) (.v 0) 0)) &&
    wordOk 0xB41000002200038000000000 (.mdrain (fields .s32 0 0 (.v 0) (.k 16) (.v 0) 0)) &&
    wordOk 0xB41100002200038000000000 (.mdrainZ (fields .s32 1 0 (.v 0) (.k 16) (.v 0) 0)) &&
    wordOk 0xB50000002200038000000000 (.mscl (fields .n32 0 0 (.v 0) (.k 16) (.v 0) 0))) = true := by decide
theorem test_wordsEngine1 :
    (wordOk 0xB60000000000038000000000 (.mwait (fields .n32 0 0 (.v 0) (.v 0) (.v 0) 0)) &&
    wordOk 0xB70002100000038000000000 (.mwit (fields .n32 0 0 (.k 8) (.v 0) (.v 0) 0)) &&
    wordOk 0xB80000002200038000000000 (.mring (fields .n32 0 0 (.v 0) (.k 16) (.v 0) 0)) &&
    wordOk 0xB90002102208C38000000000 (.enq (fields .n32 0 0 (.k 8) (.k 16) (.k 24) 0)) &&
    wordOk 0xB90102102208C38000000000 (.enqNb (fields .n32 1 0 (.k 8) (.k 16) (.k 24) 0)) &&
    wordOk 0xBA0000000008C38000000000 (.fetchw (fields .n32 0 0 (.v 0) (.v 0) (.k 24) 0)) &&
    wordOk 0xBB0000002201838000000000 (.recSend (fields .n32 0 0 (.v 0) (.k 16) (.v 48) 0))) = true := by decide
theorem test_wordsSystem0 :
    (wordOk 0xC80000002200038000000000 (.rgnb (fields .n32 0 0 (.v 0) (.k 16) (.v 0) 0)) &&
    wordOk 0xC90000000000038000000000 (.rgne (fields .n32 0 0 (.v 0) (.v 0) (.v 0) 0)) &&
    wordOk 0xCA0000000000038000000000 (.rgnx (fields .n32 0 0 (.v 0) (.v 0) (.v 0) 0)) &&
    wordOk 0xCB0000000000038000000000 (.trap (fields .n32 0 0 (.v 0) (.v 0) (.v 0) 0)) &&
    wordOk 0xCC0000000000038000000000 (.tret (fields .n32 0 0 (.v 0) (.v 0) (.v 0) 0)) &&
    wordOk 0xCD0000200000038000000000 (.csrr (fields .n32 0 0 (.v 16) (.v 0) (.v 0) 0)) &&
    wordOk 0xCE2000002200038000000000 (.csrw (fields .n64 0 0 (.v 0) (.k 16) (.v 0) 0)) &&
    wordOk 0xCE2100000000038000000000 (.csrwCode (fields .n64 1 0 (.v 0) (.v 0) (.v 0) 0)) &&
    wordOk 0xCF0000000000038000000000 (.wfe (fields .n32 0 0 (.v 0) (.v 0) (.v 0) 0)) &&
    wordOk 0xD00000000000038000000000 (.sevCore (fields .n32 0 0 (.v 0) (.v 0) (.v 0) 0)) &&
    wordOk 0xD00100000000038000000000 (.sevCluster (fields .n32 1 0 (.v 0) (.v 0) (.v 0) 0)) &&
    wordOk 0xD12000202200038000000000 (.perfr (fields .n64 0 0 (.v 16) (.k 16) (.v 0) 0)) &&
    wordOk 0xD22002102200038000000000 (.metr (fields .n64 0 0 (.k 8) (.k 16) (.v 0) 0)) &&
    wordOk 0xD30008828848C38000000000 (.ckpt (fields .n32 0 0 (.a 1) (.a 2) (.k 24) 0)) &&
    wordOk 0xD40000000000038000000000 (.halt (fields .n32 0 0 (.v 0) (.v 0) (.v 0) 0)) &&
    wordOk 0xD500000022282B8000000000 (.tlbiPage (fields .n32 0 0 (.v 0) (.k 16) (.lit 5) 0)) &&
    wordOk 0xD50100002200038000000000 (.tlbiTenant (fields .n32 1 0 (.v 0) (.k 16) (.v 0) 0))) = true := by decide
theorem test_wordsSystem1 :
    (wordOk 0xD50200000000038000000000 (.tlbiAll (fields .n32 2 0 (.v 0) (.v 0) (.v 0) 0))) = true := by decide

/-! ### Words that are refused -/

theorem test_word_long_region :
    (decodeBytes [0x00, 0, 0, 0, 0x80, 0x03, 0, 0x21, 0, 0, 0, 0xC8] == .ok (.rgnb (fields .n32 0 0 (.v 0) (.k 8) (.v 0) 0), [])) = true := by decide
theorem test_word_all_zero :
    (decodeBytes [0, 0, 0, 0, 0, 0, 0, 0, 0, 0, 0, 0] == .ok (.nop { fields .n32 0 0 (.v 0) (.v 0) (.v 0) 0 with gp := 0 }, [])) = true := by decide
theorem test_word_short :
    (decodeBytes [0, 0, 0, 0, 0x80, 0x03, 0, 0, 0, 0, 0] == .error .tooShort) = true := by decide
theorem test_refuses_variant :
    (!WellFormed (.iadd (fields .n32 1 0 (.v 16) (.v 32) (.lit 5) 0))) = true := by decide
theorem test_refuses_type :
    (!WellFormed (.iadd (fields .reserved 0 0 (.v 16) (.v 32) (.lit 5) 0))) = true := by decide
theorem test_refuses_latch_slot :
    (!WellFormed (.iadd { (fields .n32 0 0 (.v 16) (.v 32) (.lit 5) 0) with ls := 3 })) = true := by decide
theorem test_refuses_unused_operand :
    (!WellFormed (.nop (fields .n32 0 0 (.v 1) (.v 0) (.v 0) 0))) = true := by decide
theorem test_refuses_unused_imm :
    (!WellFormed (.iadd (fields .n32 0 0 (.v 16) (.v 32) (.lit 5) 1))) = true := by decide
theorem test_refuses_c_above_operand :
    (!WellFormed (.sel (fields .b32 0 8 (.v 16) (.v 32) (.lit 5) (2048 + 1028)))) = true := by decide
theorem test_refuses_grain_hold :
    (!WellFormed (.gneg { (fields .n32 0 0 (.g 1) (.g 2) (.v 0) 0) with hold := 1 })) = true := by decide
theorem test_refuses_runend_guard :
    (!WellFormed (.runend { (fields .n32 0 0 (.v 0) (.v 0) (.v 0) 0) with gp := 0 })) = true := by decide
theorem test_refuses_literal_destination :
    (!WellFormed (.iadd (fields .n32 0 0 (.lit 5) (.v 32) (.lit 5) 0))) = true := by decide
theorem test_refuses_odd_pair :
    (!WellFormed (.iadd (fields .n64 0 0 (.v 17) (.v 32) .zero 0))) = true := by decide
theorem test_refuses_c_class :
    (!WellFormed (.sel (fields .b32 0 8 (.v 16) (.v 32) (.lit 5) (immOp (.v 1))))) = true := by decide
theorem test_refuses_count_register :
    (!WellFormed (.red (fields .n32 8 0 (.v 255) (.v 32) (.v 0) 0))) = true := by decide
theorem test_refuses_uniform_source :
    (!WellFormed (.iadd (fields .n32 0 0 (.k 8) (.v 32) (.lit 5) 0))) = true := by decide
theorem test_refuses_split_wide_guard :
    (!WellFormed (.joinTeam { (fields .n32 0 0 (.v 0) (.v 0) (.v 0) 0) with gp := 1 })) = true := by decide
theorem test_refuses_step_operand :
    (!WellFormed (.steadyRestStep 2)) = true := by decide

/-! ### Results, from the rules and tables of the manual -/

theorem test_result_add_wraps :
    (after (.iadd (fields .n32 0 0 (.v 16) (.v 32) (.v 48) 0)) (withV [(32 * 32, 0xFFFFFFFF), (48 * 32, 1)] (placed (.iadd (fields .n32 0 0 (.v 16) (.v 32) (.v 48) 0)))) fun t => t.reg ⟨0, 0, 0⟩ (.v 16) 0 == 0) = true := by decide
theorem test_result_add_saturates :
    (after (.iadd (fields .s32 0 4 (.v 16) (.v 32) (.v 48) 0)) (withV [(32 * 32, 0x7FFFFFFF), (48 * 32, 1)] (placed (.iadd (fields .s32 0 4 (.v 16) (.v 32) (.v 48) 0)))) fun t => t.reg ⟨0, 0, 0⟩ (.v 16) 0 == 0x7FFFFFFF) = true := by decide
theorem test_result_mulh_signed :
    (after (.imulh (fields .s32 0 0 (.v 16) (.v 32) (.v 48) 0)) (withV [(32 * 32, 0x80000000), (48 * 32, 0x80000000)] (placed (.imulh (fields .s32 0 0 (.v 16) (.v 32) (.v 48) 0)))) fun t => t.reg ⟨0, 0, 0⟩ (.v 16) 0 == 0x40000000) = true := by decide
theorem test_result_shr_by_width :
    (after (.shr (fields .n32 0 0 (.v 16) (.v 32) (.v 48) 0)) (withV [(32 * 32, 0x80000000), (48 * 32, 32)] (placed (.shr (fields .n32 0 0 (.v 16) (.v 32) (.v 48) 0)))) fun t => t.reg ⟨0, 0, 0⟩ (.v 16) 0 == 0) = true := by decide
theorem test_result_sar_by_width :
    (after (.sar (fields .s32 0 0 (.v 16) (.v 32) (.v 48) 0)) (withV [(32 * 32, 0x80000000), (48 * 32, 32)] (placed (.sar (fields .s32 0 0 (.v 16) (.v 32) (.v 48) 0)))) fun t => t.reg ⟨0, 0, 0⟩ (.v 16) 0 == 0xFFFFFFFF) = true := by decide
theorem test_result_bfx :
    (after (.bfx (fields .n32 0 0 (.v 16) (.v 32) (.v 48) 0)) (withV [(32 * 32, 0xABCD1234), (48 * 32, 0x0808)] (placed (.bfx (fields .n32 0 0 (.v 16) (.v 32) (.v 48) 0)))) fun t => t.reg ⟨0, 0, 0⟩ (.v 16) 0 == 0x12) = true := by decide
theorem test_result_icmp_unsigned_less :
    (after (.icmp (fields .n32 3 0 (.p 1) (.v 32) (.v 48) 0)) (withV [(32 * 32, 1), (48 * 32, 0xFFFFFFFF)] (placed (.icmp (fields .n32 3 0 (.p 1) (.v 32) (.v 48) 0)))) fun t => t.reg ⟨0, 0, 0⟩ (.p 1) 0 == 1) = true := by decide
theorem test_result_fadd_tie_to_even :
    (after (.fadd (fields .f32 0 0 (.v 16) (.v 32) (.v 48) 0)) (withV [(32 * 32, 0x3F800000), (48 * 32, 0x33800000)] (placed (.fadd (fields .f32 0 0 (.v 16) (.v 32) (.v 48) 0)))) fun t => t.reg ⟨0, 0, 0⟩ (.v 16) 0 == 0x3F800000) = true := by decide
theorem test_result_fmul_overflow :
    (after (.fmul (fields .f32 0 0 (.v 16) (.v 32) (.v 48) 0)) (withV [(32 * 32, 0x7F7FFFFF), (48 * 32, 0x40000000)] (placed (.fmul (fields .f32 0 0 (.v 16) (.v 32) (.v 48) 0)))) fun t => t.reg ⟨0, 0, 0⟩ (.v 16) 0 == 0x7F800000) = true := by decide
theorem test_result_fadd_invalid :
    (after (.fadd (fields .f32 0 0 (.v 16) (.v 32) (.v 48) 0)) (withV [(32 * 32, 0x7F800000), (48 * 32, 0xFF800000)] (placed (.fadd (fields .f32 0 0 (.v 16) (.v 32) (.v 48) 0)))) fun t => t.reg ⟨0, 0, 0⟩ (.v 16) 0 == 0x7FC00000) = true := by decide
theorem test_result_store_low_byte_first :
    (after (.st (fields .n32 2 0 (.v 32) (.a 2) .zero 0)) (withV [(32 * 32, 0x44332211)] (withMask 1 (withMem (placed (.st (fields .n32 2 0 (.v 32) (.a 2) .zero 0)))))) fun t => t.byte 0x10040 == 0x11 && t.byte 0x10043 == 0x44 && t.byte 0x10044 == 0) = true := by decide
theorem test_result_trap :
    (after (.trap (fields .n32 0 0 (.v 0) (.v 0) (.v 0) 0x1234)) (withHandler (placed (.trap (fields .n32 0 0 (.v 0) (.v 0) (.v 0) 0x1234)))) fun t => match t.split? ⟨0, 0, 0⟩ with
    | some p => p.inHandler && p.trapPc == 0x1000C && p.trapInfo == 0x1234 && p.pc == 0x10100 && p.run == 0
    | none => false) = true := by decide
theorem test_result_branch :
    (after (.bra (fields .n32 0 0 (.v 0) (.v 0) (.v 0) 4)) (placed (.bra (fields .n32 0 0 (.v 0) (.v 0) (.v 0) 4))) fun t => t.pcOf ⟨0, 0, 0⟩ == some (0x10000 + 12 + 16)) = true := by decide

/-! ### Cross-lane instructions (CrossLanes, Reductions) -/

theorem test_ballot_k :
    (sees (.ballot (fields .b32 0 0 (.k 8) (.p 2) (.v 0) 0)) (placed (.ballot (fields .b32 0 0 (.k 8) (.p 2) (.v 0) 0))) fun c => c.w.d == .k 8 && c.oneGroup) = true := by decide
theorem test_red_v :
    (sees (.red (fields .n32 8 0 (.v 16) (.v 32) (.v 0) 0)) (placed (.red (fields .n32 8 0 (.v 16) (.v 32) (.v 0) 0))) fun c => c.w.d == .v 16 && c.w.var.getLsbD 3) = true := by decide
theorem test_red_k :
    (sees (.red (fields .n32 0 0 (.k 8) (.v 32) (.v 0) 0)) (placed (.red (fields .n32 0 0 (.k 8) (.v 32) (.v 0) 0))) fun c => c.w.d == .k 8 && c.oneGroup) = true := by decide
theorem test_red_none :
    (sees (.red (fields .n32 0 0 .zero (.v 32) (.v 0) 0)) (placed (.red (fields .n32 0 0 .zero (.v 32) (.v 0) 0))) fun c => c.w.d == .zero) = true := by decide

/-! ### Grain vectors (GrainResults) -/

theorem test_grain :
    (sees (.gadd (fields .n32 0 0 (.g 1) (.g 2) (.g 3) 0)) (placed (.gadd (fields .n32 0 0 (.g 1) (.g 2) (.g 3) 0))) fun c => match c.spans with
    | some l => !l.isEmpty && l.all fun sp => (c.gsrc true c.w.a sp).isSome && (c.gsrc true c.w.b sp).isSome
    | none => false) = true := by decide
theorem test_grain_out :
    (sees (.gdotFull (fields .f32 1 0 (.v 16) (.g 2) (.g 3) 0)) (placed (.gdotFull (fields .f32 1 0 (.v 16) (.g 2) (.g 3) 0))) fun c => match c.spans with
    | some l => c.lanes.all (fun x => (spanOf l x).isSome) && l.all fun sp => (c.gsrc true c.w.a sp).isSome && (c.gsrc true c.w.b sp).isSome
    | none => false) = true := by decide
theorem test_grain_out_direction :
    (sees (.gexpDir (fields .f32 0 0 (.v 16) (.g 2) (.v 0) 0)) (placed (.gexpDir (fields .f32 0 0 (.v 16) (.g 2) (.v 0) 0))) fun c => match c.spans with
    | some l => c.lanes.all (fun x => (spanOf l x).isSome) && l.all fun sp => (c.gsrc false c.w.a sp).isSome
    | none => false) = true := by decide

/-! ### Memory (Loads, Stores, HeldWork, Atomics) -/

theorem test_load :
    (sees (.ld (fields .n32 2 0 (.v 16) (.a 2) (.v 48) 0)) (withMem (placed (.ld (fields .n32 2 0 (.v 16) (.a 2) (.v 48) 0)))) fun c =>
    c.g.committed.isEmpty && someMem (passGlobal c c.accessLanes (c.capAt c.w.a) (accessSize c.w) permR)) = true := by decide
theorem test_load_scratch :
    (sees (.lds (fields .n32 2 0 (.v 16) (.v 0) (.v 48) 0)) (placed (.lds (fields .n32 2 0 (.v 16) (.v 0) (.v 48) 0))) fun c =>
    c.g.committed.isEmpty && (passScratch c c.accessLanes (accessSize c.w)).isSome) = true := by decide
theorem test_load_capability :
    (sees (.capld (fields .n32 0 0 (.a 1) (.a 2) (.k 24) 0)) (withMem ((placed (.capld (fields .n32 0 0 (.a 1) (.a 2) (.k 24) 0))).setTag 0x10040 true)) fun c =>
    match passGlobal c c.accessLanes (c.capAt c.w.a) 16 permR with
    | some [(_, p)] => (c.readCap (resolved c c.accessLanes (c.capAt c.w.a) 16 permR) p).2.1
    | _ => false) = true := by decide
theorem test_load_side :
    (sees (.ldSide (fields .n32 5 0 (.v 16) (.a 2) (.v 48) 0)) (withMem (placed (.ldSide (fields .n32 5 0 (.v 16) (.a 2) (.v 48) 0)))) fun c => c.g.committed.isEmpty && someMem (passGlobal c c.accessLanes (c.capAt c.w.a) 16 permR)) = true := by decide
theorem test_load_grain :
    (sees (.gld (fields .n32 0 8 (.g 1) (.a 2) (.v 48) 0)) (withMem (placed (.gld (fields .n32 0 8 (.g 1) (.a 2) (.v 48) 0)))) fun c =>
    c.g.committed.isEmpty && c.spans.isSome && someMem (passGlobal c c.accessLanes (c.capAt c.w.a) 32 permR)) = true := by decide
theorem test_store :
    (sees (.st (fields .n32 2 0 (.v 16) (.a 2) (.v 48) 0)) (withMem (placed (.st (fields .n32 2 0 (.v 16) (.a 2) (.v 48) 0)))) fun c =>
    c.g.region.isNone && !c.outsideHarvest && c.g.committed.isEmpty && someMem (passGlobal c c.lanes (c.capAt c.w.a) (accessSize c.w) permW)) = true := by decide
theorem test_store_scratch :
    (sees (.sts (fields .n32 2 0 (.v 16) (.v 0) (.v 48) 0)) (placed (.sts (fields .n32 2 0 (.v 16) (.v 0) (.v 48) 0))) fun c => c.g.region.isNone && !c.outsideHarvest && c.g.committed.isEmpty && (passScratch c c.lanes (accessSize c.w)).isSome) = true := by decide
theorem test_store_grain :
    (sees (.gst (fields .n32 0 0 (.g 1) (.a 2) (.v 48) 0)) (withMem (placed (.gst (fields .n32 0 0 (.g 1) (.a 2) (.v 48) 0)))) fun c => c.g.region.isNone && !c.outsideHarvest && c.g.committed.isEmpty &&
    (match c.whole.spans with | some l => !l.isEmpty && l.all fun sp => (c.whole.gsrc false c.w.d sp).isSome | none => false) &&
    someMem (passGlobal c c.accessLanes (c.capAt c.w.a) 32 permW)) = true := by decide
theorem test_store_capability :
    (sees (.capst (fields .n32 0 0 (.a 1) (.a 2) (.k 24) 0)) (withMem (placed (.capst (fields .n32 0 0 (.a 1) (.a 2) (.k 24) 0)))) fun c =>
    c.g.region.isNone && !c.outsideHarvest && c.g.committed.isEmpty && oneMem (passGlobal c c.accessLanes (c.capAt c.w.a) 16 permW) && !isCxl 0x10040) = true := by decide
theorem test_held_store :
    (sees (.st (fields .n32 2 0 (.v 16) (.a 2) (.v 48) 0)) (inRegion (withMem (placed (.st (fields .n32 2 0 (.v 16) (.a 2) (.v 48) 0))))) fun c => match c.g.region, passGlobal c c.lanes (c.capAt c.w.a) (accessSize c.w) permW with
    | some r, some l => decide (entriesUsed (r.held ++ l.map fun e => .store e.2 (c.storeData e.1)) ≤ 64)
    | _, _ => false) = true := by decide
theorem test_held_store_scratch :
    (sees (.sts (fields .n32 2 0 (.v 16) (.v 0) (.v 48) 0)) (inRegion (placed (.sts (fields .n32 2 0 (.v 16) (.v 0) (.v 48) 0)))) fun c => match c.g.region, passScratch c c.lanes (accessSize c.w) with
    | some r, some l => decide (entriesUsed (r.held ++ l.map fun e => .store e.2 (c.storeData e.1)) ≤ 64)
    | _, _ => false) = true := by decide
theorem test_held_store_capability :
    (sees (.capst (fields .n32 0 0 (.a 1) (.a 2) (.k 24) 0)) (inRegion (withMem (placed (.capst (fields .n32 0 0 (.a 1) (.a 2) (.k 24) 0))))) fun c => match c.g.region, passGlobal c c.accessLanes (c.capAt c.w.a) 16 permW with
    | some r, some [(_, .mem va t pa)] => !isCxl pa && decide (entriesUsed (r.held ++ [.capStore (.mem va t pa) (c.cap c.w.d).cap]) ≤ 64)
    | _, _ => false) = true := by decide
theorem test_held_rel :
    (sees (.rel (fields .n32 0 0 (.v 0) (.a 2) (.k 24) 0)) (inRegion (withMem (placed (.rel (fields .n32 0 0 (.v 0) (.a 2) (.k 24) 0))))) fun c => match c.g.region, passGlobal c (c.lanes.take 1) (c.capAt c.w.a) 8 (permR) with
    | some r, some [(_, .mem va t pa)] => decide (entriesUsed (r.held ++ [.cut 0 (.mem va t pa)]) ≤ 64)
    | _, _ => false) = true := by decide
theorem test_held_cutinit :
    (sees (.cutinit (fields .n32 0 0 (.v 0) (.a 2) (.k 24) 0)) (inRegion (withMem (placed (.cutinit (fields .n32 0 0 (.v 0) (.a 2) (.k 24) 0))))) fun c => match c.g.region, passGlobal c (c.lanes.take 1) (c.capAt c.w.a) 8 (permR + permW) with
    | some r, some [(_, .mem va t pa)] => decide (entriesUsed (r.held ++ [.cut 1 (.mem va t pa)]) ≤ 64)
    | _, _ => false) = true := by decide
theorem test_held_pubcut :
    (sees (.pubcut (fields .n32 0 0 (.v 0) (.a 2) (.k 24) 0)) (inRegion (withMem (placed (.pubcut (fields .n32 0 0 (.v 0) (.a 2) (.k 24) 0))))) fun c => match c.g.region, passGlobal c (c.lanes.take 1) (c.capAt c.w.a) 8 (permR + permW) with
    | some r, some [(_, .mem va t pa)] => decide (entriesUsed (r.held ++ [.cut 2 (.mem va t pa)]) ≤ 64)
    | _, _ => false) = true := by decide
theorem test_held_fincut :
    (sees (.fincut (fields .n32 0 0 (.v 0) (.a 2) (.k 24) 0)) (inRegion (withMem (placed (.fincut (fields .n32 0 0 (.v 0) (.a 2) (.k 24) 0))))) fun c => match c.g.region, passGlobal c (c.lanes.take 1) (c.capAt c.w.a) 8 (permR + permW) with
    | some r, some [(_, .mem va t pa)] => decide (entriesUsed (r.held ++ [.cut 3 (.mem va t pa)]) ≤ 64)
    | _, _ => false) = true := by decide
theorem test_held_unbindWord :
    (sees (.unbindWord (fields .n32 1 0 (.v 0) (.a 2) (.k 24) 0)) (inRegion (withMem (placed (.unbindWord (fields .n32 1 0 (.v 0) (.a 2) (.k 24) 0))))) fun c => c.g.region.isSome && oneMem (passGlobal c (c.lanes.take 1) (c.capAt c.w.a) 8 permR)) = true := by decide
theorem test_held_unbind :
    (sees (.unbind (fields .n32 0 0 (.a 1) (.v 0) (.v 0) 0)) (inRegion (withMem (placed (.unbind (fields .n32 0 0 (.a 1) (.v 0) (.v 0) 0))))) fun c => match c.g.region with
    | some r => decide (entriesUsed (r.held ++ [.unbind (c.cap c.w.d).cap.device.toNat (c.cap c.w.d).cap.base.toNat (c.cap c.w.d).cap.len]) ≤ 64)
    | none => false) = true := by decide
theorem test_held_copy :
    (sees (.cpy (fields .n32 0 0 (.a 1) (.a 2) (.k 24) 0)) (inRegion (withMem (withK [(24, 32), (26, 32)] (placed (.cpy (fields .n32 0 0 (.a 1) (.a 2) (.k 24) 0)))))) fun c => match copySays (.cpy (fields .n32 0 0 (.a 1) (.a 2) (.k 24) 0)), c.g.region with
    | some f, some r => (f c).ok && (copyFault c.s c.who (f c).spans).isNone && decide (entriesUsed (r.held ++ [.copy c.sp.pc (f c).dst (f c).src (f c).idx (f c).shape]) ≤ 64)
    | _, _ => false) = true := by decide
theorem test_atom :
    (sees (.atom (fields .n32 0 8 (.v 16) (.a 2) (.v 48) 0)) (withMem (placed (.atom (fields .n32 0 8 (.v 16) (.a 2) (.v 48) 0)))) fun c => c.g.region.isNone && !c.outsideHarvest && c.g.committed.isEmpty && someMem (passGlobal c c.accessLanes (c.capAt c.w.a) (atomSize c.w.ty) permA)) = true := by decide
theorem test_cas :
    (sees (.cas (fields .b32 0 8 (.v 16) (.a 2) (.v 48) 0)) (withMem (placed (.cas (fields .b32 0 8 (.v 16) (.a 2) (.v 48) 0)))) fun c => c.g.region.isNone && !c.outsideHarvest && c.g.committed.isEmpty && someMem (passGlobal c c.accessLanes (c.capAt c.w.a) (atomSize c.w.ty) permA)) = true := by decide
theorem test_atoms :
    (sees (.atoms (fields .n32 0 8 (.v 16) (.v 0) (.v 48) 0)) (placed (.atoms (fields .n32 0 8 (.v 16) (.v 0) (.v 48) 0))) fun c => c.g.region.isNone && !c.outsideHarvest && c.g.committed.isEmpty && match passScratch c c.accessLanes (atomSize c.w.ty) with
    | some l => l.all fun e => match e.2 with | .sp j off _ => j == 0 && e.2 == Place.sp j off (c.spAddr e.1).toNat | _ => false
    | none => false) = true := by decide
theorem test_cass :
    (sees (.cass (fields .b32 0 8 (.v 16) (.v 0) (.v 48) 0)) (placed (.cass (fields .b32 0 8 (.v 16) (.v 0) (.v 48) 0))) fun c => c.g.region.isNone && !c.outsideHarvest && c.g.committed.isEmpty && match passScratch c c.accessLanes (atomSize c.w.ty) with
    | some l => l.all fun e => match e.2 with | .sp j off _ => j == 0 && e.2 == Place.sp j off (c.spAddr e.1).toNat | _ => false
    | none => false) = true := by decide
theorem test_bankop :
    (sees (.bankop (fields .n32 1 0 (.v 0) (.v 32) (.v 48) 0)) (placed (.bankop (fields .n32 1 0 (.v 0) (.v 32) (.v 48) 0))) fun c => c.g.region.isNone && !c.outsideHarvest && c.g.committed.isEmpty && match passScratch c c.lanes (4) with
    | some l => l.all fun e => match e.2 with | .sp j off _ => j == 0 && e.2 == Place.sp j off (c.spAddr e.1).toNat | _ => false
    | none => false) = true := by decide
theorem test_bankopSadd :
    (sees (.bankopSadd (fields .n32 0 8 (.v 0) (.v 32) (.v 48) 0)) (placed (.bankopSadd (fields .n32 0 8 (.v 0) (.v 32) (.v 48) 0))) fun c => c.g.region.isNone && !c.outsideHarvest && c.g.committed.isEmpty && match passScratch c c.lanes (4) with
    | some l => l.all fun e => match e.2 with | .sp j off _ => j == 0 && e.2 == Place.sp j off (c.spAddr e.1).toNat | _ => false
    | none => false) = true := by decide

/-! ### Capabilities and registers of the system (PlainSteps, Capabilities, SystemReads, SystemWrites) -/

theorem test_capset :
    (sees (.capset (fields .n32 12 0 (.a 1) (.a 2) (.lit 5) 0)) (withMem (placed (.capset (fields .n32 12 0 (.a 1) (.a 2) (.lit 5) 0)))) fun c =>
    let p := c.cap c.w.a
    let off := c.b64 c.lane0
    !cimm c.w && decide (p.cap.base.toNat + off < 2 ^ 57) && decide (off ≤ p.cap.len) && Nat.min (p.cap.len - off) (2 ^ 57 - (p.cap.base.toNat + off)) == 59) = true := by decide
theorem test_capset_length :
    (sees (.capset (fields .n32 12 8 (.a 1) (.a 2) (.lit 5) (immOp (.lit 59)))) (withMem (placed (.capset (fields .n32 12 8 (.a 1) (.a 2) (.lit 5) (immOp (.lit 59)))))) fun c =>
    let p := c.cap c.w.a
    let off := c.b64 c.lane0
    cimm c.w && c.c64 c.lane0 == 59 && decide (off + 59 ≤ p.cap.len) && decide (p.cap.base.toNat + off + 59 ≤ 2 ^ 57)) = true := by decide
theorem test_axl_null :
    (sees (.axl (fields .n32 0 0 (.a 1) (.v 0) (.v 0) 0)) (placed (.axl (fields .n32 0 0 (.a 1) (.v 0) (.v 0) 0))) fun c => (c.cap c.w.d).cap.len == 0) = true := by decide
theorem test_axl_other_device :
    (sees (.axl (fields .n32 0 0 (.a 1) (.v 0) (.v 0) 0)) (withA 1 { mem64 with cap := { mem64.cap with device := 5 } } (placed (.axl (fields .n32 0 0 (.a 1) (.v 0) (.v 0) 0)))) fun c => decide ((c.cap c.w.d).cap.device ≠ 0)) = true := by decide
theorem test_axl_no_permission :
    (sees (.axl (fields .n32 0 0 (.a 1) (.v 0) (.v 0) 0)) (withA 1 { mem64 with cap := { mem64.cap with pr := false, pw := false, px := false, pa := false } } (placed (.axl (fields .n32 0 0 (.a 1) (.v 0) (.v 0) 0)))) fun c =>
    decide ((c.cap c.w.d).cap.len ≠ 0) && decide ((c.cap c.w.d).cap.perms = 0)) = true := by decide
theorem test_axl_page :
    (sees (.axl (fields .n32 0 0 (.a 1) (.v 0) (.v 0) 0)) (withMem (placed (.axl (fields .n32 0 0 (.a 1) (.v 0) (.v 0) 0)))) fun c => let x := (c.cap c.w.d).cap
    decide (x.len ≠ 0) && decide (x.device = c.s.regs.deviceId) && decide (x.perms ≠ 0) && (match xlatEntry c.s c.who x.base.toNat with
      | .ok e => (physCheck c.s c.who c.ag.core (tlbPa e x.base.toNat) 0).isNone
      | .error _ => false)) = true := by decide
theorem test_clk :
    (sees (.clk (fields .n32 0 0 (.v 16) (.v 0) (.v 0) 0)) (placed (.clk (fields .n32 0 0 (.v 16) (.v 0) (.v 0) 0))) fun c => c.sp.pending.isEmpty && c.sp.flight.isEmpty) = true := by decide
theorem test_csrr_first :
    (sees (.csrr (fields .n32 0 0 (.v 16) (.v 0) (.v 0) 0x000)) (placed (.csrr (fields .n32 0 0 (.v 16) (.v 0) (.v 0) 0x000))) fun c => !c.g.stream && (c.csr 0x000).isSome) = true := by decide
theorem test_csrr_last :
    (sees (.csrr (fields .n32 0 0 (.v 16) (.v 0) (.v 0) 0x050)) (placed (.csrr (fields .n32 0 0 (.v 16) (.v 0) (.v 0) 0x050))) fun c => !c.sp.inHandler && (c.csr 0x050).isSome) = true := by decide
theorem test_csrr_trap :
    (sees (.csrr (fields .n32 0 0 (.v 16) (.v 0) (.v 0) 0x024)) (inHandler (placed (.csrr (fields .n32 0 0 (.v 16) (.v 0) (.v 0) 0x024)))) fun c => c.sp.inHandler && (c.csr 0x024).isSome) = true := by decide
theorem test_perfr_0 :
    (sees (.perfr (fields .n64 0 0 (.v 16) (.k 16) (.v 0) 0)) (withK [(16, 0)] (placed (.perfr (fields .n64 0 0 (.v 16) (.k 16) (.v 0) 0)))) fun c => c.a64 c.lane0 == 0) = true := by decide
theorem test_perfr_7 :
    (sees (.perfr (fields .n64 0 0 (.v 16) (.k 16) (.v 0) 0)) (withK [(16, 7)] (placed (.perfr (fields .n64 0 0 (.v 16) (.k 16) (.v 0) 0)))) fun c => c.a64 c.lane0 == 7) = true := by decide
theorem test_perfr_16 :
    (sees (.perfr (fields .n64 0 0 (.v 16) (.k 16) (.v 0) 0)) (withK [(16, 16)] (placed (.perfr (fields .n64 0 0 (.v 16) (.k 16) (.v 0) 0)))) fun c => c.a64 c.lane0 == 16) = true := by decide
theorem test_perfr_19 :
    (sees (.perfr (fields .n64 0 0 (.v 16) (.k 16) (.v 0) 0)) (withK [(16, 19)] (placed (.perfr (fields .n64 0 0 (.v 16) (.k 16) (.v 0) 0)))) fun c => c.a64 c.lane0 == 19) = true := by decide
theorem test_metr_0 :
    (sees (.metr (fields .n64 0 0 (.k 8) (.k 16) (.v 0) 0)) (withK [(16, 0)] (placed (.metr (fields .n64 0 0 (.k 8) (.k 16) (.v 0) 0)))) fun c => c.a64 c.lane0 % 256 == 0) = true := by decide
theorem test_metr_3 :
    (sees (.metr (fields .n64 0 0 (.k 8) (.k 16) (.v 0) 0)) (withK [(16, 3)] (placed (.metr (fields .n64 0 0 (.k 8) (.k 16) (.v 0) 0)))) fun c => c.a64 c.lane0 % 256 == 3) = true := by decide
theorem test_metr_8 :
    (sees (.metr (fields .n64 0 0 (.k 8) (.k 16) (.v 0) 0)) (withK [(16, 8)] (placed (.metr (fields .n64 0 0 (.k 8) (.k 16) (.v 0) 0)))) fun c => c.a64 c.lane0 % 256 == 8) = true := by decide
theorem test_metr_11 :
    (sees (.metr (fields .n64 0 0 (.k 8) (.k 16) (.v 0) 0)) (withK [(16, 11)] (placed (.metr (fields .n64 0 0 (.k 8) (.k 16) (.v 0) 0)))) fun c => c.a64 c.lane0 % 256 == 11) = true := by decide
theorem test_csrw_000 :
    (sees (.csrw (fields .n64 0 0 (.v 0) (.k 16) (.v 0) 0x000)) (placed (.csrw (fields .n64 0 0 (.v 0) (.k 16) (.v 0) 0x000))) fun c => !c.g.stream && [0x000, 0x001, 0x002, 0x010, 0x011, 0x012, 0x013, 0x020, 0x031].contains (c.w.imm.toNat % 2 ^ 12)) = true := by decide
theorem test_csrw_001 :
    (sees (.csrw (fields .n64 0 0 (.v 0) (.k 16) (.v 0) 0x001)) (placed (.csrw (fields .n64 0 0 (.v 0) (.k 16) (.v 0) 0x001))) fun c => !c.g.stream && [0x000, 0x001, 0x002, 0x010, 0x011, 0x012, 0x013, 0x020, 0x031].contains (c.w.imm.toNat % 2 ^ 12)) = true := by decide
theorem test_csrw_002 :
    (sees (.csrw (fields .n64 0 0 (.v 0) (.k 16) (.v 0) 0x002)) (placed (.csrw (fields .n64 0 0 (.v 0) (.k 16) (.v 0) 0x002))) fun c => !c.g.stream && [0x000, 0x001, 0x002, 0x010, 0x011, 0x012, 0x013, 0x020, 0x031].contains (c.w.imm.toNat % 2 ^ 12)) = true := by decide
theorem test_csrw_010 :
    (sees (.csrw (fields .n64 0 0 (.v 0) (.k 16) (.v 0) 0x010)) (placed (.csrw (fields .n64 0 0 (.v 0) (.k 16) (.v 0) 0x010))) fun c => !c.g.stream && [0x000, 0x001, 0x002, 0x010, 0x011, 0x012, 0x013, 0x020, 0x031].contains (c.w.imm.toNat % 2 ^ 12)) = true := by decide
theorem test_csrw_013 :
    (sees (.csrw (fields .n64 0 0 (.v 0) (.k 16) (.v 0) 0x013)) (placed (.csrw (fields .n64 0 0 (.v 0) (.k 16) (.v 0) 0x013))) fun c => !c.g.stream && [0x000, 0x001, 0x002, 0x010, 0x011, 0x012, 0x013, 0x020, 0x031].contains (c.w.imm.toNat % 2 ^ 12)) = true := by decide
theorem test_csrw_020 :
    (sees (.csrw (fields .n64 0 0 (.v 0) (.k 16) (.v 0) 0x020)) (placed (.csrw (fields .n64 0 0 (.v 0) (.k 16) (.v 0) 0x020))) fun c => !c.g.stream && [0x000, 0x001, 0x002, 0x010, 0x011, 0x012, 0x013, 0x020, 0x031].contains (c.w.imm.toNat % 2 ^ 12)) = true := by decide
theorem test_csrw_031 :
    (sees (.csrw (fields .n64 0 0 (.v 0) (.k 16) (.v 0) 0x031)) (placed (.csrw (fields .n64 0 0 (.v 0) (.k 16) (.v 0) 0x031))) fun c => !c.g.stream && [0x000, 0x001, 0x002, 0x010, 0x011, 0x012, 0x013, 0x020, 0x031].contains (c.w.imm.toNat % 2 ^ 12)) = true := by decide
theorem test_csrw_022 :
    (sees (.csrw (fields .n64 0 0 (.v 0) (.k 16) (.v 0) 0x022)) (inHandler (placed (.csrw (fields .n64 0 0 (.v 0) (.k 16) (.v 0) 0x022)))) fun c => !c.g.stream && c.sp.inHandler && c.w.imm.toNat % 2 ^ 12 == 0x022) = true := by decide
theorem test_csrw_023 :
    (sees (.csrw (fields .n64 0 0 (.v 0) (.k 16) (.v 0) 0x023)) (inHandler (placed (.csrw (fields .n64 0 0 (.v 0) (.k 16) (.v 0) 0x023)))) fun c => !c.g.stream && c.sp.inHandler && c.w.imm.toNat % 2 ^ 12 == 0x023) = true := by decide
theorem test_csrw_code :
    (sees (.csrwCode (fields .n64 1 0 (.v 0) (.v 0) (.v 0) 0)) (placed (.csrwCode (fields .n64 1 0 (.v 0) (.v 0) (.v 0) 0))) fun c => !c.g.stream) = true := by decide
theorem test_csrw_stream :
    (sees (.csrw (fields .n64 0 0 (.v 0) (.k 16) (.v 0) 0x040)) (inGroup (fun g => { g with stream := true }) (placed (.csrw (fields .n64 0 0 (.v 0) (.k 16) (.v 0) 0x040)))) fun c => c.g.stream && c.w.imm.toNat % 2 ^ 12 == 0x040) = true := by decide

/-! ### Control (Transfers, Branches, Joins, Exits, BarriersAndEvents) -/

theorem test_bra_not_taken :
    (sees (.braCond (fields .n32 1 0 (.v 0) (.k 16) (.lit 5) 0)) (placed (.braCond (fields .n32 1 0 (.v 0) (.k 16) (.lit 5) 0))) fun c => decide (elemInt c.w.ty (c.a c.lane0) 0 ≠ elemInt c.w.ty (c.b c.lane0) 0)) = true := by decide
theorem test_bra_taken :
    (sees (.braCond (fields .n32 1 0 (.v 0) (.k 16) (.lit 5) 0)) (withK [(16, 5)] (placed (.braCond (fields .n32 1 0 (.v 0) (.k 16) (.lit 5) 0)))) fun c => decide (elemInt c.w.ty (c.a c.lane0) 0 = elemInt c.w.ty (c.b c.lane0) 0)) = true := by decide
theorem test_brx :
    (sees (.brx (fields .n32 0 0 (.v 0) (.k 16) (.v 0) 0)) (withK [(16, 4)] (placed (.brx (fields .n32 0 0 (.v 0) (.k 16) (.v 0) 0)))) fun c => (codeBase c + c.a64 c.lane0) % 4 == 0) = true := by decide
theorem test_ret :
    (sees (.ret (fields .n32 0 0 (.v 0) (.k 16) (.v 0) 0)) (withK [(16, 4)] (placed (.ret (fields .n32 0 0 (.v 0) (.k 16) (.v 0) 0)))) fun c => (codeBase c + c.a64 c.lane0) % 4 == 0) = true := by decide
theorem test_call_indirect :
    (sees (.callInd (fields .n32 1 0 (.k 8) (.k 16) (.v 0) 0)) (withK [(16, 4)] (placed (.callInd (fields .n32 1 0 (.k 8) (.k 16) (.v 0) 0)))) fun c => (codeBase c + c.a64 c.lane0) % 4 == 0) = true := by decide
theorem test_brc_none :
    (sees (.brc (fields .n32 0 0 (.v 0) (.p 2) (.v 0) 5)) (placed (.brc (fields .n32 0 0 (.v 0) (.p 2) (.v 0) 5))) fun c => c.sp.inner.isNone && decide (c.g.stack.length < 8) && c.g.committed.isEmpty && maskOf (c.lanes.filter fun l => c.pred c.w.a l) == 0) = true := by decide
theorem test_brc_all :
    (sees (.brc (fields .n32 0 0 (.v 0) (.p 2) (.v 0) 5)) (withP ((List.range 32).map fun l => (64 + l, true)) (placed (.brc (fields .n32 0 0 (.v 0) (.p 2) (.v 0) 5)))) fun c => c.sp.inner.isNone && decide (c.g.stack.length < 8) && c.g.committed.isEmpty && maskOf (c.lanes.filter fun l => c.pred c.w.a l) == c.sp.mask) = true := by decide
theorem test_brc_divides :
    (sees (.brc (fields .n32 0 0 (.v 0) (.p 2) (.v 0) 5)) (withP [(64, true), (95, true)] (placed (.brc (fields .n32 0 0 (.v 0) (.p 2) (.v 0) 5)))) fun c => c.sp.inner.isNone && decide (c.g.stack.length < 8) && c.g.committed.isEmpty && maskOf (c.lanes.filter fun l => c.pred c.w.a l) == 0x80000001 && (tabFind c.g.splits 1).isNone) = true := by decide
theorem test_brcPk_divides :
    (sees (.brcPk (fields .n32 1 0 (.v 0) (.p 2) (.v 0) 5)) (withP [(64, true)] (placed (.brcPk (fields .n32 1 0 (.v 0) (.p 2) (.v 0) 5)))) fun c => c.sp.inner.isNone && decide (c.g.stack.length < 8) && c.g.committed.isEmpty && maskOf (c.lanes.filter fun l => c.pred c.w.a l) == 1 && (tabFind c.g.splits 1).isNone) = true := by decide
theorem test_brc_again :
    (sees (.brc (fields .n32 0 0 (.v 0) (.p 2) (.v 0) 5)) (inGroup (fun g => { g with stack := [⟨0x10000, 0xFFFFFFFF, none, none⟩] }) (inSplit (fun sp => { sp with inner := some 0 }) (withP [(64, true)] (placed (.brc (fields .n32 0 0 (.v 0) (.p 2) (.v 0) 5)))))) fun c =>
    c.sp.inner == some 0 && (c.g.stack[0]?.map (·.brc)) == some c.sp.pc.toNat && maskOf (c.lanes.filter fun l => c.pred c.w.a l) == 1) = true := by decide
theorem test_brc_full_fewer_taken :
    (sees (.brc (fields .n32 0 0 (.v 0) (.p 2) (.v 0) 5)) (inGroup (fun g => match tabFind g.splits 0 with | some sp => { g with splits := [(0, { sp with mask := 0xFF }), (1, { sp with mask := 0xFF00 }), (2, { sp with mask := 0xFF0000 }), (3, { sp with mask := 0xFF000000 })] } | none => g) (withP [(64, true)] (placed (.brc (fields .n32 0 0 (.v 0) (.p 2) (.v 0) 5))))) fun c => c.sp.inner.isNone && decide (c.g.stack.length < 8) && c.g.committed.isEmpty && (List.range 4).all (fun k => (tabFind c.g.splits k).isSome) && maskOf (c.lanes.filter fun l => c.pred c.w.a l) == 1 && c.sp.mask == 0xFF) = true := by decide
theorem test_brc_full_equal :
    (sees (.brc (fields .n32 0 0 (.v 0) (.p 2) (.v 0) 5)) (inGroup (fun g => match tabFind g.splits 0 with | some sp => { g with splits := [(0, { sp with mask := 0xFF }), (1, { sp with mask := 0xFF00 }), (2, { sp with mask := 0xFF0000 }), (3, { sp with mask := 0xFF000000 })] } | none => g) (withP [(64, true), (65, true), (66, true), (67, true)] (placed (.brc (fields .n32 0 0 (.v 0) (.p 2) (.v 0) 5))))) fun c => c.sp.inner.isNone && decide (c.g.stack.length < 8) && c.g.committed.isEmpty && (List.range 4).all (fun k => (tabFind c.g.splits k).isSome) && maskOf (c.lanes.filter fun l => c.pred c.w.a l) == 0xF && c.sp.mask == 0xFF) = true := by decide
theorem test_brc_full_fewer_not_taken :
    (sees (.brc (fields .n32 0 0 (.v 0) (.p 2) (.v 0) 5)) (inGroup (fun g => match tabFind g.splits 0 with | some sp => { g with splits := [(0, { sp with mask := 0xFF }), (1, { sp with mask := 0xFF00 }), (2, { sp with mask := 0xFF0000 }), (3, { sp with mask := 0xFF000000 })] } | none => g) (withP ((List.range 7).map fun l => (64 + l, true)) (placed (.brc (fields .n32 0 0 (.v 0) (.p 2) (.v 0) 5))))) fun c => c.sp.inner.isNone && decide (c.g.stack.length < 8) && c.g.committed.isEmpty && (List.range 4).all (fun k => (tabFind c.g.splits k).isSome) && maskOf (c.lanes.filter fun l => c.pred c.w.a l) == 0x7F && c.sp.mask == 0xFF) = true := by decide
theorem test_join_bare :
    (sees (.join (fields .n32 0 0 (.v 0) (.v 0) (.v 0) 0)) (placed (.join (fields .n32 0 0 (.v 0) (.v 0) (.v 0) 0))) fun c => c.sp.inner.isNone) = true := by decide
theorem test_join_team :
    (sees (.joinTeam (fields .n32 1 0 (.v 0) (.v 0) (.v 0) 0)) (placed (.joinTeam (fields .n32 1 0 (.v 0) (.v 0) (.v 0) 0))) fun c => c.sp.inner.isNone && !c.g.repacked && c.g.teamJoin.isNone) = true := by decide
theorem test_join_waits :
    (sees (.join (fields .n32 0 0 (.v 0) (.v 0) (.v 0) 0)) (inSplit (fun sp => { sp with inner := some 0, mask := 0xF }) (inGroup (fun g => { g with stack := [⟨0x20, 0xFF, none, none⟩] }) (placed (.join (fields .n32 0 0 (.v 0) (.v 0) (.v 0) 0))))) fun c => c.sp.inner == some 0 && c.g.splits.all (fun x => x.1 == c.ag.split) && c.sp.mask != 0 && (match c.g.stack[0]? with | some e => (e.parent &&& ~~~c.g.exited &&& ~~~(pathMask e) &&& ~~~(c.sp.mask ||| waitMask e)) | none => 1#32 : BitVec 32) == 0xF0) = true := by decide
theorem test_join_path :
    (sees (.join (fields .n32 0 0 (.v 0) (.v 0) (.v 0) 0)) (inSplit (fun sp => { sp with inner := some 0, mask := 0xF }) (inGroup (fun g => { g with stack := [⟨0x20, 0xFF, some (0x40, 0xF0), none⟩] }) (placed (.join (fields .n32 0 0 (.v 0) (.v 0) (.v 0) 0))))) fun c => c.sp.inner == some 0 && c.g.splits.all (fun x => x.1 == c.ag.split) && c.sp.mask != 0 && (match c.g.stack[0]? with | some e => (e.parent &&& ~~~c.g.exited &&& ~~~(pathMask e) &&& ~~~(c.sp.mask ||| waitMask e)) | none => 1#32 : BitVec 32) == 0) = true := by decide
theorem test_join_ends :
    (sees (.join (fields .n32 0 0 (.v 0) (.v 0) (.v 0) 0)) (inSplit (fun sp => { sp with inner := some 0, mask := 0xF }) (inGroup (fun g => { g with stack := [⟨0x20, 0xFF, none, some (0x10000, 0xF0)⟩] }) (placed (.join (fields .n32 0 0 (.v 0) (.v 0) (.v 0) 0))))) fun c =>
    c.sp.inner == some 0 && c.g.splits.all (fun x => x.1 == c.ag.split) && c.sp.mask != 0 && (match c.g.stack[0]? with | some e => (e.parent &&& ~~~c.g.exited &&& ~~~(pathMask e) &&& ~~~(c.sp.mask ||| waitMask e)) | none => 1#32 : BitVec 32) == 0 && (c.g.stack[0]?.bind (·.waiting)).map (·.1) == some c.sp.pc.toNat) = true := by decide
theorem test_exit_some :
    (sees (.exit { (fields .n32 0 0 (.v 0) (.v 0) (.v 0) 0) with gp := 2 }) (withP [(64, true)] (placed (.exit { (fields .n32 0 0 (.v 0) (.v 0) (.v 0) 0) with gp := 2 }))) fun c => c.g.stack.isEmpty && !c.g.repacked && !c.g.witnessFault && c.g.committed.isEmpty && maskOf c.lanes == 1 && c.sp.mask == 0xFFFFFFFF) = true := by decide
theorem test_exit_last :
    (sees (.exit (fields .n32 0 0 (.v 0) (.v 0) (.v 0) 0)) (placed (.exit (fields .n32 0 0 (.v 0) (.v 0) (.v 0) 0))) fun c => c.g.stack.isEmpty && !c.g.repacked && !c.g.witnessFault && c.g.committed.isEmpty && maskOf c.lanes == c.sp.mask && c.g.splits.all (fun x => x.1 == c.ag.split) && c.g.absent == 0 && c.g.failed.isEmpty && c.g.withdrawn.isNone && !c.g.stream) = true := by decide
theorem test_exit_failed :
    (sees (.exit (fields .n32 0 0 (.v 0) (.v 0) (.v 0) 0)) (inGroup (fun g => { g with failed := [⟨1, 0, 0x20, fCapBounds, 7⟩] }) (placed (.exit (fields .n32 0 0 (.v 0) (.v 0) (.v 0) 0)))) fun c => c.g.stack.isEmpty && !c.g.repacked && !c.g.witnessFault && c.g.committed.isEmpty && maskOf c.lanes == c.sp.mask && c.g.splits.all (fun x => x.1 == c.ag.split) && c.g.absent == 0 && c.g.failed.length == 1 && (c.s.launch? c.g.launch).isSome && !portFull c.s (dieOf c.ag.core) (faultClass c.s c.ag c.g 1)) = true := by decide
theorem test_exit_stream :
    (sees (.exit (fields .n32 0 0 (.v 0) (.v 0) (.v 0) 0)) (inGroup (fun g => { g with stream := true }) (withMask 1 (placed (.exit (fields .n32 0 0 (.v 0) (.v 0) (.v 0) 0))))) fun c => c.g.stack.isEmpty && !c.g.repacked && !c.g.witnessFault && c.g.committed.isEmpty && maskOf c.lanes == c.sp.mask && c.g.failed.isEmpty && c.g.stream) = true := by decide
theorem test_arrive :
    (sees (.arrive (fields .n32 0 0 (.k 8) (.v 0) (.v 0) 0)) (placed (.arrive (fields .n32 0 0 (.k 8) (.v 0) (.v 0) 0))) fun c => c.g.threads.isEmpty) = true := by decide
theorem test_bar_completes :
    (sees (.bar (fields .n32 0 0 (.v 0) (.v 0) (.v 0) 0)) (placed (.bar (fields .n32 0 0 (.v 0) (.v 0) (.v 0) 0))) (fun c => c.g.threads.isEmpty && c.sp.wait.isNone) &&
    after (.bar (fields .n32 0 0 (.v 0) (.v 0) (.v 0) 0)) (placed (.bar (fields .n32 0 0 (.v 0) (.v 0) (.v 0) 0))) fun t => (t.launch? 0).map (fun l => l.bars.isEmpty) == some false) = true := by decide
theorem test_bar_waits :
    (sees (.bar (fields .n32 0 0 (.v 0) (.v 0) (.v 0) 0)) (inGroup (fun g => match tabFind g.splits 0 with | some sp => { g with splits := [(0, { sp with mask := 0xFFFF }), (1, { sp with mask := 0xFFFF0000 })] } | none => g) (placed (.bar (fields .n32 0 0 (.v 0) (.v 0) (.v 0) 0)))) (fun c => c.g.threads.isEmpty && c.sp.wait.isNone) &&
    after (.bar (fields .n32 0 0 (.v 0) (.v 0) (.v 0) 0)) (inGroup (fun g => match tabFind g.splits 0 with | some sp => { g with splits := [(0, { sp with mask := 0xFFFF }), (1, { sp with mask := 0xFFFF0000 })] } | none => g) (placed (.bar (fields .n32 0 0 (.v 0) (.v 0) (.v 0) 0)))) fun t => (t.waitOf ⟨0, 0, 0⟩) == some (some (.barrier false 0 0))) = true := by decide
theorem test_bar_waited :
    (sees (.bar (fields .n32 0 0 (.v 0) (.v 0) (.v 0) 0)) (inSplit (fun sp => { sp with wait := some (.barrier false 0 0) }) { placed (.bar (fields .n32 0 0 (.v 0) (.v 0) (.v 0) 0)) with launches := (placed (.bar (fields .n32 0 0 (.v 0) (.v 0) (.v 0) 0))).launches.map fun e => (e.1, { e.2 with bars := [(0, 1)] }) }) fun c => c.sp.wait.isSome && instancePassed c.s c 0) = true := by decide
theorem test_bwait_waits :
    (sees (.bwait (fields .n32 0 0 (.v 0) (.k 16) (.v 0) 0)) (placed (.bwait (fields .n32 0 0 (.v 0) (.k 16) (.v 0) 0))) fun c => !instancePassed c.s c (c.a32 c.lane0)) = true := by decide
theorem test_bwait_passes :
    (sees (.bwait (fields .n32 0 0 (.v 0) (.k 16) (.v 0) 0)) { placed (.bwait (fields .n32 0 0 (.v 0) (.k 16) (.v 0) 0)) with launches := (placed (.bwait (fields .n32 0 0 (.v 0) (.k 16) (.v 0) 0))).launches.map fun e => (e.1, { e.2 with bars := [(0, 1)] }) } fun c => instancePassed c.s c (c.a32 c.lane0)) = true := by decide
theorem test_wfe_event :
    (sees (.wfe (fields .n32 0 0 (.v 0) (.v 0) (.v 0) 9)) (inSplit (fun sp => { sp with ev := true }) (placed (.wfe (fields .n32 0 0 (.v 0) (.v 0) (.v 0) 9)))) fun c => c.sp.ev) = true := by decide
theorem test_wfe_limit_passed :
    (sees (.wfe (fields .n32 0 0 (.v 0) (.v 0) (.v 0) 9)) (inSplit (fun sp => { sp with wait := some (.event 0) }) (placed (.wfe (fields .n32 0 0 (.v 0) (.v 0) (.v 0) 9)))) fun c => !c.sp.ev && c.sp.wait == some (.event 0)) = true := by decide
theorem test_wfe_at_once :
    (sees (.wfe (fields .n32 0 0 (.v 0) (.v 0) (.v 0) 0)) (placed (.wfe (fields .n32 0 0 (.v 0) (.v 0) (.v 0) 0))) fun c => !c.sp.ev && c.sp.wait.isNone && c.w.imm.toNat % 2 ^ 16 == 0) = true := by decide
theorem test_wfe_waits :
    (sees (.wfe (fields .n32 0 0 (.v 0) (.v 0) (.v 0) 65535)) (placed (.wfe (fields .n32 0 0 (.v 0) (.v 0) (.v 0) 65535))) fun c => !c.sp.ev && c.sp.wait.isNone && c.w.imm.toNat % 2 ^ 16 == 65535) = true := by decide

/-! ### Handlers and faults (Handlers, FaultsEnterHandler, FaultsEndLaunch) -/

theorem test_trap_without_handler :
    (sees (.trap (fields .n32 0 0 (.v 0) (.v 0) (.v 0) 9)) (placed (.trap (fields .n32 0 0 (.v 0) (.v 0) (.v 0) 9))) fun c => !c.g.stream && c.sp.tvec == 0) = true := by decide
theorem test_trap_in_stream :
    (sees (.trap (fields .n32 0 0 (.v 0) (.v 0) (.v 0) 9)) (inGroup (fun g => { g with stream := true }) (withHandler (placed (.trap (fields .n32 0 0 (.v 0) (.v 0) (.v 0) 9))))) fun c => c.g.stream) = true := by decide
theorem test_trap :
    (sees (.trap (fields .n32 0 0 (.v 0) (.v 0) (.v 0) 9)) (withHandler (placed (.trap (fields .n32 0 0 (.v 0) (.v 0) (.v 0) 9)))) fun c => !c.g.stream && !c.sp.inHandler && c.sp.tvec != 0 && c.g.committed.isEmpty && c.sp.pending.isEmpty) = true := by decide
theorem test_tret :
    (sees (.tret (fields .n32 0 0 (.v 0) (.v 0) (.v 0) 0)) (placed (.tret (fields .n32 0 0 (.v 0) (.v 0) (.v 0) 0))) fun c => c.sp.inHandler) = true := by decide
theorem test_tret_outside :
    (sees (.tret (fields .n32 0 0 (.v 0) (.v 0) (.v 0) 0)) (withHandler (inSplit (fun sp => { sp with inHandler := false }) (placed (.tret (fields .n32 0 0 (.v 0) (.v 0) (.v 0) 0))))) fun c => !c.g.stream && !c.sp.inHandler && c.sp.tvec != 0 && c.g.committed.isEmpty && c.sp.pending.isEmpty) = true := by decide
theorem test_halt_headstock :
    (sees (.halt (fields .n32 0 0 (.v 0) (.v 0) (.v 0) 0)) (placed (.halt (fields .n32 0 0 (.v 0) (.v 0) (.v 0) 0))) fun c => isHeadstock c.ag.core) = true := by decide
theorem test_trap_in_handler :
    (sees (.trap (fields .n32 0 0 (.v 0) (.v 0) (.v 0) 9)) (inHandler (withHandler (placed (.trap (fields .n32 0 0 (.v 0) (.v 0) (.v 0) 9))))) fun c => !c.g.stream && c.sp.inHandler && c.sp.tvec != 0 && (c.s.launch? c.g.launch).isSome && !portFull c.s (dieOf c.ag.core) (faultClass c.s c.ag c.g 1)) = true := by decide
theorem test_halt_in_handler :
    (sees (.halt (fields .n32 0 0 (.v 0) (.v 0) (.v 0) 0)) (inHandler ({ placed (.nop (fields .n32 0 0 (.v 0) (.v 0) (.v 0) 0)) with mem := (placed (.halt (fields .n32 0 0 (.v 0) (.v 0) (.v 0) 0))).mem })) fun c => !isHeadstock c.ag.core && !c.g.stream && c.sp.inHandler && (c.s.launch? c.g.launch).isSome && !portFull c.s (dieOf c.ag.core) (faultClass c.s c.ag c.g 1)) = true := by decide
theorem test_fields_end_in_handler :
    (stopped (.iadd (fields .n32 0 1 (.v 16) (.v 32) (.v 48) 0)) (withHandler (placed (.iadd (fields .n32 0 1 (.v 16) (.v 32) (.v 48) 0)))) fun c code => code == fIllegalOp && !fieldsOk (.iadd (fields .n32 0 1 (.v 16) (.v 32) (.v 48) 0)) c.w && (!c.g.stream && !c.sp.inHandler && c.sp.tvec != 0 && c.g.committed.isEmpty && c.sp.pending.isEmpty)) = true := by decide
theorem test_allocation_ends_in_handler :
    (stopped (.iadd (fields .n32 0 0 (.v 16) (.v 32) (.v 48) 0)) (withHandler (inGroup (fun g => { g with vregs := 16 }) (placed (.iadd (fields .n32 0 0 (.v 16) (.v 32) (.v 48) 0))))) fun c code => code == fIllegalOperand && (!c.g.stream && !c.sp.inHandler && c.sp.tvec != 0 && c.g.committed.isEmpty && c.sp.pending.isEmpty)) = true := by decide
theorem test_fields_end_in_launch :
    (stopped (.iadd (fields .n32 0 1 (.v 16) (.v 32) (.v 48) 0)) ((placed (.iadd (fields .n32 0 1 (.v 16) (.v 32) (.v 48) 0)))) fun c code => code == fIllegalOp && !fieldsOk (.iadd (fields .n32 0 1 (.v 16) (.v 32) (.v 48) 0)) c.w && c.sp.tvec == 0 && (c.s.launch? c.g.launch).isSome && !portFull c.s (dieOf c.ag.core) (faultClass c.s c.ag c.g 1)) = true := by decide
theorem test_allocation_ends_in_launch :
    (stopped (.iadd (fields .n32 0 0 (.v 16) (.v 32) (.v 48) 0)) ((inGroup (fun g => { g with vregs := 16 }) (placed (.iadd (fields .n32 0 0 (.v 16) (.v 32) (.v 48) 0))))) fun c code => code == fIllegalOperand && c.sp.tvec == 0 && (c.s.launch? c.g.launch).isSome && !portFull c.s (dieOf c.ag.core) (faultClass c.s c.ag c.g 1)) = true := by decide
theorem test_engine_only :
    (stopped (.mzero (fields .n32 0 0 (.v 0) (.k 16) (.v 0) 0)) (withHandler ({ placed (.nop (fields .n32 0 0 (.v 0) (.v 0) (.v 0) 0)) with mem := (placed (.mzero (fields .n32 0 0 (.v 0) (.k 16) (.v 0) 0))).mem })) fun c code => code == fIllegalOp && !c.g.stream && engineOp 0xB3 && !c.g.stream && !c.sp.inHandler && c.sp.tvec != 0 && c.g.committed.isEmpty && c.sp.pending.isEmpty) = true := by decide
theorem test_privileged :
    (stopped (.halt (fields .n32 0 0 (.v 0) (.v 0) (.v 0) 0)) (withHandler ({ placed (.nop (fields .n32 0 0 (.v 0) (.v 0) (.v 0) 0)) with mem := (placed (.halt (fields .n32 0 0 (.v 0) (.v 0) (.v 0) 0))).mem })) fun c code => code == fIllegalOp && privilegedOp 0xD4 && !isHeadstock c.ag.core && !c.g.stream && !c.sp.inHandler && c.sp.tvec != 0 && c.g.committed.isEmpty && c.sp.pending.isEmpty) = true := by decide
theorem test_stall_short :
    (stopped (.iadd (fields .n32 0 0 (.v 16) (.v 32) (.v 48) 0)) (withHandler (inSplit (fun sp => { sp with ctl := 1, run := 1, flight := [⟨9, [⟨.v 32, 0, 0⟩]⟩] }) (placed (.iadd (fields .n32 0 0 (.v 16) (.v 32) (.v 48) 0))))) fun c code => code == fStallShort && c.sp.ctl.getLsbD 0 && !c.g.stream && !c.sp.inHandler && c.sp.tvec != 0 && c.g.committed.isEmpty && c.sp.pending.isEmpty) = true := by decide
theorem test_ends_in_handler :
    (stopped (.iadd (fields .n32 0 1 (.v 16) (.v 32) (.v 48) 0)) (inHandler (withHandler (placed (.iadd (fields .n32 0 1 (.v 16) (.v 32) (.v 48) 0))))) fun c code => code == fIllegalOp && c.sp.inHandler && (c.s.launch? c.g.launch).isSome && !portFull c.s (dieOf c.ag.core) (faultClass c.s c.ag c.g 1)) = true := by decide
theorem test_misaligned_target :
    (sees (.brx (fields .n32 0 0 (.v 0) (.k 16) (.v 0) 0)) (withHandler (withK [(16, 2)] (placed (.brx (fields .n32 0 0 (.v 0) (.k 16) (.v 0) 0))))) fun c => (codeBase c + c.a64 c.lane0) % 4 != 0 && !c.g.stream && !c.sp.inHandler && c.sp.tvec != 0 && c.g.committed.isEmpty && c.sp.pending.isEmpty) = true := by decide

/-! ### Bindings, cut words and fences (Bindings, CutWrites, CutReads) -/

theorem test_bind :
    (sees (.bind (fields .n32 0 0 (.a 1) (.a 2) (.k 24) 0)) (withMem (placed (.bind (fields .n32 0 0 (.a 1) (.a 2) (.k 24) 0)))) fun c => c.g.region.isNone && !c.outsideHarvest && c.g.committed.isEmpty && oneMem (passGlobal c (c.lanes.take 1) (c.capAt c.w.a) 8 (permR)) && (rangeCheck c.s c.who (c.cap c.w.d).cap).isNone &&
    (c.cap c.w.d).cap.len != 0 && c.bindingsSeen.isEmpty) = true := by decide
theorem test_bind_zero_length :
    (sees (.bind (fields .n32 0 0 (.a 1) (.a 2) (.k 24) 0)) (withA 1 { mem64 with cap := { mem64.cap with lenM := 0 } } (withA 2 mem64 (placed (.bind (fields .n32 0 0 (.a 1) (.a 2) (.k 24) 0))))) fun c =>
    c.g.region.isNone && !c.outsideHarvest && c.g.committed.isEmpty && oneMem (passGlobal c (c.lanes.take 1) (c.capAt c.w.a) 8 (permR)) && (rangeCheck c.s c.who (c.cap c.w.d).cap).isNone && (c.cap c.w.d).cap.len == 0) = true := by decide
theorem test_unbind :
    (sees (.unbind (fields .n32 0 0 (.a 1) (.v 0) (.v 0) 0)) (withMem (placed (.unbind (fields .n32 0 0 (.a 1) (.v 0) (.v 0) 0)))) fun c => c.g.region.isNone && !c.outsideHarvest && c.g.committed.isEmpty) = true := by decide
theorem test_unbindWord :
    (sees (.unbindWord (fields .n32 1 0 (.v 0) (.a 2) (.k 24) 0)) (withMem (placed (.unbindWord (fields .n32 1 0 (.v 0) (.a 2) (.k 24) 0)))) fun c => c.g.region.isNone && !c.outsideHarvest && c.g.committed.isEmpty && oneMem (passGlobal c (c.lanes.take 1) (c.capAt c.w.a) 8 (permR))) = true := by decide
theorem test_cutinit :
    (sees (.cutinit (fields .n32 0 0 (.v 0) (.a 2) (.k 24) 0)) (withMem (placed (.cutinit (fields .n32 0 0 (.v 0) (.a 2) (.k 24) 0)))) fun c => c.g.region.isNone && !c.outsideHarvest && c.g.committed.isEmpty && oneMem (passGlobal c (c.lanes.take 1) (c.capAt c.w.a) 8 (permR + permW)) && c.s.tasks.isEmpty && c.s.queues.isEmpty) = true := by decide
theorem test_pubcut :
    (sees (.pubcut (fields .n32 0 0 (.v 0) (.a 2) (.k 24) 0)) (withMem (placed (.pubcut (fields .n32 0 0 (.v 0) (.a 2) (.k 24) 0)))) fun c => c.g.region.isNone && !c.outsideHarvest && c.g.committed.isEmpty && oneMem (passGlobal c (c.lanes.take 1) (c.capAt c.w.a) 8 (permR + permW)) && c.s.tasks.isEmpty && c.s.queues.isEmpty) = true := by decide
theorem test_fincut :
    (sees (.fincut (fields .n32 0 0 (.v 0) (.a 2) (.k 24) 0)) (withMem (placed (.fincut (fields .n32 0 0 (.v 0) (.a 2) (.k 24) 0)))) fun c => c.g.region.isNone && !c.outsideHarvest && c.g.committed.isEmpty && oneMem (passGlobal c (c.lanes.take 1) (c.capAt c.w.a) 8 (permR + permW)) && c.s.tasks.isEmpty && c.s.queues.isEmpty) = true := by decide
theorem test_acq :
    (sees (.acq (fields .n32 0 0 (.v 0) (.a 2) (.k 24) 0)) (withMem (placed (.acq (fields .n32 0 0 (.v 0) (.a 2) (.k 24) 0)))) fun c => c.g.region.isNone && !c.outsideHarvest && c.g.committed.isEmpty && oneMem (passGlobal c (c.lanes.take 1) (c.capAt c.w.a) 8 (permR))) = true := by decide
theorem test_rel :
    (sees (.rel (fields .n32 0 0 (.v 0) (.a 2) (.k 24) 0)) (withMem (placed (.rel (fields .n32 0 0 (.v 0) (.a 2) (.k 24) 0)))) fun c => c.g.region.isNone && !c.outsideHarvest && c.g.committed.isEmpty && oneMem (passGlobal c (c.lanes.take 1) (c.capAt c.w.a) 8 (permR))) = true := by decide
theorem test_cutchk :
    (sees (.cutchk (fields .n32 0 0 (.k 8) (.a 2) (.k 24) 0)) (withMem (placed (.cutchk (fields .n32 0 0 (.k 8) (.a 2) (.k 24) 0)))) fun c => c.g.region.isNone && !c.outsideHarvest && c.g.committed.isEmpty && oneMem (passGlobal c (c.lanes.take 1) (c.capAt c.w.a) 8 (permR))) = true := by decide
theorem test_waitcut_waits :
    (sees (.waitcut (fields .n32 0 8 (.k 8) (.a 2) (.k 24) (immOp (.lit 0)))) (withMem (placed (.waitcut (fields .n32 0 8 (.k 8) (.a 2) (.k 24) (immOp (.lit 0)))))) fun c => c.g.committed.isEmpty && oneMem (passGlobal c (c.lanes.take 1) (c.capAt c.w.a) 8 (permR)) && decide (cutVersion (c.s.num 0x10040 8) ≤ c.c32 c.lane0) && cutState (c.s.num 0x10040 8) == cutOpen) = true := by decide
theorem test_waitcut_passes :
    (sees (.waitcut (fields .n32 0 8 (.k 8) (.a 2) (.k 24) (immOp (.lit 0)))) (withMem ((placed (.waitcut (fields .n32 0 8 (.k 8) (.a 2) (.k 24) (immOp (.lit 0))))).setBytes 0x10040 (leBytes (cutWord 1 0 0) 8))) fun c => c.g.committed.isEmpty && oneMem (passGlobal c (c.lanes.take 1) (c.capAt c.w.a) 8 (permR)) && decide (c.c32 c.lane0 < cutVersion (c.s.num 0x10040 8))) = true := by decide
theorem test_waitcut_finished :
    (sees (.waitcut (fields .n32 0 8 (.k 8) (.a 2) (.k 24) (immOp (.lit 0)))) (withMem ((placed (.waitcut (fields .n32 0 8 (.k 8) (.a 2) (.k 24) (immOp (.lit 0))))).setBytes 0x10040 (leBytes (cutWord 0 1 0) 8))) fun c => c.g.committed.isEmpty && oneMem (passGlobal c (c.lanes.take 1) (c.capAt c.w.a) 8 (permR)) && cutState (c.s.num 0x10040 8) != cutOpen) = true := by decide
theorem test_fence :
    (sees (.fence (fields .n32 3 1 (.v 0) (.v 0) (.v 0) 0)) (placed (.fence (fields .n32 3 1 (.v 0) (.v 0) (.v 0) 0))) fun c => c.g.committed.isEmpty && c.w.flags.toNat % 4 != 2 && decide (3 ≤ vr c.w)) = true := by decide

/-! ### Engines (CopiesAndBatches, Mailboxes, MatrixQueue, Enqueues) -/

theorem test_cpy :
    (sees (.cpy (fields .n32 0 0 (.a 1) (.a 2) (.k 24) 0)) (withMem (withK [(24, 32), (26, 32)] (placed (.cpy (fields .n32 0 0 (.a 1) (.a 2) (.k 24) 0))))) fun c => c.g.region.isNone && !c.outsideHarvest && c.g.committed.isEmpty && (c.s.core c.ag.core).copies.isEmpty &&
    match copySays (.cpy (fields .n32 0 0 (.a 1) (.a 2) (.k 24) 0)) with | some f => (f c).ok && (copyFault c.s c.who (f c).spans).isNone | none => false) = true := by decide
theorem test_cpys :
    (sees (.cpys (fields .n32 0 0 (.a 1) (.a 2) (.k 24) 0)) (withMem (withK [(26, 0x1000100010010)] (placed (.cpys (fields .n32 0 0 (.a 1) (.a 2) (.k 24) 0))))) fun c => c.g.region.isNone && !c.outsideHarvest && c.g.committed.isEmpty && (c.s.core c.ag.core).copies.isEmpty &&
    match copySays (.cpys (fields .n32 0 0 (.a 1) (.a 2) (.k 24) 0)) with | some f => (f c).ok && (copyFault c.s c.who (f c).spans).isNone | none => false) = true := by decide
theorem test_cpyg :
    (sees (.cpyg (fields .n32 0 8 (.a 1) (.a 2) (.k 24) (immOp (.a 2)))) (withMem (withK [(26, 0x800000002), (27, 8)] (placed (.cpyg (fields .n32 0 8 (.a 1) (.a 2) (.k 24) (immOp (.a 2))))))) fun c => c.g.region.isNone && !c.outsideHarvest && c.g.committed.isEmpty && (c.s.core c.ag.core).copies.isEmpty &&
    match copySays (.cpyg (fields .n32 0 8 (.a 1) (.a 2) (.k 24) (immOp (.a 2)))) with | some f => (f c).ok && (copyFault c.s c.who (f c).spans).isNone | none => false) = true := by decide
theorem test_ckpt :
    (sees (.ckpt (fields .n32 0 0 (.a 1) (.a 2) (.k 24) 0)) (withA 1 { mem64 with cap := { mem64.cap with lenM := 65 } } (withMem (withK [(26, 0x200000003), (27, 1)] (placed (.ckpt (fields .n32 0 0 (.a 1) (.a 2) (.k 24) 0)))))) fun c => c.g.region.isNone && !c.outsideHarvest && c.g.committed.isEmpty && (c.s.core c.ag.core).copies.isEmpty &&
    match copySays (.ckpt (fields .n32 0 0 (.a 1) (.a 2) (.k 24) 0)) with | some f => (f c).ok && (copyFault c.s c.who (f c).spans).isNone | none => false) = true := by decide
theorem test_cbatch_empty :
    (sees (.cbatch (fields .n32 0 0 (.k 8) (.v 0) (.v 0) 0)) (placed (.cbatch (fields .n32 0 0 (.k 8) (.v 0) (.v 0) 0))) fun c => c.g.region.isNone && c.g.committed.isEmpty && c.g.batches.isEmpty && c.g.openCopies.isEmpty) = true := by decide
theorem test_cbatch_full :
    (sees (.cbatch (fields .n32 0 0 (.k 8) (.v 0) (.v 0) 0)) (inGroup (fun g => { g with openCopies := [16], closed := 15, batches := (List.range 15).map fun i => (i + 1, [i]) }) (placed (.cbatch (fields .n32 0 0 (.k 8) (.v 0) (.v 0) 0)))) fun c =>
    c.g.batches.length == 15 && c.g.batches.all (fun b => !b.2.isEmpty) && !c.g.openCopies.isEmpty) = true := by decide
theorem test_cwait_passes :
    (sees (.cwait (fields .n32 0 0 (.v 0) (.k 16) (.v 0) 0)) (placed (.cwait (fields .n32 0 0 (.v 0) (.k 16) (.v 0) 0))) fun c => batchDone c.g.completed (c.a32 c.lane0) && c.g.failed.isEmpty) = true := by decide
theorem test_cwait_waits :
    (sees (.cwait (fields .n32 0 0 (.v 0) (.k 16) (.v 0) 0)) (withK [(16, 1)] (placed (.cwait (fields .n32 0 0 (.v 0) (.k 16) (.v 0) 0)))) fun c => !batchDone c.g.completed (c.a32 c.lane0)) = true := by decide
theorem test_mput :
    (sees (.mput (fields .n32 0 0 (.m 1) (.k 16) (.v 0) 0)) (placed (.mput (fields .n32 0 0 (.m 1) (.k 16) (.v 0) 0))) fun c => c.g.region.isNone && !c.outsideHarvest && (c.s.mailbox c.ag.core (mbxOf c.w.d)).state != .full && c.firstHere (mbxOf c.w.d) true) = true := by decide
theorem test_mget :
    (sees (.mget (fields .n32 0 0 (.k 8) (.m 2) (.v 0) 0)) (inCore (fun k => { k with mbx := [(2, ⟨.full, 7, [], 0, true⟩)] }) (placed (.mget (fields .n32 0 0 (.k 8) (.m 2) (.v 0) 0)))) fun c => c.g.region.isNone && !c.outsideHarvest && (c.s.mailbox c.ag.core (mbxOf c.w.a)).state == .full && c.firstHere (mbxOf c.w.a) false) = true := by decide
theorem test_mgetZ :
    (sees (.mgetZ (fields .n32 1 0 (.k 8) (.m 2) (.v 0) 0)) (inCore (fun k => { k with mbx := [(2, ⟨.full, 7, [], 0, true⟩)] }) (placed (.mgetZ (fields .n32 1 0 (.k 8) (.m 2) (.v 0) 0)))) fun c => c.g.region.isNone && !c.outsideHarvest && (c.s.mailbox c.ag.core (mbxOf c.w.a)).state == .full && c.firstHere (mbxOf c.w.a) false) = true := by decide
theorem test_mtry :
    (sees (.mtry (fields .n32 0 0 (.k 8) (.m 2) (.v 0) 0)) (inCore (fun k => { k with mbx := [(2, ⟨.full, 7, [], 0, true⟩)] }) (placed (.mtry (fields .n32 0 0 (.k 8) (.m 2) (.v 0) 0)))) fun c => c.g.region.isNone && !c.outsideHarvest && (c.s.mailbox c.ag.core (mbxOf c.w.a)).state == .full && firstAtMailbox c.s c.ag (mbxOf c.w.a) false (c.s.cycle + 1)) = true := by decide
theorem test_mgetZ_orphan :
    (sees (.mgetZ (fields .n32 1 0 (.k 8) (.m 2) (.v 0) 0)) (inCore (fun k => { k with mbx := [(2, ⟨.orphan, 7, [], 0, true⟩)] }) (placed (.mgetZ (fields .n32 1 0 (.k 8) (.m 2) (.v 0) 0)))) fun c => c.g.region.isNone && !c.outsideHarvest && (c.s.mailbox c.ag.core (mbxOf c.w.a)).state == .orphan) = true := by decide
theorem test_mtry_empty :
    (sees (.mtry (fields .n32 0 0 (.k 8) (.m 2) (.v 0) 0)) (placed (.mtry (fields .n32 0 0 (.k 8) (.m 2) (.v 0) 0))) fun c => c.g.region.isNone && !c.outsideHarvest && (c.s.mailbox c.ag.core (mbxOf c.w.a)).state == .empty) = true := by decide
theorem test_mget_waits :
    (sees (.mget (fields .n32 0 0 (.k 8) (.m 2) (.v 0) 0)) (placed (.mget (fields .n32 0 0 (.k 8) (.m 2) (.v 0) 0))) fun c => c.g.region.isNone && !c.outsideHarvest && (c.s.mailbox c.ag.core (mbxOf c.w.a)).state == .empty) = true := by decide
theorem test_mbind :
    (sees (.mbind (fields .n32 0 0 (.v 0) (.m 2) (.v 0) 0)) (placed (.mbind (fields .n32 0 0 (.v 0) (.m 2) (.v 0) 0))) fun c => c.g.region.isNone && !c.outsideHarvest) = true := by decide
theorem test_mbindRst :
    (sees (.mbindRst (fields .n32 1 0 (.v 0) (.m 2) (.v 0) 0)) (placed (.mbindRst (fields .n32 1 0 (.v 0) (.m 2) (.v 0) 0))) fun c => c.g.region.isNone && !c.outsideHarvest) = true := by decide
theorem test_mma_32 :
    (sees (.mma (fields .n32 0 0 (.k 8) (.a 2) (.a 3) 0)) (withA 2 { mem64 with cap := { mem64.cap with lenM := 0x8000, base := 0x10080 } } (withA 3 { mem64 with cap := { mem64.cap with lenM := 0x8000, base := 0x10080 } } (withK [(10, 0x8000000080), (11, 32)] (placed (.mma (fields .n32 0 0 (.k 8) (.a 2) (.a 3) 0)))))) fun c => let k := c.kAt c.w.d
    (c.s.core c.ag.core).mq.isEmpty && (shapeBlocks (vr c.w % 4) (k 3 / 2 ^ 16 % 32) (k 3 / 2 ^ 24 % 4)).isSome && k 3 == 32 &&
    (capCheck c.s c.who (c.cap c.w.a).cap 0 0 1 permR).isNone && ((c.cap c.w.a).cap.base.toNat + k 0) % 128 == 0 && (k 2 % 2 ^ 32) % 128 == 0 &&
    (capCheck c.s c.who (c.cap c.w.b).cap 0 0 1 permR).isNone && ((c.cap c.w.b).cap.base.toNat + k 1) % 128 == 0 && (k 2 / 2 ^ 32 % 2 ^ 32) % 128 == 0) = true := by decide
theorem test_mma_4096 :
    (sees (.mma (fields .n32 0 0 (.k 8) (.a 2) (.a 3) 0)) (withA 2 { mem64 with cap := { mem64.cap with lenM := 0x8000, base := 0x10080 } } (withA 3 { mem64 with cap := { mem64.cap with lenM := 0x8000, base := 0x10080 } } (withK [(10, 0x8000000080), (11, 4096)] (placed (.mma (fields .n32 0 0 (.k 8) (.a 2) (.a 3) 0)))))) fun c => let k := c.kAt c.w.d
    (c.s.core c.ag.core).mq.isEmpty && (shapeBlocks (vr c.w % 4) (k 3 / 2 ^ 16 % 32) (k 3 / 2 ^ 24 % 4)).isSome && k 3 == 4096 &&
    (capCheck c.s c.who (c.cap c.w.a).cap 0 0 1 permR).isNone && ((c.cap c.w.a).cap.base.toNat + k 0) % 128 == 0 && (k 2 % 2 ^ 32) % 128 == 0 &&
    (capCheck c.s c.who (c.cap c.w.b).cap 0 0 1 permR).isNone && ((c.cap c.w.b).cap.base.toNat + k 1) % 128 == 0 && (k 2 / 2 ^ 32 % 2 ^ 32) % 128 == 0) = true := by decide
theorem test_mmas_rings :
    (sees (.mmas (fields .n32 15 8 (.k 8) .zero .zero (immOp (.m 4)))) (inGroup (fun g => { g with ringA := some ⟨0, 1, 128, 1, 256⟩, ringB := some ⟨0, 1, 128, 1, 256⟩ }) (withK [(11, 32)] (placed (.mmas (fields .n32 15 8 (.k 8) .zero .zero (immOp (.m 4))))))) fun c => let k := c.kAt c.w.d
    (c.s.core c.ag.core).mq.isEmpty && (shapeBlocks (vr c.w % 4) (k 3 / 2 ^ 16 % 32) (k 3 / 2 ^ 24 % 4)).isSome && k 3 == 32 && c.w.var.getLsbD 3 && c.w.var.getLsbD 2 &&
    (c.g.ringA.map (·.rows)) == some (shapeMN (vr c.w % 4)).1 && (c.g.ringB.map (·.rows)) == some (shapeMN (vr c.w % 4)).2) = true := by decide
theorem test_mzero_0 :
    (sees (.mzero (fields .n32 0 0 (.v 0) (.k 16) (.v 0) 0)) (withK [(16, 0)] (placed (.mzero (fields .n32 0 0 (.v 0) (.k 16) (.v 0) 0)))) fun c => let a := c.a64 c.lane0
    decide (a < 2 ^ 10) && decide (a % 32 + (a / 32 + 1) ≤ 32)) = true := by decide
theorem test_mzero_992 :
    (sees (.mzero (fields .n32 0 0 (.v 0) (.k 16) (.v 0) 0)) (withK [(16, 992)] (placed (.mzero (fields .n32 0 0 (.v 0) (.k 16) (.v 0) 0)))) fun c => let a := c.a64 c.lane0
    decide (a < 2 ^ 10) && decide (a % 32 + (a / 32 + 1) ≤ 32)) = true := by decide
theorem test_mzero_31 :
    (sees (.mzero (fields .n32 0 0 (.v 0) (.k 16) (.v 0) 0)) (withK [(16, 31)] (placed (.mzero (fields .n32 0 0 (.v 0) (.k 16) (.v 0) 0)))) fun c => let a := c.a64 c.lane0
    decide (a < 2 ^ 10) && decide (a % 32 + (a / 32 + 1) ≤ 32)) = true := by decide
theorem test_mdrain_bf16x2 :
    (sees (.mdrain (fields .bf16x2 0 0 (.v 0) (.k 16) (.v 0) 0)) (withK [(16, 128 * 2 ^ 32)] (placed (.mdrain (fields .bf16x2 0 0 (.v 0) (.k 16) (.v 0) 0)))) fun c => let k := c.kAt c.w.a 0
    decide (k < 2 ^ 48) && k / 2 ^ 29 % 8 == 0 && k / 2 ^ 32 % 2 ^ 16 % 16 == 0 && decide (128 ≤ k / 2 ^ 32 % 2 ^ 16) &&
    (spResolve c.s c.ag.core c.g ((k % 2 ^ 24 : Nat) : Int) (63 * (k / 2 ^ 32 % 2 ^ 16) + 128)).isSome) = true := by decide
theorem test_mdrain_s32 :
    (sees (.mdrain (fields .s32 0 0 (.v 0) (.k 16) (.v 0) 0)) (withK [(16, 256 * 2 ^ 32)] (placed (.mdrain (fields .s32 0 0 (.v 0) (.k 16) (.v 0) 0)))) fun c => let k := c.kAt c.w.a 0
    decide (k < 2 ^ 48) && k / 2 ^ 29 % 8 == 0 && k / 2 ^ 32 % 2 ^ 16 % 16 == 0 && decide (256 ≤ k / 2 ^ 32 % 2 ^ 16) &&
    (spResolve c.s c.ag.core c.g ((k % 2 ^ 24 : Nat) : Int) (63 * (k / 2 ^ 32 % 2 ^ 16) + 256)).isSome) = true := by decide
theorem test_mdrainZ_bf16x2 :
    (sees (.mdrainZ (fields .bf16x2 1 0 (.v 0) (.k 16) (.v 0) 0)) (withK [(16, 128 * 2 ^ 32)] (placed (.mdrainZ (fields .bf16x2 1 0 (.v 0) (.k 16) (.v 0) 0)))) fun c => let k := c.kAt c.w.a 0
    decide (k < 2 ^ 48) && k / 2 ^ 29 % 8 == 0 && k / 2 ^ 32 % 2 ^ 16 % 16 == 0 && decide (128 ≤ k / 2 ^ 32 % 2 ^ 16) &&
    (spResolve c.s c.ag.core c.g ((k % 2 ^ 24 : Nat) : Int) (63 * (k / 2 ^ 32 % 2 ^ 16) + 128)).isSome) = true := by decide
theorem test_mdrainZ_s32 :
    (sees (.mdrainZ (fields .s32 1 0 (.v 0) (.k 16) (.v 0) 0)) (withK [(16, 256 * 2 ^ 32)] (placed (.mdrainZ (fields .s32 1 0 (.v 0) (.k 16) (.v 0) 0)))) fun c => let k := c.kAt c.w.a 0
    decide (k < 2 ^ 48) && k / 2 ^ 29 % 8 == 0 && k / 2 ^ 32 % 2 ^ 16 % 16 == 0 && decide (256 ≤ k / 2 ^ 32 % 2 ^ 16) &&
    (spResolve c.s c.ag.core c.g ((k % 2 ^ 24 : Nat) : Int) (63 * (k / 2 ^ 32 % 2 ^ 16) + 256)).isSome) = true := by decide
theorem test_mscl_0 :
    (sees (.mscl (fields .n32 0 0 (.v 0) (.k 16) (.v 0) 0)) (placed (.mscl (fields .n32 0 0 (.v 0) (.k 16) (.v 0) 0))) fun c => (c.s.core c.ag.core).mq.isEmpty && decide (vr c.w < 4)) = true := by decide
theorem test_mscl_3 :
    (sees (.mscl (fields .n32 3 0 (.v 0) .zero (.v 0) 0)) (placed (.mscl (fields .n32 3 0 (.v 0) .zero (.v 0) 0))) fun c => (c.s.core c.ag.core).mq.isEmpty && decide (vr c.w < 4)) = true := by decide
theorem test_mring_unbind :
    (sees (.mring (fields .n32 2 0 (.v 0) .zero (.v 0) 0)) (placed (.mring (fields .n32 2 0 (.v 0) .zero (.v 0) 0))) fun c => decide (2 ≤ vr c.w)) = true := by decide
theorem test_mring_bind :
    (sees (.mring (fields .n32 0 0 (.v 0) (.k 16) (.v 0) 0)) (withK [(16, 1 * 2 ^ 32), (17, 64 * 2 ^ 48 + 1 * 2 ^ 32 + 128)] (placed (.mring (fields .n32 0 0 (.v 0) (.k 16) (.v 0) 0)))) fun c => let k := c.kAt c.w.a
    decide (k 0 < 2 ^ 40) && k 0 / 2 ^ 24 % 256 == 0 && k 0 / 2 ^ 32 % 256 == 1 && k 0 % 2 ^ 24 % 128 == 0 && [64, 128, 256].contains (k 1 / 2 ^ 48 % 2 ^ 16) &&
    k 1 / 2 ^ 36 % 2 ^ 12 == 0 && k 1 / 2 ^ 32 % 16 == 1 && k 1 % 2 ^ 32 % 128 == 0 &&
    (spResolve c.s c.ag.core c.g ((k 0 % 2 ^ 24 : Nat) : Int) (128 + k 0 / 2 ^ 32 % 256 * (k 1 % 2 ^ 32))).isSome) = true := by decide
theorem test_mwait_passes :
    (sees (.mwait (fields .n32 0 0 (.v 0) (.v 0) (.v 0) 0)) (placed (.mwait (fields .n32 0 0 (.v 0) (.v 0) (.v 0) 0))) fun c => (streamOps c.s c.ag.core c.g).isEmpty && !c.g.witnessFault) = true := by decide
theorem test_mwait_waits :
    (sees (.mwait (fields .n32 0 0 (.v 0) (.v 0) (.v 0) 0)) (inCore (fun k => { k with mq := [matOp .scale] }) (placed (.mwait (fields .n32 0 0 (.v 0) (.v 0) (.v 0) 0)))) fun c => !(streamOps c.s c.ag.core c.g).isEmpty) = true := by decide
theorem test_enq :
    (sees (.enq (fields .n32 0 0 (.k 8) (.k 16) (.k 24) 0)) (withQueue queue0 (placed (.enq (fields .n32 0 0 (.k 8) (.k 16) (.k 24) 0)))) fun c => match c.s.queue? (c.a64 c.lane0) with
    | some qu => c.g.region.isNone && !c.outsideHarvest && c.g.committed.isEmpty && qu.part == c.who.part && qu.qstate == 1 && canTake qu (issuerOf c.s c.g.launch) && !earlierEnq c.s c.ag 0 qu &&
      (match frontXlat c.s (c.s.part qu.part).tenant (qu.ring.base.toNat + 32 * (qu.wptr.toNat % 2 ^ qu.log2n)) permR with | .ok _ => true | .error _ => false)
    | none => false) = true := by decide
theorem test_enqNb :
    (sees (.enqNb (fields .n32 1 0 (.k 8) (.k 16) (.k 24) 0)) (withQueue queue0 (placed (.enqNb (fields .n32 1 0 (.k 8) (.k 16) (.k 24) 0)))) fun c => match c.s.queue? (c.a64 c.lane0) with
    | some qu => c.g.region.isNone && !c.outsideHarvest && c.g.committed.isEmpty && qu.part == c.who.part && qu.qstate == 1 && canTake qu (issuerOf c.s c.g.launch) && !earlierEnq c.s c.ag 0 qu &&
      (match frontXlat c.s (c.s.part qu.part).tenant (qu.ring.base.toNat + 32 * (qu.wptr.toNat % 2 ^ qu.log2n)) permR with | .ok _ => true | .error _ => false)
    | none => false) = true := by decide
theorem test_enqNb_full :
    (sees (.enqNb (fields .n32 1 0 (.k 8) (.k 16) (.k 24) 0)) (withQueue { queue0 with wptr := 64 } (placed (.enqNb (fields .n32 1 0 (.k 8) (.k 16) (.k 24) 0)))) fun c => match c.s.queue? (c.a64 c.lane0) with
    | some qu => c.g.region.isNone && !c.outsideHarvest && qu.part == c.who.part && qu.qstate == 1 && !canTake qu (issuerOf c.s c.g.launch)
    | none => false) = true := by decide
theorem test_enqNb_disabled :
    (sees (.enqNb (fields .n32 1 0 (.k 8) (.k 16) (.k 24) 0)) (withQueue { queue0 with qstate := 0 } (placed (.enqNb (fields .n32 1 0 (.k 8) (.k 16) (.k 24) 0)))) fun c => match c.s.queue? (c.a64 c.lane0) with
    | some qu => c.g.region.isNone && !c.outsideHarvest && qu.part == c.who.part && qu.qstate != 1
    | none => false) = true := by decide
theorem test_fetchw :
    (sees (.fetchw (fields .n32 0 0 (.v 0) (.v 0) (.k 24) 0)) (placed (.fetchw (fields .n32 0 0 (.v 0) (.v 0) (.k 24) 0))) fun c => c.g.region.isNone && !c.outsideHarvest && c.g.fetching.isNone && c.g.withdrawn.isNone && (passScratch c (c.act.take 1) 32).isSome) = true := by decide
theorem test_recSend :
    (sees (.recSend (fields .n32 0 0 (.v 0) (.k 16) (.v 48) 0)) (withMask 3 (withQueue { queue0 with nodes := [(0, node0 1)] } (placed (.recSend (fields .n32 0 0 (.v 0) (.k 16) (.v 48) 0))))) fun c => match c.s.launch? c.g.launch with
    | some l => match c.s.queue? l.queue with
      | some q => match tabFind q.nodes 0 with
        | some n => c.g.region.isNone && !c.outsideHarvest && c.g.committed.isEmpty && c.sp.wait.isNone && c.a64 c.lane0 == 0 && n.filling == 1 && decide (n.filling + c.lanes.length < 32) &&
          (match checkSp c.s c.ag.core c.g 16 16 (c.lanes.map fun x => (x, c.spAddr x)) with | .ok _ => true | .error _ => false) &&
          n.buf.device == c.s.regs.deviceId && (List.range (16 * c.lanes.length)).all (fun b => let va := n.buf.base.toNat + 16 + b
            (match frontXlat c.s (c.s.frontWho l.queue).tenant va permW with | .ok pa => pa == va | .error _ => false))
        | none => false
      | none => false
    | none => false) = true := by decide

/-! ### Regions and shootdowns (Regions, Shootdowns) -/

theorem test_rgnb :
    (sees (.rgnb (fields .n32 0 0 (.v 0) (.k 16) (.v 0) 0)) ((fun s : State => { s with launches := s.launches.map fun e => (e.1, { e.2 with hasSave := true }) }) (withK [(16, 0xFFFFFFFF)] (placed (.rgnb (fields .n32 0 0 (.v 0) (.k 16) (.v 0) 0))))) fun c => c.g.region.isNone && c.g.splits.length == 1 && ((c.s.launch? c.g.launch).map (·.hasSave)) == some true &&
    c.liveMask.length == 32 && c.liveMask.all (fun n => decide (n < c.g.vregs)) && c.g.committed.isEmpty && c.banksFree c.liveMask) = true := by decide
theorem test_rgne :
    (sees (.rgne (fields .n32 0 0 (.v 0) (.v 0) (.v 0) 0)) (inRegion (placed (.rgne (fields .n32 0 0 (.v 0) (.v 0) (.v 0) 0)))) fun c => match c.g.region with | some r => c.g.splits.length == 1 && c.g.stack.length == r.depth && !c.who.cls | none => false) = true := by decide
theorem test_rgne_harvest :
    (sees (.rgne (fields .n32 0 0 (.v 0) (.v 0) (.v 0) 0)) ((fun s : State => { s with launches := s.launches.map fun e => (e.1, { e.2 with cls := true }) }) (inRegion (placed (.rgne (fields .n32 0 0 (.v 0) (.v 0) (.v 0) 0))))) fun c =>
    match c.g.region with | some r => c.g.splits.length == 1 && c.g.stack.length == r.depth && c.who.cls && c.banksFree r.live | none => false) = true := by decide
theorem test_rgnx :
    (sees (.rgnx (fields .n32 0 0 (.v 0) (.v 0) (.v 0) 0)) (inRegion (placed (.rgnx (fields .n32 0 0 (.v 0) (.v 0) (.v 0) 0)))) fun c => match c.g.region with | some r => c.g.splits.length == 1 && c.g.stack.length == r.depth && true | none => false) = true := by decide
theorem test_tlbiPage_headstock :
    (sees (.tlbiPage (fields .n32 0 0 (.v 0) (.k 16) (.lit 5) 0)) (placed (.tlbiPage (fields .n32 0 0 (.v 0) (.k 16) (.lit 5) 0))) fun c => isHeadstock c.ag.core) = true := by decide
theorem test_tlbiPage_handler :
    (sees (.tlbiPage (fields .n32 0 0 (.v 0) (.k 16) (.lit 5) 0)) (inHandler (withK [(16, 1)] ({ placed (.nop (fields .n32 0 0 (.v 0) (.v 0) (.v 0) 0)) with mem := (placed (.tlbiPage (fields .n32 0 0 (.v 0) (.k 16) (.lit 5) 0))).mem }))) fun c => !isHeadstock c.ag.core && BitVec.ofNat 12 (c.a64 c.lane0) == c.who.tenant) = true := by decide
theorem test_tlbiTenant_headstock :
    (sees (.tlbiTenant (fields .n32 1 0 (.v 0) (.k 16) (.v 0) 0)) (placed (.tlbiTenant (fields .n32 1 0 (.v 0) (.k 16) (.v 0) 0))) fun c => isHeadstock c.ag.core) = true := by decide
theorem test_tlbiTenant_handler :
    (sees (.tlbiTenant (fields .n32 1 0 (.v 0) (.k 16) (.v 0) 0)) (inHandler (withK [(16, 1)] ({ placed (.nop (fields .n32 0 0 (.v 0) (.v 0) (.v 0) 0)) with mem := (placed (.tlbiTenant (fields .n32 1 0 (.v 0) (.k 16) (.v 0) 0))).mem }))) fun c => !isHeadstock c.ag.core && BitVec.ofNat 12 (c.a64 c.lane0) == c.who.tenant) = true := by decide

/-! ### Splits, groups and engines (SplitSteps, GroupEngines, GroupMoves) -/

theorem test_writeback :
    (the ((inSplit (fun sp => { sp with pending := [⟨none, 0, [⟨.v 3, 5, 7⟩]⟩] }) base).pendingOf agent0) fun l =>
      l.length == 1 && the l[0]? fun p => (p.cells.all fun x => x.loc.inLane x.lane && x.loc != .p 7) &&
        holders (inSplit (fun sp => { sp with pending := [⟨none, 0, [⟨.v 3, 5, 7⟩]⟩] }) base) 0 p.id == [agent0]) = true := by decide
theorem test_writeback_shared :
    (let s := inGroup (fun g => match tabFind g.splits 0 with | some sp => { g with splits := [(0, { sp with pending := [⟨none, 4, [⟨.v 3, 5, 7⟩]⟩] }), (1, { sp with pending := [⟨none, 4, [⟨.v 3, 5, 7⟩]⟩] })] } | none => g) base
    (s.groups.map (·.1)).length == 1 && s.groups.all (fun e => e.2.splits.map (·.1) == [0, 1]) && (holders s 0 4).length == 2 && the (s.pendingOf agent0) fun l => l.length == 1) = true := by decide
theorem test_runCut :
    (let s := { late (inCore (fun k => { k with quads := [(0, { Quad.init with owner := some (0, 0) })] }) base) with turn := none }
    let s := s.putGroup 0 1 group0
    (candidates s).any (fun x => x.ag == ⟨0, 1, 0⟩ && !x.stream && x.quad == 0 && !x.cls && decide (x.ready ≤ s.cycle)) && (s.split? agent0).isSome) = true := by decide
theorem test_waitcutWake :
    (the ((waits (.cut 0x10200 0)).waitOf agent0) fun x => x == some (.cut 0x10200 0) && cutState (((waits (.cut 0x10200 0)).setBytes 0x10203 [0x40]).num 0x10200 8) != cutOpen) = true := by decide
theorem test_wfeTimeout :
    (let s := inSplit (fun sp => { sp with resumed := false }) (waits (.event 5))
    the (s.split? agent0) fun x => x.wait == some (.event 5) && x.resumed == false && decide (5 ≤ s.cycle)) = true := by decide
theorem test_wfeTimeout_resumed :
    (let s := inSplit (fun sp => { sp with resumed := true }) (waits (.event 5))
    the (s.split? agent0) fun x => x.wait == some (.event 5) && x.resumed == true && decide (5 ≤ s.cycle)) = true := by decide
theorem test_protectedWindowEnd :
    (let s := late (inGroup (fun g => { g with protectedUntil := 4096 }) base)
    the (s.group? 0 0) fun g => g.protectedUntil != 0 && decide (g.protectedUntil ≤ s.cycle)) = true := by decide
theorem test_qfullTimeout :
    (let s := withQueue queue0 (waits (.queue 0 0))
    the (s.queue? 0) (fun q => decide (s.after 0 q.etime ≤ s.cycle)) && the (s.group? 0 0) fun g => !portFull s 0 (faultClass s agent0 g 0)) = true := by decide
theorem test_watchdog :
    (let s := withHandler (waits (.barrier false 0 0))
    the (s.group? 0 0) fun g => !g.stream && !g.evicted && (s.part (s.whoOf 0 g).part).wdlimit != 0 && g.splits.all (fun x => x.2.parked.isEmpty) &&
      decide (s.after g.lastIssue (s.part (s.whoOf 0 g).part).wdlimit ≤ s.cycle) && the (watched g) fun x => x.1 == 0 && x.2.tvec != 0 && !x.2.inHandler && g.committed.isEmpty && x.2.pending.isEmpty) = true := by decide
theorem test_watchdog_no_handler :
    (let s := waits (.barrier false 0 0)
    the (s.group? 0 0) fun g => !g.stream && !g.evicted && (s.part (s.whoOf 0 g).part).wdlimit != 0 && g.splits.all (fun x => x.2.parked.isEmpty) &&
      decide (s.after g.lastIssue (s.part (s.whoOf 0 g).part).wdlimit ≤ s.cycle) && the (watched g) fun x => x.1 == 0 && x.2.tvec == 0 && (s.launch? g.launch).isSome && !portFull s 0 (faultClass s agent0 g 1)) = true := by decide
theorem test_snapshotDrain_1 :
    (the ((inGroup (fun g => { g with snapshot := some ⟨false, [], 0, 1, 0, [], [], [], [], freshSplit 0 0 [] [] 0, 0, [], 0, []⟩ }) base).group? 0 0) fun g =>
      (base.launch? g.launch).isSome && the g.snapshot fun n => n.phase == 1 && decide (n.due ≤ base.cycle) && !drainCompetes base 0 0) = true := by decide
theorem test_snapshotDrain_2 :
    (the ((inGroup (fun g => { g with snapshot := some ⟨false, [], 0, 2, 0, [], [], [], [], freshSplit 0 0 [] [] 0, 0, [], 0, []⟩ }) base).group? 0 0) fun g =>
      (base.launch? g.launch).isSome && the g.snapshot fun n => n.phase == 2 && decide (n.due ≤ base.cycle) && !drainCompetes base 0 0) = true := by decide
theorem test_snapshotDrain_early :
    (the ((inGroup (fun g => { g with snapshot := some { (⟨false, [], 0, 1, 0, [], [], [], [], freshSplit 0 0 [] [] 0, 0, [], 0, []⟩ : Snapshot) with due := 9 } }) base).group? 0 0) fun g => the g.snapshot fun n => decide (base.cycle < n.due)) = true := by decide
theorem test_commitDrain :
    (the ((inGroup (fun g => { g with committed := [.store (.mem 0x10040 1 0x10040) [1, 2]] }) base).group? 0 0) fun g =>
      !g.committed.isEmpty && g.committed.all fun h => match h with | .store (.mem _ _ _) _ => true | _ => false) = true := by decide
theorem test_fetchw_none :
    (let s := inGroup (fun g => { g with fetching := some 64 }) base
    the (s.group? 0 0) fun g => the g.fetching fun a => the (s.launch? g.launch) fun own => (spResolve s 0 g (a : Nat) 32).isSome && (fetchFrom s own.queue).isNone) = true := by decide
theorem test_fetchw_some :
    (let s := inGroup (fun g => { g with fetching := some 64 }) (withQueue { queue0 with packets := [{ packet 0 0 with executed := true }] } { base with launches := [(0, { launch0 with fetch := true }), (1, { launch0 with fetch := true, placed := 0, packet := some 0 })] })
    the (s.group? 0 0) fun g => the g.fetching fun a => the (s.launch? g.launch) fun own => (spResolve s 0 g (a : Nat) 32).isSome && the (fetchFrom s own.queue) fun x => x.1 == 1 && the (s.launch? 1) fun l => l.packet == some 0 && the (s.queue? l.queue) fun q => q.packets.all fun p => p.executed) = true := by decide
theorem test_repack :
    (let half (m : BitVec 32) : Group := { group0 with stack := [⟨0, 0xFFFFFFFF, none, none⟩], vregs := 128, grains := 0, splits := [(0, { homeSplit false false m with inner := some 0, pkHold := some 40 })] }
    let s := (base.putGroup 0 0 (half 3)).putGroup 0 1 (half 12)
    the (movables s 0 [(0, 0), (1, 0)]) fun l => l.length == 2 && repackOk s 0 2 [(0, 0), (1, 0)] l) = true := by decide
theorem test_harvestRestart :
    (let s := withTable ((withQueue queue0 { base with launches := [(0, { launch0 with cls := true, vregs := 32, grain := 0 })] }).putGroup 0 0 { group0 with evicted := true, evictions := 3, snapshot := none })
    the (s.launch? 0) fun l => !(s.context 1).stopped && restartSiteOk s 0 l ⟨0, 0, 0, [8, 9, 10, 11], [], 0⟩ && coreServes s 0 l &&
      (s.group? 0 0).all (fun g => g.committed.isEmpty && okay (g.startSplit s l) (fun _ => true) && decide (3 ≤ g.evictions) && (!protectableFits s 0 l || windowEarned s 0 g ⟨0, 0, 0, [8, 9, 10, 11], [], 0⟩)) &&
      (servedQueue s 0 false).isNone) = true := by decide
theorem test_harvestRestart_snapshot :
    (let s := withTable ((withQueue queue0 { base with launches := [(0, { launch0 with cls := true, vregs := 32, grain := 0 })] }).putGroup 0 0 { group0 with evicted := true, evictions := 3, snapshot := some ⟨false, [], 0, 3, 0, [], [], [], [], freshSplit 0 0 [] [] 0, 0, [], 0, []⟩ })
    the (s.launch? 0) fun l => !(s.context 1).stopped && restartSiteOk s 0 l ⟨0, 0, 0, [8, 9, 10, 11], [], 0⟩ && coreServes s 0 l &&
      (s.group? 0 0).all (fun g => g.committed.isEmpty && okay (g.startSplit s l) (fun _ => true) && decide (3 ≤ g.evictions) && (!protectableFits s 0 l || windowEarned s 0 g ⟨0, 0, 0, [8, 9, 10, 11], [], 0⟩)) &&
      (servedQueue s 0 false).isNone) = true := by decide

/-! ### The matrix engine and copies (MatrixSteps, SteadyRest, CopiesComplete) -/

theorem test_matrixStart_zero :
    (let s := inCore (fun k => { k with mq := [matOp (.zero 0 1)] }) base
    the (startable s 0) fun i => the (s.core 0).mq[i]? fun o => (!opParked s 0 || (opStream s 0 o).isNone) && (match o.kind with | .zero _ _ => true | _ => false) && ((s.group? 0 Config.streamSlot).isNone)) = true := by decide
theorem test_matrixStart_drain :
    (let s := inCore (fun k => { k with mq := [matOp (.drain .f32 0 256 0 false)] }) base
    the (startable s 0) fun i => the (s.core 0).mq[i]? fun o => (!opParked s 0 || (opStream s 0 o).isNone) && match o.kind with | .drain _ _ _ _ _ => true | _ => false) = true := by decide
theorem test_matrixStart_scale :
    (let s := inCore (fun k => { k with mq := [matOp .scale] }) base
    the (startable s 0) fun i => the (s.core 0).mq[i]? fun o => (!opParked s 0 || (opStream s 0 o).isNone) && o.kind == .scale) = true := by decide
theorem test_matrixStart_mma :
    (let s := inCore (fun k => { k with mq := [matOp (.mma 64 64 128 (.ring ⟨0, 2, 4096, 3, 64⟩ none) (.ring ⟨0, 2, 4096, 3, 64⟩ none) false)] }) base
    the (startable s 0) fun i => the (s.core 0).mq[i]? fun o => (!opParked s 0 || (opStream s 0 o).isNone) && match o.kind with
      | .mma m n k a b _ => let u := fillPages s (opWho s 0 o) (sourceVas 1 1 1 a ++ sourceVas 1 1 1 b)
        okay (sourceTag u (opWho s 0 o) a) fun ta => okay (sourceTag u (opWho s 0 o) b) fun tb => (pairRate ta tb).isSome && decide (ta ≤ 8) &&
          k % chunkOf tb == 0 && okay (sourceRows u (opWho s 0 o) m k ta a) (fun r => r.all (rowSound ta k)) && okay (sourceRows u (opWho s 0 o) n k tb b) fun _ => true
      | _ => false) = true := by decide
theorem test_ringSlotConsume :
    (let s := inCore (fun k => { k with mq := [{ matOp (.mma 64 64 128 (.ring ⟨0, 2, 4096, 3, 64⟩ none) (.ring ⟨0, 2, 4096, 3, 64⟩ none) false) with started := some 0 }] }) (placed (.mzero (fields .n32 0 0 (.v 0) (.v 0) (.v 0) 0)))
    let s := spWrite s 0 0 [1]
    the (slotNext s 0 false) fun x => the (opStream s 0 x.2) fun g => the (opRing x.2 false) fun r => the (spResolve s 0 g (r.1.spa : Nat) (128 + r.1.slots * r.1.bytes)) fun at_ =>
      opSp s 0 x.2 r.1.spa (128 + r.1.slots * r.1.bytes) == some at_ && slotFilled (spNum s at_.1 at_.2 4) (spNum s at_.1 (at_.2 + 4) 4)) = true := by decide
theorem test_matrixComplete :
    (let s := late (inCore (fun k => { k with mq := [{ matOp (.mma 64 64 128 (.ring ⟨0, 2, 4096, 3, 64⟩ none) (.ring ⟨0, 2, 4096, 3, 64⟩ none) false) with started := some 0, subs := [⟨0, 0, 0, 128, some 0, 0, false, []⟩] }] }) (placed (.mzero (fields .n32 0 0 (.v 0) (.v 0) (.v 0) 0))))
    the (subDue s 0 0) fun x => x.2.1.put.isNone && x.2.2.attempt == 0 && (opStream s 0 x.2.1).isSome && x.2.1.subs.map (·.sub) == [0]) = true := by decide
theorem test_matrixComplete_part :
    (let s := late (inCore (fun k => { k with mq := [{ matOp (.mma 64 64 128 (.ring ⟨0, 2, 4096, 3, 64⟩ none) (.ring ⟨0, 2, 4096, 3, 64⟩ none) false) with started := some 0, subs := [⟨0, 0, 0, 128, some 0, 0, false, []⟩, ⟨1, 1, 1, 0, none, 0, false, []⟩] }] }) (placed (.mzero (fields .n32 0 0 (.v 0) (.v 0) (.v 0) 0))))
    the (subDue s 0 0) fun x => x.2.1.subs.map (·.sub) == [0, 1] && x.2.1.subs.any fun y => y.sub != 0 && !y.done) = true := by decide
theorem test_matrixComplete_put :
    (let s := late (inCore (fun k => { k with mq := [{ matOp (.mma 64 64 128 (.ring ⟨0, 2, 4096, 3, 64⟩ none) (.ring ⟨0, 2, 4096, 3, 64⟩ none) false) with started := some 0, subs := [⟨0, 0, 0, 128, some 0, 0, false, []⟩], put := some (0, 7) }] }) (placed (.mzero (fields .n32 0 0 (.v 0) (.v 0) (.v 0) 0))))
    the (subDue s 0 0) fun x => x.2.1.put.isSome && x.2.1.subs.map (·.sub) == [0]) = true := by decide
theorem test_matrixComplete_second_upset :
    (let s := late (inCore (fun k => { k with mq := [{ matOp (.mma 64 64 128 (.ring ⟨0, 2, 4096, 3, 64⟩ none) (.ring ⟨0, 2, 4096, 3, 64⟩ none) false) with started := some 0, subs := [⟨0, 0, 0, 128, some 0, 1, false, []⟩] }] }) (placed (.mzero (fields .n32 0 0 (.v 0) (.v 0) (.v 0) 0))))
    the (subDue s 0 0) fun x => x.2.2.attempt != 0 && (opStream s 0 x.2.1).isSome) = true := by decide
theorem test_matrixComplete_zero :
    (the (plainDue (late (inCore (fun k => { k with mq := [{ matOp (.zero 0 1) with started := some 0 }] }) (placed (.mzero (fields .n32 0 0 (.v 0) (.v 0) (.v 0) 0))))) 0) fun x => x.2.put.isNone && (match x.2.kind with | .zero _ _ => true | _ => false)) = true := by decide
theorem test_matrixComplete_drain :
    (let s := late (inCore (fun k => { k with mq := [{ matOp (.drain .f32 0 256 0 true) with started := some 0 }] }) (placed (.mzero (fields .n32 0 0 (.v 0) (.v 0) (.v 0) 0))))
    the (plainDue s 0) fun x => x.2.put.isNone && the (opStream s 0 x.2) fun _ => match x.2.kind with
      | .drain _ a pitch _ _ => (List.range 64).all fun r => opSp s 0 x.2 (a + r * pitch) 1 == some (0, 256 * r)
      | _ => false) = true := by decide
theorem test_mmasPut :
    ((putDue (late (inCore (fun k => { k with mq := [{ matOp (.mma 64 64 128 (.ring ⟨0, 2, 4096, 3, 64⟩ none) (.ring ⟨0, 2, 4096, 3, 64⟩ none) false) with started := some 0, completed := true, put := some (0, 7) }] }) (placed (.mzero (fields .n32 0 0 (.v 0) (.v 0) (.v 0) 0))))) 0).isSome) = true := by decide
theorem test_steadyRest :
    (let s := late (inCore (fun k => { k with mq := [{ matOp (.mma 64 64 128 (.l2 dataCap 0 128) (.l2 dataCap 0 128) false) with started := some 0, computeAt := 16, rate := 1, subs := [⟨0, 0, 0, 0, none, 0, false, []⟩] }] }) (placed (.mzero (fields .n32 0 0 (.v 0) (.v 0) (.v 0) 0))))
    (restDue s 0 s.cycle).isSome && (s.cores.map (·.1)).length == 1 && s.cores.all fun e => e.2.mq.all fun o => (opRing o false).isNone && (opRing o true).isNone) = true := by decide
def copyHere (shape : CopyShape) : Copy := ⟨0, 0, 0, 0, 0, dataCap, dataCap, dataCap, shape, 0, none, false, []⟩
def withCopy (shape : CopyShape) : State :=
  let s := { base with regs := { base.regs with access := base.regs.access ++ [sliceOf base.regs 0 0x10000, controllerOf 0x10000].map fun t => (t * 4096 + copyMaster 0, 0x1000F#32) } }
  inGroup (fun g => { g with openCopies := [0], batches := [(0, [0])] }) (inCore (fun k => { k with copies := [copyHere shape] }) s)
/-- The bytes of these offsets lie where the page stands. -/
def lies (s : State) (l : Launch) (mask : Nat) (offs : List Nat) : Bool :=
  offs.all fun i => match copyByte s (l.who 0) dataCap i mask with | .ok p => p == .mem (0x10000 + i) 1 (0x10000 + i) | _ => false
theorem test_copyComplete :
    (let s := withCopy (.linear 0x40 0x50 2)
    the (runnableCopies s 0 0)[0]? fun c => the (s.launch? c.launch) fun l => c.rivals.isEmpty && (batchMoves s 0 c (l.who 0)).isEmpty && lies s l permW [0x40, 0x41] && lies s l permR [0x50, 0x51]) = true := by decide
theorem test_copyComplete_strided :
    (let s := withCopy (.strided 0x40 0x60 1 2 1 1 4 0 0 8 0 0)
    the (runnableCopies s 0 0)[0]? fun c => the (s.launch? c.launch) fun l => c.rivals.isEmpty && (batchMoves s 0 c (l.who 0)).isEmpty && lies s l permW [0x40, 0x48] && lies s l permR [0x60, 0x64]) = true := by decide
theorem test_copyComplete_gather :
    (let s := withCopy (.gather 0x40 0x50 1 2 0x60 4)
    the (runnableCopies s 0 0)[0]? fun c => the (s.launch? c.launch) fun l => c.rivals.isEmpty && (batchMoves s 0 c (l.who 0)).isEmpty && lies s l permW [0x40, 0x41] && lies s l permR [0x50, 0x60, 0x61, 0x62, 0x63, 0x64, 0x68] && s.num 0x10060 4 == 0 && s.num 0x10064 4 == 0) = true := by decide
theorem test_copyComplete_shard :
    (let s := withCopy (.shard 9 5 0 1 2)
    the (runnableCopies s 0 0)[0]? fun c => the (s.launch? c.launch) fun l => c.rivals.isEmpty && (batchMoves s 0 c (l.who 0)).isEmpty && lies s l permW ((List.range 66)) && lies s l permR [0, 1] && c.shape == .shard 9 5 0 1 2) = true := by decide

/-! ### The front end (ControlPackets, WorkPackets, Placements, Tasks) -/

theorem test_waitPacket_holds :
    (headIs (withPacket 0x100000000000002000000000030000000) 3 fun q p => got (capEntry (withPacket 0x100000000000002000000000030000000) q (bits p.bytes 63 48)) fun c => got (frontWord (withPacket 0x100000000000002000000000030000000) q c (bits p.bytes 127 64) permR) fun a => let v := loadAt (withPacket 0x100000000000002000000000030000000) a 8
      (bits v 0 0 == bits p.bytes 255 192) && (watchOf (withPacket 0x100000000000002000000000030000000) 0 p).isNone) = true := by decide
theorem test_waitPacket_waits :
    (headIs (withPacket 0x1000000000000000100000000000002000000000030000000) 3 fun q p => got (capEntry (withPacket 0x1000000000000000100000000000002000000000030000000) q (bits p.bytes 63 48)) fun c => got (frontWord (withPacket 0x1000000000000000100000000000002000000000030000000) q c (bits p.bytes 127 64) permR) fun a => let v := loadAt (withPacket 0x1000000000000000100000000000002000000000030000000) a 8
      !(bits v 0 0 == bits p.bytes 255 192) && (watchOf (withPacket 0x1000000000000000100000000000002000000000030000000) 0 p).isNone) = true := by decide
theorem test_signalPacket :
    (headIs (withPacket 0x7000000000000000000000000000002000000100040000000) 4 fun q p => !queueBusy (withPacket 0x7000000000000000000000000000002000000100040000000) 0 && earlierDone q p && got (capEntry (withPacket 0x7000000000000000000000000000002000000100040000000) q 0) fun c =>
      got (frontWord (withPacket 0x7000000000000000000000000000002000000100040000000) q c 0x200 (permW + permA)) fun x => match x with | .mem _ _ pa => pa == 0x10200 | _ => false) = true := by decide
theorem test_predPacket_skips :
    (headIs (withPacket 0x100000000000002000000003060000000) 6 fun q p => got (packetWord (withPacket 0x100000000000002000000003060000000) q p) fun v => (bits v 0 0 == bits p.bytes 255 192) == true) = true := by decide
theorem test_predPacket_keeps :
    (headIs (withPacket 0x1000000000000000100000000000002000000003060000000) 6 fun q p => got (packetWord (withPacket 0x1000000000000000100000000000002000000003060000000) q p) fun v => (bits v 0 0 == bits p.bytes 255 192) == false) = true := by decide
theorem test_ffencePacket :
    (headIs (withPacket 0x80000000) 8 fun q _ => q.frames.isEmpty) = true := by decide
theorem test_burnwaitPacket :
    (headIs (withPacket 0x90050000) 9 fun q p => p.graph == 5 && !q.opened.contains p.graph) = true := by decide
theorem test_burnwaitPacket_waits :
    (let s := withQueue { queue0 with opened := [5], packets := [{ packet 0 0x50000 with executed := true }, packet 1 0x90050000] } base
    headIs s 9 fun q p => q.opened.contains p.graph && graphItems s 0 p.graph != 0) = true := by decide
theorem test_ibPacket :
    (let s := withTable (withQueue { queue0 with frames := [ringFrame 1], packets := [packet 0 0x200000000000002000000000050000000] } base)
    levelIs s 5 fun q p f => got (capEntry s q 0) fun c => decide (f.ibDepth < 3) && c.has permR && decide (bits p.bytes 127 64 + 32 * bits p.bytes 159 128 ≤ c.len) && c.device == s.regs.deviceId && bits p.bytes 159 128 == 2) = true := by decide
theorem test_ibPacket_empty :
    (let s := withTable (withQueue { queue0 with frames := [ringFrame 1], packets := [packet 0 0x2000000000050000000] } base)
    levelIs s 5 fun q p f => got (capEntry s q 0) fun c => decide (f.ibDepth < 3) && c.has permR && decide (bits p.bytes 127 64 + 32 * bits p.bytes 159 128 ≤ c.len) && c.device == s.regs.deviceId && bits p.bytes 159 128 == 0) = true := by decide
theorem test_loopPacket :
    (let s := withTable (withQueue { queue0 with frames := [ringFrame 1], packets := [packet 0 0x2000370000000] } base)
    levelIs s 7 fun q p f => decide (f.loops < 2) && f.base.isNone) = true := by decide
theorem test_packetFetch :
    (let s := withQueue { queue0 with ring := dataCap, wptr := 2, frames := [ringFrame 0], nextPacket := 0, peek := none } base
    the (s.queue? 0) fun q => frontRuns s q && !fetchHeld s q && match popFrames 2 q.frames with
      | f :: _ => !f.dead && !skipped q.skips (f.path ++ [f.ordinal]) && the (fetchAt q f) fun a => a == (none, 0x10000) && q.peek == none && okay (packetAt s q a) fun v =>
          [7, v].all fun u => !graphsFull s q (bits u 23 16) && !statusWaits s 0 (bits u 23 16)
      | [] => false) = true := by decide
theorem test_packetFetch_again :
    (let s := withQueue { queue0 with ring := dataCap, wptr := 2, frames := [ringFrame 0], nextPacket := 0, peek := some ((none, 0x10000), 7) } base
    the (s.queue? 0) fun q => frontRuns s q && !fetchHeld s q && match popFrames 2 q.frames with
      | f :: _ => !f.dead && !skipped q.skips (f.path ++ [f.ordinal]) && the (fetchAt q f) fun a => a == (none, 0x10000) && q.peek == some ((none, 0x10000), 7) && okay (packetAt s q a) fun v =>
          [7, v].all fun u => !graphsFull s q (bits u 23 16) && !statusWaits s 0 (bits u 23 16)
      | [] => false) = true := by decide
/-- A launch descriptor with entry 0, one group in its cluster and entry 0 of the table for its code. -/
def descriptor0 : Nat := 0xffffffff000000000000ffffffffffffffffffffffffffffffff00000888000000000000000000000000000000000000000000000000000000000000
theorem test_launchPacket :
    (let s := (withPacket 0x100000001000000000000000000000000000002000000000000000000).setBytes 0x10200 (leBytes descriptor0 64)
    headIs s 0 fun q p => s.launches.all (fun e => e.2.packet != some p.id) && got (capEntry s q 0) fun c => got (frontRead s q c 0x200 64) fun d =>
      got (mkLaunch s 0 q d 1 1 p.graph (packetPassK p) (some p.id)) fun _ => true) = true := by decide
theorem test_nodePacket :
    (let s := (withPacket 0x100000000000004000000000000000000000002000000000310000000).setBytes 0x10200 (leBytes descriptor0 64)
    headIs s 1 fun q p => q.nodes.isEmpty && got (capEntry s q 0) fun c => got (frontRead s q c 0x200 64) fun d => got (mkLaunch s 0 q d 1 1 p.graph none none) fun l =>
      l.team == 1 && l.cw == 1 && l.ch == 1 && c.has (permR + permW) && decide (bits p.bytes 223 160 + 512 * (bits p.bytes 57 54 + 1) * bits p.bytes 255 224 ≤ c.len)) = true := by decide
/-- A task block over that descriptor: one written region, and a cut word. -/
def taskBlock0 : Nat := descriptor0 + 0x100000000000000000000080001000000010000000000001000000010000001000100000000000000000000000000000000000000000000000000000000000000000000000000000000000000000000000000000000000000000000000000000000
theorem test_taskPacket :
    (let s := (withPacket 0x2000000000020000000).setBytes 0x10200 (leBytes taskBlock0 256)
    headIs s 2 fun q p => windowDie s q.part == some 0 && got (capEntry s q 0) fun c => got (frontRead s q c 0x200 256) fun d =>
      let h := d / 2 ^ 512 % 2 ^ 128
      bits h 41 32 == 0 && decide (1 ≤ bits h 47 44) && decide (bits h 47 44 ≤ 7) && bits h 43 42 != 3 && bits h 127 64 % 8 == 0 &&
      got (mkLaunch s 0 q (d % 2 ^ 512) (bits h 31 16) (bits h 15 0) p.graph (packetPassK p) none) (fun _ => true) &&
      got (taskRegions s q d (List.range (bits h 47 44))) (fun rs => rs.length == 1 && (rawOn s 0 rs).isEmpty && decide ((rawOn s 0 rs).length ≤ 8)) && got (capEntry s q (bits h 63 48)) fun x =>
      got (frontWord s q x (bits h 127 64) (permR + permW)) fun y => match y with | .mem _ _ _ => true | _ => false) = true := by decide
theorem test_nodeTimer :
    (let s := late (withQueue { queue0 with nodes := [(3, node0 2)] } base)
    the (s.queue? 0) fun q => the (tabFind q.nodes 3) fun n => n.filling != 0 && decide (s.after n.since (n.timer + 1) ≤ s.cycle)) = true := by decide
theorem test_groupPlace :
    (let s := withQueue { queue0 with packets := [packet 0 0] } { base with groups := [], launches := [(0, { launch0 with placed := 0, packet := some 0, vregs := 32, grain := 0, spblk := 0, teams := [] })] }
    the (s.launch? 0) fun l => servedQueue s 0 false == some (0, false) && evictionFor s l 0 == some [] && placing s l && nextIds l == [0] &&
      sitesShape s l [] [0] [⟨5, 0, 0, [8, 8, 9, 9], [], 0⟩] && sitesOkGo s l [] [] [⟨5, 0, 0, [8, 8, 9, 9], [], 0⟩] && okay (launchSplit s l false (placeReady s [])) fun _ => okay (launchSplit s l true (placeReady s [])) fun _ => true) = true := by decide
theorem test_groupPlace_settled :
    (let s0 := (withPacket 0x100000001000000000000000000000000000002000000000000000000).setBytes 0x10200 (leBytes descriptor0 64)
    the (s0.queue? 0) fun q => the (headPacket q) fun p => got (packetLaunch s0 0 q p) fun l =>
      l.packet == some p.id && placing { s0 with groups := [], launches := [(0, l)] } l && nextIds l == [0]) = true := by decide
theorem test_launchComplete :
    (let s := { base with groups := [], launches := [(0, { launch0 with ended := 1 })] }
    the (s.launch? 0) fun l => !l.done && l.task.isNone && launchOver s 0 l) = true := by decide
def task0 (phase : TaskPhase) : TaskRec := ⟨0, 0, 0, 1, 1, { launch0 with task := some 0 }, 0x10200, 1, [], [(9, 0x10300, 0)], [], phase, 0, some 0, false, none, false⟩
def withTask (t : TaskRec) : State := withQueue { queue0 with packets := [{ packet 0 0x20000000 with executed := true }] } { base with tasks := [(0, t)], groups := [], launches := [(0, { launch0 with ended := 1 })] }
theorem test_taskDispatch :
    (let s := (withTask (task0 .held)).setBytes 0x10304 [1]
    the (s.task? 0) fun k => k.phase == .held && !(s.context k.context).stopped && k.after_.all (dependenceOver s) && k.inputs.all fun i => cutState (wordNum s i.2.1) != cutCancelled && decide (1 ≤ cutVersion (wordNum s i.2.1))) = true := by decide
theorem test_taskRelaunch :
    (let s := withTask { task0 .dispatched with stale := true, countedOn := some 0x10300 }
    the (s.task? 0) fun k => k.stale && k.phase == .dispatched && instanceOver s k && !k.dropped && !(s.context k.context).stopped && (graphsOfWord s 0x10300).isEmpty && s.cores.all (fun e => e.2.copies.isEmpty) && s.groups.isEmpty && s.contexts.all (fun e => e.2.saved.isNone) && k.inputs.all fun i => cutState (wordNum s i.2.1) != cutCancelled) = true := by decide
theorem test_taskComplete_cancelled :
    (let s := (withTask { task0 .dispatched with refire := 1 }).setBytes 0x10303 [0x80]
    the (s.task? 0) fun k => k.launch == some 0 && k.refire != 0 && k.inputs.any (fun i => cutState (wordNum s i.2.1) == cutCancelled) && the (s.launch? 0) fun l => !l.done && launchOver s 0 l) = true := by decide
theorem test_taskComplete :
    (let s := withTask (task0 .dispatched)
    the (s.task? 0) fun k => k.launch == some 0 && k.graph == 0 && (graphsOfWord s k.wordPa).isEmpty && !k.dropped && !k.stale && the (s.launch? 0) fun l => !l.done && launchOver s 0 l) = true := by decide
theorem test_taskCancel_held :
    (let s := (withTask { task0 .held with refire := 0 }).setBytes 0x10303 [0x80]
    the (s.task? 0) fun k => k.inputs.any (fun i => cutState (wordNum s i.2.1) == cutCancelled) && (s.queue? k.queue).isSome) = true := by decide
theorem test_taskCancel_follow :
    (let s := (withTask { task0 .dispatched with refire := 2 }).setBytes 0x10303 [0x80]
    the (s.task? 0) fun k => k.inputs.any (fun i => cutState (wordNum s i.2.1) == cutCancelled) && (s.queue? k.queue).isSome) = true := by decide
theorem test_taskCancel_keep :
    (let s := (withTask { task0 .dispatched with refire := 0 }).setBytes 0x10303 [0x80]
    the (s.task? 0) fun k => k.inputs.any (fun i => cutState (wordNum s i.2.1) == cutCancelled) && (s.queue? k.queue).isSome) = true := by decide

/-! ### Registers, reports, contexts and pages (QueueRegisters to Migrations) -/

theorem test_queueWptrWrite :
    (let s := withQueue queue0 base
    the (s.queue? 0) fun q => q.qstate == 1 && decide ((64#32 - q.wptr).toNat ≤ 2 ^ q.log2n - (q.wptr - q.rptr).toNat) && decide (2 ^ q.log2n - (q.wptr - q.rptr).toNat < (65#32 - q.wptr).toNat) && !frontPortFull s 0) = true := by decide
theorem test_queueEnable :
    (let q := { queue0 with qstate := 0, gstat := Cap.null }
    let s := withQueue q base
    q.qstate == 0 && descriptorValid s q .physical && !descriptorValid s { q with log2n := 3 } .physical && !frontPortFull s 0) = true := by decide
theorem test_queueReset :
    (let s := withQueue { queue0 with packets := [packet 0 0] } { base with launches := [] }
    the (s.queue? 0) fun q => q.packets.all (fun y => !y.executed) && (openLaunches s 0).isEmpty && !(openLaunches (withQueue queue0 base) 0).isEmpty) = true := by decide
/-- The terminal ring of die 0 in the page, enabled, with its capability as entry 0 of the physical function's table. -/
def withRing (s : State) : State :=
  { s with regs := { s.regs with capTables := [(capTableKey 0 0, dataCap)], rloc := [(1, 0x400#64)], rcfg := [(1, 0x8000000000000006#64)] } }
def record0 : Record := ⟨0, 1, 0x10000, 1, 1, 0, 0, 0, 0, 0, 0, 0, 1, 1⟩
theorem test_ringEnable :
    (let s := withRing base
    the (ringCap s.regs (ringIndex (.term 0))) fun c => c.pw && decide (ringOff s.regs 1 + 32 * 2 ^ ringLog2 s.regs 1 ≤ c.len) && ringLog2 s.regs 1 == 6) = true := by decide
theorem test_recordWrite :
    (let s := { withRing base with port := [(1, record0)] }
    the (servedClass s 0) fun x => the (classNext s 0 x.1) fun e => e.1 == 1 && the (ringPlace s 1) fun at_ => at_.1.device == s.regs.deviceId &&
      okay (frontXlat s at_.1.tenant (at_.1.base.toNat + at_.2) permW) fun _ => tabGet 0 s.turns (portKey 0) == 0 && (endingSplits s).isEmpty && (endingCopies s).isEmpty) = true := by decide
def parked0 : State :=
  inSplit (fun sp => { sp with parked := [⟨fPageAbsent, 3, 0x90000, 0, 0x10000, false⟩] }) { base with regs := { base.regs with replayPc := [(replayKey (.die 0), 0x10000#64)] } }
theorem test_replay :
    (let s := parked0
    (s.group? 0 0).any (fun g => (s.split? agent0).any fun sp => sp.parked.length == 1 && sp.parked.all fun k => namesPark s (.die 0) 1 0 0 g 0 k) && s.groups.length == 1 && (s.group? 0 0).all (fun g => g.splits.length == 1) && s.cores.all (fun e => e.2.copies.isEmpty) && (endingSplits s).isEmpty && (endingCopies s).isEmpty) = true := by decide
theorem test_replayTerminate :
    (let s := parked0
    the (s.group? 0 0) fun g => !g.stream && !portFull s 0 (faultClass s agent0 g 1) && (s.launch? g.launch).isSome && (the (s.split? agent0) fun sp => sp.tvec == 0) && (s.group? 0 0).any (fun g => (s.split? agent0).any fun sp => sp.parked.length == 1 && sp.parked.all fun k => namesPark s (.die 0) 1 0 0 g 0 k) && s.groups.length == 1 && (s.group? 0 0).all (fun g => g.splits.length == 1) && s.cores.all (fun e => e.2.copies.isEmpty) && (endingSplits s).isEmpty && (endingCopies s).isEmpty) = true := by decide
theorem test_replayTerminate_handler :
    (let s := withHandler parked0
    (the (s.split? agent0) fun sp => sp.tvec != 0 && !sp.inHandler) && (s.group? 0 0).any (fun g => (s.split? agent0).any fun sp => sp.parked.length == 1 && sp.parked.all fun k => namesPark s (.die 0) 1 0 0 g 0 k) && s.groups.length == 1 && (s.group? 0 0).all (fun g => g.splits.length == 1) && s.cores.all (fun e => e.2.copies.isEmpty) && (endingSplits s).isEmpty && (endingCopies s).isEmpty) = true := by decide
def withContext (c : Context) (s : State) : State := { s with contexts := [(1, c)] }
def context0 : Context := { Context.init with tenant := 1, enabled := true }
theorem test_quantumEnd :
    (let s := late (withContext context0 base)
    (s.context 1).phase == .running && (s.context 1).enabled && decide (s.after 0 (vdQuantum s.regs 0) ≤ s.cycle) && !outstanding s 1 && s.groups.length == 1 && s.groups.all fun e => e.2.context == 1 && e.2.committed.isEmpty) = true := by decide
theorem test_quantumEnd_outstanding :
    (let s := late (withContext context0 (inCore (fun k => { k with copies := [⟨0, 0, 0, 0, 0, dataCap, dataCap, Cap.null, .linear 0 8 2, 0, none, false, []⟩] }) base))
    (s.context 1).enabled && outstanding s 1 && decide (s.after 0 15 ≤ s.cycle) && s.cores.all fun e => e.2.copies.all fun c => c.parked.isNone && launchOf s c.launch 1) = true := by decide
theorem test_contextRestore :
    (let s := withContext { context0 with phase := .out, saved := some ⟨[(0, group0)], []⟩ } { base with groups := [] }
    (s.context 1).phase == .out && nextQuantum s 1 == some false && (the (s.context 1).saved fun v => v.cores.isEmpty && v.groups.length == 1 && v.groups.all fun e => (tabFind s.groups e.1).isNone && e.2.splits.all fun x => !x.2.ending) && (endingSplits s).isEmpty && (endingCopies s).isEmpty) = true := by decide
theorem test_pageMigration :
    ((migrationOf base 1 1).isNone && the (validPte base.regs 1 1) fun x => x.1 == 1 && pteExtent x.2 == 0 && destOk base 1 0 7) = true := by decide
theorem test_migrationComplete :
    (let s := { base with migrations := [⟨1, 1, 1, 0, some 7⟩] }
    the (migrationOf s 1 1) fun m => m.dst == some 7 && !pinnedIn s m.src m.extent && Memory.wf s.mem && s.mem.all (fun e => decide (e.1 < 2 ^ 48)) && s.queues.isEmpty && decide (7 + 2 ^ m.extent ≤ 2 ^ 32) && decide (m.src + 2 ^ m.extent ≤ 7) && s.groups.all fun e => e.2.committed.isEmpty) = true := by decide

/-! ### Errors, the host, links and the module (ErrorContainment to Attestation) -/

theorem test_l2EccUncorr_clean :
    (the (tabFind ({ base with l2 := [(512, ⟨1, 1, 0, false, 4, 2, 0, 0, []⟩)] }).l2 512) fun l => l.slice == 4 && l.lst != 2) = true := by decide
theorem test_l2EccUncorr_dirty :
    (the (tabFind ({ base with l2 := [(512, ⟨2, 1, 0, false, 4, 2, 0, 0, []⟩)] }).l2 512) fun l => l.slice == 4 && l.lst == 2 && reportRoom ({ base with l2 := [(512, ⟨2, 1, 0, false, 4, 2, 0, 0, []⟩)] }) (base.context l.owner).part 0 1) = true := by decide
theorem test_memoryEccUncorr :
    ((base.split? agent0).isSome && ({ base with turn := none }).turn.isNone && isHbm 0x10040 && (homeDie base.regs 0x10040).isSome) = true := by decide
theorem test_storageEccUncorr :
    ((base.group? 0 3).isNone && the (base.group? 0 0) fun g => (base.launch? g.launch).isSome && reportRoom base (base.whoOf 0 g).part 0 1) = true := by decide
theorem test_failureWarning_counts :
    (let s := { base with corrected := [(warnKey (.core 0), (2, 0, 0))] }
    let x := tabGet (0, 0, 0) s.corrected (warnKey (.core 0))
    !warnOver s (.core 0) x.2.1 && !warnQuiet s (.core 0) x.2.2 && (warned s (.core 0)).all (fun c => reportRoom s c.2.2 0 2) && decide (x.1 + 1 < warnLimit s.regs (.core 0))) = true := by decide
theorem test_failureWarning_reports :
    (let s := { base with corrected := [(warnKey (.core 0), (7, 0, 0))] }
    let x := tabGet (0, 0, 0) s.corrected (warnKey (.core 0))
    !warnOver s (.core 0) x.2.1 && !warnQuiet s (.core 0) x.2.2 && (warned s (.core 0)).all (fun c => reportRoom s c.2.2 0 2) && decide (x.1 + 1 ≥ warnLimit s.regs (.core 0)) && !(warned s (.core 0)).isEmpty) = true := by decide
theorem test_l2ModeChange :
    (dieQuiet { base with groups := [] } 0 && (diePartitions base 0).all (fun p => !(ownSlices base.regs 0 p).isEmpty) && tabGet 0 base.regs.l2mode 0 == 0) = true := by decide
theorem test_fmtwinEnable :
    (let s := { base with fmtwin := [(winKey 0 1, BitVec.ofNat 128 (1 * 2 ^ 121 + 8 * 2 ^ 32 + 4))] }
    !winEn (winOf s 0 1) && !winEn (winOf s 0 2)) = true := by decide
theorem test_fmtwinDisable :
    (let s := { base with fmtwin := [(winKey 0 1, BitVec.ofNat 128 (2 ^ 127))], l2 := [(0, ⟨1, 1, 0, false, 0, 0, 0, 0, []⟩)] }
    winEn (winOf s 0 1) && s.closing.isEmpty && s.l2.all fun e => windowLine 0 (winOf s 0 1) e && e.2.lst != 3) = true := by decide
theorem test_fmtwinDisable_pinned :
    (let s := { base with fmtwin := [(winKey 0 1, BitVec.ofNat 128 (2 ^ 127))], l2 := [(0, ⟨3, 1, 0, false, 0, 0, 0, 0, []⟩)] }
    winEn (winOf s 0 1) && s.closing.isEmpty && s.l2.all fun e => windowLine 0 (winOf s 0 1) e && e.2.lst == 3) = true := by decide
theorem test_coreOwner :
    (!coreHeld { base with groups := [], launches := [], contexts := [] } 0 && coreHeld base 0) = true := by decide
theorem test_hostWrite :
    (let s := withPart base
    let s := { s with regs := { s.regs with pcie := true, capTables := [(capTableKey 0 0, dataCap)], access := s.regs.access ++ ([sliceOf s.regs 0 0x10000, 540, controllerOf 0x10000]).map fun t => (t * 4096 + 1024, 0x1000F#32) } }
    let m : MailSlot := ⟨0, false, false, 2, 0x44, 0, [1, 2]⟩
    m.seq.toNat == tabGet 0 s.hostNext 0 && s.regs.pcie && the (tabFind s.regs.capTables (capTableKey 0 0)) fun c => the (hostWho s 0 c) fun x => (hostCheck s 0 x c m.off.toNat m.len.toNat permW).isNone &&
      okay (hostBytes s 0 x c m.off.toNat permW m.len.toNat) (fun l => l == placesAt x.tenant (c.base.toNat + m.off.toNat) [0x10044, 0x10045]) && true) = true := by decide
theorem test_hostRead :
    (let s := withPart base
    let s := { s with regs := { s.regs with pcie := true, capTables := [(capTableKey 0 0, dataCap)], access := s.regs.access ++ ([sliceOf s.regs 0 0x10000, 540, controllerOf 0x10000]).map fun t => (t * 4096 + 1024, 0x1000F#32) } }
    let m : MailSlot := ⟨0, false, true, 2, 0x44, 0, []⟩
    m.seq.toNat == tabGet 0 s.hostNext 0 && s.regs.pcie && the (tabFind s.regs.capTables (capTableKey 0 0)) fun c => the (hostWho s 0 c) fun x => (hostCheck s 0 x c m.off.toNat m.len.toNat permR).isNone &&
      okay (hostBytes s 0 x c m.off.toNat permR m.len.toNat) (fun l => l == placesAt x.tenant (c.base.toNat + m.off.toNat) [0x10044, 0x10045]) && true) = true := by decide
theorem test_hostPublication :
    (let s := withPart base
    let s := { s with regs := { s.regs with pcie := true, capTables := [(capTableKey 0 0, dataCap)], access := s.regs.access ++ ([sliceOf s.regs 0 0x10000, 540, controllerOf 0x10000]).map fun t => (t * 4096 + 1024, 0x1000F#32) } }
    let m : MailSlot := ⟨0, true, false, 4, 0x44, 0, [1, 0, 0, 0]⟩
    m.seq.toNat == tabGet 0 s.hostNext 0 && s.regs.pcie && the (tabFind s.regs.capTables (capTableKey 0 0)) fun c => the (hostWho s 0 c) fun x => (hostCheck s 0 x c m.off.toNat m.len.toNat permW).isNone &&
      okay (hostBytes s 0 x c m.off.toNat permW m.len.toNat) (fun l => l == placesAt x.tenant (c.base.toNat + m.off.toNat) [0x10044, 0x10045, 0x10046, 0x10047]) && publicationForm s 0 m && cutVersion (s.num 0x10040 8) == 0 && cutState (s.num 0x10040 8) == cutOpen) = true := by decide
theorem test_hostFinish :
    (let s := withPart base
    let s := { s with regs := { s.regs with pcie := true, capTables := [(capTableKey 0 0, dataCap)], access := s.regs.access ++ ([sliceOf s.regs 0 0x10000, 540, controllerOf 0x10000]).map fun t => (t * 4096 + 1024, 0x1000F#32) } }
    let m : MailSlot := ⟨0, true, false, 1, 0x43, 0, [0x40]⟩
    m.seq.toNat == tabGet 0 s.hostNext 0 && s.regs.pcie && the (tabFind s.regs.capTables (capTableKey 0 0)) fun c => the (hostWho s 0 c) fun x => (hostCheck s 0 x c m.off.toNat m.len.toNat permW).isNone &&
      okay (hostBytes s 0 x c m.off.toNat permW m.len.toNat) (fun l => l == placesAt x.tenant (c.base.toNat + m.off.toNat) [0x10043]) && finishForm s 0 m && (graphsOfWord s 0x10040).isEmpty && cutState (s.num 0x10040 8) == cutOpen) = true := by decide
theorem test_remote_old :
    (decide ((⟨5, 0, 1, 0x10040, .load 2⟩ : RemoteReq).incarnation.toNat < ({ base.regs with incarnation := 1 }).incarnation.toNat) && (({ base.regs with torwen := 1 } : Regs).torwen != 0#32)) = true := by decide
theorem test_remote_stub :
    (let s := { base with regs := { base.regs with torwen := 1, stubs := [⟨1, 1, 1, 5⟩] } }
    (stubOf s 1 0x10040).isSome && remoteMask (.store [1]) != permR && s.regs.torwen != 0) = true := by decide
theorem test_remote_load :
    (let s := withPart base
    let s := { s with regs := { s.regs with torwen := 1, access := s.regs.access ++ ([sliceOf s.regs 0 0x10000, controllerOf 0x10000]).map fun t => (t * 4096 + 2048, 0x1000F#32) } }
    let pas := (List.range (remoteLen (.load 2))).map (0x10040 + ·)
    (stubOf s 1 0x10040).isNone && s.regs.torwen != 0 && the (tenantPart s 1) fun p => let w : Who := ⟨Config.meshCores, (s.part p).context, 1, p, false⟩
      okay (remoteBytes s w 0x10040 (remoteMask (.load 2)) (remoteLen (.load 2))) (fun l => l == placesAt 1 0x10040 pas)) = true := by decide
theorem test_remote_store :
    (let s := withPart base
    let s := { s with regs := { s.regs with torwen := 1, access := s.regs.access ++ ([sliceOf s.regs 0 0x10000, controllerOf 0x10000]).map fun t => (t * 4096 + 2048, 0x1000F#32) } }
    let pas := (List.range (remoteLen (.store [1, 2]))).map (0x10040 + ·)
    (stubOf s 1 0x10040).isNone && s.regs.torwen != 0 && the (tenantPart s 1) fun p => let w : Who := ⟨Config.meshCores, (s.part p).context, 1, p, false⟩
      okay (remoteBytes s w 0x10040 (remoteMask (.store [1, 2])) (remoteLen (.store [1, 2]))) (fun l => l == placesAt 1 0x10040 pas)) = true := by decide
theorem test_remote_atomic :
    (let s := withPart base
    let s := { s with regs := { s.regs with torwen := 1, access := s.regs.access ++ ([sliceOf s.regs 0 0x10000, controllerOf 0x10000]).map fun t => (t * 4096 + 2048, 0x1000F#32) } }
    let pas := (List.range (remoteLen (.atomic 0 .n64 3))).map (0x10040 + ·)
    (stubOf s 1 0x10040).isNone && s.regs.torwen != 0 && the (tenantPart s 1) fun p => let w : Who := ⟨Config.meshCores, (s.part p).context, 1, p, false⟩
      okay (remoteBytes s w 0x10040 (remoteMask (.atomic 0 .n64 3)) (remoteLen (.atomic 0 .n64 3))) (fun l => l == placesAt 1 0x10040 pas)) = true := by decide
theorem test_peerLost :
    (let s := withContext { context0 with unacked := [(0, 5, 0x20000)] } base
    (0, 5, 0x20000) ∈ (s.context 1).unacked && decide (s.port.length + sumNat (s.contexts.map fun e => e.2.unacked.length) < 64)) = true := by decide
theorem test_torwenRetrain :
    (let s := { base with cycle := 2000000, regs := { base.regs with deviceIdWritten := true, downSince := some 0 } }
    the s.regs.downSince fun t => decide (s.after t 500 ≤ s.cycle) && decide (base.cycle < base.after 0 500)) = true := by decide
theorem test_recovery :
    (let s := { base with regs := { base.regs with stage := 15 } }
    s.regs.stage == 15 && decide (s.regs.image.length ≤ 64 * 2 ^ 20)) = true := by decide
theorem test_meterSnapshot :
    ((base.part 3).present && (homeDie base.regs 0x40000).isSome && chainOf base 3 == (3, 0, 0)) = true := by decide
theorem test_restore_none :
    (let q : RestoreReq := ⟨9, 0x20000, [0x30000], [5], [0x40000], 1, 0⟩
    restorable base q == none && reportRoom base 0 0 2 && !(jobDevices base q).isEmpty) = true := by decide
theorem test_restore_some :
    (let q : RestoreReq := ⟨9, 0x20000, [0x30000], [0, 5], [0x40000], 1, 0⟩
    let s := base.setBytes 0x20000 (leBytes 0x5000000010000000000000000000000000000000000000000000000000000000000000000000000000000000000000001 64)
    let s := s.setBytes 0x30000 (leBytes (9 * 2 ^ 448 + 5 * 2 ^ 384 + 4 * 2 ^ 256 + ofLeBytes (sha256 (s.bytes 0x30040 4))) 64)
    restorable s q == some (5, [0x30000]) && (jobDevices s q)[0]? == some s.regs.deviceId) = true := by decide
theorem test_liveMigration :
    (let s := withContext { context0 with phase := .out, saved := some ⟨[], []⟩ } base
    (s.context 1).phase == .out && (s.context 1).saved.isSome) = true := by decide

/-! ### Issue and steps (TemporariesStartAtZero, AwaitHolds, StepRunsDecoded, the invariants) -/

theorem test_temporaries :
    (sees (.nop (fields .n32 0 0 (.v 0) (.v 0) (.v 0) 0)) base fun c => c.sp.run == 0 && c.sp.mask.getLsbD 5 && c.sp.pending.isEmpty && c.sp.flight.isEmpty) = true := by decide
theorem test_await_waits :
    (let s := inSplit (fun sp => { sp with pending := [⟨some 2, 0, [⟨.v 3, 5, 7⟩]⟩] }) base
    the (s.group? 0 0) fun g => the (s.split? agent0) fun sp => canIssue s agent0 g sp && sp.parked.isEmpty && !launchStops s g && s.ecc.isNone && sp.pending.any fun p => p.tag == some 2 && (4#8).getLsbD 2) = true := by decide
theorem test_await_passes :
    (let s := base
    the (s.group? 0 0) fun g => the (s.split? agent0) fun sp => canIssue s agent0 g sp && sp.parked.isEmpty && !launchStops s g && s.ecc.isNone && sp.pending.isEmpty && the (formOf (.nop (fields .n32 0 0 (.v 0) (.v 0) (.v 0) 0))) fun f => !f.splitWide) = true := by decide
theorem test_step_runs :
    (let s := base
    !s.regs.shutDown && s.regs.stage != 15 && s.agenda.isEmpty && the (s.group? 0 0) fun g => the (s.split? agent0) fun sp => canIssue s agent0 g sp && okay (fetchBytes s agent0 g sp) fun l => decide (sp.run < 24) && (match decodeBytes l with | .ok (i, _) => i == (.nop (fields .n32 0 0 (.v 0) (.v 0) (.v 0) 0)) | .error _ => false)) = true := by decide
theorem test_step_illegal :
    (let s := withHandler (base.setBytes 0x1000B [0xFF])
    !s.regs.shutDown && s.regs.stage != 15 && s.agenda.isEmpty && the (s.group? 0 0) fun g => the (s.split? agent0) fun sp => canIssue s agent0 g sp && okay (fetchBytes s agent0 g sp) fun l => (match decodeBytes l with | .ok _ => false | .error _ => true) && sp.tvec != 0 && !sp.inHandler && !g.stream && g.committed.isEmpty && sp.pending.isEmpty) = true := by decide
theorem test_step_run_limit :
    (let s := withHandler (inSplit (fun sp => { sp with run := 24 }) base)
    !s.regs.shutDown && s.regs.stage != 15 && s.agenda.isEmpty && the (s.group? 0 0) fun g => the (s.split? agent0) fun sp => canIssue s agent0 g sp && okay (fetchBytes s agent0 g sp) fun l => decide (24 ≤ sp.run) && sp.tvec != 0 && !sp.inHandler && !g.stream && g.committed.isEmpty && sp.pending.isEmpty) = true := by decide
theorem test_step_agenda :
    (let s := { base with agenda := [.clockThrottle 1000] }
    !s.regs.shutDown && s.regs.stage != 15 && s.agenda.length == 1) = true := by decide

/-! ### Words of other devices, streams, and clauses of one case each -/

/-- As `withPart`, with device 5 in the reach list. -/
def withPart2 (s : State) : State :=
  { s with regs := { s.regs with parts := [(0, { Partition.init with tenant := 1, context := 1, reach := [5] })], torwen := 1, access := s.regs.access ++ [(544 * 4096, 0x1000F#32)] } }
def farPlace : Option (List (Nat × Place)) → Bool
  | some [(_, .far d _)] => d == 5
  | _ => false
theorem test_far_rel :
    (sees (.rel (fields .n32 0 0 (.v 0) (.a 2) (.k 24) 0)) (withPart2 (withA 2 { mem64 with cap := { mem64.cap with device := 5 } } (withMem (placed (.rel (fields .n32 0 0 (.v 0) (.a 2) (.k 24) 0)))))) fun c => c.g.region.isNone && !c.outsideHarvest && c.g.committed.isEmpty && farPlace (passGlobal c (c.lanes.take 1) (c.capAt c.w.a) 8 (permR))) = true := by decide
theorem test_far_cutinit :
    (sees (.cutinit (fields .n32 0 0 (.v 0) (.a 2) (.k 24) 0)) (withPart2 (withA 2 { mem64 with cap := { mem64.cap with device := 5 } } (withMem (placed (.cutinit (fields .n32 0 0 (.v 0) (.a 2) (.k 24) 0)))))) fun c => c.g.region.isNone && !c.outsideHarvest && c.g.committed.isEmpty && farPlace (passGlobal c (c.lanes.take 1) (c.capAt c.w.a) 8 (permR + permW))) = true := by decide
theorem test_far_pubcut :
    (sees (.pubcut (fields .n32 0 0 (.v 0) (.a 2) (.k 24) 0)) (withPart2 (withA 2 { mem64 with cap := { mem64.cap with device := 5 } } (withMem (placed (.pubcut (fields .n32 0 0 (.v 0) (.a 2) (.k 24) 0)))))) fun c => c.g.region.isNone && !c.outsideHarvest && c.g.committed.isEmpty && farPlace (passGlobal c (c.lanes.take 1) (c.capAt c.w.a) 8 (permR + permW))) = true := by decide
theorem test_far_fincut :
    (sees (.fincut (fields .n32 0 0 (.v 0) (.a 2) (.k 24) 0)) (withPart2 (withA 2 { mem64 with cap := { mem64.cap with device := 5 } } (withMem (placed (.fincut (fields .n32 0 0 (.v 0) (.a 2) (.k 24) 0)))))) fun c => c.g.region.isNone && !c.outsideHarvest && c.g.committed.isEmpty && farPlace (passGlobal c (c.lanes.take 1) (c.capAt c.w.a) 8 (permR + permW))) = true := by decide
theorem test_far_acq :
    (sees (.acq (fields .n32 0 0 (.v 0) (.a 2) (.k 24) 0)) (withPart2 (withA 2 { mem64 with cap := { mem64.cap with device := 5 } } (withMem (placed (.acq (fields .n32 0 0 (.v 0) (.a 2) (.k 24) 0)))))) fun c => c.g.committed.isEmpty && farPlace (passGlobal c (c.lanes.take 1) (c.capAt c.w.a) 8 (permR))) = true := by decide
theorem test_far_cutchk :
    (sees (.cutchk (fields .n32 0 0 (.k 8) (.a 2) (.k 24) 0)) (withPart2 (withA 2 { mem64 with cap := { mem64.cap with device := 5 } } (withMem (placed (.cutchk (fields .n32 0 0 (.k 8) (.a 2) (.k 24) 0)))))) fun c => c.g.committed.isEmpty && farPlace (passGlobal c (c.lanes.take 1) (c.capAt c.w.a) 8 (permR))) = true := by decide
theorem test_far_bind :
    (sees (.bind (fields .n32 0 0 (.a 1) (.a 2) (.k 24) 0)) (withPart2 (withA 2 { mem64 with cap := { mem64.cap with device := 5 } } (withMem (placed (.bind (fields .n32 0 0 (.a 1) (.a 2) (.k 24) 0)))))) fun c => c.g.region.isNone && !c.outsideHarvest && c.g.committed.isEmpty && farPlace (passGlobal c (c.lanes.take 1) (c.capAt c.w.a) 8 (permR)) && (rangeCheck c.s c.who (c.cap c.w.d).cap).isNone &&
    (c.cap c.w.d).cap.len != 0 && c.bindingsSeen.isEmpty) = true := by decide
theorem test_xfence_copies_before_loads :
    (sees (.xfence (fields .n32 8 0 (.v 0) (.v 0) (.v 0) 0)) (placed (.xfence (fields .n32 8 0 (.v 0) (.v 0) (.v 0) 0))) fun c => c.g.committed.isEmpty && vr c.w / 4 == 2 && vr c.w % 4 == 0) = true := by decide
theorem test_fence_stream_waits :
    (sees (.fence (fields .n32 3 1 (.v 0) (.v 0) (.v 0) 0)) (inGroup (fun g => { g with stream := true }) (inCore (fun k => { k with mq := [matOp .scale] }) (placed (.fence (fields .n32 3 1 (.v 0) (.v 0) (.v 0) 0))))) fun c => c.g.committed.isEmpty && c.g.stream && vr c.w != 0 && !(streamOps c.s c.ag.core c.g).isEmpty) = true := by decide
theorem test_fence_stream :
    (sees (.fence (fields .n32 3 1 (.v 0) (.v 0) (.v 0) 0)) (inGroup (fun g => { g with stream := true }) (placed (.fence (fields .n32 3 1 (.v 0) (.v 0) (.v 0) 0)))) fun c => c.g.committed.isEmpty && c.g.stream && vr c.w != 0 && (streamOps c.s c.ag.core c.g).isEmpty) = true := by decide
theorem test_csrr_flags_waits :
    (sees (.csrr (fields .n32 0 0 (.k 8) (.v 0) (.v 0) 0x040)) (inGroup (fun g => { g with stream := true }) (inCore (fun k => { k with mq := [{ matOp .scale with subs := [⟨0, 0, 0, 0, none, 0, false, []⟩] }] }) (placed (.csrr (fields .n32 0 0 (.k 8) (.v 0) (.v 0) 0x040))))) fun c => c.g.committed.isEmpty && (c.csr 0x040).isSome && !(flagOps c.s c.ag.core c.g).isEmpty) = true := by decide
theorem test_csrr_flags_passes :
    (sees (.csrr (fields .n32 0 0 (.k 8) (.v 0) (.v 0) 0x040)) (inGroup (fun g => { g with stream := true }) (placed (.csrr (fields .n32 0 0 (.k 8) (.v 0) (.v 0) 0x040)))) fun c => c.g.committed.isEmpty && (c.csr 0x040).isSome && (flagOps c.s c.ag.core c.g).isEmpty) = true := by decide
theorem test_cwait_fails :
    (sees (.cwait (fields .n32 0 0 (.v 0) (.k 16) (.v 0) 0)) (withK [(16, 1)] (inGroup (fun g => { g with closed := 1, completed := 1, failed := [⟨1, 0, 0x20, fCapBounds, 7⟩] }) (placed (.cwait (fields .n32 0 0 (.v 0) (.k 16) (.v 0) 0))))) fun c =>
    let n := c.a32 c.lane0
    batchDone c.g.completed n && c.g.failed.length == 1 && c.g.failed.all (fun f => batchDone n f.batch) && (c.s.launch? c.g.launch).isSome && !portFull c.s (dieOf c.ag.core) (faultClass c.s c.ag c.g 1)) = true := by decide
theorem test_enqNb_behind_another :
    (let s := withQueue queue0 (placed (.enqNb (fields .n32 1 0 (.k 8) (.k 16) (.k 24) 0)))
    sees (.enqNb (fields .n32 1 0 (.k 8) (.k 16) (.k 24) 0)) { s.putGroup 0 1 { group0 with splits := [(0, { homeSplit false false 1 with wait := some (.queue 0 0) })] } with enqWait := [⟨0, 1, 0⟩] } fun c =>
    the (c.s.queue? (c.a64 c.lane0)) fun qu => c.g.region.isNone && !c.outsideHarvest && qu.part == c.who.part && qu.qstate == 1 && canTake qu (issuerOf c.s c.g.launch) && earlierEnq c.s c.ag 0 qu) = true := by decide
theorem test_joinTeam_dissolves :
    (sees (.joinTeam (fields .n32 1 0 (.v 0) (.v 0) (.v 0) 0)) ((inGroup (fun g => { g with repacked := true, stack := [⟨0x20, 0xF, none, none⟩], threads := (List.range 4).map (fun l => (l, 160 + l)), splits := g.splits.map fun x => (x.1, { x.2 with mask := 0xF, inner := some 0 }) }) (placed (.joinTeam (fields .n32 1 0 (.v 0) (.v 0) (.v 0) 0)))).putGroup 0 5 { group0 with absent := 0xF, splits := [(0, homeSplit false false 0xFFFFFFF0)] }) fun c =>
    c.g.repacked && c.sp.inner == some 0 && c.g.splits.length == 1 && c.sp.mask != 0 && c.ag.slot == 0 &&
    (match c.g.stack with | [e] => e.path.isNone && e.waiting.isNone && (e.parent &&& ~~~c.g.exited) == c.sp.mask | _ => false) &&
    (List.range 4).map (c.g.thread c.ag.slot) == [160, 161, 162, 163] &&
    the (c.s.group? 0 5) fun h => (tabFind h.splits 1).isNone && (tabFind h.splits 0).isSome) = true := by decide

/-! ### The front end, registers and requests, case by case -/

theorem test_waitPacket_seen :
    (let s := { withPacket 0x1000000000000000100000000000002000000000030000000 with watches := [⟨0, 0, 0x10200, 0x1000000000000000100000000000002000000000030000000, true⟩] }
    headIs s 3 fun q p => got (capEntry s q (bits p.bytes 63 48)) fun c => got (frontWord s q c (bits p.bytes 127 64) permR) fun a => let v := loadAt s a 8
      !(bits v 0 0 == bits p.bytes 255 192) && the (watchOf s 0 p) fun x => x.hit) = true := by decide
theorem test_write_watched :
    (let x : Watch := ⟨0, 0, 0x10200, 0x1000000000000000100000000000002000000000030000000, false⟩
    let s := { withPacket 0x1000000000000000100000000000002000000000030000000 with watches := [x] }
    let w : Who := s.frontWho 0
    let test (v : Nat) := packetTest x.bytes v
    test ((physWrite s w 0x10200 [1]).num x.pa 8) && !test ((physWrite s w 0x10200 [2]).num x.pa 8) && decide (0x10200 < x.pa + 8)) = true := by decide
theorem test_ibPacket_head_same :
    (let s := withTable (withQueue { queue0 with frames := [ringFrame 1], packets := [{ packet 0 0x200000000000002000000000050000000 with entered := some 0x10200, fetchedAt := [ringFrame 0] }] } base)
    headIs s 5 fun q p => p.entered == some 0x10200 && p.fetchedAt == [ringFrame 0] && got (capEntry s q 0) fun c => c.has permR && decide (0x200 + 64 ≤ c.len) && c.device == s.regs.deviceId && c.base.toNat + 0x200 == 0x10200) = true := by decide
theorem test_ibPacket_head_other :
    (let s := withTable (withQueue { queue0 with frames := [ringFrame 1], packets := [{ packet 0 0x200000000000002000000000050000000 with entered := some 0x10300, fetchedAt := [ringFrame 0] }] } base)
    headIs s 5 fun q p => p.entered == some 0x10300 && p.fetchedAt == [ringFrame 0] && got (capEntry s q 0) fun c => c.has permR && decide (0x200 + 64 ≤ c.len) && c.device == s.regs.deviceId && c.base.toNat + 0x200 == 0x10200) = true := by decide
theorem test_loopPacket_head :
    (let s := withTable (withQueue { queue0 with frames := [ringFrame 1], packets := [{ packet 0 0x2000370000000 with entered := some 0, fetchedAt := [ringFrame 0] }] } base)
    headIs s 7 fun _ p => p.entered == some 0 && p.fetchedAt == [ringFrame 0] && (ringFrame 0).base.isNone && (ringFrame 0).loops == 0) = true := by decide
theorem test_registers :
    (let s := withQueue { queue0 with qstate := 0 } base
    tableFrame s.regs 1 && (tabGet 0 s.regs.l2mode 0).toNat % 2 == 0 && !ringOn s.regs (ringIndex (.term 0)) && (s.queue? 0).isSome && pteState (pteAt { base.regs with ipt := [(1, BitVec.ofNat 128 (3 * 2 ^ 126))] } 1) == 3) = true := by decide
theorem test_remote_cas :
    (let s := withPart base
    let s := { s with regs := { s.regs with torwen := 1, access := s.regs.access ++ ([sliceOf s.regs 0 0x10000, controllerOf 0x10000]).map fun t => (t * 4096 + 2048, 0x1000F#32) } }
    let pas := (List.range (remoteLen (.cas .n32 3 4))).map (0x10040 + ·)
    (stubOf s 1 0x10040).isNone && s.regs.torwen != 0 && the (tenantPart s 1) fun p => let w : Who := ⟨Config.meshCores, (s.part p).context, 1, p, false⟩
      okay (remoteBytes s w 0x10040 (remoteMask (.cas .n32 3 4)) (remoteLen (.cas .n32 3 4))) (fun l => l == placesAt 1 0x10040 pas)) = true := by decide
theorem test_remote_cut_release :
    (let s := withPart base
    let s := { s with regs := { s.regs with torwen := 1, access := s.regs.access ++ ([sliceOf s.regs 0 0x10000, controllerOf 0x10000]).map fun t => (t * 4096 + 2048, 0x1000F#32) } }
    let pas := (List.range (remoteLen (.cut 0))).map (0x10040 + ·)
    (stubOf s 1 0x10040).isNone && s.regs.torwen != 0 && the (tenantPart s 1) fun p => let w : Who := ⟨Config.meshCores, (s.part p).context, 1, p, false⟩
      okay (remoteBytes s w 0x10040 (remoteMask (.cut 0)) (remoteLen (.cut 0))) (fun l => l == placesAt 1 0x10040 pas)) = true := by decide
theorem test_remote_cut_publish :
    (let s := withPart base
    let s := { s with regs := { s.regs with torwen := 1, access := s.regs.access ++ ([sliceOf s.regs 0 0x10000, controllerOf 0x10000]).map fun t => (t * 4096 + 2048, 0x1000F#32) } }
    let pas := (List.range (remoteLen (.cut 2))).map (0x10040 + ·)
    (stubOf s 1 0x10040).isNone && s.regs.torwen != 0 && the (tenantPart s 1) fun p => let w : Who := ⟨Config.meshCores, (s.part p).context, 1, p, false⟩
      okay (remoteBytes s w 0x10040 (remoteMask (.cut 2)) (remoteLen (.cut 2))) (fun l => l == placesAt 1 0x10040 pas)) = true := by decide
theorem test_peerLost_one :
    (let s := withContext { context0 with unacked := [(0, 7, 0x99)] } base
    (s.context 1).unacked == [(0, 7, 0x99)] && decide (s.port.length + sumNat (s.contexts.map fun e => e.2.unacked.length) < 64)) = true := by decide
theorem test_quiescenceTimeout :
    (let s := late (withContext { context0 with phase := .quiescing 0 } base)
    (s.context 1).phase == .quiescing 0 && decide (s.after 0 15 ≤ s.cycle)) = true := by decide
theorem test_await_clk :
    (let s := inSplit (fun sp => { sp with pending := [⟨some 2, 0, [⟨.v 3, 5, 7⟩]⟩] }) (placed (.clk (fields .n32 0 0 (.v 16) (.v 0) (.v 0) 0)))
    the (s.group? 0 0) fun g => the (s.split? agent0) fun sp => canIssue s agent0 g sp && sp.parked.isEmpty && !launchStops s g && s.ecc.isNone && sp.pending.length == 1 && !(0#8).getLsbD 2) = true := by decide
theorem test_await_clk_flight :
    (let s := inSplit (fun sp => { sp with flight := [⟨900, []⟩] }) (inSplit (fun sp => { sp with run := 1 }) (placed (.clk (fields .n32 0 0 (.v 16) (.v 0) (.v 0) 0))))
    the (s.group? 0 0) fun g => the (s.split? agent0) fun sp => canIssue s agent0 g sp && sp.parked.isEmpty && sp.flight.any fun x => decide (issueCycle s agent0 g sp < x.ready)) = true := by decide

/-! ### Held work form by form, EXIT in divergences, and other clauses of one case each -/

theorem test_skips_split_wide :
    ((skipping (.fence { (fields .n32 3 1 (.v 0) (.v 0) (.v 0) 0) with gn := true }) (placed (.fence { (fields .n32 3 1 (.v 0) (.v 0) (.v 0) 0) with gn := true }))).isSome) = true := by decide
theorem test_capld_of_host :
    (sees (.capld (fields .n32 0 0 (.a 1) (.a 2) (.k 24) 0)) (withA 2 { mem64 with cap := { mem64.cap with device := 0xFFFFF } } (withHandler { placed (.capld (fields .n32 0 0 (.a 1) (.a 2) (.k 24) 0)) with regs := { (placed (.capld (fields .n32 0 0 (.a 1) (.a 2) (.k 24) 0))).regs with pcie := true } })) fun c =>
    c.sp.tvec != 0 && !c.sp.inHandler && !c.g.stream && c.g.committed.isEmpty && c.sp.pending.isEmpty && c.accessLanes == [0] &&
    (c.capAt c.w.a 0).cap.device == 0xFFFFF && (capCheck c.s c.who (c.capAt c.w.a 0).cap (c.offset 0) 16 16 permR true).isNone) = true := by decide
theorem test_held_gst :
    (sees (.gst (fields .n32 0 0 (.g 1) (.a 2) (.v 48) 0)) (inRegion (withMem (placed (.gst (fields .n32 0 0 (.g 1) (.a 2) (.v 48) 0))))) fun c => the c.whole.spans fun l => (l.all fun sp => (c.whole.gsrc false c.w.d sp).isSome) &&
    the (passGlobal c c.accessLanes (c.capAt c.w.a) 32 permW) fun l => (c.g.region.any fun r => decide (entriesUsed (r.held ++ (l.map fun e => Held.store e.2 [])) ≤ 64))) = true := by decide
theorem test_held_atom :
    (sees (.atom (fields .n32 0 8 .zero (.a 2) (.v 48) 0)) (inRegion (withMem (placed (.atom (fields .n32 0 8 .zero (.a 2) (.v 48) 0))))) fun c => opndCls c.w.d == .zero && the (passGlobal c c.accessLanes (c.capAt c.w.a) (atomSize c.w.ty) permA) fun l => (c.g.region.any fun r => decide (entriesUsed (r.held ++ [.atomic 0 0 c.w.ty (l.map fun e => (e.2, 0, 0))]) ≤ 64))) = true := by decide
theorem test_held_cas :
    (sees (.cas (fields .b32 0 8 .zero (.a 2) (.v 48) 0)) (inRegion (withMem (placed (.cas (fields .b32 0 8 .zero (.a 2) (.v 48) 0))))) fun c => opndCls c.w.d == .zero && the (passGlobal c c.accessLanes (c.capAt c.w.a) (atomSize c.w.ty) permA) fun l => (c.g.region.any fun r => decide (entriesUsed (r.held ++ [.atomic 0 0 c.w.ty (l.map fun e => (e.2, 0, 0))]) ≤ 64))) = true := by decide
theorem test_held_atoms :
    (sees (.atoms (fields .n32 0 8 .zero (.v 0) (.v 48) 0)) (inRegion (withMem (placed (.atoms (fields .n32 0 8 .zero (.v 0) (.v 48) 0))))) fun c => opndCls c.w.d == .zero && the (passScratch c c.accessLanes (atomSize c.w.ty)) fun l => (c.g.region.any fun r => decide (entriesUsed (r.held ++ [.atomic 0 0 c.w.ty (l.map fun e => (e.2, 0, 0))]) ≤ 64))) = true := by decide
theorem test_held_cass :
    (sees (.cass (fields .b32 0 8 .zero (.v 0) (.v 48) 0)) (inRegion (withMem (placed (.cass (fields .b32 0 8 .zero (.v 0) (.v 48) 0))))) fun c => opndCls c.w.d == .zero && the (passScratch c c.accessLanes (atomSize c.w.ty)) fun l => (c.g.region.any fun r => decide (entriesUsed (r.held ++ [.atomic 0 0 c.w.ty (l.map fun e => (e.2, 0, 0))]) ≤ 64))) = true := by decide
theorem test_held_bankop :
    (sees (.bankop (fields .n32 1 0 (.v 0) (.v 32) (.v 48) 0)) (inRegion (placed (.bankop (fields .n32 1 0 (.v 0) (.v 32) (.v 48) 0)))) fun c => the (passScratch c c.lanes 4) fun l => (c.g.region.any fun r => decide (entriesUsed (r.held ++ [.atomic 2 0 c.w.ty (l.map fun e => (e.2, 0, 0))]) ≤ 64))) = true := by decide
theorem test_held_bankopSadd :
    (sees (.bankopSadd (fields .n32 0 8 (.v 0) (.v 32) (.v 48) 0)) (inRegion (placed (.bankopSadd (fields .n32 0 8 (.v 0) (.v 32) (.v 48) 0)))) fun c => the (passScratch c c.lanes 4) fun l => (c.g.region.any fun r => decide (entriesUsed (r.held ++ [.atomic 2 0 c.w.ty (l.map fun e => (e.2, 0, 0))]) ≤ 64))) = true := by decide
theorem test_held_bind :
    (sees (.bind (fields .n32 0 0 (.a 1) (.a 2) (.k 24) 0)) (inRegion (withMem (placed (.bind (fields .n32 0 0 (.a 1) (.a 2) (.k 24) 0))))) fun c => oneMem (passGlobal c (c.lanes.take 1) (c.capAt c.w.a) 8 permR) && (rangeCheck c.s c.who (c.cap c.w.d).cap).isNone &&
    (c.cap c.w.d).cap.len != 0 && c.bindingsSeen.isEmpty && (c.g.region.any fun r => decide (entriesUsed (r.held ++ [.bind ⟨0, 0, 0, 0, 0⟩]) ≤ 64))) = true := by decide
theorem test_held_bind_nothing :
    (sees (.bind (fields .n32 0 0 (.a 1) (.a 2) (.k 24) 0)) (inRegion (withA 1 { mem64 with cap := { mem64.cap with lenM := 0 } } (withA 2 mem64 (placed (.bind (fields .n32 0 0 (.a 1) (.a 2) (.k 24) 0)))))) fun c =>
    oneMem (passGlobal c (c.lanes.take 1) (c.capAt c.w.a) 8 permR) && (rangeCheck c.s c.who (c.cap c.w.d).cap).isNone && (c.cap c.w.d).cap.len == 0 && (c.g.region.any fun r => decide (entriesUsed (r.held ++ []) ≤ 64))) = true := by decide
theorem test_exit_to_path :
    (sees (.exit (fields .n32 0 0 (.v 0) (.v 0) (.v 0) 0)) (inSplit (fun sp => { sp with inner := some 0, mask := 0xF }) (inGroup (fun g => { g with stack := [⟨0x20, 0xFF, some (0x10040, 0xF0), none⟩] }) (placed (.exit (fields .n32 0 0 (.v 0) (.v 0) (.v 0) 0))))) fun c => !c.g.witnessFault && c.g.committed.isEmpty && !c.g.repacked && c.sp.mask &&& ~~~ maskOf c.lanes == 0 && c.sp.inner == some 0 && c.g.teamJoin.isNone && c.g.absent == 0 && the c.g.stack[0]? fun e => e.parent == 0xFF && e.path == some (0x10040, 0xF0) && c.g.splits.all fun x => x.1 == c.ag.split) = true := by decide
theorem test_exit_to_waiting :
    (sees (.exit (fields .n32 0 0 (.v 0) (.v 0) (.v 0) 0)) (inSplit (fun sp => { sp with inner := some 0, mask := 0xF }) (inGroup (fun g => { g with stack := [⟨0x20, 0xFF, none, some (0x10000, 0xF0)⟩] }) (placed (.exit (fields .n32 0 0 (.v 0) (.v 0) (.v 0) 0))))) fun c => !c.g.witnessFault && c.g.committed.isEmpty && !c.g.repacked && c.sp.mask &&& ~~~ maskOf c.lanes == 0 && c.sp.inner == some 0 && c.g.teamJoin.isNone && c.g.absent == 0 && the c.g.stack[0]? fun e => e.parent == 0xFF && e.path.isNone && e.waiting == some (0x10000, 0xF0) && c.g.splits.all fun x => x.1 == c.ag.split) = true := by decide
theorem test_exit_ends_join :
    (sees (.exit (fields .n32 0 0 (.v 0) (.v 0) (.v 0) 0)) (inGroup (fun g => match tabFind g.splits 0 with | some sp => { g with splits := [(0, { sp with mask := 0xF }), (1, { sp with mask := 0xF0, wait := some (.join 0x10040) })] } | none => g) (inSplit (fun sp => { sp with inner := some 0, mask := 0xF }) (inGroup (fun g => { g with stack := [⟨0x20, 0xFF, none, none⟩] }) (placed (.exit (fields .n32 0 0 (.v 0) (.v 0) (.v 0) 0)))))) fun c => !c.g.witnessFault && c.g.committed.isEmpty && !c.g.repacked && c.sp.mask &&& ~~~ maskOf c.lanes == 0 && c.sp.inner == some 0 && c.g.teamJoin.isNone && c.g.absent == 0 && c.g.splits.length == 2 && c.g.stack.length == 1 &&
    the (tabFind c.g.splits 1) fun sp => sp.wait == some (.join 0x10040) && sp.inner == some 0 && sp.mask &&& 0xFF != 0 && the c.g.stack[0]? fun e =>
      e.path.isNone && e.parent &&& ~~~(c.g.exited ||| maskOf c.lanes) &&& ~~~(sp.mask ||| waitMask e) == 0) = true := by decide
theorem test_exit_repacked :
    (sees (.exit { (fields .n32 0 0 (.v 0) (.v 0) (.v 0) 0) with gp := 2 }) ((inGroup (fun g => { g with repacked := true, threads := (List.range 4).map (fun l => (l, 160 + l)), splits := g.splits.map fun x => (x.1, { x.2 with mask := 0xF }) }) (withP [(64, true)] (placed (.exit { (fields .n32 0 0 (.v 0) (.v 0) (.v 0) 0) with gp := 2 })))).putGroup 0 5 { group0 with absent := 0xF, splits := [(0, homeSplit false false 0xFFFFFFF0)] }) fun c =>
    c.g.repacked && c.g.stack.isEmpty && !c.g.witnessFault && c.g.committed.isEmpty && c.lanes == [0] && c.sp.mask == 0xF && c.g.thread c.ag.slot 0 == 160 && (c.s.group? 0 5).any fun h => !h.splits.isEmpty) = true := by decide
theorem test_far_waitcut :
    (sees (.waitcut (fields .n32 0 8 (.k 8) (.a 2) (.k 24) (immOp (.lit 0)))) (withPart2 (withA 2 { mem64 with cap := { mem64.cap with device := 5 } } (withMem (placed (.waitcut (fields .n32 0 8 (.k 8) (.a 2) (.k 24) (immOp (.lit 0)))))))) fun c => c.g.committed.isEmpty && farPlace (passGlobal c (c.lanes.take 1) (c.capAt c.w.a) 8 (permR))) = true := by decide
theorem test_waitcutWake_lost :
    (let s := { waits (.cut 0x10200 0) with regs := { base.regs with ipt := [(1, BitVec.ofNat 128 (2 ^ 126 + 2 * 2 ^ 114))] } }
    ((s.waitOf agent0) == some (some (.cut 0x10200 0))) && (s.group? 0 0).any fun g => frameLost s (s.whoOf 0 g).tenant 0x10200) = true := by decide
theorem test_watchdog_port_full :
    (let s := { waits (.barrier false 0 0) with port := List.replicate 64 (1, record0) }
    the (s.group? 0 0) fun g => !g.stream && !g.evicted && (watched g).isSome && decide (s.after g.lastIssue (s.part (s.whoOf 0 g).part).wdlimit ≤ s.cycle) && portFull s 0 (faultClass s agent0 g 1)) = true := by decide
theorem test_groupPlace_evicts :
    (let s := ((((withQueue { queue0 with packets := [packet 0 0] } { base with groups := [], launches := [(0, { launch0 with placed := 0, packet := some 0, vregs := 32, grain := 0, spblk := 0, teams := [] }), (1, { launch0 with cls := true })], coreOwner := (List.range 143).map fun k => (k + 1, 1) }).putGroup 0 0 { group0 with quad := 0, banks := (List.range 128).map (· / 8), granules := List.range 8, launch := 1 }).putGroup 0 1 { group0 with quad := 1, banks := (List.range 128).map (· / 8), granules := List.range 8, launch := 1 }).putGroup 0 2 { group0 with quad := 2, banks := (List.range 128).map (· / 8), granules := List.range 8, launch := 1 }).putGroup 0 3 { group0 with quad := 3, banks := (List.range 128).map (· / 8), granules := List.range 8, launch := 1 }
    the (s.launch? 0) fun l => servedQueue s 0 false == some (0, false) && evictionFor s l 0 == some [(0, 3)] && placing s l && nextIds l == [0] &&
      sitesShape s l [(0, 3)] [0] [⟨0, 3, 5, [8, 8, 9, 9], [], 0⟩] && sitesOkGo s l [(0, 3)] [] [⟨0, 3, 5, [8, 8, 9, 9], [], 0⟩] && okay (launchSplit s l false (placeReady s [(0, 3)])) fun _ => okay (launchSplit s l true (placeReady s [(0, 3)])) fun _ => true) = true := by decide
theorem test_host_before_turn :
    (let s := { base with regs := { base.regs with pcie := true } }
    let m : MailSlot := ⟨3, false, false, 2, 0x44, 0, [1, 2]⟩
    s.regs.pcie && m.seq.toNat != tabGet 0 s.hostNext 0 % 2 ^ 16 && !m.cut && !m.rd) = true := by decide
theorem test_recovery_step :
    (let s := { base with regs := { base.regs with stage := 15 }, agenda := [.clockThrottle 1000] }
    !s.regs.shutDown && s.regs.stage == 15 && s.agenda.length == 1) = true := by decide
theorem test_liveMigration_queue :
    (let s := withQueue { queue0 with packets := [] } (withContext { context0 with phase := .out, saved := some ⟨[], []⟩ } base)
    (s.queue? 0).any fun q => q.context == 1 && q.qstate != 0) = true := by decide

/-! ### Numbers (ExactArithmetic) -/

theorem test_exact_sum : (fval .f32 0x3F800000).finite = true ∧ (fval .f32 0xC0400000).finite = true := by decide
theorem test_exact_dot : ∃ x : ℚ, (∀ y ∈ [0x3C00] ++ [0x3C00], (fval .f16 y).finite = true) ∧ (fval .f32 0).finite = true ∧
    x = (fval .f32 0).rat + (List.zipWith (fun y z => (fval .f16 y).rat * (fval .f16 z).rat) [0x3C00] [0x3C00]).sum ∧ x ≠ 0 := by
  refine ⟨_, by decide, by decide, rfl, ?_⟩
  have a : fval .f32 0 = .fin false 0 (-149) := by decide
  have b : fval .f16 0x3C00 = .fin false 1024 (-10) := by decide
  simp [a, b, FVal.rat, pow2]
theorem test_exact_quotient : (flushIn .f32 true 0x3F800000).finite = true ∧ (flushIn .f32 true 0x3F800000).rat ≠ 0 := by
  have a : flushIn .f32 true 0x3F800000 = .fin false 8388608 (-23) := by decide
  constructor
  · decide
  · simp [a, FVal.rat, pow2]
theorem test_exact_types : isFloatTy .f32 = true ∧ isFloatTy .n32 = false := by decide
/-- Two vectors of equal norm, whose sum, projection and interpolation are not zero. -/
def vecX : GVec := ⟨[1024, 0], 32768, 0⟩
def vecY : GVec := ⟨[0, 1024], 32768, 0⟩
theorem test_exact_vectors : vecX.n ≠ gZero ∧ vecY.n ≠ gZero ∧ (normVal vecX.n - normVal vecY.n) % 32768 = 0 ∧ vecX.c.length = vecY.c.length := by decide
theorem test_exact_gadd : ∃ x ∈ List.zipWith (fun x z => x * 2 ^ 30 + 1 * z * 2 ^ 30) vecX.c vecY.c, x ≠ 0 := by decide
theorem test_exact_gproj :
    ∃ x ∈ List.zipWith (fun x z => x * (vecY.c.map fun k => k * k).sum - (List.zipWith (· * ·) vecX.c vecY.c).sum * z) vecX.c vecY.c, x ≠ 0 := by decide
theorem test_exact_glerp : ∃ x ∈ List.zipWith (fun x z => (2 ^ 24 - (5 : Int)) * x + 5 * z) vecX.c vecY.c, x ≠ 0 := by decide
theorem test_exact_gcvt : ∃ xs : List FVal, (∀ x ∈ xs, x.finite = true) ∧ ∃ x ∈ xs, x.rat ≠ 0 :=
  ⟨[.fin false 1 0], by decide, .fin false 1 0, by simp, by simp [FVal.rat, pow2]⟩
theorem test_exact_weight : (fval .f32 0x3F000000).finite = true ∧ 0 ≤ (fval .f32 0x3F000000).rat := by
  have a : fval .f32 0x3F000000 = .fin false 8388608 (-24) := by decide
  refine ⟨by decide, ?_⟩
  simp [a, FVal.rat, pow2]


/-! ### Reset (ResetState, StepKeepsRegisters, StepKeepsMemory) -/

theorem test_reset_memory : State.reset.MemoryOk := ⟨rfl, rfl⟩
theorem test_reset_budget : tabGet rfBudgetReset State.reset.regs.rfbudget 3 = 0x000000F00000FF00#64 := by decide
theorem test_reset_registers : State.reset.regs.Ok where
  gways _ := by show 4 ≤ bits (12#32).toNat 4 0 ∧ bits (12#32).toNat 4 0 ≤ 16; decide
  shares _ := by show 90 ≤ 120 ∧ 75 ≤ 100; decide
  budget _ b := by
    show (b < 16 → rfBudgetReset.getLsbD (16 + b) = true → rfBudgetReset.getLsbD b = true) ∧
      (b < 8 → rfBudgetReset.getLsbD (40 + b) = true → rfBudgetReset.getLsbD (32 + b) = true)
    constructor <;> intro h <;> interval_cases b <;> decide
  mode _ := by show (0#64).toNat ≤ 1; decide
  port _ i h := by
    show 1 ≤ bits (0x124#64).toNat (4 * i + 3) (4 * i) ∧ bits (0x124#64).toNat (4 * i + 3) (4 * i) ≤ 15
    interval_cases i <;> decide
  rings _ := by show 6 ≤ (6#64).toNat % 32 ∧ (6#64).toNat % 32 ≤ 16; decide
  quantum _ := by show 40 ≤ bits vdcfgReset.toNat 47 32; decide
  power := by decide
  clock := by decide
  torwen _ := rfl
theorem test_reset_windows : State.reset.RegsOk where
  regs := test_reset_registers
  windows _ _ n m _ _ _ h _ := by exact absurd h (by show ¬winEn 0#128 = true; decide)
  forms _ n _ h := by exact absurd h (by show ¬winEn 0#128 = true; decide)
theorem test_reset_steps : (match step State.reset with
    | .next _ => true
    | _ => false) = true := by decide

/-! ### The feature chain -/

/-- The example after R387. -/
theorem test_feature_walk :
    featureWalk (fun off => if off = 0x1000 then featureHeader 1 1 0x40 0x1040 else if off = 0x1040 then featureHeader 9 1 0x40 0x1080
      else featureHeader 2 1 0x40 0x1040) (fun fid => if fid = 9 then none else some 1) 8 0x1000 = [(1, 0x1000, 1), (2, 0x1080, 1)] := by decide
/-- Table 18.4: every feature the model knows is found from the first entry. -/
theorem test_feature_chain :
    (featureWalk (windowWord State.reset .physical) (fun _ => some 1) 8 0x1000).map (·.1) = [1, 2, 3, 4, 5, 6, 7] := by decide

end Sys2Proof.Tests
end

/-! What a reader finds in each register right after reset. Every table is empty then (R7), so a reader finds its default
there, and each bound of `Regs.Ok` is a fact about one default word. -/
namespace Sys2Proof.Proofs.Reset
open Sys2Proof Sys2Proof.Machine

/-! ### The readers at reset -/

theorem reset_portWeight (die cls : Nat) : portWeight Regs.reset die cls = bits 0x124 (4 * cls + 3) (4 * cls) := by
  simp [portWeight, Regs.reset]

theorem reset_rcfgOf (ring : Nat) : rcfgOf Regs.reset ring = 6 := by simp [rcfgOf, Regs.reset]

theorem reset_ringLog2 (ring : Nat) : ringLog2 Regs.reset ring = 6 := by simp [ringLog2, reset_rcfgOf]

theorem reset_ringOn (ring : Nat) : ringOn Regs.reset ring = false := by
  rw [ringOn, reset_rcfgOf]
  decide

theorem reset_vdcfgOf (v : Nat) : vdcfgOf Regs.reset v = 0x000003E801000000 := by simp [vdcfgOf, vdcfgReset, Regs.reset]

theorem reset_vdQuantum (v : Nat) : vdQuantum Regs.reset v = 1000 := by simp [vdQuantum, reset_vdcfgOf, bits]

theorem reset_vdWeight (v : Nat) : vdWeight Regs.reset v = 1 := by simp [vdWeight, reset_vdcfgOf, bits]

theorem reset_part (p : Nat) : State.reset.part p = Partition.init := by simp [State.part, State.reset, Regs.reset]

theorem reset_winOf_disabled (die n : Nat) : winEn (winOf State.reset die n) = false := by
  simp [winOf, State.reset, winEn, winField, bits]

/-! ### Table 6.5: RFBUDGET protects no bank at reset -/

theorem rfBudgetReset_prot {b : Nat} (h : b < 16) : rfBudgetReset.getLsbD (16 + b) = false := by
  revert b
  decide

theorem rfBudgetReset_gprot {b : Nat} (h : b < 8) : rfBudgetReset.getLsbD (40 + b) = false := by
  revert b
  decide

/-! ### The invariants at reset -/

/-- Table 15.7: FARB holds the arbitration weights 4, 2 and 1. -/
theorem farbReset_weight {i : Nat} (h : i < 3) : 1 ≤ bits 0x124 (4 * i + 3) (4 * i) ∧ bits 0x124 (4 * i + 3) (4 * i) ≤ 15 := by
  revert i
  decide

theorem reset_regs_ok : Regs.reset.Ok where
  gways _ := by simp [Regs.reset, bits]
  shares _ := by simp [Regs.reset]
  budget _ b := by
    simp only [Regs.reset, tabGet_nil]
    constructor
    · intro hb hprot
      simp [rfBudgetReset_prot hb] at hprot
    · intro hb hprot
      simp [rfBudgetReset_gprot hb] at hprot
  mode _ := by simp [Regs.reset]
  port die i hi := by
    rw [reset_portWeight]
    exact farbReset_weight hi
  rings k := by simp [reset_ringLog2]
  quantum v := by simp [reset_vdQuantum]
  power := by decide
  clock := by decide
  torwen _ := rfl

/-- R209 asks something of an enabled window alone, and none is enabled at reset. -/
theorem reset_regsOk : State.reset.RegsOk where
  regs := reset_regs_ok
  windows d _ n _ _ _ _ hen _ := by simp [reset_winOf_disabled d n] at hen
  forms die n _ hen := by simp [reset_winOf_disabled die n] at hen

/-! ### The Reset columns -/

/-- Settles O58: the tables are empty, so every reader finds the Reset value, and the invariants hold of those values. -/
theorem resetState : Obligations.ResetState := by
  unfold Obligations.ResetState
  have hregs : State.reset.regs = Regs.reset := rfl
  refine ⟨fun k => ?_, rfl, rfl, rfl, rfl, rfl, rfl, rfl, reset_memoryOk, reset_regsOk⟩
  rw [hregs, reset_part, reset_ringLog2, reset_ringOn, reset_vdQuantum, reset_vdWeight]
  simp [Regs.reset, State.reset, rfBudgetReset, pteAt, pteFree, Partition.init]

end Sys2Proof.Proofs.Reset

/-! What an instruction finds when it issues: at the start of a run no t register and no fixed-latency result of an earlier run
(R23, R24), and otherwise the register file wherever no result is in flight or outstanding (R26, R31). -/
namespace Sys2Proof.Proofs.Reads
open Sys2Proof Sys2Proof.Machine

/-! ### The cycle of an issue -/

theorem foldl_max_le_iff (l : List Nat) (a n : Nat) : l.foldl Nat.max a ≤ n ↔ a ≤ n ∧ ∀ x ∈ l, x ≤ n := by
  induction l generalizing a with
  | nil => simp
  | cons y l ih => rw [List.foldl_cons, ih, List.forall_mem_cons, ← and_assoc]; exact and_congr_left' Nat.max_le

theorem maxNat_le_iff {l : List Nat} {n : Nat} : maxNat l ≤ n ↔ ∀ x ∈ l, x ≤ n := by
  simp [maxNat, foldl_max_le_iff]

/-- R24: a run begins when the fixed-latency results of the last one are readable. -/
theorem ready_le_issueCycle (s : State) (ag : Agent) (g : Group) {sp : Split} (hrun : sp.run = 0) :
    ∀ f ∈ sp.flight, f.ready ≤ issueCycle s ag g sp := by
  have h : maxNat (sp.flight.map (·.ready)) ≤ issueCycle s ag g sp := by
    rw [issueCycle, if_pos hrun]
    exact (Nat.le_max_right _ _).trans (Nat.le_max_right _ _)
  simpa using maxNat_le_iff.mp h

/-! ### Reading where no result is due -/

theorem foldl_eq_of_forall_mem {α β : Type} {f : α → β → α} {l : List β} (h : ∀ a, ∀ b ∈ l, f a b = a) (a : α) : l.foldl f a = a :=
  (List.foldl_ext f (fun a _ => a) a h).trans (List.foldl_fixed l)

/-- The choices of R22 and R31 arise only where a result is due. -/
theorem readAtCycle_eq_rawCell {s : State} {g : Group} {sp : Split} {now : Nat} {loc : Loc} {lane pick : Nat}
    (hflight : ∀ f ∈ sp.flight, cellIn f.old loc lane = none) (hpending : ∀ p ∈ sp.pending, cellIn p.cells loc lane = none) :
    readAtCycle s g sp now loc lane pick = rawCell g sp loc lane := by
  unfold readAtCycle
  dsimp only
  rw [foldl_eq_of_forall_mem fun v p hp => by rw [hpending p hp]]
  exact foldl_eq_of_forall_mem (fun v f hf => by rw [hflight f hf, ite_self]) _

theorem read_issuing {i : Instr} {s : State} {c : Ctx} (h : issuing i s = some c) {loc : Loc} {lane : Nat}
    (hlane : loc.inLane lane = true) (hflight : ∀ f ∈ c.sp.flight, cellIn f.old loc lane = none)
    (hpending : ∀ p ∈ c.sp.pending, cellIn p.cells loc lane = none) : c.read loc lane = s.regAtIssue c.ag loc lane := by
  rw [Ctx.read, readAtCycle_eq_rawCell hflight hpending]
  obtain ⟨ag, g, sp, f, w, -, hg, hs, -, -, rfl, -⟩ := issuing_some h
  exact rawCell_begin w _ hg hs loc lane hlane

/-! ### The start of a run -/

/-- R23: a result that was due in a t register is lost with its run. -/
theorem cellIn_dropT (p : Pending) (n lane : Nat) : cellIn (dropT p).cells (.t n) lane = none := by
  simp only [cellIn, dropT, Option.map_eq_none_iff, List.head?_eq_none_iff, List.filter_eq_nil_iff, List.mem_filter]
  rintro c ⟨-, hkept⟩ hc
  rw [Bool.and_eq_true, beq_iff_eq] at hc
  rw [hc.1] at hkept
  cases hkept

theorem beginSplit_flight_nil (w : Fields) {sp : Split} {now : Nat} (h : ∀ f ∈ sp.flight, f.ready ≤ now) :
    (beginSplit w sp now).flight = [] := by
  simpa [beginSplit, List.filter_eq_nil_iff] using h

theorem cellIn_beginSplit_pending (w : Fields) {sp : Split} (now : Nat) (hrun : sp.run = 0) (n lane : Nat) :
    ∀ p ∈ (beginSplit w sp now).pending, cellIn p.cells (.t n) lane = none := by
  simp [beginSplit, hrun, cellIn_dropT]

/-- At the start of a run every fixed-latency result of the split is readable (R24). -/
theorem flight_ready_of_start {i : Instr} {s : State} {c : Ctx} (h : issuing i s = some c) (hrun : c.sp.run = 0) {sp : Split}
    (hsp : s.split? c.ag = some sp) : ∀ f ∈ sp.flight, f.ready ≤ c.now := by
  obtain ⟨ag, g, sq, f, w, -, -, hsq, -, -, rfl, -⟩ := issuing_some h
  cases hsq.symm.trans hsp
  exact ready_le_issueCycle _ ag g hrun

/-- R23: at the start of a run the t registers of the split's lanes read zero, whatever is outstanding. -/
theorem read_t_of_start {i : Instr} {s : State} {c : Ctx} (h : issuing i s = some c) (hrun : c.sp.run = 0) {n lane : Nat}
    (hlane : lane < 32) (hmask : c.sp.mask.getLsbD lane = true) : c.read (.t n) lane = 0 := by
  obtain ⟨sp, hsp, hbegin, -, -⟩ := split?_issuing h
  have hready := flight_ready_of_start h hrun hsp
  rw [hbegin] at hrun hmask
  have hflight : c.sp.flight = [] := by rw [hbegin, beginSplit_flight_nil c.w hready]
  have hpending : ∀ p ∈ c.sp.pending, cellIn p.cells (.t n) lane = none := by
    rw [hbegin]
    exact cellIn_beginSplit_pending (sp := sp) c.w c.now hrun n lane
  rw [read_issuing h (by simpa [Loc.inLane] using hlane) (by simp [hflight]) hpending]
  simp only [State.regAtIssue, hsp]
  exact if_pos (by simpa using ⟨hrun, hmask⟩)

/-- Settles O52: at the start of a run nothing is due in a t register and R23 has cleared them; a read elsewhere meets no
choice of R22 or R31. -/
theorem temporariesStartAtZero : Obligations.TemporariesStartAtZero := by
  unfold Obligations.TemporariesStartAtZero
  intro i s c h
  refine ⟨fun hrun => ⟨fun sp hsp => flight_ready_of_start h hrun hsp, ?_⟩, ?_⟩
  · exact fun n l hl hmask => read_t_of_start h hrun hl hmask
  · exact fun loc l hl hflight hpending => read_issuing h hl hflight hpending

end Sys2Proof.Proofs.Reads

/-! What holds an instruction back (R21, R111): while a result that it awaits is outstanding its split waits and nothing else
changes; otherwise R69's checks decide. -/
namespace Sys2Proof.Proofs.Await
open Sys2Proof Sys2Proof.Machine
open Sys2Proof.Proofs.Reads (maxNat_le_iff)

/-! ### Instructions of the opcode table -/

theorem isSome_formOf (i : Instr) : (formOf i).isSome = (fieldsOf i).isSome := by cases i <;> rfl

/-- An instruction that has a word is executed by its issue; the machine's other steps have no fields. -/
theorem fieldsOf_none_or_exec_eq_runInstr (i : Instr) (s : State) : fieldsOf i = none ∨ ∃ eff, exec i s = runInstr i eff s := by
  cases i
  all_goals try exact .inl rfl
  all_goals exact .inr ⟨_, rfl⟩

theorem exec_eq_runInstr {i : Instr} {w : Fields} (hw : fieldsOf i = some w) (s : State) : ∃ eff, exec i s = runInstr i eff s :=
  (fieldsOf_none_or_exec_eq_runInstr i s).resolve_left (by simp [hw])

/-- CLK has an opcode of its own. -/
theorem eq_clk_of_op {i : Instr} {w : Fields} (hw : fieldsOf i = some w) (hop : (formOf i).map (·.op) = some 0x2E) : i = .clk w := by
  cases i
  case clk => cases hw; rfl
  all_goals cases hop

/-! ### A split that waits -/

/-- A split that waits for k and is ready as `ready` says. -/
def waiting (k : Wait) (ready : Split → Nat) (sp : Split) : Split := { sp with wait := some k, readyAt := ready sp }

/-- The state in which an issue begins: the turn is taken. -/
abbrev opened (s : State) : State := { s with turn := none, free := s.free + 1 }

theorem canIssue_opened (s : State) (ag : Agent) (g : Group) (sp : Split) : canIssue (opened s) ag g sp = canIssue s ag g sp := rfl

theorem launchStops_opened (s : State) (g : Group) : launchStops (opened s) g = launchStops s g := rfl

theorem holdsForResults_opened (f : Form) (s : State) (ag : Agent) (g : Group) (sp : Split) :
    holdsForResults f (opened s) ag g sp = holdsForResults f s ag g sp := rfl

/-- The state after an issue that left the agent's split waiting. -/
def heldBack (s : State) (ag : Agent) (k : Wait) (ready : Split → Nat) : State :=
  (opened s).modSplit ag (waiting k ready)

/-- The split waits for k, and no register, flag, byte, address or other split has changed. -/
structure WaitsUnchanged (s t : State) (ag : Agent) (sp : Split) (k : Wait) : Prop where
  bytes : ∀ a, t.byte a = s.byte a
  tags : t.tags = s.tags
  pc : t.pcOf ag = some sp.pc
  status : t.statusOf ag = some sp.status
  pending : t.pendingOf ag = some sp.pending
  wait : t.waitOf ag = some (some k)
  regs : ∀ loc lane, t.reg ag loc lane = s.reg ag loc lane
  others : ∀ a, a.slot < 65 → ag.slot < 65 → a ≠ ag → t.split? a = s.split? a

theorem groupKey_inj {c d i j : Nat} (hi : i < 65) (hj : j < 65) (h : groupKey c i = groupKey d j) : c = d ∧ i = j := by
  unfold groupKey at h
  omega

theorem split?_heldBack_self {s : State} {ag : Agent} {sp : Split} (hs : s.split? ag = some sp) (k : Wait) (ready : Split → Nat) :
    (heldBack s ag k ready).split? ag = some (waiting k ready sp) := by
  rw [heldBack, State.split?_modSplit, if_pos ⟨rfl, rfl⟩]
  exact congrArg _ hs

theorem split?_heldBack_of_ne (s : State) {a ag : Agent} (k : Wait) (ready : Split → Nat) (ha : a.slot < 65) (hag : ag.slot < 65)
    (hne : a ≠ ag) : (heldBack s ag k ready).split? a = s.split? a := by
  rw [heldBack, State.split?_modSplit, if_neg]
  · rfl
  · rintro ⟨hkey, hsplit⟩
    obtain ⟨hcore, hslot⟩ := groupKey_inj ha hag hkey
    cases a
    cases ag
    simp_all

theorem waitsUnchanged_heldBack {s : State} {ag : Agent} {sp : Split} (hs : s.split? ag = some sp) (k : Wait)
    (ready : Split → Nat) : WaitsUnchanged s (heldBack s ag k ready) ag sp k where
  bytes _ := rfl
  tags := rfl
  pc := by rw [State.pcOf, split?_heldBack_self hs]; rfl
  status := by rw [State.statusOf, split?_heldBack_self hs]; rfl
  pending := by rw [State.pendingOf, split?_heldBack_self hs]; rfl
  wait := by rw [State.waitOf, split?_heldBack_self hs]; rfl
  regs loc lane := by
    rw [heldBack, reg_modSplit _ ag ag (waiting k ready) (fun _ => rfl) fun _ => rfl]
    rfl
  others _ ha hag hne := split?_heldBack_of_ne s k ready ha hag hne

/-! ### What holds an instruction back -/

theorem awaits_eq_true_iff {w : Fields} {sp : Split} :
    awaits w sp = true ↔ ∃ p ∈ sp.pending, ∃ n, p.tag = some n ∧ w.await.getLsbD n = true := by
  rw [awaits, List.any_eq_true]
  refine exists_congr fun p => and_congr_right fun _ => ?_
  cases p.tag <;> simp

theorem awaits_eq_false_iff {w : Fields} {sp : Split} :
    awaits w sp = false ↔ ∀ p ∈ sp.pending, ∀ n, p.tag = some n → w.await.getLsbD n = false := by
  simp [← Bool.not_eq_true, awaits_eq_true_iff]

theorem holdsForResults_eq_false_iff {f : Form} {s : State} {ag : Agent} {g : Group} {sp : Split} :
    holdsForResults f s ag g sp = false ↔
      (f.op = 0x2E → sp.pending = [] ∧ ∀ x ∈ sp.flight, x.ready ≤ issueCycle s ag g sp) := by
  simp [holdsForResults, maxNat_le_iff]

section
variable {i : Instr} {f : Form} {w : Fields} {s : State} {ag : Agent} {g : Group} {sp : Split}
  (hf : formOf i = some f) (hw : fieldsOf i = some w) (hturn : s.turn = some ag) (hg : s.group? ag.core ag.slot = some g)
  (hs : s.split? ag = some sp) (hcan : canIssue s ag g sp = true) (hstop : launchStops s g = false) (hecc : s.ecc = none)
include hf hw hturn hg hs hcan hstop hecc

/-- R21: the instruction waits for its tags. -/
theorem exec_eq_heldBack_of_awaits (ha : awaits w sp = true) : exec i s = .next (heldBack s ag (.await w.await) (·.readyAt)) := by
  obtain ⟨eff, heff⟩ := exec_eq_runInstr hw s
  rw [heff]
  simp only [runInstr, hturn, hg, hs, hf, hw, issue, canIssue_opened, hcan, launchStops_opened, hstop, ha]
  exact congrArg _ (settleEcc_none hecc)

/-- R111: CLK waits for every result. -/
theorem exec_eq_heldBack_of_holdsForResults (ha : awaits w sp = false) (hr : holdsForResults f s ag g sp = true) :
    exec i s = .next (heldBack s ag .results fun sp => Nat.max sp.readyAt (maxNat (sp.flight.map (·.ready)))) := by
  obtain ⟨eff, heff⟩ := exec_eq_runInstr hw s
  rw [heff]
  simp only [runInstr, hturn, hg, hs, hf, hw, issue, canIssue_opened, hcan, launchStops_opened, hstop, ha,
    holdsForResults_opened, hr]
  exact congrArg _ (settleEcc_none hecc)

/-- With nothing to wait for, R69's checks stop the instruction, its guard skips it, or it issues. -/
theorem checked_of_not_held (hp : sp.parked = []) (ha : awaits w sp = false) (hr : holdsForResults f s ag g sp = false) :
    (∃ c, issuing i s = some c ∧ c.ag = ag) ∨ (∃ c, skipping i s = some c ∧ c.ag = ag) ∨
      ∃ c code, stopsAtIssue i s = some (c, code) ∧ c.ag = ag := by
  have hopen : (canIssue (opened s) ag g sp && sp.parked.isEmpty && !launchStops (opened s) g && !awaits w sp
      && !holdsForResults f (opened s) ag g sp && s.ecc.isNone) = true := by
    rw [canIssue_opened, hcan, hp, launchStops_opened, hstop, ha, holdsForResults_opened, hr, hecc]
    rfl
  obtain ⟨c, hc⟩ : ∃ c, c = issueView f w (opened s) ag g sp := ⟨_, rfl⟩
  have hag : c.ag = ag := by rw [hc]; rfl
  cases hcheck : precheck i f w ag.core c.g c.sp c.now c.x with
  | some code =>
    refine .inr (.inr ⟨c, code, ?_, hag⟩)
    simp [stopsAtIssue, hturn, hg, hs, hf, hw, hopen, ← hc, hcheck]
  | none =>
    cases hguard : f.splitWide && w.gn with
    | true =>
      refine .inr (.inl ⟨c, ?_, hag⟩)
      obtain ⟨hwide, hgn⟩ := Bool.and_eq_true_iff.mp hguard
      simp [skipping, hturn, hg, hs, hf, hw, hopen, ← hc, hcheck, hwide, hgn]
    | false =>
      refine .inl ⟨c, ?_, hag⟩
      simp [issuing, hturn, hg, hs, hf, hw, hopen, ← hc, hcheck, hguard]

end

/-- Settles O53: a result that the AWAIT mask names, or for CLK any result, leaves the split waiting in `heldBack`; without one
the issue comes to R69's checks. -/
theorem awaitHolds : Obligations.AwaitHolds := by
  unfold Obligations.AwaitHolds
  intro i w s ag g sp hw hturn hg hs hcan hp hstop hecc
  obtain ⟨f, hf⟩ := Option.isSome_iff_exists.mp ((isSome_formOf i).trans (by simp [hw]))
  refine ⟨fun ha => ?_, fun ha hclk hr => ?_, fun ha hr => ?_⟩
  · have k := waitsUnchanged_heldBack hs (.await w.await) (·.readyAt)
    have hexec := exec_eq_heldBack_of_awaits hf hw hturn hg hs hcan hstop hecc (awaits_eq_true_iff.mpr ha)
    exact ⟨_, hexec, k.bytes, k.tags, k.pc, k.status, k.pending, k.wait, k.regs, k.others⟩
  · have hop : f.op = 0x2E := by subst hclk; cases hf; rfl
    have hheld : holdsForResults f s ag g sp = true := by
      refine Bool.of_not_eq_false fun hnot => ?_
      obtain ⟨hpending, hflight⟩ := holdsForResults_eq_false_iff.mp hnot hop
      rcases hr with hr | ⟨x, hx, hlt⟩
      · exact hr hpending
      · exact Nat.not_lt.mpr (hflight x hx) hlt
    have k := waitsUnchanged_heldBack hs .results fun sp => Nat.max sp.readyAt (maxNat (sp.flight.map (·.ready)))
    have hexec := exec_eq_heldBack_of_holdsForResults hf hw hturn hg hs hcan hstop hecc (awaits_eq_false_iff.mpr ha) hheld
    exact ⟨_, hexec, k.bytes, k.pc, k.status, k.pending, k.wait, k.regs⟩
  · have hclear := holdsForResults_eq_false_iff.mpr fun hop => hr (eq_clk_of_op hw (by rw [hf, Option.map_some, hop]))
    exact checked_of_not_held hf hw hturn hg hs hcan hstop hecc hp (awaits_eq_false_iff.mpr ha) hclear

end Sys2Proof.Proofs.Await

/-! ROUND (R42, R43, R45). `roundGrid` takes the neighbour that the mode names. A pattern of `packMag` counts the steps of the
delivery grid, so that patterns and magnitudes compare alike, and the test against `Fmt.largest` is the one against R43's limit. -/
namespace Sys2Proof.Proofs.Rounding
open Sys2Proof Sys2Proof.Machine

/-! ### Powers of two -/

theorem pow2_pos (g : Int) : 0 < pow2 g := zpow_pos (by norm_num) g

theorem pow2_add (a b : Int) : pow2 (a + b) = pow2 a * pow2 b := zpow_add₀ (by norm_num) a b

theorem pow2_natCast (n : Nat) : pow2 n = (2 : ℚ) ^ n := zpow_natCast 2 n

theorem pow2_le_pow2 {a b : Int} : pow2 a ≤ pow2 b ↔ a ≤ b := zpow_le_zpow_iff_right₀ (by norm_num)

theorem pow2_lt_pow2 {a b : Int} : pow2 a < pow2 b ↔ a < b := zpow_lt_zpow_iff_right₀ (by norm_num)

theorem natCast_mul_pow2_add (k n : Nat) (g : Int) : (k : ℚ) * pow2 (g + n) = ((k * 2 ^ n : Nat) : ℚ) * pow2 g := by
  rw [add_comm, pow2_add, pow2_natCast]
  push_cast
  ring

/-! ### Rounding is unique -/

theorem nearest_unique {x : ℚ} {n k : ℤ} (hn : Nearest x n) (hk : Nearest x k) : n = k := by
  obtain ⟨hn1, hn2⟩ := abs_le.mp (show |(n : ℚ) - x| ≤ 1 / 2 by linarith [hn.near])
  obtain ⟨hk1, hk2⟩ := abs_le.mp (show |(k : ℚ) - x| ≤ 1 / 2 by linarith [hk.near])
  have h1 : n ≤ k + 1 := by exact_mod_cast (show (n : ℚ) ≤ k + 1 by linarith)
  have h2 : k ≤ n + 1 := by exact_mod_cast (show (k : ℚ) ≤ n + 1 by linarith)
  by_contra hne
  -- Two neighbours both half a step away would both be even.
  have tie : |(n : ℚ) - x| = 1 / 2 ∧ |(k : ℚ) - x| = 1 / 2 := by
    rcases (show n = k + 1 ∨ k = n + 1 by omega) with h | h
    · have hc : (n : ℚ) = k + 1 := by exact_mod_cast h
      exact ⟨by rw [abs_of_nonneg] <;> linarith, by rw [abs_of_nonpos] <;> linarith⟩
    · have hc : (k : ℚ) = n + 1 := by exact_mod_cast h
      exact ⟨by rw [abs_of_nonpos] <;> linarith, by rw [abs_of_nonneg] <;> linarith⟩
  have en := hn.even (by rw [tie.1]; norm_num)
  have ek := hk.even (by rw [tie.2]; norm_num)
  omega

/-- The mode rounds toward zero at this sign (Table 2.4). -/
abbrev Down (rm : Nat) (neg : Bool) : Prop := rm = 1 ∨ rm = 2 ∧ neg = true ∨ rm = 3 ∧ neg = false
/-- The mode rounds away from zero at this sign. -/
abbrev Up (rm : Nat) (neg : Bool) : Prop := rm = 2 ∧ neg = false ∨ rm = 3 ∧ neg = true

theorem mode_cases {rm : Nat} (neg : Bool) (h : rm < 4) : rm = 0 ∨ Down rm neg ∨ Up rm neg := by
  interval_cases rm <;> cases neg <;> decide

theorem roundAt_unique {rm : Nat} {neg : Bool} {x : ℚ} {q k : Nat} {g : Int} (hrm : rm < 4) (hq : RoundAt rm neg x q g)
    (hk : RoundAt rm neg x k g) : q = k := by
  have le_of : ∀ a b : Nat, (a : ℚ) * pow2 g < ((b : ℚ) + 1) * pow2 g → a ≤ b := fun a b h =>
    Nat.lt_succ_iff.mp (by exact_mod_cast lt_of_mul_lt_mul_right h (pow2_pos g).le)
  rcases mode_cases neg hrm with h | h | h
  · exact_mod_cast nearest_unique (hq.nearest h) (hk.nearest h)
  · obtain ⟨hq1, hq2⟩ := hq.down h
    obtain ⟨hk1, hk2⟩ := hk.down h
    exact le_antisymm (le_of q k (by linarith)) (le_of k q (by linarith))
  · obtain ⟨hq1, hq2⟩ := hq.up h
    obtain ⟨hk1, hk2⟩ := hk.up h
    exact le_antisymm (le_of q k (by linarith)) (le_of k q (by linarith))

/-! ### Rounding on a grid -/

/-- The mode takes the neighbour above of the number s steps above q. -/
def Above (rm : Nat) (neg : Bool) (q : Nat) (s : ℚ) : Prop := rm = 0 ∧ (1 / 2 < s ∨ s = 1 / 2 ∧ q % 2 = 1) ∨ Up rm neg ∧ 0 < s

section
variable {rm : Nat} {neg : Bool} {q : Nat} {s : ℚ}

theorem roundAt_above (h1 : s < 1) (g : Int) (h : Above rm neg q s) : RoundAt rm neg ((q + s) * pow2 g) (q + 1 : Nat) g := by
  have hg := pow2_pos g
  refine ⟨fun hrm => ?_, fun hdown => ?_, fun hup => ?_⟩
  · have hs : 1 / 2 < s ∨ s = 1 / 2 ∧ q % 2 = 1 := by
      rcases h with ⟨-, hs⟩ | ⟨hup, -⟩
      · exact hs
      · omega
    have hdist : |(((q + 1 : Nat) : ℤ) : ℚ) - (q + s) * pow2 g / pow2 g| = 1 - s := by
      rw [mul_div_cancel_right₀ _ hg.ne', ← abs_of_pos (sub_pos.mpr h1)]
      push_cast
      ring_nf
    constructor
    · rw [hdist]
      rcases hs with hs | ⟨hs, -⟩ <;> linarith
    · rw [hdist]
      intro htie
      rcases hs with hs | ⟨-, hodd⟩
      · linarith
      · omega
  · rcases h with ⟨hrm, -⟩ | ⟨hup, -⟩
    · omega
    · rcases hup with ⟨hrm, hneg⟩ | ⟨hrm, hneg⟩ <;> simp [hrm, hneg] at hdown
  · have hs : 0 < s := by
      rcases h with ⟨hrm, -⟩ | ⟨-, hs⟩
      · omega
      · exact hs
    constructor <;> push_cast <;> nlinarith

theorem roundAt_below (h0 : 0 ≤ s) (h1 : s < 1) (g : Int) (h : ¬Above rm neg q s) : RoundAt rm neg ((q + s) * pow2 g) q g := by
  have hg := pow2_pos g
  obtain ⟨hnear, haway⟩ := not_or.mp h
  refine ⟨fun hrm => ?_, fun _ => ?_, fun hup => ?_⟩
  · obtain ⟨hhalf, heven⟩ := not_or.mp fun hs => hnear ⟨hrm, hs⟩
    have hdist : |((q : ℤ) : ℚ) - (q + s) * pow2 g / pow2 g| = s := by
      rw [mul_div_cancel_right₀ _ hg.ne', Int.cast_natCast, sub_add_cancel_left, abs_neg, abs_of_nonneg h0]
    refine ⟨by rw [hdist]; linarith, fun htie => ?_⟩
    have hq : ¬q % 2 = 1 := fun hodd => heven ⟨by rw [hdist] at htie; linarith, hodd⟩
    omega
  · constructor <;> nlinarith
  · have hs : s = 0 := le_antisymm (not_lt.mp fun hs => haway ⟨hup, hs⟩) h0
    constructor <;> nlinarith

end

theorem roundAt_exact (rm : Nat) (neg : Bool) (q : Nat) (g : Int) : RoundAt rm neg (q * pow2 g) q g := by
  have h := roundAt_below (rm := rm) (neg := neg) (q := q) le_rfl one_pos g fun h => by norm_num [Above] at h
  rwa [add_zero] at h

/-- x is a number that a magnitude and its sticky bit stand for: m * 2^e, or more by less than 2^e (the numbers of `roundGrid`). -/
structure Magnitude (m : Nat) (e : Int) (sticky : Bool) (x : ℚ) : Prop where
  low : (m : ℚ) * pow2 e ≤ x
  high : x < ((m : ℚ) + 1) * pow2 e
  exact : sticky = false ↔ (m : ℚ) * pow2 e = x

theorem magnitude_exact (m : Nat) (e : Int) : Magnitude m e false (m * pow2 e) where
  low := le_rfl
  high := by linarith [pow2_pos e]
  exact := by simp

section
variable {t : ℚ} (h0 : 0 ≤ t) (h1 : t < 1)
include h0 h1

theorem natCast_lt_add_fraction (a r : Nat) : (a : ℚ) < r + t ↔ a < r ∨ a = r ∧ t ≠ 0 := by
  constructor
  · intro h
    have hle : a < r + 1 := by exact_mod_cast (show (a : ℚ) < r + 1 by linarith)
    refine (Nat.lt_succ_iff_lt_or_eq.mp hle).imp_right fun hr => ⟨hr, fun ht => ?_⟩
    rw [hr, ht, add_zero] at h
    exact lt_irrefl _ h
  · rintro (h | ⟨rfl, ht⟩)
    · have : (a : ℚ) < r := by exact_mod_cast h
      linarith
    · linarith [lt_of_le_of_ne h0 ht.symm]

theorem natCast_eq_add_fraction (a r : Nat) : (r : ℚ) + t = a ↔ a = r ∧ t = 0 := by
  constructor
  · intro h
    have hlt : ¬a < r := fun hlt => by
      have : (a : ℚ) + 1 ≤ r := by exact_mod_cast hlt
      linarith
    have hle : a < r + 1 := by exact_mod_cast (show (a : ℚ) < r + 1 by linarith)
    obtain rfl : a = r := by omega
    exact ⟨rfl, by linarith⟩
  · rintro ⟨rfl, rfl⟩
    exact add_zero _

/-- r + t of 2^d, with t below one and not 0 where sticky, as a fraction of a step. -/
theorem roundsUp_iff {rm : Nat} {neg : Bool} {q r d : Nat} {sticky : Bool} (hrm : rm < 4) (hd : d ≠ 0)
    (ht : sticky = false ↔ t = 0) : roundsUp rm neg q r d sticky = true ↔ Above rm neg q ((r + t) / 2 ^ d) := by
  obtain ⟨k, rfl⟩ := Nat.exists_eq_succ_of_ne_zero hd
  have hpow : 2 ^ k.succ = 2 * 2 ^ k := pow_succ' 2 k
  have hD : (2 : ℚ) ^ k.succ = 2 * (2 ^ k : Nat) := by exact_mod_cast hpow
  have hk : (0 : ℚ) < (2 ^ k : Nat) := by positivity
  have hhalf : ((r : ℚ) + t) / 2 ^ k.succ = (r + t) / (2 ^ k : Nat) / 2 := by rw [hD, mul_comm, div_div]
  have hlt : 1 / 2 < ((r : ℚ) + t) / 2 ^ k.succ ↔ 2 ^ k < r ∨ 2 ^ k = r ∧ sticky ≠ false := by
    rw [ne_eq, ht, ← ne_eq, ← natCast_lt_add_fraction h0 h1, hhalf, div_lt_div_iff_of_pos_right two_pos, one_lt_div hk]
  have heq : ((r : ℚ) + t) / 2 ^ k.succ = 1 / 2 ↔ 2 ^ k = r ∧ sticky = false := by
    rw [ht, ← natCast_eq_add_fraction h0 h1, hhalf, div_left_inj' two_ne_zero, div_eq_one_iff_eq hk.ne']
  have hpos : 0 < ((r : ℚ) + t) / 2 ^ k.succ ↔ r ≠ 0 ∨ sticky ≠ false := by
    have h := natCast_lt_add_fraction h0 h1 0 r
    rw [Nat.cast_zero] at h
    rw [div_pos_iff_of_pos_right (by positivity), h, ne_eq t, ← ht]
    cases r <;> simp
  rw [Above, hlt, heq, hpos]
  clear hlt heq hpos ht
  interval_cases rm
  · cases sticky <;> simp [roundsUp, Up, hpow] <;> omega
  · simp [roundsUp, Up]
  · simp [roundsUp, Up, and_comm]
  · simp [roundsUp, Up, and_comm]

end

/-- A number as steps of a coarser grid and the fraction of a step that is left. -/
theorem magnitude_split {m d : Nat} {e : Int} {sticky : Bool} {x : ℚ} (hx : Magnitude m e sticky x) :
    ∃ t, 0 ≤ t ∧ t < 1 ∧ (sticky = false ↔ t = 0) ∧
      x = ((m / 2 ^ d : Nat) + ((m % 2 ^ d : Nat) + t) / 2 ^ d) * pow2 (e + d) := by
  have he := pow2_pos e
  have hsplit : (m : ℚ) = 2 ^ d * (m / 2 ^ d : Nat) + (m % 2 ^ d : Nat) := by exact_mod_cast (Nat.div_add_mod m (2 ^ d)).symm
  refine ⟨x / pow2 e - m, ?_, ?_, ?_, ?_⟩
  · rw [sub_nonneg, le_div_iff₀ he]
    exact hx.low
  · rw [sub_lt_iff_lt_add', div_lt_iff₀ he]
    exact hx.high
  · rw [hx.exact, sub_eq_zero, eq_comm, div_eq_iff he.ne']
  · rw [pow2_add, pow2_natCast]
    field_simp
    linear_combination pow2 e * hsplit

/-! ### The neighbour on a grid -/

theorem roundGrid_finer (rm : Nat) (neg : Bool) (m d : Nat) (g : Int) : roundGrid rm neg m (g + d) g false = (m * 2 ^ d, true) := by
  simp [roundGrid]

theorem roundGrid_coarser (rm : Nat) (neg : Bool) (m : Nat) {d : Nat} (e : Int) (sticky : Bool) (hd : d ≠ 0) :
    roundGrid rm neg m e (e + d) sticky =
      (m / 2 ^ d + (if roundsUp rm neg (m / 2 ^ d) (m % 2 ^ d) d sticky then 1 else 0), m % 2 ^ d == 0 && !sticky) := by
  simp [roundGrid, hd]

/-- R42: the mode's neighbour on the grid of spacing 2^g, and whether it is the number itself. -/
theorem roundGrid_spec {rm m : Nat} {neg : Bool} {e g : Int} {sticky : Bool} {x : ℚ} (hrm : rm < 4) (hx : Magnitude m e sticky x)
    (hsticky : sticky = true → e < g) : RoundAt rm neg x (roundGrid rm neg m e g sticky).1 g ∧
      ((roundGrid rm neg m e g sticky).2 = true ↔ ((roundGrid rm neg m e g sticky).1 : ℚ) * pow2 g = x) := by
  rcases le_or_gt g e with hge | hlt
  · obtain ⟨d, rfl⟩ := Int.le.dest hge
    obtain rfl : sticky = false := Bool.eq_false_iff.mpr fun h => absurd (hsticky h) (not_lt.mpr hge)
    rw [roundGrid_finer, ← hx.exact.mp rfl, natCast_mul_pow2_add]
    exact ⟨roundAt_exact _ _ _ _, by simp⟩
  · obtain ⟨d, rfl⟩ := Int.le.dest hlt.le
    obtain ⟨t, h0, h1, ht, rfl⟩ := magnitude_split (d := d) hx
    have hd : d ≠ 0 := by omega
    obtain ⟨s, hs⟩ : ∃ s, s = (((m % 2 ^ d : Nat) : ℚ) + t) / 2 ^ d := ⟨_, rfl⟩
    have hup := roundsUp_iff (neg := neg) (q := m / 2 ^ d) (r := m % 2 ^ d) h0 h1 hrm hd ht
    have hr : ((m % 2 ^ d : Nat) : ℚ) + 1 ≤ 2 ^ d := by exact_mod_cast Nat.mod_lt m (Nat.two_pow_pos d)
    have hs0 : 0 ≤ s := by rw [hs]; positivity
    have hs1 : s < 1 := by rw [hs, div_lt_one (by positivity)]; linarith
    have hexact : (m % 2 ^ d == 0 && !sticky) = true ↔ s = 0 := by
      have h := natCast_eq_add_fraction h0 h1 0 (m % 2 ^ d)
      rw [Nat.cast_zero] at h
      rw [hs, div_eq_zero_iff, or_iff_left (by positivity), h, ← ht]
      simp [eq_comm (a := 0)]
    rw [← hs] at hup ⊢
    rw [roundGrid_coarser _ _ _ _ _ hd, hexact, mul_left_inj' (pow2_pos _).ne']
    by_cases habove : Above rm neg (m / 2 ^ d) s
    · have hpos : 0 < s := by rcases habove with ⟨-, hs | ⟨hs, -⟩⟩ | ⟨-, hs⟩ <;> linarith
      rw [if_pos (hup.mpr habove)]
      refine ⟨roundAt_above hs1 _ habove, iff_of_false hpos.ne' ?_⟩
      rw [Nat.cast_add, Nat.cast_one, add_right_inj]
      exact hs1.ne'
    · rw [if_neg (mt hup.mp habove), add_zero]
      exact ⟨roundAt_below hs0 hs1 _ habove, by rw [left_eq_add]⟩

/-! ### Tininess -/

theorem binade_unique {x : ℚ} {n : Nat} {g k : Int} (hg : x < pow2 (g + n + 1)) (hg' : pow2 (g + n) ≤ x) (hk : x < pow2 (k + n + 1))
    (hk' : pow2 (k + n) ≤ x) : g = k := by
  have h1 := pow2_lt_pow2.mp (hg'.trans_lt hk)
  have h2 := pow2_lt_pow2.mp (hk'.trans_lt hg)
  omega

/-- R45's rounding to the format's precision is the only one. -/
theorem tiny_iff {f : Fmt} {rm : Nat} {neg : Bool} {x : ℚ} {q : Nat} {g : Int} (hrm : rm < 4) (htop : x < pow2 (g + f.mb + 1))
    (hfine : pow2 (g + f.mb) ≤ x) (hq : RoundAt rm neg x q g) : Tiny f rm neg x ↔ (q : ℚ) * pow2 g < pow2 f.emin := by
  constructor
  · rintro ⟨k, h, htop', hfine', hk, htiny⟩
    obtain rfl := binade_unique htop hfine htop' hfine'
    rwa [roundAt_unique hrm hq hk]
  · exact fun h => ⟨q, g, htop, hfine, hq, h⟩

theorem steps_lt_pow2_iff (q : Nat) (g k : Int) : (q : ℚ) * pow2 g < pow2 k ↔ if k ≤ g then q = 0 else q < 2 ^ (k - g).toNat := by
  rcases le_or_gt k g with hle | hlt
  · rw [if_pos hle]
    constructor
    · intro h
      by_contra hq
      have hone : (1 : ℚ) ≤ q := by exact_mod_cast Nat.one_le_iff_ne_zero.mpr hq
      exact not_lt.mpr ((pow2_le_pow2.mpr hle).trans (le_mul_of_one_le_left (pow2_pos g).le hone)) h
    · rintro rfl
      simpa using pow2_pos k
  · obtain ⟨d, rfl⟩ := Int.le.dest hlt.le
    rw [if_neg (not_le.mpr hlt), pow2_add, mul_comm (pow2 g), mul_lt_mul_iff_left₀ (pow2_pos g), pow2_natCast,
      add_sub_cancel_left, Int.toNat_natCast]
    norm_cast

/-- A sticky bit beside more digits than the format has lies below the grid. -/
theorem lt_of_sticky {f : Fmt} {m : Nat} {e g : Int} {sticky : Bool} (hsticky : sticky = true → f.mb < m.log2)
    (hg : (m.log2 : Int) + e - f.mb ≤ g) (h : sticky = true) : e < g := by
  have := hsticky h
  omega

theorem isTiny_eq {f : Fmt} {rm m : Nat} {neg : Bool} {e g : Int} {sticky : Bool} (hg : g = (m.log2 : Int) + e - f.mb) :
    isTiny f rm neg m e sticky = if f.emin ≤ g then (roundGrid rm neg m e g sticky).1 == 0
      else decide ((roundGrid rm neg m e g sticky).1 < 2 ^ (f.emin - g).toNat) := by
  subst hg
  rfl

section
variable {m : Nat} {e : Int} {sticky : Bool} {x : ℚ} (hx : Magnitude m e sticky x) (hm : m ≠ 0)
include hx hm

theorem magnitude_binade : pow2 (m.log2 + e) ≤ x ∧ x < pow2 (m.log2 + e + 1) := by
  have he := pow2_pos e
  have hlow : (2 : ℚ) ^ m.log2 ≤ m := by exact_mod_cast Nat.log2_self_le hm
  have hhigh : (m : ℚ) + 1 ≤ 2 ^ (m.log2 + 1) := by exact_mod_cast Nat.lt_log2_self
  constructor
  · rw [pow2_add, pow2_natCast]
    exact (mul_le_mul_of_nonneg_right hlow he.le).trans hx.low
  · rw [add_right_comm, pow2_add, ← Nat.cast_succ, pow2_natCast]
    exact hx.high.trans_le (mul_le_mul_of_nonneg_right hhigh he.le)

theorem isTiny_iff {f : Fmt} {rm : Nat} {neg : Bool} (hrm : rm < 4) (hsticky : sticky = true → f.mb < m.log2) :
    isTiny f rm neg m e sticky = true ↔ Tiny f rm neg x := by
  obtain ⟨hlow, htop⟩ := magnitude_binade hx hm
  obtain ⟨g, hg⟩ : ∃ g, g = (m.log2 : Int) + e - f.mb := ⟨_, rfl⟩
  obtain ⟨hround, -⟩ := roundGrid_spec (neg := neg) (g := g) hrm hx (lt_of_sticky hsticky hg.ge)
  have hgmb : g + f.mb = m.log2 + e := by omega
  rw [tiny_iff hrm (by rwa [hgmb]) (by rwa [hgmb]) hround]
  rw [isTiny_eq hg, steps_lt_pow2_iff]
  split <;> simp

end

/-! ### The delivery grid -/

theorem roundAt_within_step {rm : Nat} {neg : Bool} {x : ℚ} {q : Nat} {g : Int} (hrm : rm < 4) (hq : RoundAt rm neg x q g) :
    ((q : ℚ) - 1) * pow2 g < x ∧ x < ((q : ℚ) + 1) * pow2 g := by
  have hg := pow2_pos g
  rcases mode_cases neg hrm with h | h | h
  · obtain ⟨h1, h2⟩ := abs_le.mp (show |((q : ℤ) : ℚ) - x / pow2 g| ≤ 1 / 2 by linarith [(hq.nearest h).near])
    rw [Int.cast_natCast] at h1 h2
    exact ⟨(lt_div_iff₀ hg).mp (by linarith), (div_lt_iff₀ hg).mp (by linarith)⟩
  · obtain ⟨h1, h2⟩ := hq.down h
    exact ⟨by linarith, h2⟩
  · obtain ⟨h1, h2⟩ := hq.up h
    exact ⟨h2, by linarith⟩

theorem roundAt_le_of_lt {rm : Nat} {neg : Bool} {x : ℚ} {q n : Nat} {g : Int} (hrm : rm < 4) (hq : RoundAt rm neg x q g)
    (h : x < pow2 (g + n)) : q ≤ 2 ^ n := by
  have hlt := (roundAt_within_step hrm hq).1.trans h
  rw [add_comm, pow2_add, pow2_natCast, mul_lt_mul_iff_left₀ (pow2_pos g), sub_lt_iff_lt_add] at hlt
  exact Nat.lt_succ_iff.mp (by exact_mod_cast hlt)

theorem le_roundAt_of_le {rm : Nat} {neg : Bool} {x : ℚ} {q n : Nat} {g : Int} (hrm : rm < 4) (hq : RoundAt rm neg x q g)
    (h : pow2 (g + n) ≤ x) : 2 ^ n ≤ q := by
  have hlt := h.trans_lt (roundAt_within_step hrm hq).2
  rw [add_comm, pow2_add, pow2_natCast, mul_lt_mul_iff_left₀ (pow2_pos g)] at hlt
  exact Nat.lt_succ_iff.mp (by exact_mod_cast hlt)

/-! ### Patterns -/

/-- A pattern counts the steps of the delivery grid: q steps of 2^n subnormals each. -/
theorem packMag_eq {f : Fmt} {q n : Nat} (hn : n ≠ 0 → 2 ^ f.mb ≤ q) :
    packMag f q (f.emin - f.mb + n) = n * 2 ^ f.mb + q := by
  have hpow := pow_succ 2 f.mb
  rcases lt_or_ge q (2 ^ f.mb) with hlt | hge
  · obtain rfl : n = 0 := by by_contra h; exact absurd (hn h) (not_le.mpr hlt)
    simp [packMag, hlt]
  · rw [packMag, if_neg (not_lt.mpr hge)]
    by_cases htop : q = 2 ^ (f.mb + 1)
    · have hexp : (f.emin - f.mb + n + 1 + f.mb + f.bias).toNat = n + 2 := by rw [Fmt.emin]; omega
      simp only [if_pos htop, hexp]
      rw [htop, hpow, Nat.sub_self]
      ring
    · have hexp : (f.emin - f.mb + n + f.mb + f.bias).toNat = n + 1 := by rw [Fmt.emin]; omega
      simp only [if_neg htop, hexp]
      rw [add_one_mul]
      omega

theorem steps_le_iff {b n k q c : Nat} (hq : q ≤ 2 ^ (b + 1)) (hn : n ≠ 0 → 2 ^ b ≤ q) (hlow : 2 ^ b ≤ c) (hhigh : c < 2 ^ (b + 1)) :
    q * 2 ^ n ≤ c * 2 ^ k ↔ n * 2 ^ b + q ≤ k * 2 ^ b + c := by
  have hpow := pow_succ 2 b
  rcases lt_trichotomy n k with hlt | rfl | hgt
  · obtain ⟨d, rfl⟩ := Nat.exists_eq_add_of_lt hlt
    refine iff_of_true ?_ ?_
    · calc q * 2 ^ n ≤ 2 ^ (b + 1) * 2 ^ n := Nat.mul_le_mul_right _ hq
        _ ≤ 2 ^ (b + 1) * 2 ^ (n + d) := Nat.mul_le_mul_left _ (Nat.pow_le_pow_right two_pos (Nat.le_add_right n d))
        _ = 2 ^ b * 2 ^ (n + d + 1) := by ring
        _ ≤ c * 2 ^ (n + d + 1) := Nat.mul_le_mul_right _ hlow
    · nlinarith
  · rw [Nat.mul_le_mul_right_iff (Nat.two_pow_pos n)]
    omega
  · obtain ⟨d, rfl⟩ := Nat.exists_eq_add_of_lt hgt
    have hq' := hn (by omega)
    refine iff_of_false (not_le.mpr ?_) (not_le.mpr ?_)
    · calc c * 2 ^ k < 2 ^ (b + 1) * 2 ^ k := Nat.mul_lt_mul_of_pos_right hhigh (Nat.two_pow_pos k)
        _ ≤ 2 ^ (b + 1) * 2 ^ (k + d) := Nat.mul_le_mul_left _ (Nat.pow_le_pow_right two_pos (Nat.le_add_right k d))
        _ = 2 ^ b * 2 ^ (k + d + 1) := by ring
        _ ≤ q * 2 ^ (k + d + 1) := Nat.mul_le_mul_right _ hq'
    · nlinarith

/-- The largest finite value of Table 2.3 is `topMant` steps of 2^`topExp` subnormals. -/
def topExp (f : Fmt) : Nat := 2 ^ f.eb - if f.ieee then 3 else 2
def topMant (f : Fmt) : Nat := if f = .e4m3 then 2 ^ (f.mb + 1) - 2 else 2 ^ (f.mb + 1) - 1

theorem largest_eq (f : Fmt) : f.largest = topExp f * 2 ^ f.mb + topMant f := by cases f <;> rfl

theorem topMant_bounds (f : Fmt) : 2 ^ f.mb ≤ topMant f ∧ topMant f < 2 ^ (f.mb + 1) := by cases f <;> decide

theorem limit_eq (f : Fmt) : f.limit = topMant f * pow2 (f.emin - f.mb + topExp f) := by
  cases f <;> simp [Fmt.limit, topMant, topExp, Fmt.emin, Fmt.mb, Fmt.eb, Fmt.bias, Fmt.ieee] <;> norm_num

theorem largest_lt_signBit (f : Fmt) : f.largest < f.signBit := by cases f <;> decide

theorem largest_lt_infBits {f : Fmt} (h : f.ieee = true) : f.largest < f.infBits := by cases f <;> revert h <;> decide

theorem steps_le_limit_iff {f : Fmt} {q n : Nat} (hq : q ≤ 2 ^ (f.mb + 1)) (hn : n ≠ 0 → 2 ^ f.mb ≤ q) :
    (q : ℚ) * pow2 (f.emin - f.mb + n) ≤ f.limit ↔ n * 2 ^ f.mb + q ≤ f.largest := by
  obtain ⟨hlow, hhigh⟩ := topMant_bounds f
  rw [limit_eq, largest_eq, natCast_mul_pow2_add, natCast_mul_pow2_add, mul_le_mul_iff_left₀ (pow2_pos _), Nat.cast_le,
    steps_le_iff hq hn hlow hhigh]

theorem withSign_fields {f : Fmt} (neg : Bool) {p : Nat} (h : p < f.signBit) :
    (f.withSign neg p / f.signBit % 2 == 1) = neg ∧ f.withSign neg p / 2 ^ f.mb % 2 ^ f.eb = p / 2 ^ f.mb ∧
      f.withSign neg p % 2 ^ f.mb = p % 2 ^ f.mb := by
  have hsign : f.signBit = 2 ^ f.eb * 2 ^ f.mb := pow_add 2 f.eb f.mb
  have hexp : p / 2 ^ f.mb < 2 ^ f.eb := Nat.div_lt_of_lt_mul (by rwa [mul_comm, ← hsign])
  cases neg with
  | false => simp [Fmt.withSign, Nat.div_eq_of_lt h, Nat.mod_eq_of_lt hexp]
  | true =>
    have hpos : 0 < f.signBit := Nat.two_pow_pos _
    refine ⟨?_, ?_, ?_⟩
    · simp [Fmt.withSign, Nat.add_div_left _ hpos, Nat.div_eq_of_lt h]
    · simp [Fmt.withSign, hsign, Nat.mod_eq_of_lt hexp, Nat.add_comm _ p, Nat.add_mul_div_right]
    · simp [Fmt.withSign, hsign]

theorem fval_withSign {f : Fmt} (neg : Bool) {p : Nat} (h : p ≤ f.largest) : fval f (f.withSign neg p) =
    if p / 2 ^ f.mb = 0 then .fin neg (p % 2 ^ f.mb) (f.emin - f.mb)
      else .fin neg (2 ^ f.mb + p % 2 ^ f.mb) ((p / 2 ^ f.mb : Nat) - f.bias - f.mb) := by
  obtain ⟨hneg, hexp, hmant⟩ := withSign_fields neg (h.trans_lt (largest_lt_signBit f))
  have hinf : (f.ieee && p / 2 ^ f.mb == 2 ^ f.eb - 1) = false := by
    cases hieee : f.ieee with
    | false => rfl
    | true =>
      have hlt : p / 2 ^ f.mb < 2 ^ f.eb - 1 := Nat.div_lt_of_lt_mul (by rw [mul_comm]; exact h.trans_lt (largest_lt_infBits hieee))
      simp [hlt.ne]
  have hnan : ¬(f = .e4m3 ∧ p / 2 ^ f.mb = 2 ^ f.eb - 1 ∧ p % 2 ^ f.mb = 7) := by
    rintro ⟨rfl, htop, hseven⟩
    simp only [Fmt.mb, Fmt.eb, Fmt.largest] at htop hseven h
    omega
  simp [fval, hneg, hexp, hmant, hinf, hnan]

/-- The pattern of q steps reads as q steps. -/
theorem fval_steps {f : Fmt} (neg : Bool) {q n : Nat} (hq : q ≤ 2 ^ (f.mb + 1)) (hn : n ≠ 0 → 2 ^ f.mb ≤ q)
    (h : n * 2 ^ f.mb + q ≤ f.largest) : ∃ k d, fval f (f.withSign neg (n * 2 ^ f.mb + q)) = .fin neg k d ∧
      (k : ℚ) * pow2 d = q * pow2 (f.emin - f.mb + n) := by
  rw [fval_withSign neg h]
  have hb := Nat.two_pow_pos f.mb
  have hpow := pow_succ 2 f.mb
  rw [Nat.mul_add_mod', add_comm (n * _), Nat.add_mul_div_right _ _ hb]
  rcases lt_or_ge q (2 ^ f.mb) with hlt | hge
  · obtain rfl : n = 0 := by by_contra h; exact absurd (hn h) (not_le.mpr hlt)
    rw [Nat.div_eq_of_lt hlt, Nat.mod_eq_of_lt hlt, if_pos rfl]
    exact ⟨_, _, rfl, by simp⟩
  · have hexp : ∀ k : Nat, ((k + 1 + n : Nat) : Int) - f.bias - f.mb = f.emin - f.mb + n + k := fun k => by rw [Fmt.emin]; omega
    rcases hq.lt_or_eq with hlt | rfl
    · have hdiv : q / 2 ^ f.mb = 0 + 1 := Nat.div_eq_of_lt_le (by omega) (by omega)
      have hmod : q % 2 ^ f.mb = q - 2 ^ f.mb := by rw [Nat.mod_eq_sub_mod hge, Nat.mod_eq_of_lt (by omega)]
      rw [hdiv, hmod, if_neg (by omega), hexp, Nat.add_sub_cancel' hge]
      exact ⟨_, _, rfl, by simp⟩
    · rw [hpow, Nat.mul_div_cancel_left _ hb, Nat.mul_mod_right, if_neg (by omega), hexp 1]
      refine ⟨_, _, rfl, ?_⟩
      rw [natCast_mul_pow2_add]
      simp

/-! ### ROUND -/

theorem overflowBits_eq {f : Fmt} {rm : Nat} {neg : Bool} {x : ℚ} (hrm : rm < 4) (hx : x ≠ 0) (hneg : decide (x < 0) = neg) :
    overflowBits f rm neg = f.withSign neg
      (if f.saturates = true ∨ rm = 1 ∨ rm = 2 ∧ x < 0 ∨ rm = 3 ∧ 0 < x then f.largest else f.infBits) := by
  have hpos : 0 < x ↔ ¬x < 0 := ⟨fun h => h.le.not_gt, fun h => (not_lt.mp h).lt_of_ne' hx⟩
  by_cases hs : f.saturates = true
  · simp [overflowBits, hs]
  · subst hneg
    interval_cases rm <;> by_cases hx0 : x < 0 <;> simp [overflowBits, hs, hpos, hx0]

theorem roundMag_eq {f : Fmt} {rm m : Nat} {fl neg : Bool} {e g : Int} {sticky : Bool} (hm : m ≠ 0)
    (hg : g = max ((m.log2 : Int) + e - f.mb) (f.emin - f.mb)) : roundMag f rm fl neg m e sticky =
      if (fl && isTiny f rm neg m e sticky) = true then ⟨f.withSign neg 0, exUF + exNX⟩
      else if (roundGrid rm neg m e g sticky).1 ≠ 0 ∧ f.largest < packMag f (roundGrid rm neg m e g sticky).1 g then
        ⟨overflowBits f rm neg, exOF + exNX⟩
      else ⟨f.withSign neg (packMag f (roundGrid rm neg m e g sticky).1 g),
        if (roundGrid rm neg m e g sticky).2 then 0 else exNX + (if isTiny f rm neg m e sticky then exUF else 0)⟩ := by
  subst hg
  simp [roundMag, hm]

/-- R42: the grid of x, and how many of its steps the rounded number can be. -/
theorem onGrid_steps {f : Fmt} {rm : Nat} {neg : Bool} {x : ℚ} {q : Nat} {g : Int} (hrm : rm < 4) (h : OnGrid f rm neg x q g) :
    ∃ n : Nat, g = f.emin - f.mb + n ∧ q ≤ 2 ^ (f.mb + 1) ∧ (n ≠ 0 → 2 ^ f.mb ≤ q) := by
  obtain ⟨n, hn⟩ := Int.le.dest h.low
  refine ⟨n, hn.symm, roundAt_le_of_lt hrm h.round (by rw [Nat.cast_succ, ← add_assoc]; exact h.top), fun h0 => ?_⟩
  exact le_roundAt_of_le hrm h.round (h.fine.resolve_left (by omega))

section
variable {f : Fmt} {rm m : Nat} {neg : Bool} {e g : Int} {sticky : Bool} {x : ℚ} (hrm : rm < 4) (hm : m ≠ 0)
  (hsticky : sticky = true → f.mb < m.log2) (hg : g = max ((m.log2 : Int) + e - f.mb) (f.emin - f.mb))
include hrm hm hsticky

include hg in
theorem onGrid_roundGrid (hx : Magnitude m e sticky x) : OnGrid f rm neg x (roundGrid rm neg m e g sticky).1 g where
  low := by omega
  top := (magnitude_binade hx hm).2.trans_le (pow2_le_pow2.mpr (by omega))
  fine := by
    rcases max_choice ((m.log2 : Int) + e - f.mb) (f.emin - f.mb) with h | h
    · exact .inr ((pow2_le_pow2.mpr (by omega)).trans (magnitude_binade hx hm).1)
    · exact .inl (hg.trans h)
  round := (roundGrid_spec hrm hx (lt_of_sticky hsticky (le_of_max_le_left hg.ge))).1

/-- R42, R43, R45, R46: ROUND of x, of which m and the sticky bit are the magnitude. A sticky bit stands beside more digits than
the format has. -/
theorem roundMag_roundsTo (fl : Bool) (hneg : decide (x < 0) = neg) (hx : Magnitude m e sticky |x|) :
    RoundsTo f rm fl x (roundMag f rm fl neg m e sticky) := by
  obtain ⟨g, hg⟩ : ∃ g, g = max ((m.log2 : Int) + e - f.mb) (f.emin - f.mb) := ⟨_, rfl⟩
  have htiny := isTiny_iff (f := f) (neg := neg) hx hm hrm hsticky
  have hgrid := onGrid_roundGrid (neg := neg) hrm hm hsticky hg hx
  have hexact := (roundGrid_spec (neg := neg) (g := g) hrm hx (lt_of_sticky hsticky (le_of_max_le_left hg.ge))).2
  have hx0 : x ≠ 0 := abs_pos.mp ((pow2_pos _).trans_le (magnitude_binade hx hm).1)
  rw [roundMag_eq hm hg]
  generalize roundGrid rm neg m e g sticky = y at hgrid hexact ⊢
  obtain ⟨q, exact⟩ := y
  obtain ⟨n, rfl, hq, hn⟩ := onGrid_steps hrm hgrid
  have hlimit := steps_le_limit_iff hq hn
  dsimp only at hgrid hexact hlimit hq hn ⊢
  rw [packMag_eq hn]
  constructor
  · intro hfl ht
    rw [hneg] at ht ⊢
    rw [if_pos (by rw [hfl, htiny.mpr ht]; rfl)]
  · intro hkept
    rw [hneg] at hkept ⊢
    rw [if_neg (by rwa [Bool.and_eq_true, htiny])]
    refine ⟨q, _, hgrid, fun hle => ?_, fun hgt => ?_⟩
    · rw [if_neg fun h => absurd (hlimit.mp hle) (not_le.mpr h.2)]
      refine ⟨fval_steps neg hq hn (hlimit.mp hle), fun h => if_pos (hexact.mpr h), fun h => ⟨fun ht => ?_, fun ht => ?_⟩⟩
      · simp only [if_neg (mt hexact.mp h), if_pos (htiny.mpr ht)]
        rfl
      · simp only [if_neg (mt hexact.mp h), if_neg (mt htiny.mp ht)]
        rfl
    · have hpat := not_le.mp (mt hlimit.mpr (not_le.mpr hgt))
      have hq0 : q ≠ 0 := by
        rintro rfl
        obtain rfl : n = 0 := by by_contra h; exact absurd (hn h) (by simp)
        omega
      rw [if_pos ⟨hq0, hpat⟩]
      exact ⟨rfl, overflowBits_eq hrm hx0 hneg⟩

end

/-! ### Finite values, zeros and infinities -/

theorem abs_signed (neg : Bool) {y : ℚ} (hy : 0 < y) :
    |(if neg then -1 else 1) * y| = y ∧ decide ((if neg then -1 else 1) * y < 0) = neg := by
  cases neg <;> simp [hy, hy.le, abs_of_pos]

/-- An exact zero sum has the sign that R42 names. -/
theorem addFin_opposite (rm : Nat) (neg : Bool) (m : Nat) (e : Int) : addFin rm neg m e (!neg) m e = (rm == 3, 0, e) := by
  have hsum : signedAt neg m e e + signedAt (!neg) m e e = 0 := by cases neg <;> simp [signedAt]
  simp [addFin, hsum]

/-- Settles O54: `roundMag` is ROUND, and zeros, infinities and exact zero sums are cases of their own. -/
theorem rounding : Obligations.Rounding := by
  unfold Obligations.Rounding
  refine ⟨fun f rm neg m e hrm hm => ?_, fun f rm neg e => ⟨rfl, rfl⟩, fun f rm m neg fl e _ => ?_⟩
  · have hpos : 0 < (m : ℚ) * pow2 e := mul_pos (by exact_mod_cast Nat.pos_of_ne_zero hm) (pow2_pos e)
    obtain ⟨habs, hneg⟩ := abs_signed neg hpos
    rw [mul_assoc]
    exact roundMag_roundsTo hrm hm (fun h => by cases h) false hneg (by rw [habs]; exact magnitude_exact m e)
  · rw [faddV, addFin_opposite]
    rfl

end Sys2Proof.Proofs.Rounding

/-! RED and SCAN (R163 to R165): the levels that `treeOf` folds are the rows of nodes of `treeNode`, and an instruction that
writes registers and sets flags completes as `Retired` says. -/
namespace Sys2Proof.Proofs.Reductions
open Sys2Proof Sys2Proof.Machine

/-! ### The fixed tree -/

theorem treeLevel_nodes (f : Part → Part → Part) (leaf : Nat → Option Part) (j k n : Nat) :
    treeLevel f ((List.range' (2 * k) (2 * n)).map (treeNode f leaf j)) = (List.range' k n).map (treeNode f leaf (j + 1)) := by
  induction n generalizing k with
  | zero => rfl
  | succ n ih =>
    rw [Nat.mul_succ, List.range'_succ, List.range'_succ, List.range'_succ]
    simp only [List.map_cons, treeLevel, treeNode]
    rw [show 2 * k + 1 + 1 = 2 * (k + 1) from rfl, ih]
    congr 1
    cases treeNode f leaf j (2 * k) <;> cases treeNode f leaf j (2 * k + 1) <;> rfl

theorem treeLevels_nodes (f : Part → Part → Part) (leaf : Nat → Option Part) (j n : Nat) :
    (List.range j).foldl (fun l _ => treeLevel f l) ((List.range' 0 (2 ^ j * n)).map leaf)
      = (List.range' 0 n).map (treeNode f leaf j) := by
  induction j generalizing n with
  | zero => rw [pow_zero, one_mul]; rfl
  | succ j ih =>
    rw [List.range_succ, List.foldl_append, pow_succ, mul_assoc, ih]
    exact treeLevel_nodes f leaf j 0 n

theorem treeOf_eq_treeNode (f : Part → Part → Part) (leaf : Nat → Option Part) :
    treeOf f ((List.range 32).map leaf) = treeNode f leaf 5 0 := by
  rw [treeOf, List.range_eq_range' (n := 32)]
  exact congrArg (List.headD · none) (treeLevels_nodes f leaf 5 1)

/-! ### The leaves -/

theorem fval_f32_of_exponent_zero {b : Nat} (h : b / 2 ^ 23 % 2 ^ 8 = 0) :
    fval .f32 b = .fin (b / 2 ^ 31 % 2 == 1) (b % 2 ^ 23) (-149) := by
  simp only [fval, Fmt.signBit, Fmt.mb, Fmt.eb, h]
  rfl

theorem deliver_of_flushIn_zero {f : Fmt} {flush neg : Bool} {b : Nat} {e : Int} (h : flushIn f flush b = .fin neg 0 e) :
    deliver f flush b = f.withSign neg 0 := by
  rw [deliver, h]
  rfl

/-- A NaN, an infinity or a normal number, whose coefficient is no zero. -/
theorem deliver_f32_of_exponent_ne_zero (flush : Bool) {b : Nat} (h : b / 2 ^ 23 % 2 ^ 8 ≠ 0) : deliver .f32 flush b = b := by
  simp only [deliver, flushIn, fval, Fmt.signBit, Fmt.mb, Fmt.eb, h, reduceCtorEq, false_and, if_false]
  split_ifs <;> simp_all

theorem withSign_f32_zero {b : Nat} (hb : b < 2 ^ 32) : Fmt.withSign .f32 (b / 2 ^ 31 % 2 == 1) 0 = b / 2 ^ 31 * 2 ^ 31 := by
  rcases (by omega : b / 2 ^ 31 = 0 ∨ b / 2 ^ 31 = 1) with h | h <;> rw [h] <;> rfl

theorem deliver_f32_of_exponent_zero (flush : Bool) {b : Nat} (hb : b < 2 ^ 32) (h : b / 2 ^ 23 % 2 ^ 8 = 0) :
    deliver .f32 flush b = if flush then b / 2 ^ 31 * 2 ^ 31 else b := by
  have hval := fval_f32_of_exponent_zero h
  cases flush with
  | true =>
    have hin : flushIn .f32 true b = .fin (b / 2 ^ 31 % 2 == 1) 0 (-149) := by
      rw [flushIn, hval]
      exact if_pos (decide_eq_true (Nat.mod_lt b (Nat.two_pow_pos 23)))
    rw [deliver_of_flushIn_zero hin, withSign_f32_zero hb, if_pos rfl]
  | false =>
    have hin : flushIn .f32 false b = .fin (b / 2 ^ 31 % 2 == 1) (b % 2 ^ 23) (-149) := by rw [flushIn, hval]; rfl
    rw [if_neg Bool.false_ne_true]
    cases hm : b % 2 ^ 23 with
    | zero =>
      rw [hm] at hin
      rw [deliver_of_flushIn_zero hin, withSign_f32_zero hb]
      omega
    | succ m =>
      rw [deliver, hin, hm]
      rfl

/-! ### Exceptions beside a result -/

theorem steady_setFlags (s : State) (ag : Agent) (ex : Nat) : Steady s (setFlags s ag ex) ag := by
  unfold setFlags
  split
  · exact Steady.refl s ag
  · exact Steady.modSplit s ag _ fun _ _ => rfl

theorem reg_setFlags (s : State) (ag : Agent) (ex : Nat) (loc : Loc) (lane : Nat) :
    (setFlags s ag ex).reg ag loc lane = s.reg ag loc lane := by
  unfold setFlags
  split
  · rfl
  · refine reg_modSplit s ag ag _ ?_ ?_ loc lane <;> exact fun _ => rfl

theorem statusOf_setFlags (s : State) (ag : Agent) (ex : Nat) :
    (setFlags s ag ex).statusOf ag = (s.statusOf ag).map fun x => x ||| BitVec.ofNat 32 ex := by
  unfold setFlags
  split
  · next h => simp [h]
  · simp only [State.statusOf, State.split?_modSplit, and_self, if_true, Option.map_map]
    rfl

theorem pcOf_setFlags (s : State) (ag : Agent) (ex : Nat) : (setFlags s ag ex).pcOf ag = s.pcOf ag := by
  unfold setFlags
  split
  · rfl
  · simp only [State.pcOf, State.split?_modSplit, and_self, if_true, Option.map_map]
    rfl

/-- A result of fixed latency with exceptions. -/
theorem retired_of_fixed_flags {i : Instr} {s : State} {c : Ctx} {eff : Ctx → Eff} (h : issuing i s = some c) (L ex : Nat)
    {cells : List RegCell} {dst : Loc → Nat → Option Nat} (hc : CellsGive cells dst)
    (he : eff c = .done (setFlags (c.fixed L cells) c.ag ex)) : ∃ t, runInstr i eff s = .next t ∧ Retired s t c dst ex := by
  obtain ⟨sp, -, -, hsp, -⟩ := split?_issuing h
  obtain ⟨g, hg⟩ : ∃ g, c.s.group? c.ag.core c.ag.slot = some g := by
    cases hg : c.s.group? c.ag.core c.ag.slot with
    | none => simp [State.split?, hg] at hsp
    | some g => exact ⟨g, rfl⟩
  obtain ⟨hsteady, hregs, hstatus, hpc⟩ := writeFixed_spec (c.now + c.x + L) hg hsp hc
  refine retired_of_done h he (hsteady.trans (steady_setFlags _ _ ex)) (fun loc lane hl => ?_) ?_ ?_
  · rw [reg_setFlags]
    exact hregs loc lane hl
  · rw [statusOf_setFlags]
    exact congrArg _ hstatus
  · rw [pcOf_setFlags]
    exact hpc

/-! ### Cells -/

theorem cellsGive_nil : CellsGive [] fun _ _ => none := ⟨by simp, by simp, by simp⟩

theorem cellsGive_k (n : Nat) {x : Nat} (hx : x < 2 ^ 64) :
    CellsGive [⟨.k n, 0, x⟩] fun loc _ => if loc = .k n then some x else none where
  plain := by simp [Loc.plain, Loc.inLane]
  gives c hc := by
    obtain rfl := List.mem_singleton.mp hc
    rw [if_pos rfl, if_neg (by simp), Loc.holds, Nat.mod_eq_of_lt hx]
  only loc lane y hl hy := by
    have hloc : loc = .k n := by_contra fun h => by simp [h] at hy
    subst hloc
    exact ⟨_, List.mem_singleton_self _, rfl, (beq_iff_eq.mp hl).symm⟩

theorem cellsGive_v {lanes : List Nat} (hl : ∀ l ∈ lanes, l < 32) (n : Nat) {val : Nat → Nat} (hval : ∀ l, val l < 2 ^ 32) :
    CellsGive (lanes.map fun l => ⟨.v n, l, val l⟩) fun loc lane => if loc = .v n ∧ lane ∈ lanes then some (val lane) else none where
  plain := by simpa [Loc.plain, Loc.inLane] using hl
  gives := by
    rintro _ hc
    obtain ⟨l, hm, rfl⟩ := List.mem_map.mp hc
    rw [if_pos ⟨rfl, hm⟩, if_neg (by simp), Loc.holds, Nat.mod_eq_of_lt (hval l)]
  only loc lane y _ hy := by
    obtain ⟨hloc, hm⟩ : loc = .v n ∧ lane ∈ lanes := by_contra fun h => by simp [h] at hy
    exact ⟨_, List.mem_map.mpr ⟨lane, hm, rfl⟩, hloc.symm, rfl⟩

theorem cellsGive_congr {cells : List RegCell} {d e : Loc → Nat → Option Nat} (h : CellsGive cells d)
    (he : ∀ loc lane, e loc lane = d loc lane) : CellsGive cells e := by rwa [funext₂ he]

/-- A register of no cell receives nothing. -/
theorem eq_none_of_forall_loc_ne {cells : List RegCell} {dst : Loc → Nat → Option Nat} (h : CellsGive cells dst) {loc : Loc}
    {lane : Nat} (hl : loc.inLane lane = true) (hne : ∀ x ∈ cells, x.loc ≠ loc) : dst loc lane = none :=
  Option.eq_none_iff_forall_ne_some.mpr fun v hv => by
    obtain ⟨x, hm, hloc, -⟩ := h.only loc lane v hl hv
    exact hne x hm hloc

/-- Two lists of cells that share no register. -/
theorem cellsGive_append {xs ys : List RegCell} {dx dy : Loc → Nat → Option Nat} (hx : CellsGive xs dx) (hy : CellsGive ys dy)
    (hne : ∀ x ∈ xs, ∀ y ∈ ys, x.loc ≠ y.loc) : CellsGive (xs ++ ys) fun loc lane => (dy loc lane).or (dx loc lane) where
  plain z hz := (List.mem_append.mp hz).elim (hx.plain z) (hy.plain z)
  gives z hz := by
    rcases List.mem_append.mp hz with hz | hz
    · rw [eq_none_of_forall_loc_ne hy (hx.plain z hz).2 fun y hm => (hne z hz y hm).symm, Option.none_or]
      exact hx.gives z hz
    · rw [eq_none_of_forall_loc_ne hx (hy.plain z hz).2 fun x hm => hne x hm z hz, Option.or_none]
      exact hy.gives z hz
  only loc lane v hl hv := by
    rcases Option.or_eq_some_iff.mp hv with hv | ⟨-, hv⟩
    · obtain ⟨y, hm, h⟩ := hy.only loc lane v hl hv
      exact ⟨y, List.mem_append_right _ hm, h⟩
    · obtain ⟨x, hm, h⟩ := hx.only loc lane v hl hv
      exact ⟨x, List.mem_append_left _ hm, h⟩

/-! ### What an instruction that issues has passed -/

theorem fieldsOf_issuing {i : Instr} {s : State} {c : Ctx} (h : issuing i s = some c) : fieldsOf i = some c.w := by
  obtain ⟨ag, g, sp, f, w, -, -, -, -, hw, rfl, -⟩ := issuing_some h
  exact hw

theorem operandsOk_of_precheck {i : Instr} {f : Form} {w : Fields} {core : Nat} {g : Group} {sp : Split} {now x : Nat}
    (h : precheck i f w core g sp now x = none) : operandsOk i w = true := by
  unfold precheck at h
  split_ifs at h
  simp_all

theorem operandsOk_issuing {i : Instr} {s : State} {c : Ctx} (h : issuing i s = some c) : operandsOk i c.w = true := by
  obtain ⟨ag, g, sp, f, w, -, -, -, -, -, rfl, -, -, -, -, -, -, hcheck, -⟩ := issuing_some h
  exact operandsOk_of_precheck hcheck

theorem length_lanes_issuing {i : Instr} {s : State} {c : Ctx} (h : issuing i s = some c) : c.lanes.length ≤ 32 := by
  obtain ⟨ag, g, sp, f, w, -, -, -, -, -, rfl, -⟩ := issuing_some h
  have hact : (lanesOf sp.mask).length ≤ 32 := (List.length_filter_le ..).trans_eq List.length_range
  exact (List.length_filter_le ..).trans hact

/-! ### A member's value -/

/-- Neither form takes a capability register as A (Table 7.2), so an f32 member has 32 bits. -/
theorem a_lt_issuing {i : Instr} {s : State} {c : Ctx} (h : issuing i s = some c) (hi : i = .red c.w ∨ i = .scan c.w)
    (ht : c.w.ty = .f32) (l : Nat) : c.a l < 2 ^ 32 := by
  have hok := operandsOk_issuing h
  have hcls (n : BitVec 4) : c.w.a ≠ .a n := fun hn => by
    rcases hi with rfl | rfl <;> simp [operandsOk, formOf, pTy, posAccepts, setVAL, opndCls, hn] at hok
  have hlt : c.a l < 2 ^ (32 * tyRegs c.w.ty) := opVal_lt c c.w.ty _ c.w.a l hcls (by rw [ht]; decide) rfl
  rw [ht] at hlt
  exact hlt

theorem leafVal_eq {c : Ctx} (ha : c.w.ty = .f32 → ∀ l, c.a l < 2 ^ 32) (l : Nat) :
    c.leafVal l = if c.w.ty = .f32 then
        ((if c.fflush = true ∧ c.a l / 2 ^ 23 % 256 = 0 then c.a l / 2 ^ 31 * 2 ^ 31 else c.a l : Nat) : Int)
      else elemVal c.w.ty (c.a l) := by
  by_cases ht : c.w.ty = .f32
  · rw [Ctx.leafVal, if_pos (beq_iff_eq.mpr ht), if_pos ht]
    by_cases hexp : c.a l / 2 ^ 23 % 2 ^ 8 = 0
    · rw [deliver_f32_of_exponent_zero _ (ha ht l) hexp]
      congr 1
      exact if_congr (and_iff_left hexp).symm rfl rfl
    · rw [deliver_f32_of_exponent_ne_zero _ hexp, if_neg fun h => hexp h.2]
  · rw [Ctx.leafVal, if_neg (by simpa using ht), if_neg ht]

theorem reduce_eq_treeValue {c : Ctx} (ha : c.w.ty = .f32 → ∀ l, c.a l < 2 ^ 32) (q : List Nat) : c.reduce q = treeValue c q := by
  have hleaf : (fun v => ((q.filter fun l => c.vlane l == v).head?).map fun l => (⟨c.leafVal l, 0⟩ : Part)) = treeLeaf c q := by
    funext v
    simp only [treeLeaf, List.head?_filter, leafVal_eq ha]
  simp only [Ctx.reduce, hleaf, treeOf_eq_treeNode, treeValue]
  cases treeNode c.combine (treeLeaf c q) 5 0 <;> rfl

/-! ### What the instructions do -/

theorem scan_filter (c : Ctx) (l : Nat) :
    ((c.peers l).filter fun x => if c.w.var.getLsbD 3 then decide (c.vlane x < c.vlane l) else decide (c.vlane x ≤ c.vlane l))
      = scanSet c l := by
  refine List.filter_congr fun x _ => ?_
  cases c.w.var.getLsbD 3 <;> simp [Bool.beq_eq_decide_eq, le_iff_lt_or_eq]

/-- SCAN's effect, over the set Q of each lane. -/
def scanEffect (c : Ctx) : Eff :=
  .done (setFlags (c.fixed 8 (destCells c c.w.ty (tyRegs c.w.ty) fun l => c.reduced (c.reduce (scanSet c l)))) c.ag
    (exUnion (c.lanes.map fun l => (c.reduce (scanSet c l)).ex)))

theorem exec_scan (w : Fields) (s : State) : exec (.scan w) s = runInstr (.scan w) scanEffect s := by
  show execScan w s = _
  simp only [execScan, scan_filter]
  rfl

theorem exec_red (w : Fields) (s : State) : exec (.red w) s = runInstr (.red w) Ctx.red s := rfl

/-- RED's count cells in a v register (R164). -/
def countCells (c : Ctx) (n : Nat) : List RegCell :=
  if c.w.var.getLsbD 3 then c.lanes.map fun l => ⟨.v n, l, (participants c l).length⟩ else []

theorem red_v {c : Ctx} {n : BitVec 8} (hd : c.w.d = .v n) :
    c.red = .done (setFlags (c.fixed 8 (destCells c c.w.ty (tyRegs c.w.ty) (fun l => c.reduced (c.reduce (participants c l)))
      ++ countCells c (n.toNat + tyRegs c.w.ty))) c.ag (exUnion (c.lanes.map fun l => (c.reduce (participants c l)).ex))) := by
  simp only [Ctx.red, hd]
  rfl

theorem red_zero {c : Ctx} (hd : c.w.d = .zero) :
    c.red = .done (setFlags (c.fixed 8 []) c.ag (exUnion (c.lanes.map fun l => (c.reduce (participants c l)).ex))) := by
  simp only [Ctx.red, hd, destCells]
  rfl

theorem red_k {c : Ctx} {n : BitVec 6} (hd : c.w.d = .k n) (hone : c.oneGroup = true) :
    c.red = .done (setFlags (c.fixed 8 ([⟨.k n.toNat, 0, extK c.w.ty (tyRegs c.w.ty) (c.reduced (c.reduce c.lanes))⟩]
      ++ if c.w.var.getLsbD 3 then [⟨.k (n.toNat + 1), 0, c.lanes.length⟩] else [])) c.ag (c.reduce c.lanes).ex) := by
  simp only [Ctx.red, hd, hone]
  cases c.w.var.getLsbD 3 <;> rfl

/-! ### Completion -/

theorem extK_lt (t : Ty) (regs v : Nat) : extK t regs v < 2 ^ 64 := by
  unfold extK
  split_ifs
  · exact wrap_lt _ 64
  · exact (Nat.mod_lt _ (Nat.two_pow_pos 32)).trans (by decide)
  · exact Nat.mod_lt _ (Nat.two_pow_pos 64)

theorem scan_retired {w : Fields} {s : State} {c : Ctx} (h : issuing (.scan w) s = some c) :
    ∃ t, exec (.scan w) s = .next t ∧
      Retired s t c (destValue c c.w.ty (tyRegs c.w.ty) fun l => c.reduced (treeValue c (scanSet c l)))
        (exUnion (c.lanes.map fun l => (treeValue c (scanSet c l)).ex)) := by
  obtain rfl : w = c.w := Option.some.inj (fieldsOf_issuing h)
  have htree := reduce_eq_treeValue fun ht => a_lt_issuing h (.inr rfl) ht
  rw [exec_scan]
  refine retired_of_fixed_flags h 8 _ (destCells_gives c _ _ _ (lanes_issuing h)) ?_
  simp only [scanEffect, htree]

/-- The count stands in the register after those of the result. -/
theorem destCells_loc_ne_countCells_loc {n : BitVec 8} (hd : c.w.d = .v n) (t : Ty) (regs : Nat) (val : Nat → Nat) :
    ∀ x ∈ destCells c t regs val, ∀ y ∈ countCells c (n.toNat + regs), x.loc ≠ y.loc := by
  intro x hx y hy
  simp only [destCells, hd, List.mem_flatMap, List.mem_map, List.mem_range] at hx
  obtain ⟨_, -, i, hi, rfl⟩ := hx
  have hyloc : y.loc = .v (n.toNat + regs) := by
    unfold countCells at hy
    split_ifs at hy
    · obtain ⟨_, -, rfl⟩ := List.mem_map.mp hy
      rfl
    · cases hy
  rw [hyloc]
  simpa using hi.ne

section
variable {w : Fields} {s : State} {c : Ctx} (h : issuing (.red w) s = some c)
include h

theorem red_tree (q : List Nat) : c.reduce q = treeValue c q := by
  obtain rfl : w = c.w := Option.some.inj (fieldsOf_issuing h)
  exact reduce_eq_treeValue (fun ht => a_lt_issuing h (.inl rfl) ht) q

theorem red_zero_retired (hd : c.w.d = .zero) : ∃ t, exec (.red w) s = .next t ∧
    Retired s t c noValue (exUnion (c.lanes.map fun l => (treeValue c (participants c l)).ex)) := by
  rw [exec_red]
  refine retired_of_fixed_flags h 8 _ cellsGive_nil ?_
  simp only [red_zero hd, red_tree h]

theorem red_k_retired {n : BitVec 6} (hd : c.w.d = .k n) (hone : c.oneGroup = true) : ∃ t, exec (.red w) s = .next t ∧
    Retired s t c (fun loc _ =>
        if loc = .k n.toNat then some (extK c.w.ty (tyRegs c.w.ty) (c.reduced (treeValue c c.lanes)))
        else if c.w.var.getLsbD 3 = true ∧ loc = .k (n.toNat + 1) then some c.lanes.length else none)
      (treeValue c c.lanes).ex := by
  rw [exec_red]
  refine retired_of_fixed_flags h 8 _ ?_ (by rw [red_k hd hone, red_tree h])
  have hresult := cellsGive_k n.toNat (extK_lt c.w.ty (tyRegs c.w.ty) (c.reduced (treeValue c c.lanes)))
  cases c.w.var.getLsbD 3 with
  | false => simpa using hresult
  | true =>
    have hcount := cellsGive_k (n.toNat + 1) ((length_lanes_issuing h).trans_lt (by decide))
    refine cellsGive_congr (cellsGive_append hresult hcount (by simp)) fun loc _ => ?_
    by_cases hloc : loc = .k n.toNat <;> simp [hloc]

theorem countCells_give (n : Nat) : CellsGive (countCells c n) fun loc lane =>
    if c.w.var.getLsbD 3 = true ∧ loc = .v n ∧ lane ∈ c.lanes then some (participants c lane).length else none := by
  unfold countCells
  cases c.w.var.getLsbD 3 with
  | false => simpa using cellsGive_nil
  | true =>
    have hcount (l : Nat) : (participants c l).length < 2 ^ 32 :=
      ((List.length_filter_le ..).trans (length_lanes_issuing h)).trans_lt (by decide)
    simpa using cellsGive_v (lanes_issuing h) n hcount

theorem red_v_retired {n : BitVec 8} (hd : c.w.d = .v n) : ∃ t, exec (.red w) s = .next t ∧
    Retired s t c (fun loc lane =>
        if c.w.var.getLsbD 3 = true ∧ loc = .v (n.toNat + tyRegs c.w.ty) ∧ lane ∈ c.lanes then some (participants c lane).length
        else destValue c c.w.ty (tyRegs c.w.ty) (fun l => c.reduced (treeValue c (participants c l))) loc lane)
      (exUnion (c.lanes.map fun l => (treeValue c (participants c l)).ex)) := by
  have hresult := destCells_gives c c.w.ty (tyRegs c.w.ty) (fun l => c.reduced (treeValue c (participants c l))) (lanes_issuing h)
  have hcells := cellsGive_append hresult (countCells_give h _) (destCells_loc_ne_countCells_loc hd _ _ _)
  rw [exec_red]
  refine retired_of_fixed_flags h 8 _ (cellsGive_congr hcells fun loc lane => ?_) (by simp only [red_v hd, red_tree h])
  split_ifs <;> rfl

end

/-- Settles O5: the sets that the effects reduce over are those of the statement, `reduce` over a set is its `treeValue`, and the
cells of the result and of RED's count share no register. -/
theorem reductions : Obligations.Reductions := by
  unfold Obligations.Reductions
  exact ⟨fun w s c h => scan_retired h, fun w n s c h => red_v_retired h, fun w n s c h => red_k_retired h,
    fun w s c h => red_zero_retired h⟩

end Sys2Proof.Proofs.Reductions

/-! What an access and an acquire leave behind: a core's translations and L1 lines alone, which no view of an instruction shows
(R198, R202). -/
namespace Sys2Proof.Proofs.Caches
open Sys2Proof Sys2Proof.Machine

/-! ### States that differ in caches alone -/

/-- t is s but for the translations and L1 lines that its cores hold. -/
structure CachesOnly (s t : State) : Prop where
  others : t = { s with cores := t.cores }
  cores : ∀ k, (t.core k).calm = (s.core k).calm

theorem cachesOnly_refl (s : State) : CachesOnly s s := ⟨rfl, fun _ => rfl⟩

theorem cachesOnly_trans {s t u : State} (h : CachesOnly s t) (k : CachesOnly t u) : CachesOnly s u where
  others := by rw [k.others, h.others]
  cores n := (k.cores n).trans (h.cores n)

theorem cachesOnly_modCore (s : State) (k : Nat) {f : Core → Core} (hf : ∀ x, (f x).calm = x.calm) : CachesOnly s (s.modCore k f) where
  others := rfl
  cores n := by
    rw [State.core_modCore]
    split_ifs
    · exact hf _
    · rfl

theorem cachesOnly_l1Drop (s : State) (k : Nat) (p : L1Line → Bool) : CachesOnly s (l1Drop s k p) := by
  unfold l1Drop
  split_ifs
  · exact cachesOnly_refl s
  · exact cachesOnly_modCore s k fun _ => rfl

theorem cachesOnly_l1Fresh (s : State) (k pa n : Nat) : CachesOnly s (l1Fresh s k pa n) := by
  dsimp only [l1Fresh]
  split_ifs
  · exact cachesOnly_refl s
  · exact cachesOnly_l1Drop s k _
  · exact cachesOnly_refl s

theorem cachesOnly_tlbFill (s : State) (k : Nat) (e : TlbEntry) : CachesOnly s (tlbFill s k e) := by
  unfold tlbFill
  split_ifs
  · exact cachesOnly_refl s
  · exact cachesOnly_modCore s k fun _ => rfl

theorem cachesOnly_translated (s : State) (w : Who) (va : Nat) : CachesOnly s (translated s w va) := by
  unfold translated
  split
  · exact cachesOnly_tlbFill s w.core _
  · exact cachesOnly_refl s

theorem cachesOnly_reached (s : State) (w : Who) (r : CapReg) (o size : Nat) : CachesOnly s (reached s w r o size) := by
  unfold reached
  split_ifs
  · exact cachesOnly_refl s
  · exact cachesOnly_translated s w _

theorem cachesOnly_foldl {α : Type} {f : State → α → State} (hf : ∀ s x, CachesOnly s (f s x)) (l : List α) (s : State) :
    CachesOnly s (l.foldl f s) := by
  induction l generalizing s with
  | nil => exact cachesOnly_refl s
  | cons x l ih => exact cachesOnly_trans (hf s x) (ih _)

/-! ### What such a state keeps -/

section
variable {s t : State} (h : CachesOnly s t)
include h

theorem regs_of_cachesOnly : t.regs = s.regs := by rw [h.others]
theorem ecc_of_cachesOnly : t.ecc = s.ecc := by rw [h.others]
theorem context_of_cachesOnly (x : BitVec 12) : t.context x = s.context x := by rw [h.others]; rfl
theorem group?_of_cachesOnly (core slot : Nat) : t.group? core slot = s.group? core slot := by rw [h.others]; rfl
theorem split?_of_cachesOnly (ag : Agent) : t.split? ag = s.split? ag := by rw [h.others]; rfl
theorem reg_of_cachesOnly (ag : Agent) (loc : Loc) (lane : Nat) : t.reg ag loc lane = s.reg ag loc lane := by rw [h.others]; rfl
theorem byte_of_cachesOnly (a : Nat) : t.byte a = s.byte a := by rw [h.others]; rfl

end

theorem cutName_congr {s t : State} (h : t.regs = s.regs) (p : Place) : cutName t p = cutName s p := by
  cases p <;> simp only [cutName, h]

theorem num_congr {s t : State} (h : ∀ a, t.byte a = s.byte a) (pa n : Nat) : t.num pa n = s.num pa n :=
  congrArg ofLeBytes (List.ext_getElem? fun i => by rw [bytes_at, bytes_at, h])

/-! ### Views without caches -/

theorem tabGet_map {α β : Type} (f : α → β) (d : α) (t : Tab α) (i : Nat) :
    tabGet (f d) (t.map fun e => (e.1, f e.2)) i = f (tabGet d t i) := by
  rw [tabGet_eq_find, tabGet_eq_find, tabFind_map, Option.getD_map]

theorem core_calm (s : State) (k : Nat) : s.calm.core k = (s.core k).calm := tabGet_map Core.calm Core.init s.cores k

theorem context_calm (s : State) (x : BitVec 12) : s.calm.context x = (s.context x).calm :=
  tabGet_map Context.calm Context.init s.contexts x.toNat

theorem steady_calm {s t : State} {ag : Agent} (h : Steady s t ag) : Steady s.calm t.calm ag where
  rest := congrArg (fun u : State => { u with l2 := [], meters := [], regs := Regs.reset }) h.rest
  bytes := h.bytes
  cores k := by
    rw [core_calm, core_calm]
    exact congrArg Core.calm (h.cores k)
  contexts x := by
    rw [context_calm, context_calm]
    exact congrArg (fun y : Context => { y with shared := [] }) (h.contexts x)
  groups := h.groups
  group := h.group
  splits := h.splits
  split := h.split

theorem steady_calm_of_cachesOnly {s t : State} (h : CachesOnly s t) (ag : Agent) : Steady s.calm t.calm ag where
  rest := by rw [h.others]; rfl
  bytes := byte_of_cachesOnly (s := s) (t := t) h
  cores k := by rw [core_calm, core_calm, h.cores]
  contexts x := by rw [context_calm, context_calm, context_of_cachesOnly h]
  groups c i _ := congrArg _ (group?_of_cachesOnly h c i)
  group := congrArg _ (group?_of_cachesOnly h _ _)
  splits _ _ := congrArg _ (split?_of_cachesOnly h _)
  split := congrArg _ (split?_of_cachesOnly h _)

/-- A context without the writes that await an acknowledgement. -/
def acked (x : Context) : Context := { x with unacked := [] }

/-- What `ackView` takes away beyond `calm`. -/
def allAckedView (u : State) : State := { u with contexts := u.contexts.map fun e => (e.1, acked e.2) }

theorem ackView_eq (u : State) : ackView u = allAckedView u.calm := by
  simp only [ackView, allAckedView, State.calm, List.map_map]
  rfl

theorem context_allAckedView (s : State) (x : BitVec 12) : (allAckedView s).context x = acked (s.context x) :=
  tabGet_map acked Context.init s.contexts x.toNat

theorem steady_allAckedView {s t : State} {ag : Agent} (h : Steady s t ag) : Steady (allAckedView s) (allAckedView t) ag where
  rest := h.rest
  bytes := h.bytes
  cores := h.cores
  contexts x := by
    rw [context_allAckedView, context_allAckedView]
    exact congrArg acked (h.contexts x)
  groups := h.groups
  group := h.group
  splits := h.splits
  split := h.split

theorem steady_ackView_of_calm {s t : State} {ag : Agent} (h : Steady s.calm t.calm ag) : Steady (ackView s) (ackView t) ag := by
  rw [ackView_eq, ackView_eq]
  exact steady_allAckedView h

theorem context_ackView (s : State) (x : BitVec 12) : (ackView s).context x = acked (s.context x).calm := by
  rw [ackView_eq, context_allAckedView, context_calm]

theorem steady_ackView_allAcked (s : State) (x : BitVec 12) (core : Option Nat) (ag : Agent) :
    Steady (ackView s) (ackView (allAcked s x core)) ag where
  rest := rfl
  bytes _ := rfl
  cores _ := rfl
  contexts y := by
    rw [context_ackView, context_ackView, allAcked, State.context_modContext]
    split_ifs <;> rfl
  groups _ _ _ := rfl
  group := rfl
  splits _ _ := rfl
  split := rfl

/-! ### The access of a cut-word operand -/

theorem eccHits_eq_false {s : State} (h : s.ecc = none) (lane mask size : Nat) (p : Place) : eccHits s lane mask size p = false := by
  simp [eccHits, h]

theorem cachesOnly_resolveLanes {s : State} (hecc : s.ecc = none) (w : Who) (r : Nat → CapReg) (size mask : Nat)
    (offs : List (Nat × Int)) : CachesOnly s (resolveLanes s w r size mask offs).2 := by
  induction offs generalizing s with
  | nil => exact cachesOnly_refl s
  | cons x rest ih =>
    obtain ⟨l, o⟩ := x
    have hreach := cachesOnly_reached s w (r l) o.toNat size
    have hrest := ih ((ecc_of_cachesOnly hreach).trans hecc)
    dsimp only [resolveLanes]
    simp only [eccHits_eq_false hecc]
    split <;> exact cachesOnly_trans hreach hrest

/-- An operand that passes its checks hands its place to the operation. -/
theorem cutAccess_of_reaches {c : Ctx} {mask l : Nat} {p : Place} (hecc : c.s.ecc = none) (h : cutReaches c mask l p) :
    ∃ u, CachesOnly c.s u ∧ ∀ k, c.cutAccess mask k = k u p := by
  simp only [cutReaches, passGlobal] at h
  refine ⟨_, cachesOnly_resolveLanes hecc c.who (c.capAt c.w.a) 8 mask ((c.lanes.take 1).map fun l => (l, c.offset l)), fun k => ?_⟩
  split at h
  · cases h
  · next hcheck =>
    split_ifs at h
    simp only [Ctx.cutAccess, Ctx.globalOn, hcheck, Option.some.inj h]

/-! ### Acquires -/

/-- A line that was dropped is gone. -/
theorem eq_false_of_mem_l1Drop {s : State} {k : Nat} {p : L1Line → Bool} {x : L1Line} (h : x ∈ ((l1Drop s k p).core k).l1) :
    p x = false := by
  unfold l1Drop at h
  split_ifs at h with hempty
  · rw [List.isEmpty_iff.mp hempty] at h
    cases h
  · rw [State.core_modCore, if_pos rfl] at h
    simpa using (List.mem_filter.mp h).2

theorem lineBound_congr {s t : State} {ctx : BitVec 12} (hregs : t.regs = s.regs)
    (hbind : (t.context ctx).bindings = (s.context ctx).bindings) (word : Option (Nat × Nat)) (x : L1Line) :
    lineBound t ctx word x = lineBound s ctx word x := by
  simp only [lineBound, hregs, hbind]

theorem cachesOnly_acquire (c : Ctx) (s : State) (p : Place) : CachesOnly s (c.acquire s p) := by
  unfold Ctx.acquire
  refine cachesOnly_trans ?_ (cachesOnly_l1Drop _ _ _)
  cases p with
  | mem va t pa => exact cachesOnly_l1Fresh s _ pa 8
  | sp core off addr => exact cachesOnly_refl s
  | far d va => exact cachesOnly_refl s

/-- R222: the core's L1 holds no line of a range bound to the word. -/
theorem lineBound_acquire {c : Ctx} {s : State} {p : Place} {x : L1Line} (h : x ∈ ((c.acquire s p).core c.ag.core).l1) :
    lineBound s c.who.context (some (cutName s p)) x = false := by
  unfold Ctx.acquire acquireOn at h
  refine Eq.trans ?_ (eq_false_of_mem_l1Drop h)
  cases p with
  | mem va t pa =>
    have hfresh := cachesOnly_l1Fresh s c.ag.core pa 8
    rw [cutName_congr (regs_of_cachesOnly hfresh)]
    exact (lineBound_congr (regs_of_cachesOnly hfresh) (congrArg _ (context_of_cachesOnly hfresh _)) _ x).symm
  | sp core off addr => rfl
  | far d va => rfl

end Sys2Proof.Proofs.Caches

/-! How an instruction ends whose effect is compared under a view (R20, R25, R145): it goes on, with registers written at once or
later, or its split waits. -/
namespace Sys2Proof.Proofs.Completion
open Sys2Proof Sys2Proof.Machine
open Sys2Proof.Proofs.Caches

/-! ### The state that an instruction finds -/

theorem ecc_issuing {i : Instr} {s : State} {c : Ctx} (h : issuing i s = some c) : c.s.ecc = none := by
  rw [ecc_of_rest (Steady.issuing h).rest]
  obtain ⟨-, -, -, -, -, -, -, -, -, -, -, -, -, -, -, -, hecc, -⟩ := issuing_some h
  exact hecc

theorem group?_issuing {i : Instr} {s : State} {c : Ctx} (h : issuing i s = some c) :
    ∃ l, c.s.group? c.ag.core c.ag.slot = some { c.g with splits := l } := by
  obtain ⟨ag, g, sp, f, w, -, -, -, -, -, rfl, -⟩ := issuing_some h
  exact group?_issued w { s with turn := none, free := s.free + 1 } ag g sp

theorem exists_formOf_issuing {i : Instr} {s : State} {c : Ctx} (h : issuing i s = some c) : ∃ f, formOf i = some f := by
  obtain ⟨-, -, -, f, -, -, -, -, hf, -⟩ := issuing_some h
  exact ⟨f, hf⟩

theorem mq_issuing {i : Instr} {s : State} {c : Ctx} (h : issuing i s = some c) (k : Nat) : (c.s.core k).mq = (s.core k).mq :=
  (congrArg Core.mq ((Steady.issuing h).cores k) :)

theorem bindings_issuing {i : Instr} {s : State} {c : Ctx} (h : issuing i s = some c) (x : BitVec 12) :
    (c.s.context x).bindings = (s.context x).bindings :=
  (congrArg Context.bindings ((Steady.issuing h).contexts x) :)

theorem launch?_of_rest {s t : State} (h : t.rest = s.rest) (l : Nat) : t.launch? l = s.launch? l :=
  (congrArg (fun u : State => u.launch? l) h :)

theorem task?_of_rest {s t : State} (h : t.rest = s.rest) (n : Nat) : t.task? n = s.task? n := 
  (congrArg (fun u : State => u.task? n) h :)

/-- Without committed entries there is nothing to perform first. -/
theorem drainCommitted_of_cachesOnly {i : Instr} {s u : State} {c : Ctx} (h : issuing i s = some c) (hcommit : c.g.committed = [])
    (hu : CachesOnly c.s u) : drainCommitted u c.ag.core c.ag.slot = u := by
  obtain ⟨l, hg⟩ := group?_issuing h
  simp only [drainCommitted, group?_of_cachesOnly hu, hg, hcommit]

/-! ### Going on -/

/-- t follows u once the instruction has retired. -/
def RetiredFrom (c : Ctx) (u t : State) : Prop := ∃ f, t = retire c f u none

/-- What an effect that ends in u comes to under a view: it writes `dst` and leaves the split's address, flags and checks. -/
structure Comes (view : State → State) (c : Ctx) (u : State) (dst : Loc → Nat → Option Nat) : Prop where
  steady : Steady (view c.s) (view u) c.ag
  special : u.regs = c.s.regs
  ecc : u.ecc = c.s.ecc
  split : ∃ q, u.split? c.ag = some q ∧ q.parked = c.sp.parked ∧ q.pc = c.sp.pc ∧ q.status = c.sp.status
  regs : ∀ loc lane, loc.inLane lane = true → u.reg c.ag loc lane = (dst loc lane).getD (c.s.reg c.ag loc lane)

theorem keepRegs_eq_self {s t : State} (h : t.regs = s.regs) : t.keepRegs s = t := by rw [State.keepRegs, ← h]

theorem runInstr_done {i : Instr} {s u : State} {c : Ctx} {f : Form} {eff : Ctx → Eff} (h : issuing i s = some c) (hf : formOf i = some f)
    (he : eff c = .done u) (hregs : u.regs = c.s.regs) (hecc : u.ecc = c.s.ecc) : runInstr i eff s = .next (retire c f u none) := by
  have hrest : (retire c f u none).rest = u.rest := Steady.retire.rest
  have hkeep : (retire c f u none).regs = s.regs :=
    (regs_of_rest hrest).trans (hregs.trans (regs_of_rest (Steady.issuing h).rest))
  rw [runInstr_issuing h hf, he]
  simp only [settleEff, keepRegs_eq_self hkeep]
  exact congrArg _ (settleEcc_none ((ecc_of_rest hrest).trans (hecc.trans (ecc_issuing h))))

theorem retiredUnder_of_comes {i : Instr} {s u : State} {c : Ctx} {eff : Ctx → Eff} {view : State → State}
    {dst : Loc → Nat → Option Nat} (hview : ∀ {x y}, Steady x y c.ag → Steady (view x) (view y) c.ag)
    (h : issuing i s = some c) (hexec : exec i s = runInstr i eff s) (he : eff c = .done u) (hu : Comes view c u dst) :
    ∃ t, exec i s = .next t ∧ RetiredUnder view s t c dst 0 ∧ RetiredFrom c u t := by
  obtain ⟨f, hf⟩ := exists_formOf_issuing h
  obtain ⟨sp, hsp, hbegin, -, hparked⟩ := split?_issuing h
  obtain ⟨q, hq, hqparked, hqpc, hqstatus⟩ := hu.split
  have hpc : c.sp.pc = sp.pc := by rw [hbegin]; rfl
  have hstatus : c.sp.status = sp.status := by rw [hbegin]; rfl
  have hqp : q.parked = [] := by rw [hqparked, hbegin]; exact hparked
  refine ⟨_, hexec.trans (runInstr_done h hf he hu.special hu.ecc), ⟨?_, fun loc lane hl => ?_, ?_, ?_⟩, f, rfl⟩
  · exact ((hview (Steady.issuing h)).trans hu.steady).trans (hview Steady.retire)
  · rw [reg_retire, hu.regs loc lane hl, reg_issuing h loc lane hl]
  · simp [State.statusOf, split?_retire hq, (retiredSplit_keeps c f none q).2.2.2, hqstatus, hstatus, hsp]
  · simp [State.pcOf, split?_retire hq, retiredSplit_pc none hqp, hqpc, hpc, hsp]

theorem core_freeQuad_l1 (s : State) (ag : Agent) (k : Nat) : ((freeQuad s ag).core k).l1 = (s.core k).l1 := by
  unfold freeQuad
  split
  · rfl
  · split_ifs
    · rfl
    · rw [State.core_modCore]
      split_ifs <;> rfl

theorem l1_of_retiredFrom {c : Ctx} {u t : State} (h : RetiredFrom c u t) (k : Nat) : (t.core k).l1 = (u.core k).l1 := by
  obtain ⟨f, rfl⟩ := h
  rw [retire, State.core_modSplit]
  split_ifs
  · exact core_freeQuad_l1 u c.ag k
  · rfl

/-! ### Effects on caches, and on registers beside them -/

theorem comes_of_cachesOnly {i : Instr} {s u : State} {c : Ctx} (h : issuing i s = some c) (hu : CachesOnly c.s u) :
    Comes State.calm c u noValue where
  steady := steady_calm_of_cachesOnly hu c.ag
  special := regs_of_cachesOnly hu
  ecc := ecc_of_cachesOnly hu
  split := by
    obtain ⟨-, -, -, hs, -⟩ := split?_issuing h
    exact ⟨_, (split?_of_cachesOnly hu _).trans hs, rfl, rfl, rfl⟩
  regs loc lane _ := reg_of_cachesOnly hu c.ag loc lane

section
variable {s : State} {ag : Agent} {g : Group} {sp : Split} {cells : List RegCell} {dst : Loc → Nat → Option Nat}
  (hg : s.group? ag.core ag.slot = some g) (hs : s.split? ag = some sp)
include hg hs

theorem split?_writeNow : (writeNow s ag cells).split? ag = some (cells.foldl putCell (g, sp)).2 := by
  have hfind : tabFind g.splits ag.split = some sp := (State.split?_of_group hg).symm.trans hs
  simp only [writeNow, State.split?, State.group?_modGroup, if_true, hg, Option.map_some, hfind, tabFind_put]

theorem steady_writeNow : Steady s (writeNow s ag cells) ag := by
  have hfind : tabFind g.splits ag.split = some sp := (State.split?_of_group hg).symm.trans hs
  obtain ⟨hbody, hsplits, hsplit, -⟩ := putCells_body cells (g, sp)
  refine Steady.modGroup s ag _ (fun x hx => ?_) (fun x n hx hn => ?_) fun x hx => ?_
  all_goals obtain rfl : g = x := Option.some.inj (hg.symm.trans hx); simp only [hfind]
  · exact hbody
  · rw [tabFind_put, if_neg (Ne.symm hn), hsplits]
  · rw [tabFind_put, if_pos rfl]
    exact congrArg some hsplit

theorem reg_writeNow (hc : CellsGive cells dst) {loc : Loc} {lane : Nat} (hl : loc.inLane lane = true) :
    (writeNow s ag cells).reg ag loc lane = (dst loc lane).getD (s.reg ag loc lane) := by
  have hfind : tabFind g.splits ag.split = some sp := (State.split?_of_group hg).symm.trans hs
  have hread := hc.read (g, sp) loc lane hl
  simp only [State.reg, split?_writeNow hg hs, hg, hs]
  rw [← hread]
  simp only [writeNow, State.group?_modGroup, if_true, hg, Option.map_some, hfind]
  exact rawCell_congr rfl rfl rfl rfl rfl rfl loc lane

end

/-- Registers written at once. -/
theorem comes_writeNow {i : Instr} {s u : State} {c : Ctx} {cells : List RegCell} {dst : Loc → Nat → Option Nat}
    (h : issuing i s = some c) (hu : CachesOnly c.s u) (hc : CellsGive cells dst) : Comes State.calm c (writeNow u c.ag cells) dst := by
  obtain ⟨l, hgroup⟩ := group?_issuing h
  obtain ⟨-, -, -, hsplit, -⟩ := split?_issuing h
  have hg := (group?_of_cachesOnly hu _ _).trans hgroup
  have hs := (split?_of_cachesOnly hu _).trans hsplit
  have hk := comes_of_cachesOnly h hu
  obtain ⟨-, -, hbody, hstatus, hpc, -⟩ := putCells_body cells ({ c.g with splits := l }, { c.sp with counted := true })
  exact {
    steady := hk.steady.trans (steady_calm (steady_writeNow hg hs))
    special := hk.special
    ecc := hk.ecc
    split := ⟨_, split?_writeNow hg hs, (congrArg Split.parked hbody :), hpc, hstatus⟩
    regs := fun loc lane hl => by
      rw [reg_writeNow hg hs hc hl]
      exact congrArg _ (hk.regs loc lane hl) }

theorem l1_writeLong (s : State) (ag : Agent) (cells : List RegCell) (k : Nat) :
    ((writeLong s ag cells).core k).l1 = (s.core k).l1 := by
  unfold writeLong
  split_ifs <;> rfl

theorem steady_writeLong (s : State) (ag : Agent) (cells : List RegCell) : Steady s (writeLong s ag cells) ag := by
  unfold writeLong
  split_ifs
  · exact Steady.refl s ag
  · exact Steady.modSplit s ag _ fun _ _ => rfl

theorem reg_writeLong (s : State) (ag : Agent) (cells : List RegCell) (loc : Loc) (lane : Nat) :
    (writeLong s ag cells).reg ag loc lane = s.reg ag loc lane := by
  unfold writeLong
  split_ifs
  · rfl
  · refine reg_modSplit s ag ag _ ?_ ?_ loc lane <;> exact fun _ => rfl

/-- The split after a long-latency result has been issued. -/
theorem split?_writeLong {s : State} {ag : Agent} {sp : Split} (cells : List RegCell) (hs : s.split? ag = some sp) :
    ∃ q, (writeLong s ag cells).split? ag = some q ∧ q.parked = sp.parked ∧ q.pc = sp.pc ∧ q.status = sp.status
      ∧ q.pending = sp.pending ++ if cells.isEmpty then [] else [⟨none, s.free, cells⟩] := by
  unfold writeLong
  split_ifs
  · exact ⟨sp, hs, rfl, rfl, rfl, (List.append_nil _).symm⟩
  · rw [State.split?_modSplit, if_pos ⟨rfl, rfl⟩, hs]
    exact ⟨_, rfl, rfl, rfl, rfl, rfl⟩

/-- A long-latency result: no register is written yet. -/
theorem comes_writeLong {i : Instr} {s u : State} {c : Ctx} (cells : List RegCell) (h : issuing i s = some c)
    (hu : CachesOnly c.s u) : Comes State.calm c (writeLong u c.ag cells) noValue := by
  obtain ⟨-, -, -, hsplit, -⟩ := split?_issuing h
  obtain ⟨q, hq, hparked, hpc, hstatus, -⟩ := split?_writeLong cells ((split?_of_cachesOnly hu _).trans hsplit)
  have hk := comes_of_cachesOnly h hu
  have hlong := steady_writeLong u c.ag cells
  exact {
    steady := hk.steady.trans (steady_calm hlong)
    special := (regs_of_rest hlong.rest).trans hk.special
    ecc := (ecc_of_rest hlong.rest).trans hk.ecc
    split := ⟨q, hq, hparked, hpc, hstatus⟩
    regs := fun loc lane hl => (reg_writeLong u c.ag cells loc lane).trans (hk.regs loc lane hl) }

/-! ### Outstanding results -/

theorem pending_retiredSplit {c : Ctx} {f : Form} {q : Split} (h : q.parked = []) :
    (retiredSplit c f none q).pending = if c.sp.resumed then tagPending 7 q.pending else q.pending := by
  cases hr : c.sp.resumed <;> simp [retiredSplit, wentOn, Split.endRun, Split.next, h, hr]

theorem heldResults_issuing {i : Instr} {s : State} {c : Ctx} (h : issuing i s = some c) (new : List Pending) :
    s.heldResults c.ag new = some (if c.sp.resumed then tagPending 7 (c.sp.pending ++ new) else c.sp.pending ++ new) := by
  obtain ⟨sp, hsp, hbegin, -, -⟩ := split?_issuing h
  rw [State.heldResults, hsp, hbegin]
  rfl

theorem issuesCells_writeLong {i : Instr} {s u t : State} {c : Ctx} {cells : List RegCell} (h : issuing i s = some c)
    (hu : CachesOnly c.s u) (ht : RetiredFrom c (writeLong u c.ag cells) t) : IssuesCells s t c.ag cells := by
  obtain ⟨sp, -, hbegin, hsplit, hparked⟩ := split?_issuing h
  obtain ⟨q, hq, hqparked, -, -, hpending⟩ := split?_writeLong cells ((split?_of_cachesOnly hu _).trans hsplit)
  have hqp : q.parked = [] := by rw [hqparked, hbegin]; exact hparked
  obtain ⟨f, rfl⟩ := ht
  refine ⟨u.free, ?_⟩
  rw [State.pendingOf, split?_retire hq, Option.map_some, pending_retiredSplit hqp, heldResults_issuing h, hpending]

theorem cellIn_eq_some {cells : List RegCell} {loc : Loc} {lane x : Nat} (h : cellIn cells loc lane = some x) :
    ⟨loc, lane, x⟩ ∈ cells := by
  obtain ⟨y, hy, rfl⟩ := Option.map_eq_some_iff.mp h
  obtain ⟨hmem, hkey⟩ := List.mem_filter.mp (List.mem_of_head? hy)
  obtain ⟨rfl, rfl⟩ : y.loc = loc ∧ y.lane = lane := by simpa using hkey
  exact hmem

theorem cellIn_eq_none {cells : List RegCell} {loc : Loc} {lane : Nat} (h : cellIn cells loc lane = none) :
    ¬∃ y ∈ cells, y.loc = loc ∧ y.lane = lane := by
  rintro ⟨y, hmem, rfl, rfl⟩
  simp only [cellIn, Option.map_eq_none_iff, List.head?_eq_none_iff, List.filter_eq_nil_iff] at h
  exact h y hmem (by simp)

/-- Cells that name no p7 tell their values register by register. -/
theorem cellIn_of_cellsGive {cells : List RegCell} {dst : Loc → Nat → Option Nat} (h : CellsGive cells dst)
    (h7 : ∀ y ∈ cells, y.loc ≠ .p 7) {loc : Loc} {lane : Nat} (hl : loc.inLane lane = true) :
    (cellIn cells loc lane).map loc.holds = dst loc lane := by
  cases hc : cellIn cells loc lane with
  | some x =>
    have hmem := cellIn_eq_some hc
    exact ((h.gives _ hmem).trans (if_neg (h7 _ hmem))).symm
  | none =>
    symm
    exact Option.eq_none_iff_forall_ne_some.mpr fun v hv => cellIn_eq_none hc (h.only loc lane v hl hv)

theorem destCells_loc_ne_p7 (c : Ctx) (t : Ty) (regs : Nat) (val : Nat → Nat) : ∀ y ∈ destCells c t regs val, y.loc ≠ .p 7 := by
  intro y hy
  unfold destCells at hy
  split at hy
  · obtain ⟨l, -, hy⟩ := List.mem_flatMap.mp hy
    obtain ⟨n, -, rfl⟩ := List.mem_map.mp hy
    simp
  · obtain ⟨l, -, rfl⟩ := List.mem_map.mp hy
    simp
  · split_ifs at hy <;> simp_all
  · split_ifs at hy with hn
    · cases hy
    · obtain ⟨l, -, rfl⟩ := List.mem_map.mp hy
      intro h
      exact hn (beq_iff_eq.mpr (BitVec.eq_of_toNat_eq (Loc.p.inj h)))
  · split_ifs at hy <;> simp_all
  · cases hy

theorem issues_destCells {s t : State} {ag : Agent} {c : Ctx} {ty : Ty} {regs : Nat} {val : Nat → Nat} (hl : ∀ l ∈ c.lanes, l < 32)
    (h : IssuesCells s t ag (destCells c ty regs val)) : Issues s t ag (destValue c ty regs val) :=
  ⟨_, h, fun _ _ hloc => cellIn_of_cellsGive (destCells_gives c ty regs val hl) (destCells_loc_ne_p7 c ty regs val) hloc⟩

/-! ### Waiting -/

/-- A split as it begins to wait. -/
def beginWait (k : Wait) (now : Nat) (sp : Split) : Split :=
  { sp with latch := [], cut := sp.run != 0, wait := some k, waitFrom := if sp.wait.isNone then now else sp.waitFrom }

/-- The issue slot is given up and the wait counted; then the split waits. -/
theorem waitFor_eq_modSplit (s : State) (ag : Agent) (k : Wait) : ∃ u, Steady s u ag ∧ u.split? ag = s.split? ag
    ∧ (∀ loc lane, u.reg ag loc lane = s.reg ag loc lane) ∧ waitFor s ag k = u.modSplit ag (beginWait k u.cycle) := by
  have hfree := Steady.freeQuad s ag
  have hsplit := split?_freeQuad s ag ag
  have hreg := reg_freeQuad s ag ag
  dsimp only [waitFor]
  split
  · split_ifs
    · exact ⟨_, hfree.trans (Steady.countPrivate _ ag _ 1), hsplit, hreg, rfl⟩
    · exact ⟨_, hfree, hsplit, hreg, rfl⟩
  · exact ⟨_, hfree, hsplit, hreg, rfl⟩

theorem waits_of_cachesOnly {i : Instr} {s u : State} {c : Ctx} {eff : Ctx → Eff} {k : Wait} (h : issuing i s = some c)
    (hexec : exec i s = runInstr i eff s) (he : eff c = .wait u k) (hu : CachesOnly c.s u) :
    ∃ t, exec i s = .next t ∧ t.waitOf c.ag = some (some k) ∧ t.pcOf c.ag = s.pcOf c.ag ∧ Writes s t c.ag noValue := by
  obtain ⟨f, hf⟩ := exists_formOf_issuing h
  obtain ⟨sp, hsp, hbegin, hsplit, -⟩ := split?_issuing h
  obtain ⟨v, hsteady, hvsplit, hvreg, hwait⟩ := waitFor_eq_modSplit u c.ag k
  have hpc : c.sp.pc = sp.pc := by rw [hbegin]; rfl
  have hfound : (waitFor u c.ag k).split? c.ag = some (beginWait k v.cycle { c.sp with counted := true }) := by
    rw [hwait, State.split?_modSplit, if_pos ⟨rfl, rfl⟩, hvsplit, split?_of_cachesOnly hu, hsplit, Option.map_some]
  have hregs : (waitFor u c.ag k).regs = s.regs := by
    rw [hwait]
    exact (regs_of_rest hsteady.rest).trans ((regs_of_cachesOnly hu).trans (regs_of_rest (Steady.issuing h).rest))
  have hecc : (waitFor u c.ag k).ecc = none := by
    rw [hwait]
    exact (ecc_of_rest hsteady.rest).trans ((ecc_of_cachesOnly hu).trans (ecc_issuing h))
  refine ⟨waitFor u c.ag k, ?_, ?_, ?_, fun loc lane hl => ?_⟩
  · rw [hexec, runInstr_issuing h hf, he]
    simp only [settleEff, keepRegs_eq_self hregs]
    exact congrArg _ (settleEcc_none hecc)
  · rw [State.waitOf, hfound]
    rfl
  · rw [State.pcOf, State.pcOf, hfound, hsp, Option.map_some, Option.map_some, ← hpc]
    rfl
  · rw [hwait, reg_modSplit v c.ag c.ag (beginWait k v.cycle) (fun _ => rfl) fun _ => rfl, hvreg, reg_of_cachesOnly hu,
      reg_issuing h loc lane hl]
    rfl

end Sys2Proof.Proofs.Completion

/-! What acquires, waits on cut words, fences and STALE deliver (R253, R254, R257 to R259): each changes caches alone before its
split goes on or waits. -/
namespace Sys2Proof.Proofs.CutReads
open Sys2Proof Sys2Proof.Machine
open Sys2Proof.Proofs.Caches Sys2Proof.Proofs.Completion

/-! ### The word of an operand -/

/-- The state in which an operation on a word acts: the operand's translation is in the TLB, and nothing waits to be performed. -/
theorem cutAccess_drained {i : Instr} {s : State} {c : Ctx} {mask l : Nat} {p : Place} (h : issuing i s = some c)
    (hcommit : c.g.committed = []) (hreach : cutReaches c mask l p) :
    ∃ u, CachesOnly c.s u ∧ drainCommitted u c.ag.core c.ag.slot = u ∧ ∀ k, c.cutAccess mask k = k u p := by
  obtain ⟨u, hu, heff⟩ := cutAccess_of_reaches (ecc_issuing h) hreach
  exact ⟨u, hu, drainCommitted_of_cachesOnly h hcommit hu, heff⟩

/-- Caches hold no word: memory and scratchpads do, and a word of another device is a free value of the step. -/
theorem cutWordAt_of_cachesOnly {s t : State} (h : CachesOnly s t) (p : Place) : cutWordAt t p = cutWordAt s p := by
  cases p with
  | mem va tn pa => exact num_congr (byte_of_cachesOnly h) pa 8
  | sp core off addr =>
    have hbytes : (t.core core).sp = (s.core core).sp := (congrArg Core.sp (h.cores core) :)
    simp only [cutWordAt, loadAt, spNum, spBytes, spByte, hbytes]
  | far d va =>
    rw [h.others]
    rfl

/-- The word of this module's memory, as it is before the instruction. -/
theorem cutWordAt_mem_issuing {i : Instr} {s : State} {c : Ctx} (h : issuing i s = some c) (va pa : Nat) (tn : BitVec 12) :
    cutWordAt c.s (.mem va tn pa) = s.num pa 8 := num_congr (Steady.issuing h).bytes pa 8

/-! ### Acquires -/

/-- The executing core's L1 holds no line of a range that was bound to the word (R222). -/
def Unbound (s t : State) (c : Ctx) (p : Place) : Prop :=
  ∀ x ∈ (t.core c.ag.core).l1, lineBound s c.who.context (some (cutName s p)) x = false

/-- An acquire leaves this whatever the instruction changed before it: bindings and the device's number stay. -/
theorem unbound_of_acquire {i : Instr} {s u t : State} {c : Ctx} {p : Place} (h : issuing i s = some c) (hu : CachesOnly c.s u)
    (hl1 : (t.core c.ag.core).l1 = ((c.acquire u p).core c.ag.core).l1) : Unbound s t c p := by
  intro x hx
  have hregs : u.regs = s.regs := (regs_of_cachesOnly hu).trans (regs_of_rest (Steady.issuing h).rest)
  have hbind : (u.context c.who.context).bindings = (s.context c.who.context).bindings :=
    (congrArg _ (context_of_cachesOnly hu _)).trans (bindings_issuing h _)
  rw [hl1] at hx
  rw [← lineBound_congr hregs hbind, ← cutName_congr hregs]
  exact lineBound_acquire hx

section
variable {w : Fields} {s : State} {c : Ctx} {l : Nat} {p : Place}

theorem acq_retired (h : issuing (.acq w) s = some c) (hcommit : c.g.committed = []) (hreach : cutReaches c permR l p) :
    ∃ t, exec (.acq w) s = .next t ∧ RetiredUnder State.calm s t c noValue 0 ∧ Unbound s t c p := by
  obtain ⟨u, hu, hdrain, heff⟩ := cutAccess_drained h hcommit hreach
  have hcomes := comes_of_cachesOnly h (cachesOnly_trans hu (cachesOnly_acquire c u p))
  obtain ⟨t, ht, hretired, hfrom⟩ := retiredUnder_of_comes steady_calm h rfl (by simp only [heff, hdrain]) hcomes
  exact ⟨t, ht, hretired, unbound_of_acquire h hu (l1_of_retiredFrom hfrom _)⟩

theorem rel_retired {va pa : Nat} {tn : BitVec 12} (h : issuing (.rel w) s = some c) (hcommit : c.g.committed = [])
    (hregion : c.g.region = none) (hharvest : c.outsideHarvest = false) (hreach : cutPlace c permR l va tn pa) :
    ∃ t, exec (.rel w) s = .next t ∧ RetiredUnder State.calm s t c noValue 0 := by
  obtain ⟨u, hu, hdrain, heff⟩ := cutAccess_drained h hcommit hreach
  have hrelease : c.cutRelease 0 u (.mem va tn pa) = .done (l1Fresh u c.who.core pa 8) := by
    simp only [Ctx.cutRelease, hregion, hdrain]
    rfl
  have hcomes := comes_of_cachesOnly h (cachesOnly_trans hu (cachesOnly_l1Fresh u c.who.core pa 8))
  obtain ⟨t, ht, hretired, -⟩ := retiredUnder_of_comes steady_calm h rfl
    (by simp only [Ctx.regional, hharvest, heff, hrelease]; rfl) hcomes
  exact ⟨t, ht, hretired⟩

/-- R258: CUTCHK waits on no condition. -/
theorem cutchk_retired (h : issuing (.cutchk w) s = some c) (hcommit : c.g.committed = []) (hreach : cutReaches c permR l p) :
    ∃ t, exec (.cutchk w) s = .next t ∧ RetiredUnder State.calm s t c noValue 0
      ∧ Issues s t c.ag (destValue c .n64 2 fun _ => cutWordAt c.s p)
      ∧ Unbound s t c p := by
  obtain ⟨u, hu, hdrain, heff⟩ := cutAccess_drained h hcommit hreach
  have hacquired := cachesOnly_trans hu (cachesOnly_acquire c u p)
  obtain ⟨t, ht, hretired, hfrom⟩ := retiredUnder_of_comes steady_calm h rfl
    (by simp only [heff, hdrain, cutWordAt_of_cachesOnly hu p]) (comes_writeLong (c.cells64 (cutWordAt c.s p)) h hacquired)
  refine ⟨t, ht, hretired, issues_destCells (lanes_issuing h) (issuesCells_writeLong h hacquired hfrom), unbound_of_acquire h hu ?_⟩
  rw [l1_of_retiredFrom hfrom, l1_writeLong]

/-! ### WAITCUT -/

/-- The word satisfies WAITCUT (R257): its version has passed n, or it is not open. -/
def Satisfied (c : Ctx) (v : Nat) : Prop := c.c32 c.lane0 < cutVersion v ∨ cutState v ≠ cutOpen

theorem not_satisfied_iff {v : Nat} : ¬Satisfied c v ↔ cutVersion v ≤ c.c32 c.lane0 ∧ cutState v = cutOpen := by
  simp [Satisfied]

/-- What WAITCUT waits for where the word does not satisfy it; when a change elsewhere reaches the core is a free value (log 78). -/
def waitOn (c : Ctx) (free : Nat) : Place → Wait
  | .mem _ _ pa => .cut pa (c.c32 c.lane0)
  | _ => .farCut (c.now + 1 + Config.freeNat free 23 % 2 ^ 16)

/-- WAITCUT's effect on a word, after the accesses before it. -/
theorem waitcut_cases (h : issuing (.waitcut w) s = some c) (hcommit : c.g.committed = []) (hreach : cutReaches c permR l p) :
    ∃ u eff, CachesOnly c.s u ∧ exec (.waitcut w) s = runInstr (.waitcut w) eff s
      ∧ (Satisfied c (cutWordAt c.s p) → eff c = .done (writeNow (c.acquire u p) c.ag (c.cells64 (cutWordAt c.s p))))
      ∧ (¬Satisfied c (cutWordAt c.s p) → eff c = .wait u (waitOn c u.free p)) := by
  obtain ⟨u, hu, hdrain, heff⟩ := cutAccess_drained h hcommit hreach
  refine ⟨u, _, hu, rfl, fun hsat => ?_, fun hsat => ?_⟩ <;> simp only [heff, hdrain, cutWordAt_of_cachesOnly hu p]
  · exact if_pos hsat
  · refine (if_neg hsat).trans ?_
    cases p <;> rfl

/-- R257, R222: a word that satisfies WAITCUT is delivered and acquired. -/
theorem waitcut_retired (h : issuing (.waitcut w) s = some c) (hcommit : c.g.committed = []) (hreach : cutReaches c permR l p)
    (hsat : Satisfied c (cutWordAt c.s p)) :
    ∃ t, exec (.waitcut w) s = .next t ∧ RetiredUnder State.calm s t c (destValue c .n64 2 fun _ => cutWordAt c.s p) 0
      ∧ Unbound s t c p := by
  obtain ⟨u, eff, hu, hexec, hdone, -⟩ := waitcut_cases h hcommit hreach
  have hcells := destCells_gives c .n64 2 (fun _ => cutWordAt c.s p) (lanes_issuing h)
  have hcomes := comes_writeNow h (cachesOnly_trans hu (cachesOnly_acquire c u p)) hcells
  obtain ⟨t, ht, hretired, hfrom⟩ := retiredUnder_of_comes steady_calm h hexec (hdone hsat) hcomes
  exact ⟨t, ht, hretired, unbound_of_acquire h hu (l1_of_retiredFrom hfrom _)⟩

/-- R257: on any other word the split waits, with its registers as they are. -/
theorem waitcut_waits (h : issuing (.waitcut w) s = some c) (hcommit : c.g.committed = []) (hreach : cutReaches c permR l p)
    (hsat : ¬Satisfied c (cutWordAt c.s p)) :
    ∃ t n, exec (.waitcut w) s = .next t ∧ t.waitOf c.ag = some (some (waitOn c n p)) ∧ t.pcOf c.ag = s.pcOf c.ag
      ∧ Writes s t c.ag noValue := by
  obtain ⟨u, eff, hu, hexec, -, hwait⟩ := waitcut_cases h hcommit hreach
  obtain ⟨t, ht, hheld⟩ := waits_of_cachesOnly h hexec (hwait hsat) hu
  exact ⟨t, u.free, ht, hheld⟩

theorem waitcut_far {d va : Nat} (h : issuing (.waitcut w) s = some c) (hcommit : c.g.committed = [])
    (hreach : cutReaches c permR l (.far d va)) : ∃ t, exec (.waitcut w) s = .next t ∧
      (¬Satisfied c (cutWordAt c.s (.far d va)) → t.pcOf c.ag = s.pcOf c.ag ∧ Writes s t c.ag noValue ∧
        ∃ n, c.now < n ∧ t.waitOf c.ag = some (some (.farCut n))) ∧
      (Satisfied c (cutWordAt c.s (.far d va)) →
        RetiredUnder State.calm s t c (destValue c .n64 2 fun _ => cutWordAt c.s (.far d va)) 0) := by
  by_cases hsat : Satisfied c (cutWordAt c.s (.far d va))
  · obtain ⟨t, ht, hretired, -⟩ := waitcut_retired h hcommit hreach hsat
    exact ⟨t, ht, fun hnot => absurd hsat hnot, fun _ => hretired⟩
  · obtain ⟨t, n, ht, hwait, hpc, hregs⟩ := waitcut_waits h hcommit hreach hsat
    exact ⟨t, ht, fun _ => ⟨hpc, hregs, _, by omega, hwait⟩, fun hyes => absurd hyes hsat⟩

/-! ### Fences -/

/-- R371: the acknowledgements that a release at system scope waits for, where this fence is one. -/
def fenceAcked (c : Ctx) : State :=
  if rmCode c.w != 1 && vr c.w == 6 then allAcked c.s c.who.context (some c.ag.core) else c.s

/-- R254: the L1 lines that an acquire at cluster scope or wider gives up, where this fence is one. -/
def fenceAcquired (c : Ctx) : State :=
  if rmCode c.w != 2 && decide (3 ≤ vr c.w) then l1Drop (fenceAcked c) c.ag.core fun l => l.owner == c.who.context
  else fenceAcked c

theorem cachesOnly_fenceAcquired (c : Ctx) : CachesOnly (fenceAcked c) (fenceAcquired c) := by
  unfold fenceAcquired
  split_ifs
  · exact cachesOnly_l1Drop _ _ _
  · exact cachesOnly_refl _

/-- What an acknowledgement changes, `ackView` does not show. -/
theorem comes_fenceAcked {i : Instr} (h : issuing i s = some c) : Comes ackView c (fenceAcked c) noValue := by
  obtain ⟨-, -, -, hsplit, -⟩ := split?_issuing h
  unfold fenceAcked
  split_ifs
  · exact ⟨steady_ackView_allAcked c.s _ _ c.ag, rfl, rfl, ⟨_, hsplit, rfl, rfl, rfl⟩, fun _ _ _ => rfl⟩
  · exact ⟨Steady.refl _ _, rfl, rfl, ⟨_, hsplit, rfl, rfl, rfl⟩, fun _ _ _ => rfl⟩

theorem comes_fenceAcquired {i : Instr} (h : issuing i s = some c) : Comes ackView c (fenceAcquired c) noValue := by
  have hacked := comes_fenceAcked h
  have hcaches := cachesOnly_fenceAcquired c
  exact {
    steady := hacked.steady.trans (steady_ackView_of_calm (steady_calm_of_cachesOnly hcaches c.ag))
    special := (regs_of_cachesOnly hcaches).trans hacked.special
    ecc := (ecc_of_cachesOnly hcaches).trans hacked.ecc
    split := by
      rw [split?_of_cachesOnly hcaches]
      exact hacked.split
    regs := fun loc lane hl => (reg_of_cachesOnly hcaches c.ag loc lane).trans (hacked.regs loc lane hl) }

theorem owner_ne_of_mem_fenceAcquired (hkind : rmCode c.w ≠ 2) (hscope : 3 ≤ vr c.w) {x : L1Line}
    (h : x ∈ ((fenceAcquired c).core c.ag.core).l1) : x.owner ≠ c.who.context := by
  rw [fenceAcquired, if_pos (by simp [hkind, hscope])] at h
  exact beq_eq_false_iff_ne.mp (eq_false_of_mem_l1Drop h)

theorem fence_retired (h : issuing (.fence w) s = some c) (hcommit : c.g.committed = [])
    (hstream : c.g.stream = true → vr c.w ≠ 0 → streamOps s c.ag.core c.g = []) :
    ∃ t, exec (.fence w) s = .next t ∧ RetiredUnder ackView s t c noValue 0 ∧
      (rmCode c.w ≠ 2 → 3 ≤ vr c.w → ∀ x ∈ (t.core c.ag.core).l1, x.owner ≠ c.who.context) := by
  have hdrain := drainCommitted_of_cachesOnly h hcommit (cachesOnly_refl c.s)
  have hops : streamOps c.s c.ag.core c.g = streamOps s c.ag.core c.g := by rw [streamOps, mq_issuing h]; rfl
  have hfree : ¬(c.stream && vr c.w != 0 && !(streamOps c.s c.ag.core c.g).isEmpty) = true := by
    simpa [Ctx.stream, hops] using hstream
  obtain ⟨t, ht, hretired, hfrom⟩ := retiredUnder_of_comes (fun hxy => steady_ackView_of_calm (steady_calm hxy)) h rfl
    (by simp only [hdrain]; exact if_neg hfree) (comes_fenceAcquired h)
  refine ⟨t, ht, hretired, fun hkind hscope x hx => ?_⟩
  rw [l1_of_retiredFrom hfrom] at hx
  exact owner_ne_of_mem_fenceAcquired hkind hscope hx

/-! ### STALE -/

/-- R259: an input of the task that the group runs has moved on or is cancelled. -/
theorem taskStale_iff {g : Group} : taskStale s g = true ↔
    ∃ l n k, s.launch? g.launch = some l ∧ l.task = some n ∧ s.task? n = some k ∧
      ∃ x ∈ k.inputs, x.2.2 < cutVersion (wordNum s x.2.1) ∨ cutState (wordNum s x.2.1) = cutCancelled := by
  unfold taskStale
  cases hlaunch : s.launch? g.launch with
  | none => simp
  | some l =>
    cases htask : l.task with
    | none => simp [htask]
    | some n =>
      cases hrec : s.task? n with
      | none => simp [htask, hrec]
      | some k => simp [htask, hrec, List.any_eq_true]

theorem act_issuing {i : Instr} (h : issuing i s = some c) : ∀ l ∈ c.act, l < 32 := by
  obtain ⟨ag, g, sp, f, w, -, -, -, -, -, rfl, -⟩ := issuing_some h
  intro l hl
  exact List.mem_range.mp (List.mem_filter.mp hl).1

theorem stale_retired (h : issuing (.stale w) s = some c) : ∃ t, exec (.stale w) s = .next t ∧ RetiredUnder State.calm s t c noValue 0
    ∧ Issues s t c.ag (destValue { c with lanes := c.act } .b32 1 fun _ => (taskStale c.s c.g).toNat) := by
  have hfresh := cachesOnly_foldl (fun s pa => cachesOnly_l1Fresh s c.ag.core pa 8) (staleWords c.s c.g) c.s
  obtain ⟨t, ht, hretired, hfrom⟩ := retiredUnder_of_comes steady_calm h rfl rfl (comes_writeLong _ h hfresh)
  exact ⟨t, ht, hretired, issues_destCells (act_issuing h) (issuesCells_writeLong h hfresh hfrom)⟩

end

/-! ### The obligation -/

/-- Settles O25: each operation acts on the word that its operand reaches, changes caches alone, and leaves its split as the
effect's end says. -/
theorem cutReads : Obligations.CutReads := by
  unfold Obligations.CutReads
  refine ⟨⟨?_, ?_, ?_, ?_⟩, ?_⟩
  · intro i w s c l va pa v tn h hcommit hrel hreach hv hi
    have hword : cutWordAt c.s (.mem va tn pa) = v := (cutWordAt_mem_issuing h va pa tn).trans hv.symm
    rcases hi with rfl | rfl | rfl | ⟨rfl, hsat⟩
    · obtain ⟨t, ht, hretired, hl1⟩ := acq_retired h hcommit hreach
      exact ⟨t, ht, by simpa using hretired, by simp, fun _ => hl1⟩
    · obtain ⟨hregion, hharvest⟩ := hrel rfl
      obtain ⟨t, ht, hretired⟩ := rel_retired h hcommit hregion hharvest hreach
      exact ⟨t, ht, by simpa using hretired, by simp, by simp⟩
    · obtain ⟨t, ht, hretired, hissues, hl1⟩ := cutchk_retired h hcommit hreach
      exact ⟨t, ht, by simpa using hretired, fun _ => hword ▸ hissues, fun _ => hl1⟩
    · obtain ⟨t, ht, hretired, hl1⟩ := waitcut_retired h hcommit hreach (hword ▸ hsat)
      exact ⟨t, ht, by simpa [hword] using hretired, by simp, fun _ => hl1⟩
  · intro w s c l va pa tn h hcommit hreach hversion hopen
    have hword := cutWordAt_mem_issuing h va pa tn
    have hunsat : ¬Satisfied c (cutWordAt c.s (.mem va tn pa)) := by
      rw [hword]
      exact not_satisfied_iff.mpr ⟨hversion, hopen⟩
    obtain ⟨t, _, ht, hheld⟩ := waitcut_waits h hcommit hreach hunsat
    exact ⟨t, ht, hheld⟩
  · intro w s c l d va h hcommit hreach
    obtain ⟨t, ht, hwaits, hretires⟩ := waitcut_far h hcommit hreach
    exact ⟨t, ht, fun hversion hopen => hwaits (not_satisfied_iff.mpr ⟨hversion, hopen⟩), hretires⟩
  · exact fun w s c h hcommit hstream => fence_retired h hcommit hstream
  · intro w s c h
    obtain ⟨t, ht, hretired, hissues⟩ := stale_retired h
    have hrest := (Steady.issuing h).rest
    refine ⟨(taskStale c.s c.g).toNat, Bool.toNat_le _, ?_, t, ht, hretired, hissues⟩
    simp only [Bool.toNat_eq_one, taskStale_iff, launch?_of_rest hrest, task?_of_rest hrest]

end Sys2Proof.Proofs.CutReads
